-- ==== Sys2Proof/Word.lean ====
section
/-! DEFINITION. The bit-vector types of the Ridge 3200: byte, halfword, word, double word
(00_scope.md R10), and the 4-bit register field (30_encoding.md R140). -/

namespace Sys2Proof

/-- A byte, 8 bits. -/
abbrev Byte := BitVec 8

/-- A halfword, 16 bits. -/
abbrev Half := BitVec 16

/-- A word, 32 bits: the width of a register, an address and the program counter. -/
abbrev Word := BitVec 32

/-- A double word, 64 bits: the width of a register pair (10_state.md R21). -/
abbrev DWord := BitVec 64

/-- A 4-bit field of an instruction: a constant 0..15, or a register number. -/
abbrev Nib := BitVec 4

/-- A general register number; `x + 1` wraps from R15 to R0, as a register pair does
(10_state.md R21). -/
abbrev Reg := BitVec 4

/-- A special register number (10_state.md R26). -/
abbrev SReg := BitVec 4

end Sys2Proof
end

