-- ==== Sys2Proof/Machine/Bits.lean ====
section
/-! DEFINITION. Bit-field, sign-extension and byte-order helpers. The manual numbers bits from the
most significant end (00_scope.md R6); memory is big-endian (20_memory.md R80). -/

namespace Sys2Proof.Machine

/-- `v<i>`, bit `i` of `v` in the manual's numbering, bit 0 the most significant
(00_scope.md R6). -/
def mbit {n : Nat} (v : BitVec n) (i : Nat) : Bool := v.getLsbD (n - 1 - i)

/-- `v<a..b>`, the field from manual bit `a` down to manual bit `b` (00_scope.md R6). -/
def mfield {n : Nat} (v : BitVec n) (a b : Nat) : BitVec (b + 1 - a) :=
  v.extractLsb' (n - 1 - b) (b + 1 - a)

/-- `v` with manual bit `i` replaced by `b`. -/
def setMbit {n : Nat} (v : BitVec n) (i : Nat) (b : Bool) : BitVec n :=
  if b then v ||| BitVec.twoPow n (n - 1 - i) else v &&& ~~~(BitVec.twoPow n (n - 1 - i))

/-- A condition as a word, 1 or 0. -/
def boolWord (b : Bool) : Word := if b then 1#32 else 0#32

/-- `zext_32` of a 4-bit field (30_encoding.md R140). -/
def nibWord (n : Nib) : Word := n.setWidth 32

/-- `zext_32` of a byte. -/
def byteWord (b : Byte) : Word := b.setWidth 32

/-- `zext_32` of a halfword. -/
def halfWord (h : Half) : Word := h.setWidth 32

/-- "Rx/Ry Fields", the second byte of the instruction, `x*16 + y` (92_eei_decisions.md D55). -/
def fieldsWord (x y : Nib) : Word := (x ++ y).setWidth 32

/-- The first (more significant) 4-bit field of an instruction's second byte. -/
def hiNib (b : Byte) : Nib := b.extractLsb' 4 4

/-- The second 4-bit field of an instruction's second byte. -/
def loNib (b : Byte) : Nib := b.extractLsb' 0 4

/-- A halfword from its bytes, most significant first (20_memory.md R80). -/
def halfOf (b0 b1 : Byte) : Half := b0 ++ b1

/-- A word from its bytes, most significant first (20_memory.md R80). -/
def wordOf (b0 b1 b2 b3 : Byte) : Word := b0 ++ b1 ++ b2 ++ b3

/-- The bytes of a halfword, most significant first (20_memory.md R80). -/
def halfBytes (h : Half) : List Byte := [h.extractLsb' 8 8, h.extractLsb' 0 8]

/-- The bytes of a word, most significant first (20_memory.md R80). -/
def wordBytes (w : Word) : List Byte :=
  [w.extractLsb' 24 8, w.extractLsb' 16 8, w.extractLsb' 8 8, w.extractLsb' 0 8]

/-- The number whose bytes these are, most significant first, as a double word
(20_memory.md R80). -/
def bytesValue (bs : List Byte) : DWord :=
  bs.foldl (fun v b => (v <<< 8) ||| b.setWidth 64) 0#64

/-- The more significant word of a double word. -/
def hiWord (d : DWord) : Word := d.extractLsb' 32 32

/-- The less significant word of a double word. -/
def loWord (d : DWord) : Word := d.extractLsb' 0 32

/-- The low byte of a word, `v<24..31>`. -/
def lowByte (w : Word) : Byte := w.extractLsb' 0 8

/-- The low halfword of a word, `v<16..31>`. -/
def lowHalf (w : Word) : Half := w.extractLsb' 0 16

end Sys2Proof.Machine
end

