-- ==== Sys2Proof/Machine/Params.lean ====
section
/-! DEFINITION. The named parameters of 92_eei_decisions.md whose alternatives the model knows, each
at the default the spec recommends (log entries 25 to 36), a parameter of the before trap (log entry
38), and the fixed sizes of the cache (00_scope.md R4). -/

namespace Sys2Proof.Machine

/-- `BR_MAP` (30_encoding.md R151). -/
inductive BrMap where
  | regular
  | asExtracted
deriving DecidableEq, Repr

/-- The columns of the byte instructions under `MEMOP_NIBBLE`: 0 and 1, or 2 and 3
(30_encoding.md R152). -/
inductive ByteColumns where
  | col01
  | col23
deriving DecidableEq, Repr

/-- The columns of the double-word instructions under `MEMOP_NIBBLE`: A and B, or C and D
(30_encoding.md R152). -/
inductive DoubleColumns where
  | colAB
  | colCD
deriving DecidableEq, Repr

/-- `MEMOP_NIBBLE`: the columns with alternatives; H is at 4, W at 8 and LADDR at E in each
(30_encoding.md R152). -/
structure MemopNibble where
  byte : ByteColumns
  double : DoubleColumns
deriving DecidableEq, Repr

/-- Whether a Zero operand of the arithmetic takes the before trap: it does by the numbered rules
(42_real.md R254, R264, R290), not by the words of decision D26 (92_eei_decisions.md). -/
inductive BeforeZero where
  | special
  | ordinary
deriving DecidableEq, Repr

/-- `ESUB_FORM` (41_integer_logical.md R231). -/
inductive EsubForm where
  | rxMinusRy
  | literal
deriving DecidableEq, Repr

/-- `DIV_ROUNDING` (41_integer_logical.md R206). -/
inductive DivRounding where
  | floor
  | truncate
deriving DecidableEq, Repr

/-- `ASL_OVF` (43_bit_compare_shift.md R321). -/
inductive AslOverflow where
  | arithmetic
  | shiftedOut
deriving DecidableEq, Repr

/-- `ZERO_SUM_SIGN` (42_real.md R255). -/
inductive ZeroSumSign where
  | bothNegative
  | alwaysPositive
deriving DecidableEq, Repr

/-- `FIX_ROUND` (42_real.md R272). -/
inductive FixRound where
  | nearestEven
  | nearestAway
  | byMode
deriving DecidableEq, Repr

/-- `TIMER_PENDING` (60_exceptions.md R471). -/
inductive TimerPending where
  | level
  | tick
deriving DecidableEq, Repr

/-- `BR_MAP`, default `regular`. -/
def brMap : BrMap := .regular

/-- `MEMOP_NIBBLE`, default B = 0, D = A. -/
def memopNibble : MemopNibble := { byte := .col01, double := .colAB }

/-- The reading of the before trap for a Zero operand of the arithmetic: that of the numbered rules
(log entry 38). -/
def beforeZero : BeforeZero := .special

/-- `TIMER_PENDING`, default `level`. -/
def timerPending : TimerPending := .level

/-- `ESUB_FORM`, default `rx_minus_ry`. -/
def esubForm : EsubForm := .rxMinusRy

/-- `DIV_ROUNDING`, default `floor`. -/
def divRounding : DivRounding := .floor

/-- `EDIV_OVF_BITS`, default 32 (41_integer_logical.md R233). -/
def edivOverflowBits : Nat := 32

/-- `ASL_OVF`, default `arithmetic`. -/
def aslOverflowRule : AslOverflow := .arithmetic

/-- `ZERO_SUM_SIGN`, default: negative only when both effective operands are. -/
def zeroSumSign : ZeroSumSign := .bothNegative

/-- `FIX_ROUND`, default `nearest_even`. -/
def fixRound : FixRound := .nearestEven

/-- `ROUND_BITS`: the first manual bit of the two-bit Round field of the traps word, default 22
(10_state.md R43). -/
def roundField : Nat := 22

/-- `IOSTAT_N_BIT`: the manual bit of the I/O status word that means not ready, default 31
(45_kernel.md R402). -/
def ioNotReadyBit : Nat := 31

/-- `PCB_LAYOUT`: the offset of general register `i` in the PCB (10_state.md R45). -/
def pcbReg (i : Reg) : Word := (i ++ 0#2).setWidth 32

/-- `PCB_LAYOUT`: the offset of the program counter (10_state.md R45). -/
def pcbPc : Word := 0x40

/-- `PCB_LAYOUT`: the offset of the Code/Data Segment word (10_state.md R45). -/
def pcbSegments : Word := 0x44

/-- `PCB_LAYOUT`: the offset of the traps word (10_state.md R45). -/
def pcbTraps : Word := 0x48

/-- The offset of the process clock, "SR14 + 50 (Hex)" (10_state.md R45). -/
def pcbClock : Word := 0x50

/-- The sets of the cache (00_scope.md R4, 10_state.md R49). -/
def cacheSets : Nat := 2

/-- The lines of each set of the cache (00_scope.md R4, 10_state.md R49). -/
def cacheLines : Nat := 512

/-- The first lines of each set, 0 to 255, hold code; the others, 256 to 511, hold data
(10_state.md R49). -/
def codeLines : Nat := 256

/-- The bytes of a line: a quadword, four words (10_state.md R49). -/
def lineBytes : Nat := 16

/-- The bytes of the cache, 16k (00_scope.md R4). -/
def cacheBytes : Nat := cacheSets * cacheLines * lineBytes

/-- The bytes of the boot page, one page (70_reset_and_hazards.md R500). -/
def bootPageBytes : Nat := 4096

/-- The CCB offsets of the event vectors and of the data area (60_exceptions.md R432). -/
def ccbDataAlignment : Word := 0x400
def ccbIllegalInstruction : Word := 0x404
def ccbParityFetch : Word := 0x408
def ccbParityExecute : Word := 0x40C
def ccbPageFault : Word := 0x410
def ccbKernelViolation : Word := 0x414
def ccbCheckTrap : Word := 0x418
def ccbArithmetic : Word := 0x41C
def ccbExternal : Word := 0x420
def ccbSwitch0 : Word := 0x424
def ccbPowerFail : Word := 0x428
def ccbTimer1 : Word := 0x430
def ccbTimer2 : Word := 0x434
def ccbIdleCount : Word := 0x43C
def ccbTimer1Count : Word := 0x440
def ccbTimer2Count : Word := 0x444
def ccbTimeOfDay : Word := 0x448

end Sys2Proof.Machine
end

