-- ==== Sys2Proof/Machine/Flags.lean ====
section
/-! DEFINITION. The flag-like results of the machine: integer overflow (41_integer_logical.md R201)
and the carry and overflow word of R0 (10_state.md R22). There is no flag register
(10_state.md R24). -/

namespace Sys2Proof.Machine

/-- "Result > 31 bits": a true result that is no 32-bit two's complement integer
(41_integer_logical.md R201). -/
def overflows (v : Int) : Bool := v < -(2 ^ 31) || v > 2 ^ 31 - 1

/-- `wrap(n)`, `n mod 2^32` as a word (41_integer_logical.md). -/
def wrap (v : Int) : Word := BitVec.ofInt 32 v

/-- The word EADD and ESUB put in R0: bit 31 the carry, bit 30 the overflow, zeros above
(10_state.md R22). -/
def flagWord (ov cy : Bool) : Word := (BitVec.ofBool ov ++ BitVec.ofBool cy).setWidth 32

/-- The carry-in of EADD and ESUB, `x[0]<31>` (41_integer_logical.md R230). -/
def carryIn (r0 : Word) : Nat := if mbit r0 31 then 1 else 0

/-- The unsigned and the signed sum of EADD (41_integer_logical.md R230). -/
def eaddSums (a b r0 : Word) : Nat × Int :=
  (a.toNat + b.toNat + carryIn r0, a.toInt + b.toInt + (carryIn r0 : Int))

/-- The unsigned and the signed sum of ESUB (41_integer_logical.md R231). -/
def esubSums (a b r0 : Word) : Nat × Int :=
  match esubForm with
  | .rxMinusRy => (a.toNat + (~~~b).toNat + carryIn r0, a.toInt - b.toInt - 1 + (carryIn r0 : Int))
  | .literal => ((~~~a).toNat + b.toNat + carryIn r0, b.toInt - a.toInt - 1 + (carryIn r0 : Int))

/-- The flag word of an unsigned and a signed sum (41_integer_logical.md R230). -/
def sumFlags (u : Nat × Int) : Word := flagWord (overflows u.2) (decide (2 ^ 32 ≤ u.1))

/-- The overflow condition of ASL by `n` (43_bit_compare_shift.md R321). -/
def aslOverflows (v : Word) (n : Nat) : Bool :=
  match aslOverflowRule with
  | .arithmetic => overflows (v.toInt * 2 ^ n)
  | .shiftedOut => (List.range n).any fun i => mbit v i != mbit v 0

end Sys2Proof.Machine
end

