-- ==== Sys2Proof/Config.lean ====
section
/-! DEFINITION. What an installation fixes (00_scope.md R5) and the free values: values the spec
leaves open while the machine goes on. Every one is an uninterpreted constant, so that a statement
about the machine holds whatever its value is. A free value takes a counter (`State.draws`) that
advances whenever one is used, so that two uses need not agree. -/

namespace Sys2Proof.Config

/-- The installation's memory size before it is brought into the range R5 gives (log entry 4). -/
opaque memPages : Nat

/-- `MEM_SIZE`, bytes of real memory: any multiple of 4096 from 4 to 128 megabytes
(00_scope.md R5, 93_implementation_defined.md section 1). -/
def memSize : Nat := 4096 * (1024 + memPages % 31745)

/-- The bits of the machine identification word that the installation chooses. -/
opaque machineIdFree : Word

/-- `MACHINE_ID`: manual bits 28 and 30 are 1 on a 3200 (45_kernel.md R393). -/
def machineId : Word := machineIdFree ||| 0x0000000A#32

/-- `UCODE_VERSION`, the word VERSION returns (45_kernel.md R394). -/
opaque microcodeVersion : Word

/-- `DMA_COHERENT`: whether a DMA write reaches the cached copy of a word (20_memory.md R111). -/
opaque dmaCoherent : Bool

/-- Free value: which copy a read of a word with older cached copies returns: copy `n` of the
older ones, or main memory's when there is no copy `n` (20_memory.md R111).
Arguments: the draw and the word's number in real memory, its address divided by 4. -/
opaque staleCopy : Nat → Nat → Nat

/-- Free value: which line of a half of the cache a quadword goes to, modulo the number of lines; the
spec gives no index function (10_state.md R49). Argument: the quadword's number, its address divided
by 16. -/
opaque cacheIndex : Nat → Nat

/-- Free value: which set gives up its quadword when another one is loaded into a line; the spec gives
no replacement policy (10_state.md R49). Arguments: the draw and the number of the word that is read or
written. -/
opaque cacheVictim : Nat → Nat → Nat

/-- Free value: which of several deliverable interrupts is taken (60_exceptions.md R438). -/
opaque interruptPick : Nat → Nat

/-- Free value: whether the flag word, and not the sum, is what R0 holds after EADD or ESUB with
Rx = R0 (41_integer_logical.md R230, R231). -/
opaque flagWordSurvives : Nat → Bool

/-- Free value: SR2 after a data alignment trap, or an illegal memory-format instruction, taken in
kernel mode (60_exceptions.md R440, R442). -/
opaque kernelSegment : Nat → Word

/-- Free value: the data word of a READ whose status is not zero (45_kernel.md R400). -/
opaque ioData : Nat → Word

/-- Free value: RDLOG of a logout location that is not valid (45_kernel.md R397). -/
opaque logoutData : Nat → Word

/-- Free value: what a read that had a double-bit parity error gives (60_exceptions.md R455).
Arguments: the draw, and 0 for the more or 1 for the less significant word that a load leaves in
its destination, 2 for a word the microcode reads. -/
opaque parityData : Nat → Nat → Word

/-- Free value: a word that a board receives from a DMA read in which a double-bit error was
detected (60_exceptions.md R484). Arguments: the draw and the word's place in the transfer. -/
opaque dmaData : Nat → Nat → Word

/-- Free value: a register the reset button leaves unspecified (70_reset_and_hazards.md R501).
Arguments: the draw, and the register (0..15 general, 16..31 special). -/
opaque resetWord : Nat → Nat → Word

/-- Free value: the two interrupt masks after the reset button (70_reset_and_hazards.md R501). -/
opaque resetMask : Nat → Nat → Bool

end Sys2Proof.Config
end

