-- ==== Sys2Proof/Machine/State.lean ====
section
/-! DEFINITION. The state of the machine, everything the spec gives it, as plain data; the reasons a
step can stop; the state after reset (10_state.md R20 to R60). -/

namespace Sys2Proof.Machine

/-- The two processor modes (60_exceptions.md R420). -/
inductive Mode where
  | kernel
  | user
deriving DecidableEq, Repr

/-- The two address spaces of a process, and the two halves of the TMT and the cache
(20_memory.md R70, R71, R83). -/
inductive Space where
  | code
  | data
deriving DecidableEq, Repr

/-- Why memory is accessed (20_memory.md R93). -/
inductive Access where
  | read
  | write
  | fetch
deriving DecidableEq, Repr

/-- Real memory: the bytes that differ from what an unlisted address reads as, by address, in the
canonical form `Memory.wf`. -/
abbrev Memory := List Host.Cell

/-- One half of the Translation Mapping Table: the valid entries by index, 0..511, in rising order;
an index not listed is invalid (20_memory.md R92). -/
abbrev TmtHalf := List (Nat × Word)

/-- One of the two request lines, or of the two daisy chains of a bus signal (60_exceptions.md R451,
R487). -/
inductive Line where
  | one
  | two
deriving DecidableEq, Repr

/-- How a board answers one I/O read or write (60_exceptions.md R481, R482). -/
inductive Reply where
  /-- no acknowledge within 15 bus clocks -/
  | silent
  /-- the board asserts IODNVM: it refuses the transfer -/
  | notReady
  /-- the transfer succeeds; `d` is the data of a read, and is not used by a write -/
  | accept (d : Word)
deriving DecidableEq, Repr

/-- An I/O board, as far as the processor can see it (60_exceptions.md R480). Its position on its
interrupt chain is its place among the boards of its line in the list of the boards. -/
structure Board where
  /-- the device number switch -/
  device : Byte
  /-- the interrupt request line and chain it sits on -/
  line : Line
  /-- the DMA chain it sits on -/
  dmaChain : Line
  /-- its position on the DMA chain, 0 the highest priority -/
  dmaPosition : Fin 8
  /-- the request it holds, with bits 8..31 of the IOIR word it will present -/
  request : Option (BitVec 24)
  /-- how it answers the next I/O reads and writes, in order -/
  replies : List Reply
deriving DecidableEq, Repr

/-- The registers of the clock board that CREG exchanges (10_state.md R55). -/
structure ClockBoard where
  /-- output register: request -/
  request : Bool
  /-- output register: data-out -/
  dataOut : Bool
  /-- input register: acknowledge -/
  ack : Bool
  /-- input register: data-in -/
  dataIn : Bool
deriving DecidableEq, Repr

/-- What the processor has put on the I/O bus: the model's record, so that a statement can say what
a device was sent. -/
inductive BusRecord where
  /-- an I/O read: the address word and the status returned -/
  | ioRead (a st : Word)
  /-- an I/O write: the address word, the data word and the status returned -/
  | ioWrite (a d st : Word)
  /-- a DMA read: the real word address, the words sent to the board, and MDNVIO: a double-bit
  error was detected (60_exceptions.md R484); the words are then free values (log entry 12) -/
  | dmaRead (a : Word) (ws : List Word) (mdnvio : Bool)
deriving DecidableEq, Repr

/-- A DMA operation of an I/O board, with the address word it sends (60_exceptions.md R484,
R485). -/
inductive Dma where
  /-- a write of one word -/
  | writeWord (a w : Word)
  /-- a write of four words -/
  | writeBurst (a w0 w1 w2 w3 : Word)
  /-- a read of one word -/
  | readWord (a : Word)
  /-- a read of four words -/
  | readBurst (a : Word)
deriving DecidableEq, Repr

/-- A DMA request of the board with a device number (60_exceptions.md R484, R486). -/
structure DmaRequest where
  device : Byte
  dma : Dma
deriving DecidableEq, Repr

/-- DMA requests that are active at once: the daisy chains decide their order
(60_exceptions.md R486, R487). -/
abbrev DmaRound := List DmaRequest

/-- A quadword that a half of the cache may hold (10_state.md R49). -/
structure CacheLine where
  /-- the quadword's number in real memory: lines are tagged by physical address -/
  tag : Nat
  /-- the 16 bytes -/
  bytes : List Byte
  /-- a load or a store has found or loaded it, and no DMA has written to its line since: one of the
  sets holds it -/
  resident : Bool
deriving DecidableEq, Repr

/-- A double-bit parity error that has been detected: on a fetch or not, and the address SR3 will
receive (60_exceptions.md R455). -/
structure ParityError where
  fetch : Bool
  addr : Word
deriving DecidableEq, Repr

/-- What an agent other than the processor does at an instruction boundary (00_scope.md R2). -/
inductive Arrival where
  /-- the millisecond tick (60_exceptions.md R470) -/
  | tick
  /-- a board raises its interrupt request (60_exceptions.md R483) -/
  | interruptRequest (device : Byte) (info : BitVec 24)
  /-- a board decides how it will answer a coming I/O read or write (60_exceptions.md R481) -/
  | ioReply (device : Byte) (r : Reply)
  /-- switch 0 is pressed and released (60_exceptions.md R453) -/
  | switch0
  /-- the clock board sets or drops the power fail warning flag (60_exceptions.md R454) -/
  | powerFail (on : Bool)
  /-- "loaf enable" changes (10_state.md R53) -/
  | loaf (on : Bool)
  /-- the clock board sets its input register (45_kernel.md R396) -/
  | clockInput (ack dataIn : Bool)
  /-- the error logging area holds these entries (10_state.md R54) -/
  | errorLog (entries : List Word)
  /-- the next read of this real word shows a double-bit error (60_exceptions.md R455) -/
  | memoryFailure (word : Nat)
  /-- DMA of the boards (60_exceptions.md R484 to R487) -/
  | dma (r : DmaRound)
  /-- the power fails completely (60_exceptions.md R454, 70_reset_and_hazards.md R503) -/
  | powerLost
  /-- the reset button, with the page the boot medium supplies (60_exceptions.md R457) -/
  | resetButton (bootPage : List Byte)
deriving DecidableEq, Repr

/-- The state of the machine. -/
structure State where
  /-- R0 .. R15 (10_state.md R20) -/
  regs : Vector Word 16
  /-- the program counter (10_state.md R23) -/
  pc : Word
  /-- kernel or user mode (10_state.md R24) -/
  mode : Mode
  /-- SR0 .. SR15 (10_state.md R26) -/
  srs : Vector Word 16
  /-- the effective traps word `TW` (10_state.md R44) -/
  tw : Word
  /-- the processor pauses until an interrupt (10_state.md R57) -/
  paused : Bool
  /-- external interrupt mask 1 (10_state.md R51) -/
  mask1 : Bool
  /-- external interrupt mask 2 (10_state.md R51) -/
  mask2 : Bool
  /-- the code half of the TMT (10_state.md R48) -/
  tmtCode : TmtHalf
  /-- the data half of the TMT (10_state.md R48) -/
  tmtData : TmtHalf
  /-- quadwords older than main memory's, newest first, that the code half of the cache or the
  prefetch buffers may still hold (10_state.md R49, R50; 20_memory.md R111, R112; log entry 8) -/
  staleCode : List CacheLine
  /-- quadwords that the data half of the cache may still hold, newest first: those that may differ
  from main memory's, and those that loads and stores have put into the lines of these
  (10_state.md R49; 20_memory.md R111; log entries 8 and 9) -/
  staleData : List CacheLine
  /-- real memory (20_memory.md R72) -/
  mem : Memory
  /-- status bit 23, the power fail warning flag (10_state.md R53) -/
  powerFail : Bool
  /-- status bit 31, "loaf enable" (10_state.md R53) -/
  loaf : Bool
  /-- a power fail warning interrupt is pending (10_state.md R52) -/
  powerFailPending : Bool
  /-- a switch 0 interrupt is pending (10_state.md R52) -/
  switch0Pending : Bool
  /-- double-bit parity errors whose interrupt is pending, oldest first (10_state.md R52) -/
  parityPending : List ParityError
  /-- a timer 1 interrupt is due, under `TIMER_PENDING = tick` (60_exceptions.md R471) -/
  timer1Due : Bool
  /-- the latch of timer 2, under `TIMER_PENDING = tick` (60_exceptions.md R471) -/
  timer2Due : Bool
  /-- the valid entries of the error logging area (10_state.md R54); a DESIGN CHOICE of the model,
  log entry 24: the valid ones of the 16 locations are the first ones -/
  errorLog : List Word
  /-- the clock board's registers (10_state.md R55) -/
  clock : ClockBoard
  /-- the I/O boards, on each line the highest priority first (60_exceptions.md R480, R486) -/
  boards : List Board
  /-- real words whose next read shows a double-bit error (60_exceptions.md R455) -/
  badWords : List Nat
  /-- the model's own: what was put on the I/O bus, newest first -/
  bus : List BusRecord
  /-- the model's own: the counter that free values are taken at -/
  draws : Nat
  /-- the model's own: what the other agents do at the coming instruction boundaries, the next
  boundary first (60_exceptions.md R448) -/
  arrivals : List (List Arrival)
  /-- the model's own: the boards' DMA that falls before the coming memory accesses of the
  processor, the next access first (20_memory.md R87, R105) -/
  dmaTurns : List (List DmaRound)
deriving DecidableEq, Repr

/-- Why the machine is stuck. -/
inductive Fault where
  /-- Raised by every event entry and by KCALL while SR11 is odd: no CCB is present and there is no
  vector (60_exceptions.md R437). Safe: the spec asks a model to stop here. -/
  | noCcb
  /-- Raised by a VRT search whose link chain never ends (20_memory.md R97). Safe: the spec calls
  the processor stuck. -/
  | vrtChainEndless
  /-- Raised at the boundary at which the power fails completely: the run ends
  (70_reset_and_hazards.md R503). Safe: the spec asks a model to end here. -/
  | powerLost
deriving DecidableEq, Repr

/-- Why the model gives a step no meaning. -/
inductive Refusal where
  /-- Raised by an arm of `exec` whose instruction has no meaning yet. Safe. -/
  | notModelled (mnemonic : String)
  /-- Raised by a transfer of control to an odd address, and by a fetch at one (10_state.md R23,
  92_eei_decisions.md D5). Safe: the spec leaves it unspecified and asks a model to refuse. -/
  | oddPc
  /-- Raised by an access to a real address at or above `MEM_SIZE`, and by SUS, LUS and LDREGS when
  SR14 is one (20_memory.md R72, 92_eei_decisions.md D41, D47). Safe: the spec asks a model to refuse. -/
  | absentRealAddress
  /-- Raised by SUS, LUS, LDREGS and the tick when SR14 is neither 1 nor a multiple of 4
  (93_implementation_defined.md section 2). Safe: the spec asks a model to refuse. -/
  | pcbMisaligned
  /-- Raised by a use of the CCB when SR11 is even and not a multiple of 4
  (93_implementation_defined.md section 2). Safe: the spec asks a model to refuse. -/
  | ccbMisaligned
  /-- Raised by a VRT search when SR12, a hash-table word or a Link Word is not a multiple of 4
  (93_implementation_defined.md section 2). Safe: the spec asks a model to refuse. -/
  | vrtMisaligned
  /-- Raised by a VRT search that reaches a matching entry whose V bit is 0 or whose U bit is 1
  (20_memory.md R97, 93_implementation_defined.md section 2). Safe: the spec asks a model to
  refuse. -/
  | vrtEntryIllFormed
  /-- Raised by a four-word DMA whose address is not a multiple of 16 (60_exceptions.md R484,
  93_implementation_defined.md section 2). Safe: the spec asks a model to refuse. -/
  | dmaBurstMisaligned
deriving DecidableEq, Repr

/-- An event to be entered: what the entry saves (60_exceptions.md R430). -/
structure Event where
  /-- the vector's offset in the CCB -/
  off : Word
  /-- the program counter to save -/
  saved : Word
  /-- what SR0 receives instead of 1 or the saved program counter: the IOIR word -/
  sr0 : Option Word
  /-- SR1, where the event's rule gives a value -/
  sr1 : Option Word
  /-- SR2, where the event's rule gives a value -/
  sr2 : Option Word
  /-- SR3, where the event's rule gives a value -/
  sr3 : Option Word
deriving DecidableEq, Repr

/-- The result of a part of an instruction: a value and the state it leaves, an event to be entered
from a state, or a stop. -/
inductive Res (α : Type) where
  | ok (v : α) (s : State)
  | trap (e : Event) (s : State)
  | fault (f : Fault)
  | refused (r : Refusal)
deriving Repr

/-- The outcome of an instruction. -/
abbrev Out := Host.Outcome State Fault Refusal

/-- The state right after reset (10_state.md R60, 70_reset_and_hazards.md R500). Stated by the
spec: the program counter, the mode, SR2, SR11, SR14, `TW`, the TMT, the cache and `paused`.
DESIGN CHOICE, unsafe: zero, false and empty for everything it leaves unspecified (log entries 2,
3, 5 and 6). `State.powerOn` is the same with a boot page and I/O boards. -/
def State.reset : State where
  regs := #v[0, 0, 0, 0, 0, 0, 0, 0, 0, 0, 0, 0, 0, 0, 0, 0]
  pc := 0x0003E000
  mode := .kernel
  srs := #v[0, 0, BitVec.ofNat 32 Config.memSize, 0, 0, 0, 0, 0, 0, 0, 0, 1, 0, 0, 1, 0]
  tw := 0
  paused := false
  mask1 := false
  mask2 := false
  tmtCode := []
  tmtData := []
  staleCode := []
  staleData := []
  mem := []
  powerFail := false
  loaf := false
  powerFailPending := false
  switch0Pending := false
  parityPending := []
  timer1Due := false
  timer2Due := false
  errorLog := []
  clock := { request := false, dataOut := false, ack := false, dataIn := false }
  boards := []
  badWords := []
  bus := []
  draws := 0
  arrivals := []
  dmaTurns := []

end Sys2Proof.Machine
end

