-- ==== Sys2Proof/Machine/Ops.lean ====
section
/-! DEFINITION. The named operations over registers and memory; taking an event as one operation
(60_exceptions.md R430) and the returns from one (R434). -/

namespace Sys2Proof.Machine

/-! ### Results -/

/-- Go on with a value and its state; an event or a stop ends the instruction. -/
def Res.bind {α β : Type} (r : Res α) (f : α → State → Res β) : Res β :=
  match r with
  | .ok v s => f v s
  | .trap e s => .trap e s
  | .fault x => .fault x
  | .refused x => .refused x

/-! ### Registers -/

/-- `x[i]`, general register `i` (00_scope.md R7). -/
def State.reg (s : State) (i : Reg) : Word := s.regs[i.toNat]'i.isLt

/-- `x[i] <- w`. -/
def State.setReg (s : State) (i : Reg) (w : Word) : State :=
  { s with regs := s.regs.set i.toNat w i.isLt }

/-- `RP(i)`, the register pair: Ri the more significant word (10_state.md R21). -/
def State.pair (s : State) (i : Reg) : DWord := s.reg i ++ s.reg (i + 1)

/-- `RP(i) <- d` (10_state.md R21). -/
def State.setPair (s : State) (i : Reg) (d : DWord) : State :=
  (s.setReg i (hiWord d)).setReg (i + 1) (loWord d)

/-- `SR[i]`, special register `i` (10_state.md R26). -/
def State.sr (s : State) (i : SReg) : Word := s.srs[i.toNat]'i.isLt

/-- `SR[i] <- w`. -/
def State.setSr (s : State) (i : SReg) (w : Word) : State :=
  { s with srs := s.srs.set i.toNat w i.isLt }

/-- Write a special register where the event's rule gives a value. -/
def State.setSrOpt (s : State) (i : SReg) (w : Option Word) : State :=
  match w with
  | some v => s.setSr i v
  | none => s

/-- Replace the program counter. -/
def State.setPc (s : State) (a : Word) : State := { s with pc := a }

/-- The end of an instruction that does not transfer control: `pc <- pc + len`
(10_state.md R23). -/
def State.advance (s : State) (len : Word) : State := s.setPc (s.pc + len)

/-- A free value has been used: the next use is a new draw. -/
def State.drawn (s : State) : State := { s with draws := s.draws + 1 }

/-- The segment number that a space's segment register holds, `SR[8]<16..31>` or `SR[9]<16..31>`
(10_state.md R33). -/
def State.segment (s : State) (sp : Space) : Half :=
  match sp with
  | .code => lowHalf (s.sr 8)
  | .data => lowHalf (s.sr 9)

/-! ### Alignment -/

/-- Whether an address is a multiple of `n`. -/
def aligned (a : Word) (n : Nat) : Bool := a.toNat % n == 0

/-- Whether an address is odd. -/
def oddAddress (a : Word) : Bool := a.toNat % 2 == 1

/-! ### Real memory -/

/-- What a real address that memory does not list reads as. DESIGN CHOICE, unsafe: zero (log
entry 2). -/
def blankByte : Byte := 0

/-- The byte at a real address. -/
def Memory.read : Memory → Nat → Byte
  | [], _ => blankByte
  | (k, v) :: m, a => if k = a then v else Memory.read m a

/-- Store a byte, keeping the canonical form. -/
def Memory.write : Memory → Nat → Byte → Memory
  | [], a, b => if b = blankByte then [] else [(a, b)]
  | (k, v) :: m, a, b =>
    if a < k then (if b = blankByte then (k, v) :: m else (a, b) :: (k, v) :: m)
    else if a = k then (if b = blankByte then m else (a, b) :: m)
    else (k, v) :: Memory.write m a b

/-- Store bytes at consecutive real addresses. -/
def Memory.writeBytes : Memory → Nat → List Byte → Memory
  | m, _, [] => m
  | m, a, b :: bs => Memory.writeBytes (m.write a b) (a + 1) bs

/-- The canonical form: addresses strictly rising, and nothing listed that reads as an unlisted
address does. -/
abbrev Memory.wf (m : Memory) : Prop :=
  m.Pairwise (fun p q => p.1 < q.1) ∧ ∀ p ∈ m, p.2 ≠ blankByte

/-- Whether real addresses `a .. a+n-1` exist. Every installation has 4 megabytes
(20_memory.md R72). -/
def realExists (a n : Nat) : Bool := decide (a + n ≤ 0x400000) || decide (a + n ≤ Config.memSize)

/-- The number, 0..511, of the line of a half of the cache that the quadword of a real address goes
to. DESIGN CHOICE, log entry 8: the spec does not say which address bits select the line within the
half, so this is a free value (10_state.md R49). -/
def cacheLine (sp : Space) (a : Nat) : Nat :=
  match sp with
  | .code => Config.cacheIndex (a / lineBytes) % codeLines
  | .data => codeLines + Config.cacheIndex (a / lineBytes) % (cacheLines - codeLines)

/-- The tag of the quadword of a real address: its number (10_state.md R49). -/
def cacheTag (a : Nat) : Nat := a / lineBytes

/-- Whether a line holds the quadword of a real address. -/
def CacheLine.holds (l : CacheLine) (a : Nat) : Bool := l.tag == cacheTag a

/-- The byte a line holds for a real address of its quadword. -/
def CacheLine.byte (l : CacheLine) (a : Nat) : Byte := l.bytes.getD (a % lineBytes) blankByte

/-- The real address of the quadword that a line holds. -/
def CacheLine.address (l : CacheLine) : Nat := l.tag * lineBytes

/-- The number of the line of the data half that a quadword goes to. -/
def CacheLine.dataLine (l : CacheLine) : Nat := cacheLine .data l.address

/-- The line that a read miss at a real address loads: the whole quadword (10_state.md R49). -/
def Memory.quadword (m : Memory) (a : Nat) : CacheLine :=
  { tag := cacheTag a
    bytes := (List.range lineBytes).map fun k => m.read (a / lineBytes * lineBytes + k)
    resident := false }

/-- The quadwords of `n` consecutive bytes. -/
def Memory.quadwords (m : Memory) (a n : Nat) : List CacheLine :=
  (List.range ((a + n + lineBytes - 1) / lineBytes - a / lineBytes)).map fun k =>
    m.quadword (a + k * lineBytes)

/-- A line after bytes have been written to a real address: those of its own quadword reach it, "data
is written to both the cache and main memory" (10_state.md R49). -/
def CacheLine.write (l : CacheLine) (a : Nat) (bs : List Byte) : CacheLine :=
  { l with bytes := (List.range lineBytes).map fun k =>
      if a ≤ l.address + k ∧ l.address + k < a + bs.length then
        bs.getD (l.address + k - a) blankByte
      else l.bytes.getD k blankByte }

/-- Bytes that the processor writes to real memory, by a store or by its microcode. The code half of the
cache may keep the older quadword; a copy in the data half is written too
(10_state.md R49, 20_memory.md R111). -/
def State.storeReal (s : State) (a : Nat) (bs : List Byte) : State :=
  { s with
    mem := s.mem.writeBytes a bs
    staleCode := s.mem.quadwords a bs.length ++ s.staleCode
    staleData := s.staleData.map fun l => l.write a bs }

/-- The quadwords that a space's half of the cache may hold beside main memory's. -/
def State.stale (s : State) (sp : Space) : List CacheLine :=
  match sp with
  | .code => s.staleCode
  | .data => s.staleData

/-- The copy of a quadword that an access through a half of the cache meets: any one of those that
may remain, or none, which is main memory's (20_memory.md R111). -/
def State.cachedCopy (s : State) (draw : Nat) (sp : Space) (a : Nat) : Option CacheLine :=
  match (s.stale sp).filter fun l => l.holds a with
  | [] => none
  | l :: ls => (l :: ls)[Config.staleCopy draw (a / 4)]?

/-- The byte that an access through a half of the cache gets. The bytes of one word come from one
copy (20_memory.md R111). -/
def State.cachedByte (s : State) (draw : Nat) (sp : Space) (a : Nat) : Byte :=
  match s.cachedCopy draw sp a with
  | some l => l.byte a
  | none => s.mem.read a

/-- The `n` bytes at a real address as an access through a half of the cache gets them. -/
def State.cachedBytes (s : State) (draw : Nat) (sp : Space) (a n : Nat) : List Byte :=
  (List.range n).map fun k => s.cachedByte draw sp (a + k)

/-- The quadwords that the sets hold in a line of the data half. -/
def residents (n : Nat) (ls : List CacheLine) : List CacheLine :=
  ls.filter fun l => l.dataLine == n && l.resident

/-- Replace what one of the sets holds in a line of the data half: a quadword that is known to be held,
or, when there is none of that number, one that may have been (10_state.md R49; log entry 8). -/
def evictLine (way n : Nat) (ls : List CacheLine) : List CacheLine :=
  match (residents n ls)[way]? with
  | some v => ls.filter fun l => l.tag != v.tag
  | none => ls

/-- When every set holds a quadword in a line of the data half, no other quadword is there
(10_state.md R49). -/
def fullLine (n : Nat) (ls : List CacheLine) : List CacheLine :=
  if (residents n ls).length < cacheSets then ls
  else ls.filter fun l => l.dataLine != n || l.resident

/-- A quadword is in its line of the data half, in place of every other copy of it and of what a set
held there. -/
def loadLine (way : Nat) (l : CacheLine) (ls : List CacheLine) : List CacheLine :=
  fullLine l.dataLine
    ({ l with resident := true } ::
      evictLine way l.dataLine (ls.filter fun k => k.tag != l.tag))

/-- The set whose quadword makes room for the one that an access to the data half meets. A miss replaces
that of any set: no replacement policy is stated, so which one is a free value. A copy that the access
found is in the last set not known to hold another quadword (10_state.md R49; log entry 8). -/
def State.wayFilled (s : State) (draw a : Nat) : Nat :=
  match s.cachedCopy draw .data a with
  | some _ => cacheSets - 1
  | none => Config.cacheVictim draw (a / 4) % cacheSets

/-- After an access to a half of the cache, its line holds the quadword that the access met: a data
read or a store decides between the copies that might have been there. A fill of the code half decides
nothing, since its reads may give the old or the new value until it is flushed (10_state.md R49,
20_memory.md R111; log entries 8 and 9). -/
def State.lineFilled (s : State) (draw : Nat) (sp : Space) (a : Nat) : State :=
  match sp with
  | .code => s
  | .data =>
    if s.staleData.any (fun l => l.dataLine == cacheLine .data a) then
      { s with
        staleData := loadLine (s.wayFilled draw a)
          ((s.cachedCopy draw .data a).getD (s.mem.quadword a)) s.staleData }
    else s

/-- Before an access through a half of the cache: its draw is used up if it may meet other copies. -/
def State.stamped (s : State) (sp : Space) : State :=
  if (s.stale sp).isEmpty && s.dmaTurns.isEmpty then s else s.drawn

/-- The word at a real address in main memory, `MemRead(a, 4)` (20_memory.md R80). -/
def Memory.readWord (m : Memory) (a : Nat) : Word :=
  wordOf (m.read a) (m.read (a + 1)) (m.read (a + 2)) (m.read (a + 3))

/-- Whether a read of `n` bytes meets a word that shows a double-bit error
(60_exceptions.md R455). -/
def readFails (a n : Nat) (s : State) : Bool :=
  s.badWords.any fun w => a / 4 ≤ w && w ≤ (a + n - 1) / 4

/-- The error has been detected: the words read show it no more. -/
def reported (a n : Nat) (s : State) : State :=
  { s with badWords := s.badWords.filter fun w => !(a / 4 ≤ w && w ≤ (a + n - 1) / 4) }

/-- The state after the processor has read `n` bytes: a double-bit error makes its interrupt pending
(60_exceptions.md R455). -/
def parityChecked (p : ParityError) (a n : Nat) (s : State) : State :=
  if readFails a n s then
    { reported a n s with parityPending := s.parityPending ++ [p] }
  else s

/-! ### DMA -/

/-- The real word address of a DMA address: bits 30 and 31 are no address bits
(60_exceptions.md R484). -/
def dmaAddress (a : Word) : Word := a &&& 0xFFFFFFFC#32

/-- The address check of a DMA of `n` words (60_exceptions.md R484). -/
def dmaCheck (a : Word) (n : Nat) : Option Refusal :=
  if n = 4 ∧ !aligned (dmaAddress a) 16 then some .dmaBurstMisaligned
  else if realExists (dmaAddress a).toNat (4 * n) then none
  else some .absentRealAddress

/-- Forget that quadwords are held in the lines of the data half to which `n` bytes at a real address
go. -/
def CacheLine.unsettled (l : CacheLine) (a n : Nat) : CacheLine :=
  { l with resident := l.resident &&
      !(List.range n).any fun k => cacheLine .data (a + k) == l.dataLine }

/-- DMA bytes into real memory: both halves of the cache may keep the older quadword; under
`DMA_COHERENT` a copy in the data half is written too (60_exceptions.md R485, 20_memory.md R111). -/
def dmaStore (s : State) (a : Nat) (bs : List Byte) : State :=
  { s with
    mem := s.mem.writeBytes a bs
    staleCode := s.mem.quadwords a bs.length ++ s.staleCode
    staleData := if Config.dmaCoherent then s.staleData.map fun l => l.write a bs
      else s.mem.quadwords a bs.length ++ s.staleData.map fun l => l.unsettled a bs.length }

/-- A DMA write of one or four words (60_exceptions.md R485). -/
def dmaWrite (a : Word) (ws : List Word) (s : State) : Res Unit :=
  match dmaCheck a ws.length with
  | some r => .refused r
  | none => .ok () (dmaStore s (dmaAddress a).toNat (ws.flatMap wordBytes))

/-- The words a board receives from a DMA read of `n` words: those of memory. DESIGN CHOICE: free
values when a double-bit error is detected, of which the spec says no more than that MDNVIO is
asserted (60_exceptions.md R484; log entry 12). -/
def dmaWords (a n : Nat) (s : State) : List Word :=
  (List.range n).map fun k =>
    if readFails a (4 * n) s then Config.dmaData s.draws k else s.mem.readWord (a + 4 * k)

/-- A DMA read of one or four words: the board receives them, and MDNVIO if one shows a double-bit
error (60_exceptions.md R484). -/
def dmaRead (a : Word) (n : Nat) (s : State) : Res Unit :=
  match dmaCheck a n with
  | some r => .refused r
  | none =>
    .ok () { reported (dmaAddress a).toNat (4 * n) s with
      bus := .dmaRead (dmaAddress a) (dmaWords (dmaAddress a).toNat n s)
        (readFails (dmaAddress a).toNat (4 * n) s) :: s.bus
      draws := if readFails (dmaAddress a).toNat (4 * n) s then s.draws + 1 else s.draws }

/-- One DMA operation (60_exceptions.md R484, R485). -/
def applyDma (d : Dma) (s : State) : Res Unit :=
  match d with
  | .writeWord a w => dmaWrite a [w] s
  | .writeBurst a w0 w1 w2 w3 => dmaWrite a [w0, w1, w2, w3] s
  | .readWord a => dmaRead a 1 s
  | .readBurst a => dmaRead a 4 s

/-- DMA operations, in order. -/
def applyDmas : List Dma → State → Res Unit
  | [], s => .ok () s
  | d :: ds, s => (applyDma d s).bind fun _ s => applyDmas ds s

/-- A board's place in the order of service of DMA, 0 the first: chain 2 before chain 1, then the
position on the chain; none if no board has the device number (60_exceptions.md R486, R487). -/
def dmaRank (bs : List Board) (device : Byte) : Option Nat :=
  (bs.find? fun b => b.device == device).map fun b =>
    match b.dmaChain with
    | .two => b.dmaPosition.val
    | .one => 8 + b.dmaPosition.val

/-- Put a request in its place of the order of service, before those of the same rank. -/
def dmaInsert (k : Nat) (d : Dma) : List (Nat × Dma) → List (Nat × Dma)
  | [] => [(k, d)]
  | (j, e) :: r => if j < k then (j, e) :: dmaInsert k d r else (k, d) :: (j, e) :: r

/-- The requests of a round in the order in which the daisy chains have them served; a request of no
installed board is none (60_exceptions.md R486, R487). -/
def dmaOrder (bs : List Board) : DmaRound → List (Nat × Dma)
  | [] => []
  | r :: rs =>
    match dmaRank bs r.device with
    | some k => dmaInsert k r.dma (dmaOrder bs rs)
    | none => dmaOrder bs rs

/-- Serve the requests of a round (60_exceptions.md R486). -/
def serveRound (r : DmaRound) (s : State) : Res Unit :=
  applyDmas ((dmaOrder s.boards r).map Prod.snd) s

/-- Serve rounds, one after the other. -/
def serveRounds : List DmaRound → State → Res Unit
  | [], s => .ok () s
  | r :: rs, s => (serveRound r s).bind fun _ s => serveRounds rs s

/-- The DMA that falls before the processor's next memory access: DMA interleaves with the
processor's accesses, a word at a time (20_memory.md R87, R105). -/
def dmaTurn (s : State) : Res Unit :=
  match s.dmaTurns with
  | [] => .ok () s
  | now :: later => serveRounds now { s with dmaTurns := later }

/-! ### Memory accesses, each a single one -/

/-- A word read by the microcode at a real address (20_memory.md R86). A double-bit error gives a
free value; DESIGN CHOICE: it is an execute error, and SR3 will receive the word's real address
(60_exceptions.md R455; log entry 12). -/
def microRead (a : Word) (s : State) : Res Word :=
  (dmaTurn s).bind fun _ s =>
    if !realExists a.toNat 4 then .refused .absentRealAddress
    else if readFails a.toNat 4 s then
      .ok (Config.parityData s.draws 2)
        (parityChecked { fetch := false, addr := a } a.toNat 4 s).drawn
    else .ok (s.mem.readWord a.toNat) s

/-- A word written by the microcode at a real address (20_memory.md R86). -/
def microWrite (a w : Word) (s : State) : Res Unit :=
  (dmaTurn s).bind fun _ s =>
    if realExists a.toNat 4 then .ok () (s.storeReal a.toNat (wordBytes w))
    else .refused .absentRealAddress

/-- One read of up to a word, at a real address that exists, through a half of the cache, whose line
it fills: the bytes, and whether the read had a double-bit error; `p` is the error's report
(20_memory.md R87, 60_exceptions.md R455). -/
def busRead (draw : Nat) (sp : Space) (p : ParityError) (a n : Nat) (s : State) :
    Res (List Byte × Bool) :=
  (dmaTurn s).bind fun _ s =>
    .ok (s.cachedBytes draw sp a n, readFails a n s)
      (parityChecked p a n (s.lineFilled draw sp a))

/-- One write of up to a word, at a real address that exists: the line of the data half is filled, and
the bytes go to it and to main memory (20_memory.md R87, 10_state.md R49). -/
def busWrite (draw a : Nat) (bs : List Byte) (s : State) : Res Unit :=
  (dmaTurn s).bind fun _ s => .ok () ((s.lineFilled draw .data a).storeReal a bs)

/-- A read of `n` bytes at a real address for the address `ea`: a double word is two word reads, the
one at the lower address first (20_memory.md R87). SR3 will receive the address of the word that had
a double-bit error (60_exceptions.md R455). -/
def memoryRead (sp : Space) (ea : Word) (a n : Nat) (s : State) : Res (List Byte × Bool) :=
  if n ≤ 4 then busRead s.draws sp { fetch := false, addr := ea } a n (s.stamped sp)
  else
    (busRead s.draws sp { fetch := false, addr := ea } a 4 (s.stamped sp)).bind fun u t =>
      (busRead s.draws sp { fetch := false, addr := ea + 4 } (a + 4) (n - 4) t).bind fun v t =>
        .ok (u.1 ++ v.1, u.2 || v.2) t

/-- A write of bytes: a double word is two word writes, the one at the lower address first
(20_memory.md R87). -/
def memoryWrite (a : Nat) (bs : List Byte) (s : State) : Res Unit :=
  if bs.length ≤ 4 then busWrite s.draws a bs (s.stamped .data)
  else
    (busWrite s.draws a (bs.take 4) (s.stamped .data)).bind fun _ t =>
      busWrite s.draws (a + 4) (bs.drop 4) t

/-! ### Taking an event, and returning from one -/

/-- Use the CCB: no CCB is present while SR11 is odd (60_exceptions.md R432, R437). -/
def ccbBase (s : State) : Res Word :=
  if oddAddress (s.sr 11) then .fault .noCcb
  else if aligned (s.sr 11) 4 then .ok (s.sr 11) s
  else .refused .ccbMisaligned

/-- The vector word at an offset of the CCB. -/
def ccbVector (off : Word) (s : State) : Res Word :=
  (ccbBase s).bind fun c s => microRead (c + off) s

/-- Continue in kernel mode at the handler whose address the CCB holds at an offset. -/
def enterVector (off : Word) (s : State) : Out :=
  match ccbVector off s with
  | .ok v s =>
    if oddAddress v then .refused .oddPc
    else .next { s with mode := .kernel, paused := false, pc := v }
  | .trap _ _ => .refused .ccbMisaligned
  | .fault f => .fault f
  | .refused r => .refused r

/-- What an event entry saves in SR0 and SR15: from user mode SR15 receives the program counter and
SR0 is 1, from kernel mode SR0 receives the program counter; an external interrupt puts the IOIR
word in SR0 (60_exceptions.md R430, R431, R461). -/
def savePc (e : Event) (s : State) : State :=
  match s.mode with
  | .user => (s.setSr 15 e.saved).setSr 0 (e.sr0.getD 1)
  | .kernel => s.setSr 0 (e.sr0.getD e.saved)

/-- Event entry, the same for every event but KCALL and reset (60_exceptions.md R430). -/
def enterEvent (e : Event) (s : State) : Out :=
  enterVector e.off
    ((((savePc e s).setSrOpt 1 e.sr1).setSrOpt 2 e.sr2).setSrOpt 3 e.sr3)

/-- Finish an instruction with a result. -/
def Res.out {α : Type} (r : Res α) (f : α → State → Out) : Out :=
  match r with
  | .ok v s => f v s
  | .trap e s => enterEvent e s
  | .fault x => .fault x
  | .refused x => .refused x

/-- A trap that reports the opcode in SR1 and two values in SR2 and SR3; it saves the address of
the instruction itself (60_exceptions.md R431). -/
def opcodeTrap (off : Word) (op : Byte) (v2 v3 : Word) (s : State) : Event :=
  { off := off, saved := s.pc, sr0 := none, sr1 := some (byteWord op), sr2 := some v2,
    sr3 := some v3 }

/-- `raise Arith(n)` (60_exceptions.md R446). -/
def raiseArith (op : Byte) (x y : Nib) (n : Word) (s : State) : Out :=
  enterEvent (opcodeTrap ccbArithmetic op (fieldsWord x y) n s) s

/-- `raise KernelViolation` (60_exceptions.md R443). -/
def raiseKernelViolation (op : Byte) (x y : Nib) (s : State) : Out :=
  enterEvent (opcodeTrap ccbKernelViolation op (nibWord x) (nibWord y) s) s

/-- `raise CheckTrap` (60_exceptions.md R444). -/
def raiseCheckTrap (op : Byte) (x y : Nib) (s : State) : Out :=
  enterEvent (opcodeTrap ccbCheckTrap op (nibWord x) (nibWord y) s) s

/-- `SR2` of a data alignment trap and of an illegal memory-format instruction: the segment number
in user mode; in kernel mode a free value (60_exceptions.md R440). -/
def trapSegment (sp : Space) (s : State) : Word :=
  match s.mode with
  | .user => halfWord (s.segment sp)
  | .kernel => Config.kernelSegment s.draws

/-- The state after `trapSegment` has been taken: kernel mode uses up a draw. -/
def segmentDrawn (s : State) : State :=
  match s.mode with
  | .user => s
  | .kernel => s.drawn

/-- Transfer control; a transfer to an odd address is refused (92_eei_decisions.md D5). -/
def jump (a : Word) (s : State) : Out :=
  if oddAddress a then .refused .oddPc else .next (s.setPc a)

/-- The return to user mode: `mode <- user; pc <- SR[15]` (60_exceptions.md R434,
45_kernel.md R375). -/
def returnToUser (s : State) : Out :=
  jump (s.sr 15) { s with mode := .user, paused := false }

/-- The return to the kernel: the cache, the prefetch buffers and the TMT are flushed and
`pc <- SR[0]` (60_exceptions.md R434, 45_kernel.md R391). -/
def returnToKernel (s : State) : Out :=
  jump (s.sr 0) { s with tmtCode := [], tmtData := [], staleCode := [], staleData := [] }

/-! ### Privilege -/

/-- The two classes of kernel instructions (45_kernel.md R370). -/
inductive Privilege where
  | kernelOnly
  | kernelOrPP
deriving DecidableEq, Repr

/-- Whether the mode, or SR10's privileged process bit, lets an instruction of a class run
(60_exceptions.md R421). -/
def allowed (c : Privilege) (s : State) : Bool :=
  match s.mode, c with
  | .kernel, _ => true
  | .user, .kernelOnly => false
  | .user, .kernelOrPP => mbit (s.sr 10) 31

/-- The privilege check, before the instruction reads or writes anything
(60_exceptions.md R421). -/
def guarded (c : Privilege) (op : Byte) (x y : Nib) (s : State) (body : Out) : Out :=
  if allowed c s then body else raiseKernelViolation op x y s

end Sys2Proof.Machine
end

