-- ==== Sys2Proof/Syntax.lean ====
section
/-! DEFINITION. The instructions of the Ridge 3200, one constructor per mnemonic of the opcode
table; the rows that share a mnemonic differ in an operand form, which is an operand here: a
register or a 4-bit constant (`Src`), a short or a long displacement (`Disp`), a direct or an
indexed address (`MemRef`). Fields that an instruction does not use are kept, so that no bit of an
encoding is dropped. -/

namespace Sys2Proof

/-- The second operand of TEST, a conditional branch or a shift: the register Ry, or the Ry field
itself as a constant 0..15 (30_encoding.md R140). -/
inductive Src where
  | reg (y : Reg)
  | imm (n : Nib)
deriving DecidableEq, Repr

/-- A displacement, short (16 bits) or long (32 bits) (30_encoding.md R133, R134). -/
inductive Disp where
  | short (d : Half)
  | long (d : Word)
deriving DecidableEq, Repr

/-- Whether a memory reference adds the index register (30_encoding.md R145). -/
inductive Indexing where
  | direct
  | indexed
deriving DecidableEq, Repr

/-- The address operand of a memory reference instruction (20_memory.md R82). -/
structure MemRef where
  /-- direct or indexed -/
  form : Indexing
  /-- the Ry field, the index register of the indexed form -/
  y : Reg
  /-- the displacement -/
  disp : Disp
deriving DecidableEq, Repr

/-- The instructions. `x` and `y` are the Rx and Ry fields. -/
inductive Instr where
  -- 41_integer_logical.md: integer arithmetic, logical operators
  | move (x y : Reg)
  | neg (x y : Reg)
  | add (x y : Reg)
  | sub (x y : Reg)
  | mpy (x y : Reg)
  | div (x y : Reg)
  | rem (x y : Reg)
  | not (x y : Reg)
  | or (x y : Reg)
  | xor (x y : Reg)
  | and (x y : Reg)
  -- 43_bit_compare_shift.md: bit instructions
  | cbit (x y : Reg)
  | sbit (x y : Reg)
  | tbit (x y : Reg)
  -- 44_program_control.md R350
  | chk (x y : Reg)
  -- 41_integer_logical.md: NOP and the immediates
  | nop (x y : Reg)
  | movei (x : Reg) (n : Nib)
  | addi (x : Reg) (n : Nib)
  | subi (x : Reg) (n : Nib)
  | mpyi (x : Reg) (n : Nib)
  | noti (x : Reg) (n : Nib)
  | andi (x : Reg) (n : Nib)
  -- 44_program_control.md R351
  | chki (x : Reg) (n : Nib)
  -- 42_real.md: single reals
  | fixt (x y : Reg)
  | fixr (x y : Reg)
  | rneg (x y : Reg)
  | radd (x y : Reg)
  | rsub (x y : Reg)
  | rmpy (x y : Reg)
  | rdiv (x y : Reg)
  | makerd (x y : Reg)
  | lcomp (x y : Reg)
  | float (x y : Reg)
  | rcomp (x y : Reg)
  -- 41_integer_logical.md: extended precision
  | eadd (x y : Reg)
  | esub (x y : Reg)
  | empy (x y : Reg)
  | ediv (x y : Reg)
  -- 42_real.md: double reals
  | dfixt (x y : Reg)
  | dfixr (x y : Reg)
  | drneg (x y : Reg)
  | dradd (x y : Reg)
  | drsub (x y : Reg)
  | drmpy (x y : Reg)
  | drdiv (x y : Reg)
  | makedr (x y : Reg)
  | dcomp (x y : Reg)
  | dfloat (x y : Reg)
  | drcomp (x y : Reg)
  -- 44_program_control.md R352
  | trap (x : Reg) (n : Nib)
  -- 45_kernel.md: state switching, translation, special registers
  | sus (x y : Reg)
  | lus (x y : Reg)
  | rum (x y : Reg)
  | ldregs (x y : Reg)
  | trans (x y : Reg)
  | dirt (x y : Reg)
  | movesr (x : SReg) (y : Reg)
  | movers (x : Reg) (y : SReg)
  -- 45_kernel.md: maintenance (opcode 4C)
  | elogr (x : Reg)
  | elogw (x : Reg)
  | twrited (x : Reg)
  | flush (x : Reg)
  | trapexit (x : Reg)
  | itest (x : Reg)
  | machineid (x : Reg)
  | version (x : Reg)
  | creg (x : Reg)
  | rdlog (x : Reg)
  -- 45_kernel.md: input and output
  | read (x y : Reg)
  | write (x y : Reg)
  -- 43_bit_compare_shift.md: TEST
  | testGt (x : Reg) (b : Src)
  | testLt (x : Reg) (b : Src)
  | testEq (x : Reg) (b : Src)
  | testLe (x : Reg) (b : Src)
  | testGe (x : Reg) (b : Src)
  | testNe (x : Reg) (b : Src)
  -- 44_program_control.md: linkage
  | callr (x y : Reg)
  | ret (x y : Reg)
  | kcall (num : Byte)
  -- 43_bit_compare_shift.md: shifts and sign extension
  | lsl (x : Reg) (c : Src)
  | lsr (x : Reg) (c : Src)
  | asl (x : Reg) (c : Src)
  | asr (x : Reg) (c : Src)
  | dlsl (x : Reg) (c : Src)
  | dlsr (x : Reg) (c : Src)
  | csl (x : Reg) (c : Src)
  | seb (x y : Reg)
  | seh (x y : Reg)
  -- 44_program_control.md: the branch group
  | br (x y : Reg) (d : Disp)
  | brGt (x : Reg) (b : Src) (d : Disp)
  | brEq (x : Reg) (b : Src) (d : Disp)
  | brLt (x : Reg) (n : Nib) (d : Disp)
  | brLe (x : Reg) (b : Src) (d : Disp)
  | brNe (x : Reg) (b : Src) (d : Disp)
  | brGe (x : Reg) (n : Nib) (d : Disp)
  | call (x y : Reg) (d : Disp)
  | loop (x : Reg) (n : Nib) (d : Disp)
  -- 40_memory_reference.md: stores
  | storeb (x : Reg) (m : MemRef)
  | storeh (x : Reg) (m : MemRef)
  | store (x : Reg) (m : MemRef)
  | stored (x : Reg) (m : MemRef)
  -- 40_memory_reference.md: loads and load address, data space
  | loadb (x : Reg) (m : MemRef)
  | loadh (x : Reg) (m : MemRef)
  | load (x : Reg) (m : MemRef)
  | loadd (x : Reg) (m : MemRef)
  | laddr (x : Reg) (m : MemRef)
  -- 40_memory_reference.md: loads and load address, code space
  | loadbp (x : Reg) (m : MemRef)
  | loadhp (x : Reg) (m : MemRef)
  | loadp (x : Reg) (m : MemRef)
  | loaddp (x : Reg) (m : MemRef)
  | laddrp (x : Reg) (m : MemRef)
  -- 30_encoding.md R155: undefined instructions
  | undefinedReg (op : Byte) (x y : Nib)
  | undefinedMem (op : Byte) (x y : Nib) (d : Disp)
deriving DecidableEq, Repr

end Sys2Proof
end

