-- ==== Sys2Proof/Machine/Operands.lean ====
section
/-! DEFINITION. The operand forms: register or constant, displacement, effective address, branch
target, shift count, bit number, register range. -/

namespace Sys2Proof.Machine

/-- The value of a register-or-constant operand (30_encoding.md R140). -/
def srcValue (b : Src) (s : State) : Word :=
  match b with
  | .reg y => s.reg y
  | .imm n => nibWord n

/-- The Ry field of a register-or-constant operand. -/
def srcField (b : Src) : Nib :=
  match b with
  | .reg y => y
  | .imm n => n

/-- The count of a single-register shift: the low 5 bits of Ry, or the constant
(43_bit_compare_shift.md R318). -/
def shiftCount (c : Src) (s : State) : Nat :=
  match c with
  | .reg y => (s.reg y).toNat % 32
  | .imm n => n.toNat

/-- The count of a double shift: the low 6 bits of Ry, or the constant
(43_bit_compare_shift.md R318). -/
def doubleShiftCount (c : Src) (s : State) : Nat :=
  match c with
  | .reg y => (s.reg y).toNat % 64
  | .imm n => n.toNat

/-- The bit number of CBIT, SBIT and TBIT: the low 6 bits of Ry (43_bit_compare_shift.md R301). -/
def bitNumber (y : Reg) (s : State) : Nat := (s.reg y).toNat % 64

/-- The displacement as a word: a short one is sign-extended (30_encoding.md R141). -/
def dispValue (d : Disp) : Word :=
  match d with
  | .short h => h.signExtend 32
  | .long w => w

/-- The length of an instruction with a displacement (30_encoding.md R131). -/
def dispLength (d : Disp) : Word :=
  match d with
  | .short _ => 4
  | .long _ => 6

/-- The target of a branch: the prediction bit is not part of it (44_program_control.md R340). -/
def branchTarget (d : Disp) (s : State) : Word := s.pc + (dispValue d &&& 0xFFFFFFFE#32)

/-- The effective address of a memory reference (20_memory.md R82). -/
def effectiveAddress (sp : Space) (m : MemRef) (s : State) : Word :=
  let index := match m.form with
    | .direct => 0#32
    | .indexed => s.reg m.y
  match sp with
  | .data => index + dispValue m.disp
  | .code => s.pc + index + dispValue m.disp

/-- The registers SUS, LUS and LDREGS move: Rx to Ry, or Rx alone when Rx is the greater
(45_kernel.md R374). -/
def regRange (x y : Reg) : List Reg :=
  (List.range (y.toNat - x.toNat + 1)).map fun k => x + BitVec.ofNat 4 k

end Sys2Proof.Machine
end

