-- ==== Sys2Proof/Machine/Integer.lean ====
section
/-! DEFINITION. Integer arithmetic, logical, immediate and extended precision instructions
(41_integer_logical.md). -/

namespace Sys2Proof.Machine

/-- The end of a register-format instruction that writes one register. -/
def result (x : Reg) (w : Word) (s : State) : Out := .next ((s.setReg x w).advance 2)

/-- The end of a register-format instruction that writes a pair. -/
def resultPair (x : Reg) (d : DWord) (s : State) : Out := .next ((s.setPair x d).advance 2)

/-- An arithmetic condition: trap `n` if its enable in `TW` is set, else execution continues
(60_exceptions.md R446). -/
def arithCondition (n : Nat) (op : Byte) (x y : Nib) (s : State) : Out :=
  if mbit s.tw n then raiseArith op x y (BitVec.ofNat 32 n) s else .next (s.advance 2)

/-- Deliver the low 32 bits of a true result; then the overflow condition
(41_integer_logical.md R201). -/
def deliver (op : Byte) (x y : Nib) (v : Int) (s : State) : Out :=
  if overflows v then arithCondition 16 op x y (s.setReg x (wrap v)) else result x (wrap v) s

/-- `idiv`, the quotient of DIV and REM (41_integer_logical.md R206). -/
def idiv (a b : Int) : Int :=
  match divRounding with
  | .floor => a.fdiv b
  | .truncate => a.tdiv b

/-- NOP (41_integer_logical.md R215). -/
def execNop (_x _y : Reg) (s : State) : Out := .next (s.advance 2)

/-- MOVE (41_integer_logical.md R214). -/
def execMove (x y : Reg) (s : State) : Out := result x (s.reg y) s

/-- NEG (41_integer_logical.md R208). -/
def execNeg (x y : Reg) (s : State) : Out := deliver 0x02 x y (-(s.reg y).toInt) s

/-- ADD (41_integer_logical.md R203). -/
def execAdd (x y : Reg) (s : State) : Out :=
  deliver 0x03 x y ((s.reg x).toInt + (s.reg y).toInt) s

/-- SUB (41_integer_logical.md R204). -/
def execSub (x y : Reg) (s : State) : Out :=
  deliver 0x04 x y ((s.reg x).toInt - (s.reg y).toInt) s

/-- MPY (41_integer_logical.md R205). -/
def execMpy (x y : Reg) (s : State) : Out :=
  deliver 0x05 x y ((s.reg x).toInt * (s.reg y).toInt) s

/-- DIV (41_integer_logical.md R206). -/
def execDiv (x y : Reg) (s : State) : Out :=
  if s.reg y = 0#32 then arithCondition 17 0x06 x y s
  else if s.reg x = 0x80000000#32 ∧ s.reg y = 0xFFFFFFFF#32 then arithCondition 16 0x06 x y s
  else result x (wrap (idiv (s.reg x).toInt (s.reg y).toInt)) s

/-- REM (41_integer_logical.md R207). -/
def execRem (x y : Reg) (s : State) : Out :=
  if s.reg y = 0#32 then arithCondition 17 0x07 x y s
  else if s.reg x = 0x80000000#32 ∧ s.reg y = 0xFFFFFFFF#32 then
    arithCondition 16 0x07 x y (s.setReg x 0#32)
  else
    result x (wrap ((s.reg x).toInt - idiv (s.reg x).toInt (s.reg y).toInt * (s.reg y).toInt)) s

/-- NOT (41_integer_logical.md R213). -/
def execNot (x y : Reg) (s : State) : Out := result x (~~~(s.reg y)) s

/-- OR (41_integer_logical.md R211). -/
def execOr (x y : Reg) (s : State) : Out := result x (s.reg x ||| s.reg y) s

/-- XOR (41_integer_logical.md R212). -/
def execXor (x y : Reg) (s : State) : Out := result x (s.reg x ^^^ s.reg y) s

/-- AND (41_integer_logical.md R210). -/
def execAnd (x y : Reg) (s : State) : Out := result x (s.reg x &&& s.reg y) s

/-- MOVEI (41_integer_logical.md R221). -/
def execMovei (x : Reg) (n : Nib) (s : State) : Out := result x (nibWord n) s

/-- ADDI (41_integer_logical.md R223). -/
def execAddi (x : Reg) (n : Nib) (s : State) : Out :=
  deliver 0x13 x n ((s.reg x).toInt + (n.toNat : Int)) s

/-- SUBI (41_integer_logical.md R224). -/
def execSubi (x : Reg) (n : Nib) (s : State) : Out :=
  deliver 0x14 x n ((s.reg x).toInt - (n.toNat : Int)) s

/-- MPYI (41_integer_logical.md R226). -/
def execMpyi (x : Reg) (n : Nib) (s : State) : Out :=
  deliver 0x15 x n ((s.reg x).toInt * (n.toNat : Int)) s

/-- NOTI (41_integer_logical.md R222). -/
def execNoti (x : Reg) (n : Nib) (s : State) : Out := result x (~~~(nibWord n)) s

/-- ANDI (41_integer_logical.md R225). -/
def execAndi (x : Reg) (n : Nib) (s : State) : Out := result x (s.reg x &&& nibWord n) s

/-- The end of EADD and ESUB: the sum in Rx and the flag word in R0; with Rx = R0 either of the two
is what R0 holds, a free value (41_integer_logical.md R230, 92_eei_decisions.md D19). -/
def deliverExtended (x : Reg) (u : Nat × Int) (s : State) : Out :=
  if x = 0#4 then
    .next (((s.setReg 0 (if Config.flagWordSurvives s.draws then sumFlags u
      else BitVec.ofNat 32 u.1)).drawn).advance 2)
  else .next (((s.setReg x (BitVec.ofNat 32 u.1)).setReg 0 (sumFlags u)).advance 2)

/-- EADD (41_integer_logical.md R230). -/
def execEadd (x y : Reg) (s : State) : Out :=
  deliverExtended x (eaddSums (s.reg x) (s.reg y) (s.reg 0)) s

/-- ESUB (41_integer_logical.md R231). -/
def execEsub (x y : Reg) (s : State) : Out :=
  deliverExtended x (esubSums (s.reg x) (s.reg y) (s.reg 0)) s

/-- EMPY (41_integer_logical.md R232). -/
def execEmpy (x y : Reg) (s : State) : Out :=
  resultPair x (BitVec.ofNat 64 ((s.reg x).toNat * (s.reg y).toNat)) s

/-- EDIV (41_integer_logical.md R233). -/
def execEdiv (x y : Reg) (s : State) : Out :=
  if s.reg y = 0#32 then arithCondition 17 0x2F x y s
  else if 2 ^ edivOverflowBits ≤ (s.pair x).toNat / (s.reg y).toNat then
    arithCondition 16 0x2F x y s
  else
    .next (((s.setReg x (BitVec.ofNat 32 ((s.pair x).toNat / (s.reg y).toNat))).setReg (x + 1)
      (BitVec.ofNat 32 ((s.pair x).toNat % (s.reg y).toNat))).advance 2)

end Sys2Proof.Machine
end

