-- ==== Sys2Proof/Machine/Control.lean ====
section
/-! DEFINITION. Program control instructions (44_program_control.md). -/

namespace Sys2Proof.Machine

/-- The end of a branch: the target if it is taken, else the next instruction
(44_program_control.md R340). -/
def branchIf (taken : Bool) (d : Disp) (s : State) : Out :=
  if taken then .next (s.setPc (branchTarget d s)) else .next (s.advance (dispLength d))

/-- BR, unconditional (44_program_control.md R342). -/
def execBr (_x _y : Reg) (d : Disp) (s : State) : Out := branchIf true d s

/-- BR > (44_program_control.md R343). -/
def execBrGt (x : Reg) (b : Src) (d : Disp) (s : State) : Out :=
  branchIf ((srcValue b s).slt (s.reg x)) d s

/-- BR < (44_program_control.md R344). -/
def execBrLt (x : Reg) (n : Nib) (d : Disp) (s : State) : Out :=
  branchIf ((s.reg x).slt (nibWord n)) d s

/-- BR = (44_program_control.md R345). -/
def execBrEq (x : Reg) (b : Src) (d : Disp) (s : State) : Out :=
  branchIf (s.reg x == srcValue b s) d s

/-- BR <= (44_program_control.md R346). -/
def execBrLe (x : Reg) (b : Src) (d : Disp) (s : State) : Out :=
  branchIf ((s.reg x).sle (srcValue b s)) d s

/-- BR >= (44_program_control.md R347). -/
def execBrGe (x : Reg) (n : Nib) (d : Disp) (s : State) : Out :=
  branchIf ((nibWord n).sle (s.reg x)) d s

/-- BR <> (44_program_control.md R348). -/
def execBrNe (x : Reg) (b : Src) (d : Disp) (s : State) : Out :=
  branchIf (s.reg x != srcValue b s) d s

/-- LOOP: the branch is taken when the true sum is negative (44_program_control.md R349). -/
def execLoop (x : Reg) (n : Nib) (d : Disp) (s : State) : Out :=
  branchIf (decide ((s.reg x).toInt + (n.toNat : Int) < 0)) d
    (s.setReg x (wrap ((s.reg x).toInt + (n.toNat : Int))))

/-- CHK (44_program_control.md R350). -/
def execChk (x y : Reg) (s : State) : Out :=
  if (s.reg y).slt (s.reg x) then raiseCheckTrap 0x0F x y s else .next (s.advance 2)

/-- CHKI (44_program_control.md R351). -/
def execChki (x : Reg) (n : Nib) (s : State) : Out :=
  if (s.reg x).slt 0#32 || (nibWord n).slt (s.reg x) then raiseCheckTrap 0x1F x n s
  else .next (s.advance 2)

/-- TRAP: SR3 receives the Ry field whether or not the trap is taken (44_program_control.md
R352). -/
def execTrap (x : Reg) (n : Nib) (s : State) : Out :=
  if s.mode = .kernel ∨ mbit (s.sr 10) n.toNat then
    raiseArith 0x3B x n (nibWord n) (s.setSr 3 (nibWord n))
  else .next ((s.setSr 3 (nibWord n)).advance 2)

/-- KCALL: in user mode the kernel is entered through the CCB's KCALL vector, SR15 holding the
return address; in kernel mode it is a kernel violation (44_program_control.md R353). -/
def execKcall (num : Byte) (s : State) : Out :=
  match s.mode with
  | .kernel => raiseKernelViolation 0x5B (hiNib num) (loNib num) s
  | .user => enterVector ((num ++ 0#2).setWidth 32) (s.setSr 15 (s.pc + 2))

/-- CALL (44_program_control.md R354). -/
def execCall (x _y : Reg) (d : Disp) (s : State) : Out :=
  .next ((s.setReg x (s.pc + dispLength d)).setPc (branchTarget d s))

/-- CALLR (44_program_control.md R355). -/
def execCallr (x y : Reg) (s : State) : Out := jump (s.pc + s.reg y) (s.setReg x (s.pc + 2))

/-- RET (44_program_control.md R356). -/
def execRet (x y : Reg) (s : State) : Out := jump (s.reg y) (s.setReg x (s.pc + 2))

end Sys2Proof.Machine
end

