-- ==== Sys2Proof/Machine/Translation.lean ====
section
/-! DEFINITION. Address translation: the TMT, the VRT search, the translated accesses
(20_memory.md R90 to R101), and the alignment check (R84). -/

namespace Sys2Proof.Machine

/-! ### The Translation Mapping Table -/

/-- The entry a half of the TMT holds at an index. -/
def TmtHalf.get : TmtHalf → Nat → Option Word
  | [], _ => none
  | (k, w) :: t, i => if k = i then some w else TmtHalf.get t i

/-- Load the entry at an index, keeping the indexes in rising order. -/
def TmtHalf.put : TmtHalf → Nat → Word → TmtHalf
  | [], i, w => [(i, w)]
  | (k, v) :: t, i, w =>
    if i < k then (i, w) :: (k, v) :: t
    else if i = k then (i, w) :: t
    else (k, v) :: TmtHalf.put t i w

/-- The half of the TMT a space uses (20_memory.md R83). -/
def State.tmt (s : State) (sp : Space) : TmtHalf :=
  match sp with
  | .code => s.tmtCode
  | .data => s.tmtData

/-- Load an entry of the TMT. -/
def State.setTmt (s : State) (sp : Space) (i : Nat) (w : Word) : State :=
  match sp with
  | .code => { s with tmtCode := TmtHalf.put s.tmtCode i w }
  | .data => { s with tmtData := TmtHalf.put s.tmtData i w }

/-- The TMT index of a virtual address, `va<11..19>` (20_memory.md R92). -/
def tmtIndex (va : Word) : Nat := (mfield va 11 19).toNat

/-- The real address a TMT Word gives for a virtual address: Phys. Page, then `va<20..31>`
(20_memory.md R90, R96). -/
def physAddress (e va : Word) : Word := (mfield e 1 15 ++ mfield va 20 31).setWidth 32

/-- The U bit of a TMT Word (20_memory.md R96). -/
def tmtU (e : Word) : Bool := mbit e 0
/-- The Write Allowed bit of a TMT Word (20_memory.md R96). -/
def tmtW (e : Word) : Bool := mbit e 29
/-- The Valid bit of a TMT Word (20_memory.md R96). -/
def tmtV (e : Word) : Bool := mbit e 30
/-- The Dirty bit of a TMT Word (20_memory.md R96). -/
def tmtD (e : Word) : Bool := mbit e 31
/-- Set the Referenced bit of a TMT Word (20_memory.md R96). -/
def setReferenced (e : Word) : Word := setMbit e 27 true
/-- Set the Dirty bit of a TMT Word (20_memory.md R96). -/
def setDirty (e : Word) : Word := setMbit e 31 true

/-- The entry that translates an address, if the TMT holds one: it is valid and its tag is
`va<0..10>` (20_memory.md R92). -/
def tmtHit (sp : Space) (va : Word) (s : State) : Option Word :=
  match TmtHalf.get (s.tmt sp) (tmtIndex va) with
  | some e => if tmtV e && mfield e 16 26 == mfield va 0 10 then some e else none
  | none => none

/-! ### The VRT search -/

/-- `HashAddr(seg, va)` (20_memory.md R95). -/
def hashAddress (seg : Half) (va : Word) (s : State) : Word :=
  s.sr 12 + (((seg.setWidth 32 + (mfield va 0 19).setWidth 32) &&& s.sr 13) <<< 2)

/-- The Match Word of a page: the segment number, then `va<0..15>` (20_memory.md R96). -/
def matchWord (seg : Half) (va : Word) : Word := seg ++ mfield va 0 15

/-- Follow a chain of VRT entries to the one with a Match Word: its address and its TMT Word. A
chain that, with no DMA left to change it, has more entries than memory has words comes back to
itself and never ends (20_memory.md R97). -/
def vrtChase (key : Word) : Nat → Word → State → Res (Option (Word × Word))
  | 0, _, _ => .fault .vrtChainEndless
  | fuel + 1, p, s =>
    if p = 0#32 then .ok none s
    else if !aligned p 4 then .refused .vrtMisaligned
    else (microRead p s).bind fun m s =>
      if m = key then (microRead (p + 8) s).bind fun w s => .ok (some (p, w)) s
      else (microRead (p + 4) s).bind fun q s => vrtChase key fuel q s

/-- More chain entries than 128 megabytes of memory have words. -/
def chainBound : Nat := 2 ^ 25

/-- `VRTSearch(seg, va)`: the address of the entry and its TMT Word with the Referenced bit set, in
memory too (20_memory.md R97). -/
def vrtSearch (seg : Half) (va : Word) (s : State) : Res (Option (Word × Word)) :=
  if !aligned (s.sr 12) 4 then .refused .vrtMisaligned
  else (microRead (hashAddress seg va s) s).bind fun p s =>
    (vrtChase (matchWord seg va) (chainBound + s.dmaTurns.length) p s).bind fun r s =>
      match r with
      | none => .ok none s
      | some (q, w) =>
        if tmtV w && !tmtU w then
          (microWrite (q + 8) (setReferenced w) s).bind fun _ s =>
            .ok (some (q, setReferenced w)) s
        else .refused .vrtEntryIllFormed

/-- A search that also sets the Dirty bit of the entry it finds, in memory too: `MarkDirty` and
DIRT (20_memory.md R98, 45_kernel.md R399). -/
def vrtSearchDirty (seg : Half) (va : Word) (s : State) : Res (Option (Word × Word)) :=
  (vrtSearch seg va s).bind fun r s =>
    match r with
    | none => .ok none s
    | some (q, w) =>
      (microWrite (q + 8) (setDirty w) s).bind fun _ s => .ok (some (q, setDirty w)) s

/-! ### Translation -/

/-- Why a page fault is taken (60_exceptions.md R441). -/
inductive PageFaultKind where
  | absent
  | writeProtected
deriving DecidableEq, Repr

/-- SR1 of a page fault: -1 or -2 (10_state.md R28). -/
def pageFaultCode (k : PageFaultKind) : Word :=
  match k with
  | .absent => 0xFFFFFFFF#32
  | .writeProtected => 0xFFFFFFFE#32

/-- The page fault of an address in a segment (60_exceptions.md R441). -/
def pageFault (k : PageFaultKind) (seg : Half) (va : Word) (s : State) : Event :=
  { off := ccbPageFault, saved := s.pc, sr0 := none, sr1 := some (pageFaultCode k),
    sr2 := some (halfWord seg), sr3 := some va }

/-- The TMT entry of an address: the one held, or the one a VRT search loads
(20_memory.md R93). -/
def tmtEntry (sp : Space) (va : Word) (s : State) : Res Word :=
  match tmtHit sp va s with
  | some e => .ok e s
  | none =>
    (vrtSearch (s.segment sp) va s).bind fun r s =>
      match r with
      | none => .trap (pageFault .absent (s.segment sp) va s) s
      | some (_, w) => .ok w (s.setTmt sp (tmtIndex va) w)

/-- `MarkDirty(seg, va)`: set the Dirty bit in memory and reload the TMT entry
(20_memory.md R98). -/
def markDirty (sp : Space) (va : Word) (s : State) : Res Unit :=
  (vrtSearchDirty (s.segment sp) va s).bind fun r s =>
    match r with
    | none => .trap (pageFault .absent (s.segment sp) va s) s
    | some (_, w) => .ok () (s.setTmt sp (tmtIndex va) w)

/-- `Translate(space, va, access)` (20_memory.md R93). -/
def translate (sp : Space) (va : Word) (acc : Access) (s : State) : Res Word :=
  match s.mode with
  | .kernel => .ok va s
  | .user =>
    (tmtEntry sp va s).bind fun e s =>
      if acc = .write ∧ tmtW e = false then
        .trap (pageFault .writeProtected (s.segment sp) va s) s
      else if acc = .write ∧ tmtD e = false then
        (markDirty sp va s).bind fun _ s => .ok (physAddress e va) s
      else .ok (physAddress e va) s

/-! ### Aligned, translated accesses -/

/-- The data alignment trap (60_exceptions.md R440). -/
def dataAlignment (sp : Space) (ea : Word) (s : State) : Event :=
  { off := ccbDataAlignment, saved := s.pc, sr0 := none, sr1 := none,
    sr2 := some (trapSegment sp s), sr3 := some ea }

/-- The real address of an access of `n` bytes: the alignment check, then translation, then the
check that the address exists (40_memory_reference.md R170). -/
def accessAddress (sp : Space) (ea : Word) (n : Nat) (acc : Access) (s : State) : Res Word :=
  if aligned ea n then
    (translate sp ea acc s).bind fun pa s =>
      if realExists pa.toNat n then .ok pa s else .refused .absentRealAddress
  else .trap (dataAlignment sp ea s) (segmentDrawn s)

/-- `VWrite(space, va, n, v)` (20_memory.md R93). -/
def virtualWrite (sp : Space) (ea : Word) (bs : List Byte) (s : State) : Res Unit :=
  (accessAddress sp ea bs.length .write s).bind fun pa s =>
    memoryWrite pa.toNat bs s

end Sys2Proof.Machine
end

