-- ==== Sys2Proof/Machine/Interrupts.lean ====
section
/-! DEFINITION. Interrupts: the deliverable board, the acknowledge, the choice among the pending
interrupts, and their entry (60_exceptions.md R448 to R456, R460, R461, R471). -/

namespace Sys2Proof.Machine

/-! ### I/O boards -/

/-- Whether a board holds a request on a line. -/
def requesting (l : Line) (b : Board) : Bool := b.line = l && b.request.isSome

/-- The line whose highest-priority requesting board is deliverable, if any: line 2 before line 1,
subject to the masks (60_exceptions.md R451). -/
def deliverableLine (s : State) : Option Line :=
  if s.mask2 then none
  else if s.boards.any (requesting .two) then some .two
  else if s.mask1 then none
  else if s.boards.any (requesting .one) then some .one
  else none

/-- The IOIR word: the device number, then the device's own 24 bits (60_exceptions.md R452). -/
def ioirWord (b : Board) (info : BitVec 24) : Word := b.device ++ info

/-- Acknowledge the first requesting board of a line: its IOIR word, and the boards with its
request withdrawn (60_exceptions.md R452, R486). -/
def ackBoards (l : Line) : List Board → Option (Word × List Board)
  | [] => none
  | b :: bs =>
    if requesting l b then some (ioirWord b (b.request.getD 0), { b with request := none } :: bs)
    else
      match ackBoards l bs with
      | some (w, bs') => some (w, b :: bs')
      | none => none

/-- `AckInterrupt()` for the deliverable request, if there is one (60_exceptions.md R451, R452). -/
def ackInterrupt (s : State) : Option (Word × State) :=
  match deliverableLine s with
  | none => none
  | some l =>
    match ackBoards l s.boards with
    | some (w, bs) => some (w, { s with boards := bs })
    | none => none

/-! ### Pending interrupts -/

/-- The interrupts that may be pending at a boundary (60_exceptions.md R449). -/
inductive Interrupt where
  | parity
  | powerFail
  | switch0
  | external
  | timer1
  | timer2
deriving DecidableEq, Repr

/-- Whether external and timer interrupts are taken: in user mode and while paused
(60_exceptions.md R449). -/
def interruptible (s : State) : Bool := s.mode = .user || s.paused

/-- Whether a timer count of the CCB is negative, `TIMER_PENDING = level`; no CCB, no timer
(60_exceptions.md R471). -/
def timerNegative (off : Word) (s : State) : Res Bool :=
  if oddAddress (s.sr 11) then .ok false s
  else (ccbBase s).bind fun c s => (microRead (c + off) s).bind fun w s => .ok w.msb s

/-- The deliverable interrupts of the sources that are held as pending bits, in the order
60_exceptions.md R438 suggests. -/
def latchedInterrupts (s : State) : List Interrupt :=
  (if s.parityPending.isEmpty then [] else [.parity]) ++
    (if s.powerFailPending then [.powerFail] else []) ++
    (if s.switch0Pending then [.switch0] else []) ++
    (if interruptible s && (deliverableLine s).isSome then [.external] else [])

/-- The deliverable timer interrupt: timer 2 only when timer 1 is not (60_exceptions.md R471). -/
def timerInterrupts (s : State) : Res (List Interrupt) :=
  if interruptible s then
    match timerPending with
    | .level =>
      (timerNegative ccbTimer1Count s).bind fun t1 s =>
        if t1 then .ok [.timer1] s
        else (timerNegative ccbTimer2Count s).bind fun t2 s =>
          .ok (if t2 then [.timer2] else []) s
    | .tick => .ok (if s.timer1Due then [.timer1] else if s.timer2Due then [.timer2] else []) s
  else .ok [] s

/-- The interrupt taken among the deliverable ones: any one of them, a free value
(60_exceptions.md R438). -/
def pick (is : List Interrupt) (s : State) : Option Interrupt × State :=
  match is with
  | [] => (none, s)
  | [i] => (some i, s)
  | i :: rest =>
    (some ((i :: rest).getD (Config.interruptPick s.draws % (rest.length + 1)) i), s.drawn)

/-- The interrupt to be taken at this boundary, if any (60_exceptions.md R448). -/
def pendingInterrupt (s : State) : Res (Option Interrupt) :=
  (timerInterrupts s).bind fun ts s =>
    .ok (pick (latchedInterrupts s ++ ts) s).1 (pick (latchedInterrupts s ++ ts) s).2

/-- An interrupt's entry: it saves the address of the next instruction; SR1 and SR2 are unchanged,
and SR3 but for a parity error (60_exceptions.md R430, R431). -/
def interruptEvent (off : Word) (ioir sr3 : Option Word) (s : State) : Event :=
  { off := off, saved := s.pc, sr0 := ioir, sr1 := none, sr2 := none, sr3 := sr3 }

/-- The vector of a double-bit parity error (60_exceptions.md R455). -/
def parityVector (p : ParityError) : Word := if p.fetch then ccbParityFetch else ccbParityExecute

/-- Take an interrupt (60_exceptions.md R450, R453 to R456, R461). -/
def takeInterrupt (i : Interrupt) (s : State) : Out :=
  match i with
  | .parity =>
    match s.parityPending with
    | p :: later =>
      enterEvent (interruptEvent (parityVector p) none (some p.addr) s)
        { s with parityPending := later }
    | [] => .next s
  | .powerFail =>
    enterEvent (interruptEvent ccbPowerFail none none s) { s with powerFailPending := false }
  | .switch0 =>
    enterEvent (interruptEvent ccbSwitch0 none none s) { s with switch0Pending := false }
  | .external =>
    match ackInterrupt s with
    | some (w, t) => enterEvent (interruptEvent ccbExternal (some w) none s) t
    | none => .next s
  | .timer1 => enterEvent (interruptEvent ccbTimer1 none none s) { s with timer1Due := false }
  | .timer2 => enterEvent (interruptEvent ccbTimer2 none none s) { s with timer2Due := false }

end Sys2Proof.Machine
end

