-- ==== Sys2Proof/Machine/Environment.lean ====
section
/-! DEFINITION. What the other agents do at an instruction boundary: the millisecond tick
(60_exceptions.md R470), the I/O boards (R480 to R487), the clock board (R490), the reset button
(R457), memory errors (R455). -/

namespace Sys2Proof.Machine

/-- `M32[a] <- M32[a] + d` by the microcode, and the word written (60_exceptions.md R470). -/
def microAdd (a d : Word) (s : State) : Res Word :=
  (microRead a s).bind fun w s => (microWrite a (w + d) s).bind fun _ s => .ok (w + d) s

/-- The address of the current PCB, when SR14 is not 1: a misaligned one is refused
(93_implementation_defined.md section 2). -/
def pcbBase (s : State) : Res Word :=
  if aligned (s.sr 14) 4 then .ok (s.sr 14) s else .refused .pcbMisaligned

/-- The timer test of a tick, with the counts it leaves: under `TIMER_PENDING = tick` a negative
count makes its interrupt due, in user mode and while paused (60_exceptions.md R471). -/
def timerTest (t1 t2 : Word) (s : State) : State :=
  match timerPending with
  | .level => s
  | .tick =>
    if interruptible s then
      { s with timer1Due := s.timer1Due || t1.msb, timer2Due := s.timer2Due || t2.msb }
    else s

/-- One millisecond: the process clock or the idle count, the two timer counts, the time of day
(60_exceptions.md R470). -/
def tick (s : State) : Res Unit :=
  if oddAddress (s.sr 11) then .ok () s
  else
    (ccbBase s).bind fun c s =>
    (if s.sr 14 = 1#32 then microAdd (c + ccbIdleCount) 1 s
      else (pcbBase s).bind fun p s => microAdd (p + pcbClock) 1 s).bind fun _ s =>
    (microAdd (c + ccbTimer1Count) (-1) s).bind fun t1 s =>
    (microAdd (c + ccbTimer2Count) (-1) s).bind fun t2 s =>
    (microRead (c + ccbTimeOfDay) s).bind fun hi s =>
    (microRead (c + ccbTimeOfDay + 4) s).bind fun lo s =>
    (microWrite (c + ccbTimeOfDay) (hiWord ((hi ++ lo : DWord) + 1000000#64)) s).bind fun _ s =>
    (microWrite (c + ccbTimeOfDay + 4) (loWord ((hi ++ lo : DWord) + 1000000#64)) s).bind
      fun _ s => .ok () (timerTest t1 t2 s)

/-- Change the first board with a device number. -/
def updateBoard (device : Byte) (f : Board → Board) : List Board → List Board
  | [] => []
  | b :: bs => if b.device = device then f b :: bs else b :: updateBoard device f bs

/-- The boot page, all of it: the bytes supplied, the rest of the page zero. -/
def bootPage (bs : List Byte) : List Byte :=
  (List.range bootPageBytes).map fun k => bs.getD k blankByte

/-- The state right after power-on of an installation: `BOOT_IMAGE`, the page at 3E000, and
`DEVICES`, the I/O boards, are the arguments (00_scope.md R5, 70_reset_and_hazards.md R500). -/
def State.powerOn (bootImage : List Byte) (devices : List Board) : State :=
  { State.reset with mem := Memory.writeBytes [] 0x3E000 (bootPage bootImage), boards := devices }

/-- The reset button: the state of 10_state.md R60; what it leaves unspecified is a free value in
the processor, and stays as it is in memory and in the other agents (70_reset_and_hazards.md R500,
R501). -/
def pressReset (page : List Byte) (s : State) : State :=
  { s with
    regs := Vector.ofFn fun i => Config.resetWord s.draws i.val
    pc := 0x0003E000
    mode := .kernel
    srs := (((Vector.ofFn fun i => Config.resetWord s.draws (16 + i.val) : Vector Word 16).set 2
      (BitVec.ofNat 32 Config.memSize)).set 11 1).set 14 1
    tw := 0
    paused := false
    mask1 := Config.resetMask s.draws 1
    mask2 := Config.resetMask s.draws 2
    tmtCode := []
    tmtData := []
    staleCode := []
    staleData := []
    mem := s.mem.writeBytes 0x3E000 (bootPage page)
    draws := s.draws + 1 }

/-- What one action of another agent does to the state. -/
def applyArrival (a : Arrival) (s : State) : Res Unit :=
  match a with
  | .tick => tick s
  | .interruptRequest dev info =>
    .ok () { s with boards := updateBoard dev (fun b => { b with request := some info }) s.boards }
  | .ioReply dev r =>
    .ok () { s with
      boards := updateBoard dev (fun b => { b with replies := b.replies ++ [r] }) s.boards }
  | .switch0 => .ok () { s with switch0Pending := true }
  | .powerFail on =>
    .ok () { s with
      powerFail := on, powerFailPending := s.powerFailPending || (on && !s.powerFail) }
  | .loaf on => .ok () { s with loaf := on }
  | .clockInput ack dataIn =>
    .ok () { s with clock := { s.clock with ack := ack, dataIn := dataIn } }
  | .errorLog es => .ok () { s with errorLog := es.take 16 }
  | .memoryFailure w => .ok () { s with badWords := w :: s.badWords }
  | .dma r => serveRound r s
  | .powerLost => .fault .powerLost
  | .resetButton page => .ok () (pressReset page s)

/-- What the other agents do at one boundary, in order. -/
def applyArrivals : List Arrival → State → Res Unit
  | [], s => .ok () s
  | a :: as, s => (applyArrival a s).bind fun _ s => applyArrivals as s

/-- Reach an instruction boundary: what the other agents do there happens. -/
def boundary (s : State) : Res Unit :=
  match s.arrivals with
  | [] => .ok () s
  | now :: later => applyArrivals now { s with arrivals := later }

end Sys2Proof.Machine
end

