-- ==== Sys2Proof/Machine/Kernel.lean ====
section
/-! DEFINITION. Kernel mode instructions (45_kernel.md): state switching, special register moves,
maintenance, translation support, input and output. -/

namespace Sys2Proof.Machine

/-! ### State switching -/

/-- Store registers in their slots of the PCB (45_kernel.md R371). -/
def saveRegs (p : Word) : List Reg → State → Res Unit
  | [], s => .ok () s
  | i :: is, s => (microWrite (p + pcbReg i) (s.reg i) s).bind fun _ s => saveRegs p is s

/-- Load registers from their slots of the PCB (45_kernel.md R372, R373). -/
def loadRegs (p : Word) : List Reg → State → Res Unit
  | [], s => .ok () s
  | i :: is, s => (microRead (p + pcbReg i) s).bind fun w s => loadRegs p is (s.setReg i w)

/-- The end of a kernel instruction: `pc <- pc + 2`. -/
def kernelDone (s : State) : Out := .next (s.advance 2)

/-- The PCB of the current process, for SUS, LUS and LDREGS: an SR14 that is misaligned, or outside
real memory, is refused (45_kernel.md R371 to R373, 92_eei_decisions.md D47). -/
def currentPcb (s : State) : Res Word :=
  (pcbBase s).bind fun p s =>
    if realExists p.toNat 4 then .ok p s else .refused .absentRealAddress

/-- The effect of SUS on a current process. -/
def saveUserState (x y : Reg) (s : State) : Res Unit :=
  (currentPcb s).bind fun p s =>
  (microWrite (p + pcbPc) (s.sr 15) s).bind fun _ s => saveRegs p (regRange x y) s

/-- SUS (45_kernel.md R371). -/
def execSus (x y : Reg) (s : State) : Out :=
  guarded .kernelOnly 0x40 x y s
    (if s.sr 14 = 1#32 then kernelDone s
     else (saveUserState x y s).out fun _ s => kernelDone s)

/-- The registers LUS loads beside the general ones: SR15, SR8, SR9, SR10 and `TW`
(45_kernel.md R372). -/
def loadProcess (upc segs traps : Word) (s : State) : State :=
  { (((s.setSr 15 upc).setSr 8 (halfWord (mfield segs 0 15))).setSr 9
      (halfWord (mfield segs 16 31))).setSr 10 traps with tw := traps }

/-- The flush of LUS: the TMT, the code half of the cache and the prefetch buffers
(20_memory.md R115). -/
def flushProcess (s : State) : State := { s with tmtCode := [], tmtData := [], staleCode := [] }

/-- The effect of LUS on a current process. -/
def loadUserState (x y : Reg) (s : State) : Res Unit :=
  (currentPcb s).bind fun p s =>
  (microRead (p + pcbPc) s).bind fun upc s =>
  (microRead (p + pcbSegments) s).bind fun segs s =>
  (microRead (p + pcbTraps) s).bind fun traps s =>
  (loadRegs p (regRange x y) (loadProcess upc segs traps s)).bind fun _ s =>
    .ok () (flushProcess s)

/-- LUS (45_kernel.md R372). -/
def execLus (x y : Reg) (s : State) : Out :=
  guarded .kernelOnly 0x41 x y s
    (if s.sr 14 = 1#32 then kernelDone s
     else (loadUserState x y s).out fun _ s => kernelDone s)

/-- LDREGS (45_kernel.md R373). -/
def execLdregs (x y : Reg) (s : State) : Out :=
  guarded .kernelOnly 0x43 x y s
    (if s.sr 14 = 1#32 then kernelDone s
     else ((currentPcb s).bind fun p s => loadRegs p (regRange x y) s).out fun _ s => kernelDone s)

/-- RUM: resume user mode, or pause when there is no current process (45_kernel.md R375,
60_exceptions.md R460). -/
def execRum (x y : Reg) (s : State) : Out :=
  guarded .kernelOnly 0x42 x y s
    (if s.sr 14 = 1#32 then kernelDone { s with paused := true } else returnToUser s)

/-! ### Special registers -/

/-- MOVE SRx,Ry (45_kernel.md R378). -/
def execMovesr (x : SReg) (y : Reg) (s : State) : Out :=
  guarded .kernelOnly 0x46 x y s (kernelDone (s.setSr x (s.reg y)))

/-- MOVE Rx,SRy (45_kernel.md R379). -/
def execMovers (x : Reg) (y : SReg) (s : State) : Out :=
  guarded .kernelOnly 0x47 x y s (kernelDone (s.setReg x (s.sr y)))

/-! ### Maintenance -/

/-- The processor status word as ELOGR returns it: manual bit 23 the power fail warning flag, bit
31 "loaf enable" (45_kernel.md R387). -/
def statusWord (s : State) : Word :=
  setMbit (setMbit 0#32 23 s.powerFail) 31 s.loaf

/-- ELOGR (45_kernel.md R387). -/
def execElogr (x : Reg) (s : State) : Out :=
  guarded .kernelOrPP 0x4C x 0 s (kernelDone (s.setReg x (statusWord s)))

/-- ELOGW (45_kernel.md R388). -/
def execElogw (x : Reg) (s : State) : Out :=
  guarded .kernelOrPP 0x4C x 1 s
    (kernelDone (if mbit (s.reg x) 31 then { s with errorLog := [] } else s))

/-- What a control pair of TWRITED does to its mask: 01 sets, 00 resets, 10 and 11 change nothing
(45_kernel.md R389). -/
def maskControl (v : BitVec 2) (m : Bool) : Bool :=
  if v = 1#2 then true else if v = 0#2 then false else m

/-- TWRITED (45_kernel.md R389). -/
def execTwrited (x : Reg) (s : State) : Out :=
  guarded .kernelOrPP 0x4C x 5 s
    (kernelDone
      (if mfield (s.reg x) 28 29 = 3#2 then
        { s with
          mask1 := maskControl (mfield (s.reg x) 24 25) s.mask1
          mask2 := maskControl (mfield (s.reg x) 26 27) s.mask2 }
      else s))

/-- FLUSH: both halves of the cache and the prefetch buffers (45_kernel.md R390). -/
def execFlush (x : Reg) (s : State) : Out :=
  guarded .kernelOrPP 0x4C x 6 s (kernelDone { s with staleCode := [], staleData := [] })

/-- TRAPEXIT (45_kernel.md R391). -/
def execTrapexit (x : Reg) (s : State) : Out :=
  guarded .kernelOnly 0x4C x 7 s (returnToKernel s)

/-- ITEST (45_kernel.md R392). -/
def execItest (x : Reg) (s : State) : Out :=
  guarded .kernelOrPP 0x4C x 8 s
    (match ackInterrupt s with
     | some (w, t) => kernelDone ((t.setReg (x + 1) w).setReg x 0)
     | none => kernelDone (s.setReg x 1))

/-- MACHINEID (45_kernel.md R393). -/
def execMachineid (x : Reg) (s : State) : Out :=
  guarded .kernelOrPP 0x4C x 10 s (kernelDone (s.setReg x Config.machineId))

/-- VERSION (45_kernel.md R394). -/
def execVersion (x : Reg) (s : State) : Out :=
  guarded .kernelOrPP 0x4C x 11 s (kernelDone (s.setReg x Config.microcodeVersion))

/-- What CREG returns of the clock board's input register: bit 30 data-in, bit 31 acknowledge
(45_kernel.md R396). -/
def clockInputWord (c : ClockBoard) : Word :=
  (BitVec.ofBool c.dataIn ++ BitVec.ofBool c.ack).setWidth 32

/-- CREG (45_kernel.md R396). -/
def execCreg (x : Reg) (s : State) : Out :=
  guarded .kernelOrPP 0x4C x 12 s
    (kernelDone
      ({ s with
          clock := { s.clock with request := mbit (s.reg x) 31, dataOut := mbit (s.reg x) 30 }
        }.setReg (x + 1) (clockInputWord s.clock)))

/-- What RDLOG returns of a logout location: its entry if it is valid, else a free value
(45_kernel.md R397). DESIGN CHOICE, log entry 24: of the 16 locations, those below the count of valid
entries are the valid ones; the spec gives the count alone (10_state.md R54). -/
def logout (n : Nat) (s : State) : Word :=
  match s.errorLog[n]? with
  | some w => w
  | none => Config.logoutData s.draws

/-- RDLOG (45_kernel.md R397). -/
def execRdlog (x : Reg) (s : State) : Out :=
  guarded .kernelOrPP 0x4C x 13 s
    (if mbit (s.reg x) 0 then kernelDone (s.setReg x (BitVec.ofNat 32 s.errorLog.length))
     else kernelDone ((s.setReg x (logout (mfield (s.reg x) 28 31).toNat s)).drawn))

/-! ### Translation support -/

/-- What TRANS and DIRT put in Rx: the real address, or -1 (45_kernel.md R398). -/
def translated (va : Word) (r : Option (Word × Word)) : Word :=
  match r with
  | some (_, w) => physAddress w va
  | none => 0xFFFFFFFF#32

/-- TRANS (45_kernel.md R398). -/
def execTrans (x y : Reg) (s : State) : Out :=
  guarded .kernelOnly 0x44 x y s
    ((vrtSearch (lowHalf (s.reg y)) (s.reg (y + 1)) s).out fun r t =>
      kernelDone (t.setReg x (translated (s.reg (y + 1)) r)))

/-- DIRT (45_kernel.md R399). -/
def execDirt (x y : Reg) (s : State) : Out :=
  guarded .kernelOnly 0x45 x y s
    ((vrtSearchDirty (lowHalf (s.reg y)) (s.reg (y + 1)) s).out fun r t =>
      kernelDone (t.setReg x (translated (s.reg (y + 1)) r)))

/-! ### Input and output -/

/-- The answer of the first board with a device number, and the boards after it; no such board, or
one with nothing decided, is silent (60_exceptions.md R481). -/
def boardReply (device : Byte) : List Board → Reply × List Board
  | [] => (.silent, [])
  | b :: bs =>
    if b.device = device then
      match b.replies with
      | [] => (.silent, b :: bs)
      | r :: rs => (r, { b with replies := rs } :: bs)
    else ((boardReply device bs).1, b :: (boardReply device bs).2)

/-- The I/O status word: manual bit 30 a timeout, bit `IOSTAT_N_BIT` not ready
(45_kernel.md R402). -/
def ioStatus (r : Reply) : Word :=
  match r with
  | .silent => setMbit 0#32 30 true
  | .notReady => setMbit 0#32 ioNotReadyBit true
  | .accept _ => 0

/-- The data word of a READ: the board's, or a free value when the status is not zero
(45_kernel.md R400). -/
def ioReadData (r : Reply) (s : State) : Word :=
  match r with
  | .accept d => d
  | _ => Config.ioData s.draws

/-- The I/O board an address word names, `a<0..7>` (60_exceptions.md R481). -/
def ioDevice (a : Word) : Byte := mfield a 0 7

/-- READ (45_kernel.md R400). -/
def execRead (x y : Reg) (s : State) : Out :=
  guarded .kernelOrPP 0x4E x y s
    (let (r, bs) := boardReply (ioDevice (s.reg y)) s.boards
     kernelDone
      (({ s with boards := bs, bus := .ioRead (s.reg y) (ioStatus r) :: s.bus }.setReg x
          (ioStatus r)).setReg (x + 1) (ioReadData r s)).drawn)

/-- WRITE (45_kernel.md R401). -/
def execWrite (x y : Reg) (s : State) : Out :=
  guarded .kernelOrPP 0x4F x y s
    (let (r, bs) := boardReply (ioDevice (s.reg y)) s.boards
     kernelDone
      ({ s with boards := bs, bus := .ioWrite (s.reg y) (s.reg x) (ioStatus r) :: s.bus }.setReg x
        (ioStatus r)))

end Sys2Proof.Machine
end

