-- ==== Sys2Proof/Machine/MemoryRef.lean ====
section
/-! DEFINITION. The memory reference instructions (40_memory_reference.md). They run alike in both
modes; in kernel mode the effective address is a real address. -/

namespace Sys2Proof.Machine

/-- `VRead(space, va, n)` (20_memory.md R93): the bytes read as a number; a free value after a
double-bit error (60_exceptions.md R455). -/
def virtualRead (sp : Space) (ea : Word) (n : Nat) (s : State) : Res DWord :=
  (accessAddress sp ea n .read s).bind fun pa s =>
    (memoryRead sp ea pa.toNat n s).bind fun r s =>
      if r.2 then .ok (Config.parityData s.draws 0 ++ Config.parityData s.draws 1) s.drawn
      else .ok (bytesValue r.1) s

/-- A load of `n` bytes (40_memory_reference.md R170): `put` writes the destination. -/
def loadOp (sp : Space) (n : Nat) (put : DWord → State → State) (m : MemRef) (s : State) : Out :=
  (virtualRead sp (effectiveAddress sp m s) n s).out fun d t =>
    .next ((put d t).advance (dispLength m.disp))

/-- The destination of a load of up to a word: Rx, zero-extended (40_memory_reference.md R171). -/
def toReg (x : Reg) (d : DWord) (s : State) : State := s.setReg x (loWord d)

/-- The destination of a double-word load: the pair RPx (40_memory_reference.md R176). -/
def toPair (x : Reg) (d : DWord) (s : State) : State := s.setPair x d

/-- A store of bytes to data space (40_memory_reference.md R182). -/
def storeOp (bs : List Byte) (m : MemRef) (s : State) : Out :=
  (virtualWrite .data (effectiveAddress .data m s) bs s).out fun _ t =>
    .next (t.advance (dispLength m.disp))

/-- LADDR: the effective address itself (40_memory_reference.md R187, R188). -/
def loadAddress (sp : Space) (x : Reg) (m : MemRef) (s : State) : Out :=
  .next ((s.setReg x (effectiveAddress sp m s)).advance (dispLength m.disp))

/-- LOADB (40_memory_reference.md R173). -/
def execLoadb (x : Reg) (m : MemRef) (s : State) : Out := loadOp .data 1 (toReg x) m s

/-- LOADH (40_memory_reference.md R174). -/
def execLoadh (x : Reg) (m : MemRef) (s : State) : Out := loadOp .data 2 (toReg x) m s

/-- LOAD (40_memory_reference.md R175). -/
def execLoad (x : Reg) (m : MemRef) (s : State) : Out := loadOp .data 4 (toReg x) m s

/-- LOADD (40_memory_reference.md R176). -/
def execLoadd (x : Reg) (m : MemRef) (s : State) : Out := loadOp .data 8 (toPair x) m s

/-- LOADBP (40_memory_reference.md R178). -/
def execLoadbp (x : Reg) (m : MemRef) (s : State) : Out := loadOp .code 1 (toReg x) m s

/-- LOADHP (40_memory_reference.md R179). -/
def execLoadhp (x : Reg) (m : MemRef) (s : State) : Out := loadOp .code 2 (toReg x) m s

/-- LOADP (40_memory_reference.md R180). -/
def execLoadp (x : Reg) (m : MemRef) (s : State) : Out := loadOp .code 4 (toReg x) m s

/-- LOADDP (40_memory_reference.md R181). -/
def execLoaddp (x : Reg) (m : MemRef) (s : State) : Out := loadOp .code 8 (toPair x) m s

/-- STOREB (40_memory_reference.md R183). -/
def execStoreb (x : Reg) (m : MemRef) (s : State) : Out := storeOp [lowByte (s.reg x)] m s

/-- STOREH (40_memory_reference.md R184). -/
def execStoreh (x : Reg) (m : MemRef) (s : State) : Out :=
  storeOp (halfBytes (lowHalf (s.reg x))) m s

/-- STORE (40_memory_reference.md R185). -/
def execStore (x : Reg) (m : MemRef) (s : State) : Out := storeOp (wordBytes (s.reg x)) m s

/-- STORED (40_memory_reference.md R186). -/
def execStored (x : Reg) (m : MemRef) (s : State) : Out :=
  storeOp (wordBytes (s.reg x) ++ wordBytes (s.reg (x + 1))) m s

/-- LADDR, data form (40_memory_reference.md R187). -/
def execLaddr (x : Reg) (m : MemRef) (s : State) : Out := loadAddress .data x m s

/-- LADDR, code form, "laddrp" (40_memory_reference.md R188). -/
def execLaddrp (x : Reg) (m : MemRef) (s : State) : Out := loadAddress .code x m s

/-- The space an undefined memory-format opcode would address (30_encoding.md R145): code if
`op<1..2>` is 00 or 11. -/
def opcodeSpace (op : Byte) : Space := if mbit op 1 == mbit op 2 then .code else .data

/-- Whether a memory-format opcode has an index bit, `op<7>`: in rows A to F, not in rows 8 and 9
(30_encoding.md R136, ruling C20 of 90_conflicts.md; log entry 50). -/
def hasIndexBit (op : Byte) : Bool := mbit op 1 || mbit op 2

/-- The address operand an undefined memory-format opcode would have, as a defined reference of its
row (60_exceptions.md R442). -/
def opcodeMemRef (op : Byte) (y : Reg) (d : Disp) : MemRef :=
  { form := if hasIndexBit op && mbit op 7 then .indexed else .direct, y := y, disp := d }

/-- An undefined register-format instruction, 4C with an unlisted subop among them: the illegal
instruction trap with SR2 the Rx field and SR3 the Ry field (60_exceptions.md R442). -/
def execUndefinedReg (op : Byte) (x y : Nib) (s : State) : Out :=
  enterEvent (opcodeTrap ccbIllegalInstruction op (nibWord x) (nibWord y) s) s

/-- An undefined memory-format instruction: the illegal instruction trap with SR2 the segment
number and SR3 the address the opcode's format bits describe (60_exceptions.md R442). -/
def execUndefinedMem (op : Byte) (_x y : Nib) (d : Disp) (s : State) : Out :=
  enterEvent
    (opcodeTrap ccbIllegalInstruction op (trapSegment (opcodeSpace op) s)
      (effectiveAddress (opcodeSpace op) (opcodeMemRef op y d) s) s)
    (segmentDrawn s)

end Sys2Proof.Machine
end

