-- ==== Sys2Proof/Machine/BitShift.lean ====
section
/-! DEFINITION. Bit, test, integer compare, shift and sign-extend instructions
(43_bit_compare_shift.md). -/

namespace Sys2Proof.Machine

/-- CBIT (43_bit_compare_shift.md R301). -/
def execCbit (x y : Reg) (s : State) : Out :=
  resultPair x (setMbit (s.pair x) (bitNumber y s) false) s

/-- SBIT (43_bit_compare_shift.md R302). -/
def execSbit (x y : Reg) (s : State) : Out :=
  resultPair x (setMbit (s.pair x) (bitNumber y s) true) s

/-- TBIT (43_bit_compare_shift.md R303). -/
def execTbit (x y : Reg) (s : State) : Out :=
  result x (boolWord (mbit (s.pair x) (bitNumber y s))) s

/-- TEST > (43_bit_compare_shift.md R306). -/
def execTestGt (x : Reg) (b : Src) (s : State) : Out :=
  result x (boolWord ((srcValue b s).slt (s.reg x))) s

/-- TEST < (43_bit_compare_shift.md R307). -/
def execTestLt (x : Reg) (b : Src) (s : State) : Out :=
  result x (boolWord ((s.reg x).slt (srcValue b s))) s

/-- TEST = (43_bit_compare_shift.md R308). -/
def execTestEq (x : Reg) (b : Src) (s : State) : Out :=
  result x (boolWord (s.reg x == srcValue b s)) s

/-- TEST <= (43_bit_compare_shift.md R309). -/
def execTestLe (x : Reg) (b : Src) (s : State) : Out :=
  result x (boolWord ((s.reg x).sle (srcValue b s))) s

/-- TEST >= (43_bit_compare_shift.md R310). -/
def execTestGe (x : Reg) (b : Src) (s : State) : Out :=
  result x (boolWord ((srcValue b s).sle (s.reg x))) s

/-- TEST <> (43_bit_compare_shift.md R311). -/
def execTestNe (x : Reg) (b : Src) (s : State) : Out :=
  result x (boolWord (s.reg x != srcValue b s)) s

/-- The result of a compare: -1, 0 or +1 (43_bit_compare_shift.md R312). -/
def compareWord (a b : Int) : Word :=
  if a < b then 0xFFFFFFFF#32 else if a = b then 0#32 else 1#32

/-- LCOMP (43_bit_compare_shift.md R312). -/
def execLcomp (x y : Reg) (s : State) : Out :=
  result x (compareWord ((s.reg x).toNat : Int) ((s.reg y).toNat : Int)) s

/-- DCOMP (43_bit_compare_shift.md R313). -/
def execDcomp (x y : Reg) (s : State) : Out :=
  result x (compareWord (s.pair x).toInt (s.pair y).toInt) s

/-- LSL (43_bit_compare_shift.md R319). -/
def execLsl (x : Reg) (c : Src) (s : State) : Out := result x (s.reg x <<< shiftCount c s) s

/-- LSR (43_bit_compare_shift.md R320). -/
def execLsr (x : Reg) (c : Src) (s : State) : Out := result x (s.reg x >>> shiftCount c s) s

/-- The opcode of a shift: the register form, or 10 hex more for the immediate form
(30_encoding.md R150). -/
def shiftOpcode (op : Byte) (c : Src) : Byte :=
  match c with
  | .reg _ => op
  | .imm _ => op + 0x10#8

/-- ASL (43_bit_compare_shift.md R321). -/
def execAsl (x : Reg) (c : Src) (s : State) : Out :=
  if aslOverflows (s.reg x) (shiftCount c s) then
    arithCondition 16 (shiftOpcode 0x62 c) x (srcField c)
      (s.setReg x (s.reg x <<< shiftCount c s))
  else result x (s.reg x <<< shiftCount c s) s

/-- ASR (43_bit_compare_shift.md R322). -/
def execAsr (x : Reg) (c : Src) (s : State) : Out :=
  result x ((s.reg x).sshiftRight (shiftCount c s)) s

/-- DLSL (43_bit_compare_shift.md R324). -/
def execDlsl (x : Reg) (c : Src) (s : State) : Out :=
  resultPair x (s.pair x <<< doubleShiftCount c s) s

/-- DLSR (43_bit_compare_shift.md R325). -/
def execDlsr (x : Reg) (c : Src) (s : State) : Out :=
  resultPair x (s.pair x >>> doubleShiftCount c s) s

/-- CSL (43_bit_compare_shift.md R323). -/
def execCsl (x : Reg) (c : Src) (s : State) : Out :=
  result x ((s.reg x).rotateLeft (shiftCount c s)) s

/-- SEB (43_bit_compare_shift.md R330). -/
def execSeb (x y : Reg) (s : State) : Out := result x ((lowByte (s.reg y)).signExtend 32) s

/-- SEH (43_bit_compare_shift.md R331). -/
def execSeh (x y : Reg) (s : State) : Out := result x ((lowHalf (s.reg y)).signExtend 32) s

end Sys2Proof.Machine
end

