-- ==== Sys2Proof/Machine/Real.lean ====
section
/-! DEFINITION. Real arithmetic as functions of bit patterns, computed exactly and rounded once
(42_real.md R250 to R264, R270 to R273, R281 to R283). A pattern is a number below 2 to the width
of its format. -/

namespace Sys2Proof.Machine

/-- A real format: the widths of its exponent and mantissa fields (42_real.md R250, R251). -/
structure RealFormat where
  expBits : Nat
  fracBits : Nat
deriving DecidableEq, Repr

/-- Single precision (42_real.md R250). -/
def single : RealFormat := { expBits := 8, fracBits := 23 }

/-- Double precision (42_real.md R251). -/
def double : RealFormat := { expBits := 11, fracBits := 52 }

/-- The exponent code of INF and NaN, `EALL` (42_real.md R252). -/
def expAll (f : RealFormat) : Nat := 2 ^ f.expBits - 1

/-- The exponent bias: 127 or 1023 (42_real.md R250, R251). -/
def bias (f : RealFormat) : Nat := 2 ^ (f.expBits - 1) - 1

/-- The classes of real values (42_real.md R252). -/
inductive RealClass where
  | zero
  | denormal
  | number
  | infinity
  | nan
deriving DecidableEq, Repr

/-- A real value taken apart: sign, exponent code, mantissa. -/
structure Unpacked where
  sign : Bool
  exp : Nat
  frac : Nat
deriving DecidableEq, Repr

/-- Take a pattern apart (42_real.md R250, R251). -/
def unpack (f : RealFormat) (v : Nat) : Unpacked :=
  { sign := v / 2 ^ (f.expBits + f.fracBits) % 2 == 1
    exp := v / 2 ^ f.fracBits % 2 ^ f.expBits
    frac := v % 2 ^ f.fracBits }

/-- Put a pattern together. -/
def pack (f : RealFormat) (sign : Bool) (e m : Nat) : Nat :=
  ((if sign then 2 ^ f.expBits else 0) + e) * 2 ^ f.fracBits + m

/-- The class of a value (42_real.md R252). -/
def classOf (f : RealFormat) (u : Unpacked) : RealClass :=
  if u.exp = 0 then (if u.frac = 0 then .zero else .denormal)
  else if u.exp = expAll f then (if u.frac = 0 then .infinity else .nan)
  else .number

/-- DN is treated as Zero (42_real.md R252). -/
def zeroLike (c : RealClass) : Bool := c == .zero || c == .denormal

/-- NaN is treated as INF (42_real.md R252). -/
def infinityLike (c : RealClass) : Bool := c == .infinity || c == .nan

/-- The pattern of a Zero. -/
def zeroBits (f : RealFormat) (sign : Bool) : Nat := pack f sign 0 0

/-- The pattern of an INF (42_real.md R252). -/
def infinityBits (f : RealFormat) (sign : Bool) : Nat := pack f sign (expAll f) 0

/-! ### Rounding -/

/-- The rounding modes; the first four are those of the Round field (42_real.md R253, R272). -/
inductive Rounding where
  | nearestEven
  | plusInfinity
  | minusInfinity
  | toZero
  | nearestAway
deriving DecidableEq, Repr

/-- The rounding mode the traps word selects (10_state.md R43). -/
def roundMode (tw : Word) : Rounding :=
  match mbit tw roundField, mbit tw (roundField + 1) with
  | false, false => .nearestEven
  | false, true => .plusInfinity
  | true, false => .minusInfinity
  | true, true => .toZero

/-- Whether the magnitude `q + r/d`, with `r < d`, is rounded up to `q + 1` (42_real.md R253). -/
def roundsUp (mode : Rounding) (sign : Bool) (q r d : Nat) : Bool :=
  match mode with
  | .nearestEven => d < 2 * r || (2 * r == d && q % 2 == 1)
  | .plusInfinity => !sign && r != 0
  | .minusInfinity => sign && r != 0
  | .toZero => false
  | .nearestAway => d ≤ 2 * r

/-- The exact real number `(-1)^sign × num / den × 2^exp`. -/
structure Exact where
  sign : Bool
  num : Nat
  den : Nat
  exp : Int
deriving DecidableEq, Repr

/-- A rounded value: sign, unbounded biased exponent, significand with its leading one, and whether
rounding changed it (42_real.md R253). -/
structure Rounded where
  sign : Bool
  exp : Int
  sig : Nat
  inexact : Bool
deriving DecidableEq, Repr

/-- `(quotient, remainder, divisor)` of `num × 2^k` by `den`. -/
def scaledDiv (v : Exact) (k : Int) : Nat × Nat × Nat :=
  let n := v.num * 2 ^ k.toNat
  let d := v.den * 2 ^ (-k).toNat
  (n / d, n % d, d)

/-- The scale that brings `num / den` to a quotient of `p` bits. -/
def scaleFor (p : Nat) (v : Exact) : Int :=
  let k : Int := (p : Int) + (v.den.log2 : Int) - (v.num.log2 : Int)
  if (scaledDiv v k).1 < 2 ^ p then k else k - 1

/-- `RoundTo(p, mode, r)` for a non-zero `r`, with `p` the significand width of the format
(42_real.md R253). -/
def roundTo (f : RealFormat) (mode : Rounding) (v : Exact) : Rounded :=
  let k := scaleFor (f.fracBits + 1) v
  let (q, r, d) := scaledDiv v k
  let e : Int := v.exp - k + f.fracBits + bias f
  let q' := if roundsUp mode v.sign q r d then q + 1 else q
  if q' = 2 ^ (f.fracBits + 1) then
    { sign := v.sign, exp := e + 1, sig := 2 ^ f.fracBits, inexact := r != 0 }
  else { sign := v.sign, exp := e, sig := q', inexact := r != 0 }

/-- The exact value of a number (42_real.md R250). -/
def exactOf (f : RealFormat) (u : Unpacked) : Exact :=
  { sign := u.sign, num := 2 ^ f.fracBits + u.frac, den := 1,
    exp := (u.exp : Int) - bias f - f.fracBits }

/-- The pattern of a rounded value, the exponent field taken modulo its width: the value itself
when the exponent is in range, else the wrapped result (42_real.md R263). -/
def packRounded (f : RealFormat) (r : Rounded) : Nat :=
  pack f r.sign (r.exp % (2 ^ f.expBits : Int)).toNat (r.sig % 2 ^ f.fracBits)

/-! ### Results -/

/-- What a real instruction delivers to its destination, if anything, and the arithmetic trap it
then raises, if any (42_real.md R261). -/
structure RealResult where
  value : Option Nat
  trap : Option Nat
deriving DecidableEq, Repr

/-- Deliver a value and raise nothing. -/
def delivers (v : Nat) : RealResult := { value := some v, trap := none }

/-- The inexact trap, if it is enabled (42_real.md R260). -/
def inexactTrap (tw : Word) (inexact : Bool) : Option Nat :=
  if inexact && mbit tw 24 then some 24 else none

/-- Deliver a rounded result: overflow, underflow, inexact (42_real.md R258 to R261). -/
def deliverRounded (f : RealFormat) (tw : Word) (r : Rounded) : RealResult :=
  if (expAll f : Int) ≤ r.exp then
    if mbit tw 18 then { value := some (packRounded f r), trap := some 18 }
    else { value := some (infinityBits f r.sign), trap := inexactTrap tw r.inexact }
  else if r.exp < 1 then
    if mbit tw 19 then { value := some (packRounded f r), trap := some 19 }
    else { value := some (zeroBits f false), trap := inexactTrap tw r.inexact }
  else { value := some (packRounded f r), trap := inexactTrap tw r.inexact }

/-! ### The four arithmetic operations -/

/-- The four operations (42_real.md R264). -/
inductive RealOp where
  | add
  | sub
  | mul
  | div
deriving DecidableEq, Repr

/-- The sign of a zero sum, note 4 of Table 4-1 (42_real.md R255). -/
def zeroSumSignOf (s1 s2 : Bool) : Bool :=
  match zeroSumSign with
  | .bothNegative => s1 && s2
  | .alwaysPositive => false

/-- The sign of operand 2 as an addend: complemented by a subtraction (42_real.md R255). -/
def addendSign (op : RealOp) (u : Unpacked) : Bool := if op = .sub then !u.sign else u.sign

/-- Table 4-1, arithmetic part, where an operand is no number; `none` is "Div-by-0"
(42_real.md R255). -/
def table41 (f : RealFormat) (op : RealOp) (a b : Unpacked) : Option Nat :=
  let za := zeroLike (classOf f a)
  let zb := zeroLike (classOf f b)
  let ia := infinityLike (classOf f a)
  let ib := infinityLike (classOf f b)
  let xor := a.sign != b.sign
  match op with
  | .add | .sub =>
    let s2 := addendSign op b
    if ia && ib then some (infinityBits f false)
    else if ia then some (infinityBits f a.sign)
    else if ib then some (infinityBits f s2)
    else if za && zb then some (zeroBits f (zeroSumSignOf a.sign s2))
    else if za then some (pack f s2 b.exp b.frac)
    else some (pack f a.sign a.exp a.frac)
  | .mul =>
    if za || zb then some (zeroBits f xor) else some (infinityBits f xor)
  | .div =>
    if zb then none
    else if za || ib then some (zeroBits f xor)
    else some (infinityBits f xor)

/-- `(-1)^sign × n` as an integer. -/
def signedNat (sign : Bool) (n : Nat) : Int := if sign then -(n : Int) else n

/-- The exact result of an operation on two numbers (42_real.md R264). -/
def exactOp (f : RealFormat) (op : RealOp) (a b : Unpacked) : Exact :=
  let x := exactOf f a
  let y := exactOf f b
  match op with
  | .add | .sub =>
    let e := min x.exp y.exp
    let n := signedNat a.sign (x.num * 2 ^ (x.exp - e).toNat) +
      signedNat (addendSign op b) (y.num * 2 ^ (y.exp - e).toNat)
    { sign := decide (n < 0), num := n.natAbs, den := 1, exp := e }
  | .mul =>
    { sign := a.sign != b.sign, num := x.num * y.num, den := 1, exp := x.exp + y.exp }
  | .div =>
    { sign := a.sign != b.sign, num := x.num, den := y.num, exp := x.exp - y.exp }

/-- Whether a class is special for a conversion or a compare: DN, INF or NaN
(42_real.md R254). -/
def specialOperand (c : RealClass) : Bool := c == .denormal || infinityLike c

/-- Whether a class is special for the arithmetic: every class but N; Zero by the numbered rules
(42_real.md R254, R264; log entry 38). -/
def specialAddend (c : RealClass) : Bool :=
  specialOperand c || (c == .zero && beforeZero == .special)

/-- A real arithmetic operation on two patterns (42_real.md R264). -/
def realArith (f : RealFormat) (op : RealOp) (tw : Word) (a b : Nat) : RealResult :=
  let ua := unpack f a
  let ub := unpack f b
  if classOf f ua = .number ∧ classOf f ub = .number then
    if (exactOp f op ua ub).num = 0 then
      delivers (zeroBits f (zeroSumSignOf ua.sign (addendSign op ub)))
    else deliverRounded f tw (roundTo f (roundMode tw) (exactOp f op ua ub))
  else if mbit tw 25 && (specialAddend (classOf f ua) || specialAddend (classOf f ub)) then
    { value := none, trap := some 25 }
  else
    match table41 f op ua ub with
    | some r => delivers r
    | none =>
      if mbit tw 20 then { value := none, trap := some 20 }
      else delivers (infinityBits f (ua.sign != ub.sign))

/-! ### Conversions -/

/-- An integer to a real, rounded if necessary (42_real.md R270, R280). -/
def realOfInt (f : RealFormat) (tw : Word) (n : Int) : RealResult :=
  if n = 0 then delivers 0
  else
    deliverRounded f tw
      (roundTo f (roundMode tw) { sign := decide (n < 0), num := n.natAbs, den := 1, exp := 0 })

/-- The largest integer of a sign (42_real.md R256). -/
def largestInteger (sign : Bool) : Nat := if sign then 0x80000000 else 0x7FFFFFFF

/-- A real to an integer: the magnitude is cut off and rounded by `mode`; `inexactCounts` says
whether a changed value is the inexact condition (42_real.md R271, R272). -/
def intOfReal (f : RealFormat) (mode : Rounding) (inexactCounts : Bool) (tw : Word) (b : Nat) :
    RealResult :=
  let u := unpack f b
  let c := classOf f u
  if c = .zero then delivers 0
  else if specialOperand c then
    if mbit tw 25 then { value := none, trap := some 25 }
    else delivers (if c = .denormal then 0 else largestInteger u.sign)
  else
    let (q, r, d) := scaledDiv (exactOf f u) (exactOf f u).exp
    let t := signedNat u.sign (if roundsUp mode u.sign q r d then q + 1 else q)
    if t < -(2 ^ 31) ∨ 2 ^ 31 ≤ t then
      { value := some (largestInteger u.sign), trap := if mbit tw 18 then some 18 else none }
    else
      { value := some (t % 2 ^ 32).toNat, trap := inexactTrap tw (inexactCounts && r != 0) }

/-- The rounding of FIXR and DFIXR (42_real.md R272). -/
def fixMode (tw : Word) : Rounding :=
  match fixRound with
  | .nearestEven => .nearestEven
  | .nearestAway => .nearestAway
  | .byMode => roundMode tw

/-- A single to a double, exact (42_real.md R273). -/
def doubleOfSingle (tw : Word) (b : Nat) : RealResult :=
  let u := unpack single b
  let c := classOf single u
  if c = .zero then delivers (zeroBits double u.sign)
  else if specialOperand c then
    if mbit tw 25 then { value := none, trap := some 25 }
    else delivers (if c = .denormal then zeroBits double u.sign else infinityBits double u.sign)
  else delivers (pack double u.sign (u.exp + 1023 - 127) (u.frac * 2 ^ 29))

/-- A double rounded to a single; overflow and underflow give INF and Zero with the trap on or off
(42_real.md R283). -/
def singleOfDouble (tw : Word) (b : Nat) : RealResult :=
  let u := unpack double b
  let c := classOf double u
  if c = .zero then delivers (zeroBits single u.sign)
  else if specialOperand c then
    if mbit tw 25 then { value := none, trap := some 25 }
    else delivers (if c = .denormal then zeroBits single u.sign else infinityBits single u.sign)
  else
    let r := roundTo single (roundMode tw) (exactOf double u)
    if 255 ≤ r.exp then
      { value := some (infinityBits single r.sign),
        trap := if mbit tw 18 then some 18 else inexactTrap tw r.inexact }
    else if r.exp < 1 then
      { value := some (zeroBits single r.sign),
        trap := if mbit tw 19 then some 19 else inexactTrap tw r.inexact }
    else { value := some (packRounded single r), trap := inexactTrap tw r.inexact }

/-! ### Compares -/

/-- The key by which a compare orders patterns (43_bit_compare_shift.md R314, R315). -/
def realKey (f : RealFormat) (b : Nat) : Int :=
  let u := unpack f b
  let c := classOf f u
  if zeroLike c then 0
  else if infinityLike c then signedNat u.sign (expAll f * 2 ^ f.fracBits)
  else signedNat u.sign (u.exp * 2 ^ f.fracBits + u.frac)

/-- Whether a compare has a special operand (43_bit_compare_shift.md R314). -/
def compareSpecial (f : RealFormat) (a b : Nat) : Bool :=
  specialOperand (classOf f (unpack f a)) || specialOperand (classOf f (unpack f b))

end Sys2Proof.Machine
end

