-- ==== Sys2Proof/Machine/RealArith.lean ====
section
/-! DEFINITION. Real and double real instructions (42_real.md) and the real compares
(43_bit_compare_shift.md R314, R315). -/

namespace Sys2Proof.Machine

/-- The trap that follows the delivery, if any (42_real.md R261). -/
def finishReal (op : Byte) (x y : Nib) (trap : Option Nat) (s : State) : Out :=
  match trap with
  | some n => raiseArith op x y (BitVec.ofNat 32 n) s
  | none => .next (s.advance 2)

/-- Deliver a single-word result to Rx. -/
def realToReg (op : Byte) (x y : Nib) (r : RealResult) (s : State) : Out :=
  finishReal op x y r.trap
    (match r.value with
     | some v => s.setReg x (BitVec.ofNat 32 v)
     | none => s)

/-- Deliver a double-word result to RPx. -/
def realToPair (op : Byte) (x y : Nib) (r : RealResult) (s : State) : Out :=
  finishReal op x y r.trap
    (match r.value with
     | some v => s.setPair x (BitVec.ofNat 64 v)
     | none => s)

/-- Single arithmetic on Rx and Ry. -/
def singleArith (op : Byte) (o : RealOp) (x y : Reg) (s : State) : Out :=
  realToReg op x y (realArith single o s.tw (s.reg x).toNat (s.reg y).toNat) s

/-- Double arithmetic on RPx and RPy. -/
def doubleArith (op : Byte) (o : RealOp) (x y : Reg) (s : State) : Out :=
  realToPair op x y (realArith double o s.tw (s.pair x).toNat (s.pair y).toNat) s

/-- RADD (42_real.md R265). -/
def execRadd (x y : Reg) (s : State) : Out := singleArith 0x23 .add x y s

/-- RSUB (42_real.md R266). -/
def execRsub (x y : Reg) (s : State) : Out := singleArith 0x24 .sub x y s

/-- RMPY (42_real.md R267). -/
def execRmpy (x y : Reg) (s : State) : Out := singleArith 0x25 .mul x y s

/-- RDIV (42_real.md R268). -/
def execRdiv (x y : Reg) (s : State) : Out := singleArith 0x26 .div x y s

/-- RNEG (42_real.md R269). -/
def execRneg (x y : Reg) (s : State) : Out := result x (s.reg y ^^^ 0x80000000#32) s

/-- FLOAT (42_real.md R270). -/
def execFloat (x y : Reg) (s : State) : Out :=
  realToReg 0x29 x y (realOfInt single s.tw (s.reg y).toInt) s

/-- FIXT (42_real.md R271). -/
def execFixt (x y : Reg) (s : State) : Out :=
  realToReg 0x20 x y (intOfReal single .toZero false s.tw (s.reg y).toNat) s

/-- FIXR (42_real.md R272). -/
def execFixr (x y : Reg) (s : State) : Out :=
  realToReg 0x21 x y (intOfReal single (fixMode s.tw) true s.tw (s.reg y).toNat) s

/-- MAKERD (42_real.md R273). -/
def execMakerd (x y : Reg) (s : State) : Out :=
  realToPair 0x27 x y (doubleOfSingle s.tw (s.reg y).toNat) s

/-- DRADD (42_real.md R275). -/
def execDradd (x y : Reg) (s : State) : Out := doubleArith 0x33 .add x y s

/-- DRSUB (42_real.md R276). -/
def execDrsub (x y : Reg) (s : State) : Out := doubleArith 0x34 .sub x y s

/-- DRMPY (42_real.md R277). -/
def execDrmpy (x y : Reg) (s : State) : Out := doubleArith 0x35 .mul x y s

/-- DRDIV (42_real.md R278). -/
def execDrdiv (x y : Reg) (s : State) : Out := doubleArith 0x36 .div x y s

/-- DRNEG (42_real.md R279). -/
def execDrneg (x y : Reg) (s : State) : Out :=
  resultPair x (s.pair y ^^^ 0x8000000000000000#64) s

/-- DFLOAT (42_real.md R280). -/
def execDfloat (x y : Reg) (s : State) : Out :=
  realToPair 0x39 x y (realOfInt double s.tw (s.reg y).toInt) s

/-- DFIXT (42_real.md R281). -/
def execDfixt (x y : Reg) (s : State) : Out :=
  realToReg 0x30 x y (intOfReal double .toZero false s.tw (s.pair y).toNat) s

/-- DFIXR (42_real.md R282). -/
def execDfixr (x y : Reg) (s : State) : Out :=
  realToReg 0x31 x y (intOfReal double (fixMode s.tw) true s.tw (s.pair y).toNat) s

/-- MAKEDR (42_real.md R283). -/
def execMakedr (x y : Reg) (s : State) : Out :=
  realToReg 0x37 x y (singleOfDouble s.tw (s.pair y).toNat) s

/-- RCOMP (43_bit_compare_shift.md R314). -/
def execRcomp (x y : Reg) (s : State) : Out :=
  if compareSpecial single (s.reg x).toNat (s.reg y).toNat && mbit s.tw 25 then
    raiseArith 0x2A x y 25 s
  else
    result x (compareWord (realKey single (s.reg x).toNat) (realKey single (s.reg y).toNat)) s

/-- DRCOMP (43_bit_compare_shift.md R315). -/
def execDrcomp (x y : Reg) (s : State) : Out :=
  if compareSpecial double (s.pair x).toNat (s.pair y).toNat && mbit s.tw 25 then
    raiseArith 0x3A x y 25 s
  else
    result x (compareWord (realKey double (s.pair x).toNat) (realKey double (s.pair y).toNat)) s

end Sys2Proof.Machine
end

