-- ==== Sys2Proof/Machine/Dispatch.lean ====
section
/-! DEFINITION. The meaning of every instruction: one arm per constructor. -/

namespace Sys2Proof.Machine

def exec (i : Instr) (s : State) : Host.Outcome State Fault Refusal :=
  match i with
  | .move x y => Sys2Proof.Machine.execMove x y s
  | .neg x y => Sys2Proof.Machine.execNeg x y s
  | .add x y => Sys2Proof.Machine.execAdd x y s
  | .sub x y => Sys2Proof.Machine.execSub x y s
  | .mpy x y => Sys2Proof.Machine.execMpy x y s
  | .div x y => Sys2Proof.Machine.execDiv x y s
  | .rem x y => Sys2Proof.Machine.execRem x y s
  | .not x y => Sys2Proof.Machine.execNot x y s
  | .or x y => Sys2Proof.Machine.execOr x y s
  | .xor x y => Sys2Proof.Machine.execXor x y s
  | .and x y => Sys2Proof.Machine.execAnd x y s
  | .cbit x y => Sys2Proof.Machine.execCbit x y s
  | .sbit x y => Sys2Proof.Machine.execSbit x y s
  | .tbit x y => Sys2Proof.Machine.execTbit x y s
  | .chk x y => Sys2Proof.Machine.execChk x y s
  | .nop x y => Sys2Proof.Machine.execNop x y s
  | .movei x n => Sys2Proof.Machine.execMovei x n s
  | .addi x n => Sys2Proof.Machine.execAddi x n s
  | .subi x n => Sys2Proof.Machine.execSubi x n s
  | .mpyi x n => Sys2Proof.Machine.execMpyi x n s
  | .noti x n => Sys2Proof.Machine.execNoti x n s
  | .andi x n => Sys2Proof.Machine.execAndi x n s
  | .chki x n => Sys2Proof.Machine.execChki x n s
  | .fixt x y => Sys2Proof.Machine.execFixt x y s
  | .fixr x y => Sys2Proof.Machine.execFixr x y s
  | .rneg x y => Sys2Proof.Machine.execRneg x y s
  | .radd x y => Sys2Proof.Machine.execRadd x y s
  | .rsub x y => Sys2Proof.Machine.execRsub x y s
  | .rmpy x y => Sys2Proof.Machine.execRmpy x y s
  | .rdiv x y => Sys2Proof.Machine.execRdiv x y s
  | .makerd x y => Sys2Proof.Machine.execMakerd x y s
  | .lcomp x y => Sys2Proof.Machine.execLcomp x y s
  | .float x y => Sys2Proof.Machine.execFloat x y s
  | .rcomp x y => Sys2Proof.Machine.execRcomp x y s
  | .eadd x y => Sys2Proof.Machine.execEadd x y s
  | .esub x y => Sys2Proof.Machine.execEsub x y s
  | .empy x y => Sys2Proof.Machine.execEmpy x y s
  | .ediv x y => Sys2Proof.Machine.execEdiv x y s
  | .dfixt x y => Sys2Proof.Machine.execDfixt x y s
  | .dfixr x y => Sys2Proof.Machine.execDfixr x y s
  | .drneg x y => Sys2Proof.Machine.execDrneg x y s
  | .dradd x y => Sys2Proof.Machine.execDradd x y s
  | .drsub x y => Sys2Proof.Machine.execDrsub x y s
  | .drmpy x y => Sys2Proof.Machine.execDrmpy x y s
  | .drdiv x y => Sys2Proof.Machine.execDrdiv x y s
  | .makedr x y => Sys2Proof.Machine.execMakedr x y s
  | .dcomp x y => Sys2Proof.Machine.execDcomp x y s
  | .dfloat x y => Sys2Proof.Machine.execDfloat x y s
  | .drcomp x y => Sys2Proof.Machine.execDrcomp x y s
  | .trap x n => Sys2Proof.Machine.execTrap x n s
  | .sus x y => Sys2Proof.Machine.execSus x y s
  | .lus x y => Sys2Proof.Machine.execLus x y s
  | .rum x y => Sys2Proof.Machine.execRum x y s
  | .ldregs x y => Sys2Proof.Machine.execLdregs x y s
  | .trans x y => Sys2Proof.Machine.execTrans x y s
  | .dirt x y => Sys2Proof.Machine.execDirt x y s
  | .movesr x y => Sys2Proof.Machine.execMovesr x y s
  | .movers x y => Sys2Proof.Machine.execMovers x y s
  | .elogr x => Sys2Proof.Machine.execElogr x s
  | .elogw x => Sys2Proof.Machine.execElogw x s
  | .twrited x => Sys2Proof.Machine.execTwrited x s
  | .flush x => Sys2Proof.Machine.execFlush x s
  | .trapexit x => Sys2Proof.Machine.execTrapexit x s
  | .itest x => Sys2Proof.Machine.execItest x s
  | .machineid x => Sys2Proof.Machine.execMachineid x s
  | .version x => Sys2Proof.Machine.execVersion x s
  | .creg x => Sys2Proof.Machine.execCreg x s
  | .rdlog x => Sys2Proof.Machine.execRdlog x s
  | .read x y => Sys2Proof.Machine.execRead x y s
  | .write x y => Sys2Proof.Machine.execWrite x y s
  | .testGt x b => Sys2Proof.Machine.execTestGt x b s
  | .testLt x b => Sys2Proof.Machine.execTestLt x b s
  | .testEq x b => Sys2Proof.Machine.execTestEq x b s
  | .testLe x b => Sys2Proof.Machine.execTestLe x b s
  | .testGe x b => Sys2Proof.Machine.execTestGe x b s
  | .testNe x b => Sys2Proof.Machine.execTestNe x b s
  | .callr x y => Sys2Proof.Machine.execCallr x y s
  | .ret x y => Sys2Proof.Machine.execRet x y s
  | .kcall num => Sys2Proof.Machine.execKcall num s
  | .lsl x c => Sys2Proof.Machine.execLsl x c s
  | .lsr x c => Sys2Proof.Machine.execLsr x c s
  | .asl x c => Sys2Proof.Machine.execAsl x c s
  | .asr x c => Sys2Proof.Machine.execAsr x c s
  | .dlsl x c => Sys2Proof.Machine.execDlsl x c s
  | .dlsr x c => Sys2Proof.Machine.execDlsr x c s
  | .csl x c => Sys2Proof.Machine.execCsl x c s
  | .seb x y => Sys2Proof.Machine.execSeb x y s
  | .seh x y => Sys2Proof.Machine.execSeh x y s
  | .br x y d => Sys2Proof.Machine.execBr x y d s
  | .brGt x b d => Sys2Proof.Machine.execBrGt x b d s
  | .brEq x b d => Sys2Proof.Machine.execBrEq x b d s
  | .brLt x n d => Sys2Proof.Machine.execBrLt x n d s
  | .brLe x b d => Sys2Proof.Machine.execBrLe x b d s
  | .brNe x b d => Sys2Proof.Machine.execBrNe x b d s
  | .brGe x n d => Sys2Proof.Machine.execBrGe x n d s
  | .call x y d => Sys2Proof.Machine.execCall x y d s
  | .loop x n d => Sys2Proof.Machine.execLoop x n d s
  | .storeb x m => Sys2Proof.Machine.execStoreb x m s
  | .storeh x m => Sys2Proof.Machine.execStoreh x m s
  | .store x m => Sys2Proof.Machine.execStore x m s
  | .stored x m => Sys2Proof.Machine.execStored x m s
  | .loadb x m => Sys2Proof.Machine.execLoadb x m s
  | .loadh x m => Sys2Proof.Machine.execLoadh x m s
  | .load x m => Sys2Proof.Machine.execLoad x m s
  | .loadd x m => Sys2Proof.Machine.execLoadd x m s
  | .laddr x m => Sys2Proof.Machine.execLaddr x m s
  | .loadbp x m => Sys2Proof.Machine.execLoadbp x m s
  | .loadhp x m => Sys2Proof.Machine.execLoadhp x m s
  | .loadp x m => Sys2Proof.Machine.execLoadp x m s
  | .loaddp x m => Sys2Proof.Machine.execLoaddp x m s
  | .laddrp x m => Sys2Proof.Machine.execLaddrp x m s
  | .undefinedReg op x y => Sys2Proof.Machine.execUndefinedReg op x y s
  | .undefinedMem op x y d => Sys2Proof.Machine.execUndefinedMem op x y d s

end Sys2Proof.Machine
end

