-- ==== Sys2Proof/Machine/OpcodeMap.lean ====
section
/-! DEFINITION. The columns of the opcode map that `BR_MAP` and `MEMOP_NIBBLE` place (log entry 25),
the cells that hold no instruction (30_encoding.md R150 to R152, R155), and the length of an
instruction (R131). -/

namespace Sys2Proof.Machine

/-- Register-format opcodes, 00 to 7F, that the map leaves empty (30_encoding.md R150). -/
def undefinedRegOps : List Byte :=
  [0x00, 0x12, 0x16, 0x17, 0x19, 0x1A, 0x1C, 0x1D, 0x1E, 0x2B, 0x3C, 0x3D, 0x3E, 0x3F,
   0x48, 0x49, 0x4A, 0x4B, 0x4D, 0x5F, 0x66, 0x67, 0x69, 0x6A, 0x6C, 0x6D, 0x6E, 0x6F,
   0x76, 0x77, 0x79, 0x7A, 0x7C, 0x7D, 0x7E, 0x7F]

/-- Subops of opcode 4C (MAINT) that are not listed (30_encoding.md R143). -/
def undefinedSubops : List Nib := [2, 3, 4, 9, 14, 15]

/-- The low nibbles of the branches whose column depends on `BR_MAP`, and the one of columns A to F
that is left empty (30_encoding.md R151). -/
structure BranchColumns where
  ne : Nib
  br : Nib
  leImm : Nib
  geImm : Nib
  neImm : Nib
  empty : Nib
deriving DecidableEq, Repr

/-- The two columns of R151's table (30_encoding.md R151). -/
def branchColumnsOf (p : BrMap) : BranchColumns :=
  match p with
  | .regular => { ne := 0xA, br := 0xB, leImm := 0xC, geImm := 0xD, neImm := 0xE, empty := 0xF }
  | .asExtracted => { ne := 0xB, br := 0xC, leImm := 0xD, geImm := 0xE, neImm := 0xF, empty := 0xA }

/-- The branch columns under the parameter `BR_MAP`. -/
def brColumns : BranchColumns := branchColumnsOf brMap

/-- The direct column of the byte instructions; the indexed one follows it (30_encoding.md R152). -/
def byteColumnOf (p : MemopNibble) : Nib :=
  match p.byte with
  | .col01 => 0x0
  | .col23 => 0x2

/-- The direct column of the double-word instructions; the indexed one follows it
(30_encoding.md R152). -/
def doubleColumnOf (p : MemopNibble) : Nib :=
  match p.double with
  | .colAB => 0xA
  | .colCD => 0xC

/-- The direct column of the byte instructions under the parameter `MEMOP_NIBBLE`. -/
def byteColumn : Nib := byteColumnOf memopNibble

/-- The direct column of the double-word instructions under the parameter `MEMOP_NIBBLE`. -/
def doubleColumn : Nib := doubleColumnOf memopNibble

/-- The columns of rows A to F that the byte instructions leave empty (30_encoding.md R152). -/
def emptyByteColumns (p : MemopNibble) : List Nib :=
  match p.byte with
  | .col01 => [2, 3]
  | .col23 => [0, 1]

/-- The columns of rows A to F that the double-word instructions leave empty
(30_encoding.md R152). -/
def emptyDoubleColumns (p : MemopNibble) : List Nib :=
  match p.double with
  | .colAB => [12, 13]
  | .colCD => [10, 11]

/-- The columns of rows A to F that hold no byte, halfword, word or double-word instruction, and
not LADDR's (30_encoding.md R152). -/
def emptyMemColumns (p : MemopNibble) : List Nib :=
  emptyByteColumns p ++ [6, 7] ++ emptyDoubleColumns p

/-- Low nibbles that rows 8 and 9, the branch group, leave empty (30_encoding.md R151). -/
def undefinedBranchColumns : List Nib := [1, 9, brColumns.empty]

/-- Low nibbles that rows A and B, the stores, leave empty (30_encoding.md R152). -/
def undefinedStoreColumns : List Nib := emptyMemColumns memopNibble ++ [14, 15]

/-- Low nibbles that rows C to F, the loads and LADDR, leave empty (30_encoding.md R152). -/
def undefinedLoadColumns : List Nib := emptyMemColumns memopNibble

/-- Whether a memory-format opcode, 80 to FF, is left empty by the map. -/
def undefinedMemOp (op : Byte) : Bool :=
  mbit op 0 &&
    (match mbit op 1, mbit op 2 with
     | false, false => undefinedBranchColumns.contains (loNib op)
     | false, true => undefinedStoreColumns.contains (loNib op)
     | true, _ => undefinedLoadColumns.contains (loNib op))

/-- Whether a register-format opcode with this second field is undefined: an empty cell, or opcode
4C with an unlisted subop (30_encoding.md R155). -/
def undefinedRegOp (op : Byte) (y : Nib) : Bool :=
  undefinedRegOps.contains op || (op == 0x4C#8 && undefinedSubops.contains y)

/-- Manual bit 3 of a memory-format opcode: the displacement is long (30_encoding.md R131). -/
def longDisp (op : Byte) : Bool := mbit op 3

/-- The length of an instruction in bytes, by its opcode alone (30_encoding.md R131). -/
def instrLength (op : Byte) : Nat :=
  if mbit op 0 then (if longDisp op then 6 else 4) else 2

end Sys2Proof.Machine
end

