-- ==== Sys2Proof/WellFormed.lean ====
section
/-! DEFINITION. Well-formed instructions. Every field of a defined instruction may take every
value; an undefined instruction must carry an opcode the map leaves empty, and, in the memory
format, a displacement of the length its opcode fixes (30_encoding.md R131, R155). -/

namespace Sys2Proof

/-- Whether the displacement is long. -/
def Disp.isLong (d : Disp) : Bool :=
  match d with
  | .short _ => false
  | .long _ => true

/-- The checks on an undefined memory-format instruction. -/
def wfUndefinedMem (op : Byte) (d : Disp) : Bool :=
  Machine.undefinedMemOp op && d.isLong == Machine.longDisp op

/-- Whether an instruction is well formed. -/
def Instr.wf (i : Instr) : Bool :=
  match i with
  | .move _ _ | .neg _ _ | .add _ _ | .sub _ _ | .mpy _ _ | .div _ _ | .rem _ _ | .not _ _
  | .or _ _ | .xor _ _ | .and _ _ | .cbit _ _ | .sbit _ _ | .tbit _ _ | .chk _ _ | .nop _ _
  | .movei _ _ | .addi _ _ | .subi _ _ | .mpyi _ _ | .noti _ _ | .andi _ _ | .chki _ _
  | .fixt _ _ | .fixr _ _ | .rneg _ _ | .radd _ _ | .rsub _ _ | .rmpy _ _ | .rdiv _ _
  | .makerd _ _ | .lcomp _ _ | .float _ _ | .rcomp _ _ | .eadd _ _ | .esub _ _ | .empy _ _
  | .ediv _ _ | .dfixt _ _ | .dfixr _ _ | .drneg _ _ | .dradd _ _ | .drsub _ _ | .drmpy _ _
  | .drdiv _ _ | .makedr _ _ | .dcomp _ _ | .dfloat _ _ | .drcomp _ _ | .trap _ _ => true
  | .sus _ _ | .lus _ _ | .rum _ _ | .ldregs _ _ | .trans _ _ | .dirt _ _ | .movesr _ _
  | .movers _ _ | .read _ _ | .write _ _ => true
  | .elogr _ | .elogw _ | .twrited _ | .flush _ | .trapexit _ | .itest _ | .machineid _
  | .version _ | .creg _ | .rdlog _ => true
  | .testGt _ _ | .testLt _ _ | .testEq _ _ | .testLe _ _ | .testGe _ _ | .testNe _ _ => true
  | .callr _ _ | .ret _ _ | .kcall _ => true
  | .lsl _ _ | .lsr _ _ | .asl _ _ | .asr _ _ | .dlsl _ _ | .dlsr _ _ | .csl _ _
  | .seb _ _ | .seh _ _ => true
  | .br _ _ _ | .brGt _ _ _ | .brEq _ _ _ | .brLt _ _ _ | .brLe _ _ _ | .brNe _ _ _
  | .brGe _ _ _ | .call _ _ _ | .loop _ _ _ => true
  | .storeb _ _ | .storeh _ _ | .store _ _ | .stored _ _ => true
  | .loadb _ _ | .loadh _ _ | .load _ _ | .loadd _ _ | .laddr _ _ => true
  | .loadbp _ _ | .loadhp _ _ | .loadp _ _ | .loaddp _ _ | .laddrp _ _ => true
  | .undefinedReg op _ y => Machine.undefinedRegOp op y
  | .undefinedMem op _ _ d => wfUndefinedMem op d

end Sys2Proof
end

