-- ==== Sys2Proof/Decode.lean ====
section
/-! DEFINITION. The decoder, total on any bytes, from the opcode map (30_encoding.md R150 to R155),
and the encoder. -/

namespace Sys2Proof

open Machine (hiNib loNib halfOf wordOf halfBytes wordBytes mbit longDisp brColumns byteColumn
  doubleColumn)

/-! ### The opcode map -/

/-- Rows 0 and 1 of the opcode map: opcode and instruction of the two fields
(30_encoding.md R150). -/
def opcodeRows01 : List (Byte × (Nib → Nib → Instr)) :=
  [(0x01, .move),
   (0x02, .neg),
   (0x03, .add),
   (0x04, .sub),
   (0x05, .mpy),
   (0x06, .div),
   (0x07, .rem),
   (0x08, .not),
   (0x09, .or),
   (0x0A, .xor),
   (0x0B, .and),
   (0x0C, .cbit),
   (0x0D, .sbit),
   (0x0E, .tbit),
   (0x0F, .chk),
   (0x10, .nop),
   (0x11, .movei),
   (0x13, .addi),
   (0x14, .subi),
   (0x15, .mpyi),
   (0x18, .noti),
   (0x1B, .andi),
   (0x1F, .chki)]

/-- Rows 2 and 3 of the opcode map (30_encoding.md R150). -/
def opcodeRows23 : List (Byte × (Nib → Nib → Instr)) :=
  [(0x20, .fixt),
   (0x21, .fixr),
   (0x22, .rneg),
   (0x23, .radd),
   (0x24, .rsub),
   (0x25, .rmpy),
   (0x26, .rdiv),
   (0x27, .makerd),
   (0x28, .lcomp),
   (0x29, .float),
   (0x2A, .rcomp),
   (0x2C, .eadd),
   (0x2D, .esub),
   (0x2E, .empy),
   (0x2F, .ediv),
   (0x30, .dfixt),
   (0x31, .dfixr),
   (0x32, .drneg),
   (0x33, .dradd),
   (0x34, .drsub),
   (0x35, .drmpy),
   (0x36, .drdiv),
   (0x37, .makedr),
   (0x38, .dcomp),
   (0x39, .dfloat),
   (0x3A, .drcomp),
   (0x3B, .trap)]

/-- Rows 4 and 5 of the opcode map, but for opcode 4C (30_encoding.md R150). -/
def opcodeRows45 : List (Byte × (Nib → Nib → Instr)) :=
  [(0x40, .sus),
   (0x41, .lus),
   (0x42, .rum),
   (0x43, .ldregs),
   (0x44, .trans),
   (0x45, .dirt),
   (0x46, .movesr),
   (0x47, .movers),
   (0x4E, .read),
   (0x4F, .write),
   (0x50, fun x y => .testGt x (.reg y)),
   (0x51, fun x y => .testLt x (.reg y)),
   (0x52, fun x y => .testEq x (.reg y)),
   (0x53, .callr),
   (0x54, fun x n => .testGt x (.imm n)),
   (0x55, fun x n => .testLt x (.imm n)),
   (0x56, fun x n => .testEq x (.imm n)),
   (0x57, .ret),
   (0x58, fun x y => .testLe x (.reg y)),
   (0x59, fun x y => .testGe x (.reg y)),
   (0x5A, fun x y => .testNe x (.reg y)),
   (0x5B, fun x y => .kcall (x ++ y)),
   (0x5C, fun x n => .testLe x (.imm n)),
   (0x5D, fun x n => .testGe x (.imm n)),
   (0x5E, fun x n => .testNe x (.imm n))]

/-- Rows 6 and 7 of the opcode map (30_encoding.md R150). -/
def opcodeRows67 : List (Byte × (Nib → Nib → Instr)) :=
  [(0x60, fun x y => .lsl x (.reg y)),
   (0x61, fun x y => .lsr x (.reg y)),
   (0x62, fun x y => .asl x (.reg y)),
   (0x63, fun x y => .asr x (.reg y)),
   (0x64, fun x y => .dlsl x (.reg y)),
   (0x65, fun x y => .dlsr x (.reg y)),
   (0x68, fun x y => .csl x (.reg y)),
   (0x6B, .seb),
   (0x70, fun x n => .lsl x (.imm n)),
   (0x71, fun x n => .lsr x (.imm n)),
   (0x72, fun x n => .asl x (.imm n)),
   (0x73, fun x n => .asr x (.imm n)),
   (0x74, fun x n => .dlsl x (.imm n)),
   (0x75, fun x n => .dlsr x (.imm n)),
   (0x78, fun x n => .csl x (.imm n)),
   (0x7B, .seh)]

/-- The register-format instructions, but for opcode 4C. -/
def regOpcodes : List (Byte × (Nib → Nib → Instr)) :=
  opcodeRows01 ++ opcodeRows23 ++ opcodeRows45 ++ opcodeRows67

/-- The subops of opcode 4C, MAINT (30_encoding.md R143). -/
def maintSubops : List (Nib × (Reg → Instr)) :=
  [(0, .elogr),
   (1, .elogw),
   (5, .twrited),
   (6, .flush),
   (7, .trapexit),
   (8, .itest),
   (10, .machineid),
   (11, .version),
   (12, .creg),
   (13, .rdlog)]

/-- Rows 8 and 9 of the opcode map by low nibble, as `BR_MAP` places them (30_encoding.md R151). -/
def branchColumns : List (Nib × (Nib → Nib → Disp → Instr)) :=
  [(0x0, fun x y => .brGt x (.reg y)),
   (0x2, fun x y => .brEq x (.reg y)),
   (0x3, .call),
   (0x4, fun x n => .brGt x (.imm n)),
   (0x5, .brLt),
   (0x6, fun x n => .brEq x (.imm n)),
   (0x7, .loop),
   (0x8, fun x y => .brLe x (.reg y)),
   (brColumns.ne, fun x y => .brNe x (.reg y)),
   (brColumns.br, .br),
   (brColumns.leImm, fun x n => .brLe x (.imm n)),
   (brColumns.geImm, .brGe),
   (brColumns.neImm, fun x n => .brNe x (.imm n))]

/-- A direct and an indexed cell of the opcode map: the even low nibble and the odd one after it
(30_encoding.md R145, R152). -/
def memCells (low : Nib) (f : Reg → MemRef → Instr) :
    List (Nib × (Nib → Nib → Disp → Instr)) :=
  [(low, fun x y d => f x { form := .direct, y := y, disp := d }),
   (low + 1, fun x y d => f x { form := .indexed, y := y, disp := d })]

/-- Rows A and B of the opcode map by low nibble, as `MEMOP_NIBBLE` places them
(30_encoding.md R152). -/
def storeColumns : List (Nib × (Nib → Nib → Disp → Instr)) :=
  memCells byteColumn .storeb ++ memCells 0x4 .storeh ++ memCells 0x8 .store ++
    memCells doubleColumn .stored

/-- Rows C and D of the opcode map by low nibble (30_encoding.md R152). -/
def dataLoadColumns : List (Nib × (Nib → Nib → Disp → Instr)) :=
  memCells byteColumn .loadb ++ memCells 0x4 .loadh ++ memCells 0x8 .load ++
    memCells doubleColumn .loadd ++ memCells 0xE .laddr

/-- Rows E and F of the opcode map by low nibble (30_encoding.md R152). -/
def codeLoadColumns : List (Nib × (Nib → Nib → Disp → Instr)) :=
  memCells byteColumn .loadbp ++ memCells 0x4 .loadhp ++ memCells 0x8 .loadp ++
    memCells doubleColumn .loaddp ++ memCells 0xE .laddrp

/-- The columns of a memory-format opcode's row, by `op<1..2>` (30_encoding.md R136). -/
def memColumns (op : Byte) : List (Nib × (Nib → Nib → Disp → Instr)) :=
  match mbit op 1, mbit op 2 with
  | false, false => branchColumns
  | false, true => storeColumns
  | true, false => dataLoadColumns
  | true, true => codeLoadColumns

/-! ### Decoding -/

/-- The instruction of a register-format opcode and its fields (30_encoding.md R132). -/
def decodeReg (op : Byte) (x y : Nib) : Instr :=
  if op = 0x4C#8 then
    match maintSubops.lookup y with
    | some f => f x
    | none => .undefinedReg op x y
  else
    match regOpcodes.lookup op with
    | some f => f x y
    | none => .undefinedReg op x y

/-- The instruction of a memory-format opcode, its fields and its displacement
(30_encoding.md R133, R134). -/
def decodeMem (op : Byte) (x y : Nib) (d : Disp) : Instr :=
  match (memColumns op).lookup (loNib op) with
  | some f => f x y d
  | none => .undefinedMem op x y d

/-- Why bytes are no instruction. -/
inductive DecodeError where
  /-- there are fewer bytes than the opcode's length (30_encoding.md R131) -/
  | truncated
deriving DecidableEq, Repr

/-- The instruction at the front of some bytes, and the bytes after it (30_encoding.md R135). Every
opcode is an instruction, an undefined one too; only too few bytes are rejected. -/
def decode (bytes : List Byte) : Except DecodeError (Instr × List Byte) :=
  match bytes with
  | op :: f :: rest =>
    if mbit op 0 then
      if longDisp op then
        match rest with
        | d0 :: d1 :: d2 :: d3 :: rest =>
          .ok (decodeMem op (hiNib f) (loNib f) (.long (wordOf d0 d1 d2 d3)), rest)
        | _ => .error .truncated
      else
        match rest with
        | d0 :: d1 :: rest =>
          .ok (decodeMem op (hiNib f) (loNib f) (.short (halfOf d0 d1)), rest)
        | _ => .error .truncated
    else .ok (decodeReg op (hiNib f) (loNib f), rest)
  | _ => .error .truncated

/-! ### Encoding -/

/-- The bytes of a register-format instruction (30_encoding.md R132, R135). -/
def regWord (op : Byte) (x y : Nib) : List Byte := [op, x ++ y]

/-- The bytes of a register-format instruction whose Ry field is a register or, with another
opcode, a constant (30_encoding.md R150). -/
def srcWord (opReg opImm : Byte) (x : Nib) (b : Src) : List Byte :=
  match b with
  | .reg y => regWord opReg x y
  | .imm n => regWord opImm x n

/-- The bytes of a memory-format instruction, from its short row, its long row and its column
(30_encoding.md R133 to R135). -/
def memWord (short long low : Nib) (x y : Nib) (d : Disp) : List Byte :=
  match d with
  | .short h => (short ++ low) :: (x ++ y) :: halfBytes h
  | .long w => (long ++ low) :: (x ++ y) :: wordBytes w

/-- The bytes of a branch group instruction, rows 8 and 9 (30_encoding.md R151). -/
def branchWord (low : Nib) (x y : Nib) (d : Disp) : List Byte := memWord 0x8 0x9 low x y d

/-- The bytes of a conditional branch on a register or, in another column, a constant
(30_encoding.md R151). -/
def branchSrcWord (lowReg lowImm : Nib) (x : Nib) (b : Src) (d : Disp) : List Byte :=
  match b with
  | .reg y => branchWord lowReg x y d
  | .imm n => branchWord lowImm x n d

/-- The bytes of a memory reference: the direct column, or the indexed one after it
(30_encoding.md R152). -/
def memRefWord (short long low : Nib) (x : Nib) (m : MemRef) : List Byte :=
  match m.form with
  | .direct => memWord short long low x m.y m.disp
  | .indexed => memWord short long (low + 1) x m.y m.disp

/-- The bytes of an instruction (30_encoding.md R130 to R152). -/
def encode (i : Instr) : List Byte :=
  match i with
  | .move x y => regWord 0x01 x y
  | .neg x y => regWord 0x02 x y
  | .add x y => regWord 0x03 x y
  | .sub x y => regWord 0x04 x y
  | .mpy x y => regWord 0x05 x y
  | .div x y => regWord 0x06 x y
  | .rem x y => regWord 0x07 x y
  | .not x y => regWord 0x08 x y
  | .or x y => regWord 0x09 x y
  | .xor x y => regWord 0x0A x y
  | .and x y => regWord 0x0B x y
  | .cbit x y => regWord 0x0C x y
  | .sbit x y => regWord 0x0D x y
  | .tbit x y => regWord 0x0E x y
  | .chk x y => regWord 0x0F x y
  | .nop x y => regWord 0x10 x y
  | .movei x y => regWord 0x11 x y
  | .addi x y => regWord 0x13 x y
  | .subi x y => regWord 0x14 x y
  | .mpyi x y => regWord 0x15 x y
  | .noti x y => regWord 0x18 x y
  | .andi x y => regWord 0x1B x y
  | .chki x y => regWord 0x1F x y
  | .fixt x y => regWord 0x20 x y
  | .fixr x y => regWord 0x21 x y
  | .rneg x y => regWord 0x22 x y
  | .radd x y => regWord 0x23 x y
  | .rsub x y => regWord 0x24 x y
  | .rmpy x y => regWord 0x25 x y
  | .rdiv x y => regWord 0x26 x y
  | .makerd x y => regWord 0x27 x y
  | .lcomp x y => regWord 0x28 x y
  | .float x y => regWord 0x29 x y
  | .rcomp x y => regWord 0x2A x y
  | .eadd x y => regWord 0x2C x y
  | .esub x y => regWord 0x2D x y
  | .empy x y => regWord 0x2E x y
  | .ediv x y => regWord 0x2F x y
  | .dfixt x y => regWord 0x30 x y
  | .dfixr x y => regWord 0x31 x y
  | .drneg x y => regWord 0x32 x y
  | .dradd x y => regWord 0x33 x y
  | .drsub x y => regWord 0x34 x y
  | .drmpy x y => regWord 0x35 x y
  | .drdiv x y => regWord 0x36 x y
  | .makedr x y => regWord 0x37 x y
  | .dcomp x y => regWord 0x38 x y
  | .dfloat x y => regWord 0x39 x y
  | .drcomp x y => regWord 0x3A x y
  | .trap x y => regWord 0x3B x y
  | .sus x y => regWord 0x40 x y
  | .lus x y => regWord 0x41 x y
  | .rum x y => regWord 0x42 x y
  | .ldregs x y => regWord 0x43 x y
  | .trans x y => regWord 0x44 x y
  | .dirt x y => regWord 0x45 x y
  | .movesr x y => regWord 0x46 x y
  | .movers x y => regWord 0x47 x y
  | .read x y => regWord 0x4E x y
  | .write x y => regWord 0x4F x y
  | .callr x y => regWord 0x53 x y
  | .ret x y => regWord 0x57 x y
  | .seb x y => regWord 0x6B x y
  | .seh x y => regWord 0x7B x y
  | .testGt x b => srcWord 0x50 0x54 x b
  | .testLt x b => srcWord 0x51 0x55 x b
  | .testEq x b => srcWord 0x52 0x56 x b
  | .testLe x b => srcWord 0x58 0x5C x b
  | .testGe x b => srcWord 0x59 0x5D x b
  | .testNe x b => srcWord 0x5A 0x5E x b
  | .lsl x b => srcWord 0x60 0x70 x b
  | .lsr x b => srcWord 0x61 0x71 x b
  | .asl x b => srcWord 0x62 0x72 x b
  | .asr x b => srcWord 0x63 0x73 x b
  | .dlsl x b => srcWord 0x64 0x74 x b
  | .dlsr x b => srcWord 0x65 0x75 x b
  | .csl x b => srcWord 0x68 0x78 x b
  | .kcall num => [0x5B, num]
  | .elogr x => regWord 0x4C x 0
  | .elogw x => regWord 0x4C x 1
  | .twrited x => regWord 0x4C x 5
  | .flush x => regWord 0x4C x 6
  | .trapexit x => regWord 0x4C x 7
  | .itest x => regWord 0x4C x 8
  | .machineid x => regWord 0x4C x 10
  | .version x => regWord 0x4C x 11
  | .creg x => regWord 0x4C x 12
  | .rdlog x => regWord 0x4C x 13
  | .br x y d => branchWord brColumns.br x y d
  | .call x y d => branchWord 0x3 x y d
  | .brLt x y d => branchWord 0x5 x y d
  | .brGe x y d => branchWord brColumns.geImm x y d
  | .loop x y d => branchWord 0x7 x y d
  | .brGt x b d => branchSrcWord 0x0 0x4 x b d
  | .brEq x b d => branchSrcWord 0x2 0x6 x b d
  | .brLe x b d => branchSrcWord 0x8 brColumns.leImm x b d
  | .brNe x b d => branchSrcWord brColumns.ne brColumns.neImm x b d
  | .storeb x m => memRefWord 0xA 0xB byteColumn x m
  | .storeh x m => memRefWord 0xA 0xB 0x4 x m
  | .store x m => memRefWord 0xA 0xB 0x8 x m
  | .stored x m => memRefWord 0xA 0xB doubleColumn x m
  | .loadb x m => memRefWord 0xC 0xD byteColumn x m
  | .loadh x m => memRefWord 0xC 0xD 0x4 x m
  | .load x m => memRefWord 0xC 0xD 0x8 x m
  | .loadd x m => memRefWord 0xC 0xD doubleColumn x m
  | .laddr x m => memRefWord 0xC 0xD 0xE x m
  | .loadbp x m => memRefWord 0xE 0xF byteColumn x m
  | .loadhp x m => memRefWord 0xE 0xF 0x4 x m
  | .loadp x m => memRefWord 0xE 0xF 0x8 x m
  | .loaddp x m => memRefWord 0xE 0xF doubleColumn x m
  | .laddrp x m => memRefWord 0xE 0xF 0xE x m
  | .undefinedReg op x y => regWord op x y
  | .undefinedMem op x y d =>
    op :: (x ++ y) :: (match d with
      | .short h => halfBytes h
      | .long w => wordBytes w)

/-! ### The words of the opcode table -/

/-- The six bytes an instruction of `nbits` bits and value `w` starts with in memory: its bytes,
the opcode first, then zeros (30_encoding.md R135; opcode_table.json reads an instruction as one
big-endian number). -/
def tableBytes (nbits w : Nat) : List Byte :=
  (List.range 6).map fun k =>
    if k < nbits / 8 then BitVec.ofNat 8 (w / 2 ^ (8 * (nbits / 8 - 1 - k))) else 0

/-- The instruction the decoder reads from an instruction of the opcode table whose bits are
`w`. -/
def decodeTableWord (nbits w : Nat) : Option Instr :=
  match decode (tableBytes nbits w) with
  | .ok (i, _) => some i
  | .error _ => none

end Sys2Proof
end

