-- ==== Sys2Proof/Machine/Fetch.lean ====
section
/-! DEFINITION. Fetching an instruction's bytes, halfword by halfword from its address
(20_memory.md R85, 60_exceptions.md R436, R441). -/

namespace Sys2Proof.Machine

/-- What a fetch gives: the bytes of the instruction, or, after a double-bit error, only how long the
instruction is. -/
inductive Fetched where
  | bytes (bs : List Byte)
  | failed (len : Nat)
deriving DecidableEq, Repr

/-- Fetch the halfword of the instruction at `va`: its bytes, and whether the read had a double-bit
error (20_memory.md R85, 60_exceptions.md R455). -/
def fetchHalf (draw : Nat) (va : Word) (s : State) : Res (List Byte × Bool) :=
  (translate .code va .fetch s).bind fun pa s =>
    if realExists pa.toNat 2 then busRead draw .code { fetch := true, addr := va } pa.toNat 2 s
    else .refused .absentRealAddress

/-- Fetch `n` halfwords of an instruction, in address order, up to one that has a double-bit
error. -/
def fetchRest (draw : Nat) : Nat → Word → State → Res (List Byte × Bool)
  | 0, _, s => .ok ([], false) s
  | n + 1, va, s =>
    (fetchHalf draw va s).bind fun r s =>
      if r.2 then .ok r s
      else (fetchRest draw n (va + 2) s).bind fun q s => .ok (r.1 ++ q.1, q.2) s

/-- Fetch the bytes of the instruction at the program counter: its first halfword gives its length
(30_encoding.md R131, R135). The bytes of one word come from one copy of it. -/
def fetch (s : State) : Res Fetched :=
  if oddAddress s.pc then .refused .oddPc
  else
    (fetchHalf s.draws s.pc (s.stamped .code)).bind fun r t =>
      if r.2 then .ok (.failed (instrLength (r.1.headD 0))) t
      else
        (fetchRest s.draws (instrLength (r.1.headD 0) / 2 - 1) (s.pc + 2) t).bind fun q t =>
          .ok (if q.2 then .failed (instrLength (r.1.headD 0)) else .bytes (r.1 ++ q.1)) t

/-- Put a byte where the fetch reads it; nothing where the address has no translation. -/
def placeByte (va : Word) (b : Byte) (s : State) : State :=
  match translate .code va .fetch s with
  | .ok pa _ => { s with mem := s.mem.write pa.toNat b }
  | _ => s

/-- Put bytes at consecutive addresses where the fetch reads them. -/
def placeBytes : Word → List Byte → State → State
  | _, [], s => s
  | va, b :: bs, s => placeBytes (va + 1) bs (placeByte va b s)

/-- A state in which the next step fetches an instruction: nothing else happens at this boundary,
the processor is not paused, and no older copy, failing word or DMA stands in the way. -/
def readyToFetch (s : State) : State :=
  { s with
    arrivals := [], paused := false, powerFailPending := false, switch0Pending := false,
    parityPending := [], staleCode := [], badWords := [], dmaTurns := [] }

end Sys2Proof.Machine
end

