-- ==== Sys2Proof/Machine/Step.lean ====
section
/-! DEFINITION. One step of the machine: an instruction boundary with what the other agents do
there, then an interrupt, or the next instruction. -/

namespace Sys2Proof.Machine

/-- Fetch and run one instruction. DEDUCED, log entry 12: an instruction whose fetch had a double-bit
error does nothing, and the pending parity interrupt will save the address after it
(60_exceptions.md R431, R455). -/
def runInstruction (s : State) : Host.Outcome State Fault Refusal :=
  (fetch s).out fun f t =>
    match f with
    | .failed len => .next (t.advance (BitVec.ofNat 32 len))
    | .bytes bs =>
      match decode bs with
      | .ok (i, _) => exec i t
      | .error .truncated => .refused .absentRealAddress

/-- What happens after the boundary: a deliverable interrupt is taken; else the machine idles while
paused, and runs the next instruction otherwise (60_exceptions.md R448, R460). -/
def afterBoundary (s : State) : Host.Outcome State Fault Refusal :=
  (pendingInterrupt s).out fun i t =>
    match i with
    | some i => takeInterrupt i t
    | none => if t.paused then .next t else runInstruction t

/-- One step. -/
def step (s : State) : Host.Outcome State Fault Refusal :=
  (boundary s).out fun _ t => afterBoundary t

/-- The state in which `step` fetches and runs the instruction of the opcode table with these bits:
its bytes stand at the program counter, in real memory. From reset nothing else changes. In user
mode the code page must be translatable and no interrupt deliverable. -/
def State.withFetchWord (s : State) (nbits w : Nat) : State :=
  placeBytes s.pc (tableBytes nbits w) (readyToFetch s)

end Sys2Proof.Machine
end

