-- ==== Sys2Proof/Safety.lean ====
section
/-! DEFINITION. The terms in which statements about the machine are made: the invariant of every
step, the states in which an access or an event meets no obstacle, the value of a real. -/

namespace Sys2Proof.Machine

/-! ### The invariant -/

/-- A half of the TMT: one entry at most for each index 0..511, each with its V bit 1 and its U bit 0
(20_memory.md R92, R96, R97). -/
def TmtHalf.wf (t : TmtHalf) : Prop :=
  t.Pairwise (fun p q => p.1 < q.1) ∧ ∀ p ∈ t, p.1 < 512 ∧ tmtV p.2 = true ∧ tmtU p.2 = false

/-- What DEVICES gives of a board: its device number, its interrupt chain, its DMA chain and its
position there (60_exceptions.md R480). -/
def Board.slot (b : Board) : Byte × Line × Line × Fin 8 :=
  (b.device, b.line, b.dmaChain, b.dmaPosition)

/-- Each chain serves at most 8 boards, and two boards have different places on the DMA chains
(60_exceptions.md R480, R487; 00_scope.md R5). -/
def chainsLegal (slots : List (Byte × Line × Line × Fin 8)) : Prop :=
  (∀ l : Line, slots.countP (fun b => b.2.1 = l) ≤ 8) ∧ (slots.map fun b => b.2.2).Nodup

/-- In each line of the data half of the cache, at most as many quadwords are held as there are sets
(10_state.md R49). -/
def dataLinesLegal (ls : List CacheLine) : Prop := ∀ n, (residents n ls).length ≤ cacheSets

/-- What every step keeps. -/
structure State.Inv (s : State) : Prop where
  /-- memory is in canonical form -/
  mem : s.mem.wf
  /-- the program counter is even (10_state.md R23) -/
  pc : s.pc.toNat % 2 = 0
  /-- the code half of the TMT is legal -/
  tmtCode : s.tmtCode.wf
  /-- the data half of the TMT is legal -/
  tmtData : s.tmtData.wf
  /-- the error log has 16 locations (10_state.md R54) -/
  errorLog : s.errorLog.length ≤ 16
  /-- the pause is a state of kernel mode (60_exceptions.md R460) -/
  paused : s.paused = true → s.mode = .kernel
  /-- the boards fit on the chains (60_exceptions.md R487) -/
  boards : chainsLegal (s.boards.map Board.slot)
  /-- the quadwords held in a line of the cache fit in its sets (10_state.md R49) -/
  cache : dataLinesLegal s.staleData

/-! ### States without an obstacle -/

/-- No DMA falls between the processor's accesses, and no word shows a double-bit error. -/
abbrev State.calm (s : State) : Prop := s.dmaTurns = [] ∧ s.badWords = []

/-- No DMA falls between the processor's accesses, no copy other than main memory's is cached, no
word shows a double-bit error. -/
structure State.settled (s : State) : Prop where
  dma : s.dmaTurns = []
  code : s.staleCode = []
  data : s.staleData = []
  errors : s.badWords = []

/-- The CCB holds the address `v`, a legal one, at an offset (60_exceptions.md R430, R432). -/
structure State.vectorAt (s : State) (off v : Word) : Prop where
  calm : s.calm
  base : (s.sr 11).toNat % 4 = 0
  fits : (s.sr 11).toNat + off.toNat + 4 ≤ Config.memSize
  word : s.mem.readWord ((s.sr 11).toNat + off.toNat) = v
  even : v.toNat % 2 = 0

/-- What an event entry leaves, from state `s` to state `t`, with vector `v`: the handler's address
and kernel mode, SR0, SR15 and the event's words as 60_exceptions.md R430 and R431 say, and nothing
else changed. -/
structure State.entered (s : State) (e : Event) (v : Word) (t : State) : Prop where
  pc : t.pc = v
  mode : t.mode = .kernel
  running : t.paused = false
  fromUser : s.mode = .user → t.sr 15 = e.saved ∧ t.sr 0 = e.sr0.getD 1
  fromKernel : s.mode = .kernel → t.sr 15 = s.sr 15 ∧ t.sr 0 = e.sr0.getD e.saved
  word1 : t.sr 1 = e.sr1.getD (s.sr 1)
  word2 : t.sr 2 = e.sr2.getD (s.sr 2)
  word3 : t.sr 3 = e.sr3.getD (s.sr 3)
  others : ∀ j : SReg, 4 ≤ j.toNat → j.toNat ≤ 14 → t.sr j = s.sr j
  frame : { t with srs := s.srs, pc := s.pc, mode := s.mode, paused := s.paused } = s

/-- The kernel instructions of a class may run: kernel mode, or, for the second class, SR10's
privileged process bit (60_exceptions.md R421). -/
def State.privileged (s : State) : Prop := s.mode = .user → (s.sr 10).getMsbD 31 = true

/-! ### Interrupts -/

/-- No board of these requests on a line. -/
def quiet (l : Line) (bs : List Board) : Prop := ∀ b ∈ bs, b.line = l → b.request = none

/-- The board whose request is deliverable, with the boards before and after it and its word: the
first requesting board of line 2, or with none there of line 1, as the masks allow
(60_exceptions.md R451, R486). -/
structure State.deliverableBoard (s : State) (pre : List Board) (b : Board) (info : BitVec 24)
    (post : List Board) : Prop where
  place : s.boards = pre ++ b :: post
  request : b.request = some info
  mask2 : s.mask2 = false
  first : quiet b.line pre
  line1 : b.line = .one → s.mask1 = false ∧ quiet .two s.boards

/-- Whether external and timer interrupts are taken (60_exceptions.md R449). -/
def State.wakeable (s : State) : Prop := s.mode = .user ∨ s.paused = true

/-- A count of the CCB is negative; no CCB, no count (60_exceptions.md R471). -/
def State.countNegative (s : State) (off : Nat) : Prop :=
  (s.sr 11).toNat % 2 = 0 ∧ (s.mem.readWord ((s.sr 11).toNat + off)).msb = true

/-- The timer counts can be read, or there is no CCB. -/
def State.countsReadable (s : State) : Prop :=
  (s.sr 11).toNat % 2 = 1 ∨ (s.sr 11).toNat % 4 = 0 ∧ (s.sr 11).toNat + 0x448 ≤ Config.memSize

/-- An interrupt is deliverable (60_exceptions.md R449 to R456, R471; `TIMER_PENDING` = level, log
entry 34). -/
def State.deliverable (s : State) (i : Interrupt) : Prop :=
  match i with
  | .parity => s.parityPending ≠ []
  | .powerFail => s.powerFailPending = true
  | .switch0 => s.switch0Pending = true
  | .external => s.wakeable ∧ ∃ pre b info post, s.deliverableBoard pre b info post
  | .timer1 => s.wakeable ∧ s.countNegative 0x440
  | .timer2 => s.wakeable ∧ ¬ s.countNegative 0x440 ∧ s.countNegative 0x444

/-- Taking a deliverable interrupt: the state `u` in which its source no longer requests it, and the
event that is entered from there (60_exceptions.md R431, R450 to R456, R461). -/
def State.takes (s : State) (i : Interrupt) (u : State) (e : Event) : Prop :=
  let ev (off : Word) (sr0 sr3 : Option Word) : Event :=
    { off := off, saved := s.pc, sr0 := sr0, sr1 := none, sr2 := none, sr3 := sr3 }
  match i with
  | .parity =>
    ∃ p later, s.parityPending = p :: later ∧ u = { s with parityPending := later } ∧
      e = ev (if p.fetch then 0x408 else 0x40C) none (some p.addr)
  | .powerFail => u = { s with powerFailPending := false } ∧ e = ev 0x428 none none
  | .switch0 => u = { s with switch0Pending := false } ∧ e = ev 0x424 none none
  | .external =>
    ∃ pre b info post, s.deliverableBoard pre b info post ∧
      u = { s with boards := pre ++ { b with request := none } :: post } ∧
      e = ev 0x420 (some (b.device ++ info)) none
  | .timer1 => u = { s with timer1Due := false } ∧ e = ev 0x430 none none
  | .timer2 => u = { s with timer2Due := false } ∧ e = ev 0x434 none none

/-! ### Runs -/

/-- A run of the machine, with what the other agents do at each boundary (60_exceptions.md R448): at
boundary `n` they do `now n`, and the machine's step leads from state `n` to state `n + 1`. -/
def isRun (now : Nat → List Arrival) (run : Nat → State) : Prop :=
  ∀ n, step { run n with arrivals := now n :: (run n).arrivals } = .next (run (n + 1))

/-- The tick occurs infinitely often: the fairness of 60_exceptions.md R472. -/
def fairTicks (now : Nat → List Arrival) : Prop := ∀ n, ∃ m, n ≤ m ∧ Arrival.tick ∈ now m

/-! ### Instructions -/

/-- Where a displacement leads from a program counter, and the length it gives the instruction
(44_program_control.md R340, 30_encoding.md R131): the last bit of the displacement only predicts. -/
def branchEnd (d : Disp) (pc : Word) (taken : Prop) [Decidable taken] : Word :=
  match d with
  | .short h => pc + if taken then h.signExtend 32 &&& 0xFFFFFFFE#32 else 4
  | .long w => pc + if taken then w &&& 0xFFFFFFFE#32 else 6

/-- An address in a space is real address `pa` at once: in kernel mode it is that address, in user
mode the TMT holds its entry; for a write the entry allows it and is dirty already
(20_memory.md R93). -/
def State.mapsTo (s : State) (sp : Space) (ea : Word) (acc : Access) (pa : Word) : Prop :=
  match s.mode with
  | .kernel => pa = ea
  | .user =>
    ∃ e, tmtHit sp ea s = some e ∧ pa = physAddress e ea ∧
      (acc = .write → tmtW e = true ∧ tmtD e = true)

/-- The bytes of a quadword that a half of the cache can give at a real address: main memory's, or
those of one other copy of the quadword (20_memory.md R111). -/
def State.mayRead (s : State) (sp : Space) (a : Nat) (bs : List Byte) : Prop :=
  (∀ (k : Nat) (h : k < bs.length), bs[k] = s.mem.read (a + k)) ∨
    ∃ l ∈ s.stale sp, l.holds a = true ∧
      ∀ (k : Nat) (h : k < bs.length), bs[k] = l.byte (a + k)

/-- What a read through a half of the cache may leave in the data half: nothing that a later read
could not have got before; a read through the code half changes nothing there
(10_state.md R49, 20_memory.md R111). -/
structure State.narrows (s : State) (sp : Space) (ls : List CacheLine) : Prop where
  code : sp = .code → ls = s.staleData
  older : ∀ (a : Nat) (bs : List Byte), a / 16 = (a + bs.length - 1) / 16 →
    ({ s with staleData := ls }).mayRead .data a bs → s.mayRead .data a bs

/-- A data read that got the bytes `bs` at a real address has decided: a later one gets these, or main
memory's (20_memory.md R111). -/
def State.decides (s : State) (ls : List CacheLine) (a : Nat) (bs : List Byte) : Prop :=
  ∀ cs : List Byte, cs.length = bs.length → ({ s with staleData := ls }).mayRead .data a cs →
    cs = bs ∨ ∀ (k : Nat) (h : k < cs.length), cs[k] = s.mem.read (a + k)

/-- What a store of the bytes `bs` at a real address leaves, from state `s` to state `t`, whatever other
copies the cache may have held. Memory holds the bytes, and is otherwise as it was. A data read gets the
bytes stored, and elsewhere nothing that it could not have got before; a code read gets main memory's, or
what it could have got before (10_state.md R49, 20_memory.md R111). -/
structure State.stores (s : State) (a : Nat) (bs : List Byte) (t : State) : Prop where
  bytes : ∀ (k : Nat) (h : k < bs.length), t.mem.read (a + k) = bs[k]
  others : ∀ c, c < a ∨ a + bs.length ≤ c → t.mem.read c = s.mem.read c
  data : ∀ (k : Nat) (h : k < bs.length) (b : Byte), t.mayRead .data (a + k) [b] → b = bs[k]
  dataOthers : ∀ (c : Nat) (b : Byte), c < a ∨ a + bs.length ≤ c →
    t.mayRead .data c [b] → s.mayRead .data c [b]
  code : ∀ (c : Nat) (b : Byte), t.mayRead .code c [b] →
    b = t.mem.read c ∨ s.mayRead .code c [b]
  older : ∀ (c : Nat) (cs : List Byte), c / 16 = (c + cs.length - 1) / 16 →
    s.mayRead .code c cs → t.mayRead .code c cs
  frame : { t with
    mem := s.mem, staleCode := s.staleCode, staleData := s.staleData, draws := s.draws } = s

/-- An access reaches real address `pa` and leaves state `t`: at once, or after the translation of
20_memory.md R93. -/
def State.reaches (s : State) (sp : Space) (ea : Word) (acc : Access) (pa : Word) (t : State) : Prop :=
  s.mapsTo sp ea acc pa ∧ t = s ∨ Machine.translate sp ea acc s = .ok pa t

/-! ### The VRT as it stands in memory -/

/-- A VRT chain from pointer `p`, `n` entries long up to the one with Match Word `key`, at `q`; or
`n` entries long and ended without one (20_memory.md R96, R97). -/
inductive VrtChain (m : Memory) (key : Word) : Nat → Word → Option Word → Prop where
  | ended : VrtChain m key 0 0 none
  | found (p : Word) (h : p ≠ 0 ∧ p.toNat % 4 = 0 ∧ p.toNat + 12 ≤ Config.memSize)
      (hm : m.readWord p.toNat = key) : VrtChain m key 1 p (some p)
  | link (p : Word) (r : Option Word) (n : Nat)
      (h : p ≠ 0 ∧ p.toNat % 4 = 0 ∧ p.toNat + 8 ≤ Config.memSize)
      (hm : m.readWord p.toNat ≠ key)
      (hn : VrtChain m key n (m.readWord (p.toNat + 4)) r) : VrtChain m key (n + 1) p r

/-- What the VRT in memory says of a page: the entry for it, or none (20_memory.md R95, R97). -/
structure State.vrt (s : State) (seg : Half) (va : Word) (r : Option Word) : Prop where
  base : (s.sr 12).toNat % 4 = 0
  fits : (hashAddress seg va s).toNat + 4 ≤ Config.memSize
  chain : ∃ n < 2 ^ 25, VrtChain s.mem (seg ++ mfield va 0 15) n
    (s.mem.readWord (hashAddress seg va s).toNat) r

/-- The VRT entry at `q` gives a page of a segment its TMT entry, with the word `v`: from state `s` to
state `t`, the entry's TMT Word in memory becomes `v`, the TMT holds `v` in the one place that the
page's index names, and nothing else changes (20_memory.md R92, R93, R96, R97). -/
structure State.entryLoaded (s : State) (sp : Space) (va q v : Word) (t : State) : Prop where
  tmt : ∀ sp' i, (t.tmt sp').get i =
    if sp' = sp ∧ i = (mfield va 11 19).toNat then some v else (s.tmt sp').get i
  word : t.mem.readWord (q.toNat + 8) = v
  others : ∀ a, a < q.toNat + 8 ∨ q.toNat + 12 ≤ a → t.mem.read a = s.mem.read a
  frame : { t with
    mem := s.mem, staleCode := s.staleCode, staleData := s.staleData
    tmtCode := s.tmtCode, tmtData := s.tmtData } = s

/-- The stores of one address operand, with the bytes that each of them stores
(40_memory_reference.md R183 to R186). -/
def storeForms (s : State) (x : Nib) (m : MemRef) : List (Instr × List Byte) :=
  [(.storeb x m, [mfield (s.reg x) 24 31]),
   (.storeh x m, [mfield (s.reg x) 16 23, mfield (s.reg x) 24 31]),
   (.store x m, wordBytes (s.reg x)),
   (.stored x m, wordBytes (s.reg x) ++ wordBytes (s.reg (x + 1)))]

/-! ### Reals as numbers -/

/-- The exponent code of a single (42_real.md R250). -/
def singleExp (v : Word) : Nat := (mfield v 1 8).toNat

/-- Class N, single (42_real.md R252). -/
def singleNumber (v : Word) : Prop := 1 ≤ singleExp v ∧ singleExp v ≤ 254

/-- The value of a single of class N (42_real.md R250). -/
def singleValue (v : Word) : ℚ :=
  (if mbit v 0 then -1 else 1) * (1 + ((mfield v 9 31).toNat : ℚ) / 2 ^ 23) *
    2 ^ ((singleExp v : ℤ) - 127)

/-- The exponent code of a double (42_real.md R251). -/
def doubleExp (v : DWord) : Nat := (mfield v 1 11).toNat

/-- Class N, double (42_real.md R252). -/
def doubleNumber (v : DWord) : Prop := 1 ≤ doubleExp v ∧ doubleExp v ≤ 2046

/-- The value of a double of class N (42_real.md R251). -/
def doubleValue (v : DWord) : ℚ :=
  (if mbit v 0 then -1 else 1) * (1 + ((mfield v 12 63).toNat : ℚ) / 2 ^ 52) *
    2 ^ ((doubleExp v : ℤ) - 1023)

/-- `p` is the number nearest to `r`: no other is nearer, and of two equally near it is the even
one (42_real.md R253). -/
def nearestEven {n : Nat} (value : BitVec n → ℚ) (number : BitVec n → Prop) (r : ℚ)
    (p : BitVec n) : Prop :=
  number p ∧ ∀ q, number q → q ≠ p →
    |value p - r| < |value q - r| ∨ |value p - r| = |value q - r| ∧ p.getLsbD 0 = false

/-! ### Rounding, over all exponents -/

/-- A number with a significand of `p` bits, of any exponent. -/
def hasPrecision (p : Nat) (v : ℚ) : Prop := ∃ m e : ℤ, |m| < 2 ^ p ∧ v = m * 2 ^ e

/-- `v` is `r` rounded to `p` bits as the two bits of the Round field say: 00 to nearest, of two
equally near the one that needs a bit less; 01 up; 10 down; 11 to zero (42_real.md R253,
10_state.md R43). -/
def rounds (p : Nat) (b0 b1 : Bool) (r v : ℚ) : Prop :=
  hasPrecision p v ∧
    match b0, b1 with
    | false, false =>
      ∀ u, hasPrecision p u → u ≠ v →
        |v - r| < |u - r| ∨ |v - r| = |u - r| ∧ hasPrecision (p - 1) v
    | false, true => r ≤ v ∧ ∀ u, hasPrecision p u → r ≤ u → v ≤ u
    | true, false => v ≤ r ∧ ∀ u, hasPrecision p u → u ≤ r → u ≤ v
    | true, true =>
      |v| ≤ |r| ∧ 0 ≤ v * r ∧ ∀ u, hasPrecision p u → |u| ≤ |r| → 0 ≤ u * r → |u| ≤ |v|

/-- The value of a pattern with `w` exponent bits, if its exponent code were `E`
(42_real.md R250, R251, R263). -/
def patternValue {n : Nat} (w : Nat) (d : BitVec n) (E : ℤ) : ℚ :=
  (if d.getMsbD 0 then -1 else 1) *
    (1 + (d.toNat % 2 ^ (n - 1 - w) : ℕ) / 2 ^ (n - 1 - w)) * 2 ^ (E - (2 ^ (w - 1) - 1))

/-- The exponent code of a pattern with `w` exponent bits. -/
def patternExp {n : Nat} (w : Nat) (d : BitVec n) : Nat := d.toNat / 2 ^ (n - 1 - w) % 2 ^ w

/-- INF of a sign, with `w` exponent bits (42_real.md R252). -/
def patternInf (n w : Nat) (negative : Bool) : BitVec n :=
  BitVec.ofNat n (((if negative then 2 ^ w else 0) + (2 ^ w - 1)) * 2 ^ (n - 1 - w))

/-- The outcome of an arithmetic operation with the exact result `r`, not zero, in the format of `n`
bits with `w` exponent bits, from state `s`, where `put d` is the state with the result `d`
delivered and `trap k` takes arithmetic trap `k` (42_real.md R253, R258 to R264): `r` is rounded, to
the number that the pattern `d` with the exponent code `E` stands for. -/
def realOutcome {n : Nat} (w : Nat) (s : State) (put : BitVec n → State) (trap : Word → State → Out)
    (r : ℚ) (o : Out) : Prop :=
  ∃ (v : ℚ) (d : BitVec n) (E : ℤ),
    rounds (n - w) (s.tw.getMsbD 22) (s.tw.getMsbD 23) r v ∧ v = patternValue w d E ∧
    (patternExp w d : ℤ) = E % 2 ^ w ∧
    let finish (t : State) : Out :=
      if v ≠ r ∧ s.tw.getMsbD 24 = true then trap 24 t else .next (t.advance 2)
    o = if 2 ^ w - 1 ≤ E then
        if s.tw.getMsbD 18 then trap 18 (put d) else finish (put (patternInf n w (decide (v < 0))))
      else if E < 1 then if s.tw.getMsbD 19 then trap 19 (put d) else finish (put 0)
      else finish (put d)

/-- A number, not Zero, DN, INF or NaN (42_real.md R252). -/
def isNumber {n : Nat} (w : Nat) (d : BitVec n) : Prop :=
  1 ≤ patternExp w d ∧ patternExp w d < 2 ^ w - 1

/-- The value of a number (42_real.md R250, R251). -/
def numberValue {n : Nat} (w : Nat) (d : BitVec n) : ℚ := patternValue w d (patternExp w d)

/-- The exact result of an operation on two numbers (42_real.md R264). -/
def exactResult (op : RealOp) (a b : ℚ) : ℚ :=
  match op with
  | .add => a + b
  | .sub => a - b
  | .mul => a * b
  | .div => a / b

/-- The results of Table 4-1 but for the divisions by zero, with `gives op d` for the result `d` of an
operation: DN counts as Zero and NaN as INF (42_real.md R255, R257; the sign of a sum of Zeros is log
entry 32). -/
def followsTable {n : Nat} (w : Nat) (a b : BitVec n) (gives : RealOp → BitVec n → Prop) : Prop :=
  let zero (g : Bool) : BitVec n := if g then BitVec.twoPow n (n - 1) else 0
  let inf (g : Bool) : BitVec n := patternInf n w g
  let sa := a.getMsbD 0
  let sb := b.getMsbD 0
  let sx := sa != sb
  let zeroLike (d : BitVec n) : Prop := patternExp w d = 0
  let infLike (d : BitVec n) : Prop := patternExp w d = 2 ^ w - 1
  (infLike a → infLike b → gives .add (inf false) ∧ gives .sub (inf false) ∧
    gives .mul (inf sx) ∧ gives .div (zero sx)) ∧
  (infLike a → isNumber w b → gives .add (inf sa) ∧ gives .sub (inf sa) ∧
    gives .mul (inf sx) ∧ gives .div (inf sx)) ∧
  (isNumber w a → infLike b → gives .add (inf sb) ∧ gives .sub (inf (!sb)) ∧
    gives .mul (inf sx) ∧ gives .div (zero sx)) ∧
  (infLike a → zeroLike b → gives .add (inf sa) ∧ gives .sub (inf sa) ∧
    gives .mul (zero sx)) ∧
  (zeroLike a → infLike b → gives .add (inf sb) ∧ gives .sub (inf (!sb)) ∧
    gives .mul (zero sx) ∧ gives .div (zero sx)) ∧
  (isNumber w a → zeroLike b → gives .add a ∧ gives .sub a ∧
    gives .mul (zero sx)) ∧
  (zeroLike a → isNumber w b → gives .add b ∧ gives .sub (b ^^^ BitVec.twoPow n (n - 1)) ∧
    gives .mul (zero sx) ∧ gives .div (zero sx)) ∧
  (zeroLike a → zeroLike b → gives .add (zero (sa && sb)) ∧ gives .sub (zero (sa && !sb)) ∧
    gives .mul (zero sx))

/-- The divisions by zero of Table 4-1: anything by Zero or DN gives INF of the operands' combined sign
(42_real.md R255, R257). -/
def dividesByZero {n : Nat} (w : Nat) (a b : BitVec n) (gives : RealOp → BitVec n → Prop) : Prop :=
  patternExp w b = 0 → gives .div (patternInf n w (a.getMsbD 0 != b.getMsbD 0))

/-- The value by which a compare orders a pattern with `w` exponent bits: DN counts as Zero, NaN as
INF, and INF as greater than every number (43_bit_compare_shift.md R314, R315). -/
def compareValue {n : Nat} (w : Nat) (d : BitVec n) : ℚ :=
  if patternExp w d = 0 then 0
  else if patternExp w d = 2 ^ w - 1 then (if d.getMsbD 0 then -1 else 1) * 2 ^ 2 ^ (w - 1)
  else numberValue w d

/-- DN, INF or NaN: special for a conversion or a compare (42_real.md R254). -/
def isSpecial {n : Nat} (w : Nat) (d : BitVec n) : Prop :=
  patternExp w d = 2 ^ w - 1 ∨ patternExp w d = 0 ∧ d.toNat % 2 ^ (n - 1 - w) ≠ 0

/-- The integer that FIXT delivers for a number: its magnitude cut off (42_real.md R271). -/
def cutsOff (v : ℚ) (i : ℤ) : Prop := |(i : ℚ)| ≤ |v| ∧ |v| < |(i : ℚ)| + 1 ∧ 0 ≤ (i : ℚ) * v

/-- The integer nearest to a number, of two equally near the even one (42_real.md R272). -/
def nearestInteger (v : ℚ) (i : ℤ) : Prop :=
  |i - v| ≤ 1 / 2 ∧ (|i - v| = 1 / 2 → i % 2 = 0)

/-- What FIXT and its like deliver, of the pattern `b` with `w` exponent bits, from state `s`, where
`put d` is the state with the result `d` delivered and `trap k` takes arithmetic trap `k`; `near` for
FIXR and its like, which round to nearest and have the inexact condition
(42_real.md R256, R271, R272, R281, R282; `FIX_ROUND` = nearest_even, log entry 33). -/
def fixes {n : Nat} (w : Nat) (b : BitVec n) (near : Bool) (s : State) (put : Word → State)
    (trap : Word → State → Out) (o : Out) : Prop :=
  let done (d : Word) : Out := .next ((put d).advance 2)
  let beyond (d : Word) : Out := if s.tw.getMsbD 18 then trap 18 (put d) else done d
  let largest : Word := if b.getMsbD 0 then 0x80000000 else 0x7FFFFFFF
  (isNumber w b → ∃ i : ℤ,
    (if near then nearestInteger (numberValue w b) i else cutsOff (numberValue w b) i) ∧
    o = if 2 ^ 31 ≤ i ∨ i < -2 ^ 31 then beyond largest
      else if near = true ∧ (i : ℚ) ≠ numberValue w b ∧ s.tw.getMsbD 24 = true then
        trap 24 (put (BitVec.ofInt 32 i))
      else done (BitVec.ofInt 32 i)) ∧
  (patternExp w b = 0 → ¬ isSpecial w b → o = done 0) ∧
  (isSpecial w b → s.tw.getMsbD 25 = true → o = trap 25 s) ∧
  (isSpecial w b → s.tw.getMsbD 25 = false →
    o = done (if patternExp w b = 0 then 0 else largest))

/-- What MAKERD and MAKEDR deliver of an operand that is no number: Zero or INF of its sign, a Zero
in every state, DN as Zero and NaN as INF with the before trap off (42_real.md R256, R273, R283). -/
def convertsSpecial {n m : Nat} (w v : Nat) (b : BitVec n) (s : State) (put : BitVec m → State)
    (trap : Word → State → Out) (o : Out) : Prop :=
  let done (d : BitVec m) : Out := .next ((put d).advance 2)
  let zero : BitVec m := if b.getMsbD 0 then BitVec.twoPow m (m - 1) else 0
  (patternExp w b = 0 → ¬ isSpecial w b → o = done zero) ∧
  (isSpecial w b → s.tw.getMsbD 25 = true → o = trap 25 s) ∧
  (isSpecial w b → s.tw.getMsbD 25 = false →
    o = done (if patternExp w b = 0 then zero else patternInf m v (b.getMsbD 0)))

end Sys2Proof.Machine
end

