-- ==== Sys2Proof/Certificates/Slice0/Obligations.lean ====
section
/-! DEFINITION. The statements for the provers. -/

open Sys2Proof Sys2Proof.Machine

/-! ### Encoding -/

/-- Decoding an encoded well-formed instruction gives it back, with the bytes that follow it: no bit
of an encoding is dropped (30_encoding.md R130 to R152; the opcode map as log entry 25 has it, the
byte order as log entry 37 has it). -/
def Obligations.DecodeEncode : Prop :=
  ∀ (i : Instr) (rest : List Byte), i.wf = true → decode (encode i ++ rest) = .ok (i, rest)

/-- Every byte string that decodes is the encoding of the instruction it decodes to, which is well
formed (30_encoding.md R130 to R155). -/
def Obligations.EncodeDecode : Prop :=
  ∀ (bytes rest : List Byte) (i : Instr), decode bytes = .ok (i, rest) →
    i.wf = true ∧ encode i ++ rest = bytes

/-- The length of an instruction is 2, 4 or 6 bytes by its opcode alone, for undefined opcodes too:
with that many bytes every opcode decodes, with fewer none does (30_encoding.md R131). -/
def Obligations.LengthByOpcode : Prop :=
  ∀ (op : Byte) (tail : List Byte),
    let len := if op.getMsbD 0 = false then 2 else if op.getMsbD 3 = false then 4 else 6
    (len ≤ tail.length + 1 →
      ∃ i, decode (op :: tail) = .ok (i, tail.drop (len - 1)) ∧ (encode i).length = len) ∧
    (tail.length + 1 < len → decode (op :: tail) = .error .truncated)

/-- Bytes written out from the encodings decode to the instructions they stand for
(30_encoding.md R132 to R152; log entries 25 and 37). -/
def Obligations.WordsDecode : Prop :=
  decode [0x03, 0x12] = .ok (.add 1 2, []) ∧
  decode [0x1F, 0x1A] = .ok (.chki 1 10, []) ∧
  decode [0x24, 0xF0] = .ok (.rsub 15 0, []) ∧
  decode [0x5B, 0xFF] = .ok (.kcall 255, []) ∧
  decode [0x4C, 0x35] = .ok (.twrited 3, []) ∧
  decode [0x4C, 0x39] = .ok (.undefinedReg 0x4C 3 9, []) ∧
  decode [0x75, 0x2F] = .ok (.dlsr 2 (.imm 15), []) ∧
  decode [0x8E, 0x15, 0x00, 0x08] = .ok (.brNe 1 (.imm 5) (.short 8), []) ∧
  decode [0x97, 0x31, 0xFF, 0xFF, 0xFF, 0xF0] = .ok (.loop 3 1 (.long 0xFFFFFFF0), []) ∧
  decode [0xA5, 0x23, 0x00, 0x02] =
    .ok (.storeh 2 { form := .indexed, y := 3, disp := .short 2 }, []) ∧
  decode [0xD9, 0x12, 0x00, 0x01, 0x00, 0x00] =
    .ok (.load 1 { form := .indexed, y := 2, disp := .long 0x10000 }, []) ∧
  decode [0xEE, 0x30, 0x00, 0x20] =
    .ok (.laddrp 3 { form := .direct, y := 0, disp := .short 0x20 }, [])

/-! ### The step -/

/-- A step runs the decoded instruction: at a boundary where no interrupt is deliverable and the
processor is not paused, the bytes fetched at the program counter decode to an instruction and the
step is that instruction's `exec`, at the state the boundary and the fetch have left
(60_exceptions.md R448, 30_encoding.md R135; what happens at a boundary is log entry 7). -/
def Obligations.StepRunsDecoded : Prop :=
  ∀ (s t u v : State) (bytes rest : List Byte) (i : Instr),
    boundary s = .ok () t → pendingInterrupt t = .ok none u → u.paused = false →
    fetch u = .ok (.bytes bytes) v → decode bytes = .ok (i, rest) → step s = exec i v

/-- In kernel mode, with nothing else happening, a step at bytes that encode a well-formed
instruction is that instruction's `exec` at the same state, up to the counter of free values. The cache
may hold other copies and words may show errors, but not of the instruction's own bytes
(20_memory.md R72, R85, R111; 60_exceptions.md R448, R449, R455). -/
def Obligations.KernelStepRunsInstruction : Prop :=
  ∀ (s : State) (i : Instr), i.wf = true →
    s.mode = .kernel → s.paused = false → s.arrivals = [] → s.dmaTurns = [] →
    s.powerFailPending = false → s.switch0Pending = false → s.parityPending = [] →
    s.pc.toNat % 2 = 0 → s.pc.toNat + (encode i).length ≤ Config.memSize →
    (∀ (k : Nat) (h : k < (encode i).length), s.mem.read (s.pc.toNat + k) = (encode i)[k]) →
    (∀ l ∈ s.staleCode, ∀ k < (encode i).length, l.holds (s.pc.toNat + k) = false) →
    (∀ w ∈ s.badWords,
      w < s.pc.toNat / 4 ∨ (s.pc.toNat + (encode i).length - 1) / 4 < w) →
    ∃ n, step s = exec i { s with draws := n }

/-- The invariant holds of the state after reset, and after power-on with any boot page and any boards
that fit on the chains (00_scope.md R5, 60_exceptions.md R487). -/
def Obligations.ResetInv : Prop :=
  State.reset.Inv ∧
    ∀ (bootImage : List Byte) (devices : List Board), chainsLegal (devices.map Board.slot) →
      (State.powerOn bootImage devices).Inv

/-- Every step keeps the invariant: memory in canonical form, the program counter even, the TMT
legal, the error log within its 16 locations, the pause in kernel mode only, the boards within their
chains, the quadwords held in a line of the data half of the cache no more than its sets. -/
def Obligations.StepKeepsInv : Prop :=
  ∀ s t : State, s.Inv → step s = .next t → t.Inv

/-- What reset leaves, right after power-on, with the boot page and the boards of the installation,
and after the reset button (10_state.md R60, 70_reset_and_hazards.md R500; that the button keeps the
rest of memory is log entry 20, that memory outside the page is zero after power-on log entry 2). -/
def Obligations.ResetValues : Prop :=
  ∀ (s : State) (page : List Byte) (devices : List Board), s.mem.wf →
    let p := State.powerOn page devices
    ∃ t, applyArrival (.resetButton page) s = .ok () t ∧
    (∀ r : State, r = State.reset ∨ r = p ∨ r = t →
      r.pc = 0x3E000 ∧ r.mode = .kernel ∧ r.paused = false ∧ r.tw = 0 ∧
      r.sr 2 = BitVec.ofNat 32 Config.memSize ∧ r.sr 11 = 1 ∧ r.sr 14 = 1 ∧
      r.tmtCode = [] ∧ r.tmtData = [] ∧ r.staleCode = [] ∧ r.staleData = []) ∧
    (∀ k < 4096, t.mem.read (0x3E000 + k) = page.getD k 0 ∧
      p.mem.read (0x3E000 + k) = page.getD k 0) ∧
    (∀ a, a < 0x3E000 ∨ 0x3F000 ≤ a → t.mem.read a = s.mem.read a ∧ p.mem.read a = 0) ∧
    p.boards = devices ∧ t.boards = s.boards

/-! ### Registers and memory -/

/-- A register or pair reads as it was written, and a write changes no other register and nothing
else; R15 pairs with R0; no register is hardwired (10_state.md R20, R21, R26). -/
def Obligations.RegisterReadAfterWrite : Prop :=
  ∀ (s : State) (i j : Nib) (w : Word) (d : DWord),
    (s.setReg i w).reg i = w ∧ (j ≠ i → (s.setReg i w).reg j = s.reg j) ∧
    (s.setPair i d).pair i = d ∧
    (j ≠ i → j ≠ i + 1 → (s.setPair i d).reg j = s.reg j) ∧
    (s.setSr i w).sr i = w ∧ (j ≠ i → (s.setSr i w).sr j = s.sr j) ∧
    s.pair 15 = s.reg 15 ++ s.reg 0 ∧
    { s.setReg i w with regs := s.regs } = s ∧ { s.setPair i d with regs := s.regs } = s ∧
    { s.setSr i w with srs := s.srs } = s

/-- Memory is big-endian, reads as it was written, changes nowhere else, and stays in canonical
form (20_memory.md R80; the byte order is presumed, log entry 37). -/
def Obligations.MemoryReadAfterWrite : Prop :=
  ∀ (m : Memory) (a : Nat) (bs : List Byte) (w : Word), m.wf →
    (m.writeBytes a bs).wf ∧
    (∀ (k : Nat) (h : k < bs.length), (m.writeBytes a bs).read (a + k) = bs[k]) ∧
    (∀ c, c < a ∨ a + bs.length ≤ c → (m.writeBytes a bs).read c = m.read c) ∧
    (m.writeBytes a (wordBytes w)).readWord a = w ∧
    (m.writeBytes a (wordBytes w)).read a = mfield w 0 7 ∧
    (m.writeBytes a (wordBytes w)).read (a + 3) = mfield w 24 31

/-! ### Integer arithmetic and logic -/

/-- MOVE, NOT, AND, OR, XOR, their immediate forms and NOP run in every state, write Rx alone and
raise nothing (41_integer_logical.md R210 to R215, R221, R222, R225). The model's choices, not the
spec's words: the byte order of the encodings, log entry 37, and that NOP ignores its fields, log
entry 49. -/
def Obligations.MovesAndLogicRun : Prop :=
  ∀ (s : State) (x y n : Nib),
    exec (.move x y) s = .next ((s.setReg x (s.reg y)).advance 2) ∧
    exec (.not x y) s = .next ((s.setReg x (~~~(s.reg y))).advance 2) ∧
    exec (.and x y) s = .next ((s.setReg x (s.reg x &&& s.reg y)).advance 2) ∧
    exec (.or x y) s = .next ((s.setReg x (s.reg x ||| s.reg y)).advance 2) ∧
    exec (.xor x y) s = .next ((s.setReg x (s.reg x ^^^ s.reg y)).advance 2) ∧
    exec (.movei x n) s = .next ((s.setReg x (n.setWidth 32)).advance 2) ∧
    exec (.noti x n) s = .next ((s.setReg x (~~~(n.setWidth 32))).advance 2) ∧
    exec (.andi x n) s = .next ((s.setReg x (s.reg x &&& n.setWidth 32)).advance 2) ∧
    exec (.nop x n) s = .next (s.advance 2) ∧
    encode (.move x y) = [0x01, x ++ y] ∧ encode (.not x y) = [0x08, x ++ y] ∧
    encode (.and x y) = [0x0B, x ++ y] ∧ encode (.or x y) = [0x09, x ++ y] ∧
    encode (.xor x y) = [0x0A, x ++ y] ∧ encode (.movei x n) = [0x11, x ++ n] ∧
    encode (.noti x n) = [0x18, x ++ n] ∧ encode (.andi x n) = [0x1B, x ++ n] ∧
    encode (.nop x n) = [0x10, x ++ n]

/-- ADD, SUB, MPY, NEG and the immediate forms deliver the low 32 bits of the result to Rx and go on
wherever the result does not overflow or the integer overflow trap is off
(41_integer_logical.md R201 to R208, R223, R224, R226). -/
def Obligations.SumsDeliver : Prop :=
  ∀ (s : State) (x y n : Nib),
    let a := s.reg x
    let b := s.reg y
    let c : Word := n.setWidth 32
    ((s.tw.getMsbD 16 = true → BitVec.saddOverflow a b = false) →
      exec (.add x y) s = .next ((s.setReg x (a + b)).advance 2)) ∧
    ((s.tw.getMsbD 16 = true → BitVec.ssubOverflow a b = false) →
      exec (.sub x y) s = .next ((s.setReg x (a - b)).advance 2)) ∧
    ((s.tw.getMsbD 16 = true → BitVec.smulOverflow a b = false) →
      exec (.mpy x y) s = .next ((s.setReg x (a * b)).advance 2)) ∧
    ((s.tw.getMsbD 16 = true → b ≠ 0x80000000#32) →
      exec (.neg x y) s = .next ((s.setReg x (-b)).advance 2)) ∧
    ((s.tw.getMsbD 16 = true → BitVec.saddOverflow a c = false) →
      exec (.addi x n) s = .next ((s.setReg x (a + c)).advance 2)) ∧
    ((s.tw.getMsbD 16 = true → BitVec.ssubOverflow a c = false) →
      exec (.subi x n) s = .next ((s.setReg x (a - c)).advance 2)) ∧
    ((s.tw.getMsbD 16 = true → BitVec.smulOverflow a c = false) →
      exec (.mpyi x n) s = .next ((s.setReg x (a * c)).advance 2))

/-- An overflow with the trap on delivers the result first and then takes arithmetic trap 16, which
saves the instruction's own address, its opcode, its fields and 16
(41_integer_logical.md R201, 60_exceptions.md R446). -/
def Obligations.SumsTrap : Prop :=
  ∀ (s : State) (x y n : Nib), s.tw.getMsbD 16 = true →
    let a := s.reg x
    let b := s.reg y
    let c : Word := n.setWidth 32
    let e (op : Word) (f : Byte) : Event :=
      { off := 0x41C, saved := s.pc, sr0 := none, sr1 := some op, sr2 := some (f.setWidth 32),
        sr3 := some 16 }
    (BitVec.saddOverflow a b = true →
      exec (.add x y) s = enterEvent (e 0x03 (x ++ y)) (s.setReg x (a + b))) ∧
    (BitVec.ssubOverflow a b = true →
      exec (.sub x y) s = enterEvent (e 0x04 (x ++ y)) (s.setReg x (a - b))) ∧
    (BitVec.smulOverflow a b = true →
      exec (.mpy x y) s = enterEvent (e 0x05 (x ++ y)) (s.setReg x (a * b))) ∧
    (b = 0x80000000#32 →
      exec (.neg x y) s = enterEvent (e 0x02 (x ++ y)) (s.setReg x 0x80000000#32)) ∧
    (BitVec.saddOverflow a c = true →
      exec (.addi x n) s = enterEvent (e 0x13 (x ++ n)) (s.setReg x (a + c))) ∧
    (BitVec.ssubOverflow a c = true →
      exec (.subi x n) s = enterEvent (e 0x14 (x ++ n)) (s.setReg x (a - c))) ∧
    (BitVec.smulOverflow a c = true →
      exec (.mpyi x n) s = enterEvent (e 0x15 (x ++ n)) (s.setReg x (a * c)))

/-- DIV and REM deliver the quotient and the remainder of one division, the remainder between 0 and
the divisor and of its sign (41_integer_logical.md R206, R207; `DIV_ROUNDING` = floor, log
entry 29). -/
def Obligations.DivideAndRemainder : Prop :=
  ∀ (s : State) (x y : Nib), s.reg y ≠ 0 →
    ¬ (s.reg x = 0x80000000#32 ∧ s.reg y = 0xFFFFFFFF#32) →
    ∃ q r : Int,
      (s.reg x).toInt = q * (s.reg y).toInt + r ∧
      (0 ≤ r ∧ r < (s.reg y).toInt ∨ (s.reg y).toInt < r ∧ r ≤ 0) ∧
      -(2 ^ 31) ≤ q ∧ q < 2 ^ 31 ∧
      exec (.div x y) s = .next ((s.setReg x (BitVec.ofInt 32 q)).advance 2) ∧
      exec (.rem x y) s = .next ((s.setReg x (BitVec.ofInt 32 r)).advance 2)

/-- Division by zero and division overflow: nothing is delivered but the 0 of an overflowing REM;
arithmetic trap 17 or 16 if it is on, else the next instruction
(41_integer_logical.md R201, R202, R206, R207, R233). That EDIV overflows when Rx is at least Ry rests
on `EDIV_OVF_BITS` = 32, a default the spec recommends and the model takes, log entry 30. -/
def Obligations.DivideExceptions : Prop :=
  ∀ (s : State) (x y : Nib),
    let e (op n : Word) : Event :=
      { off := 0x41C, saved := s.pc, sr0 := none, sr1 := some op,
        sr2 := some ((x ++ y).setWidth 32), sr3 := some n }
    (s.reg y = 0 → s.tw.getMsbD 17 = false →
      exec (.div x y) s = .next (s.advance 2) ∧ exec (.rem x y) s = .next (s.advance 2) ∧
      exec (.ediv x y) s = .next (s.advance 2)) ∧
    (s.reg y = 0 → s.tw.getMsbD 17 = true →
      exec (.div x y) s = enterEvent (e 0x06 17) s ∧
      exec (.rem x y) s = enterEvent (e 0x07 17) s ∧
      exec (.ediv x y) s = enterEvent (e 0x2F 17) s) ∧
    (s.reg x = 0x80000000#32 → s.reg y = 0xFFFFFFFF#32 → s.tw.getMsbD 16 = false →
      exec (.div x y) s = .next (s.advance 2) ∧
      exec (.rem x y) s = .next ((s.setReg x 0).advance 2)) ∧
    (s.reg x = 0x80000000#32 → s.reg y = 0xFFFFFFFF#32 → s.tw.getMsbD 16 = true →
      exec (.div x y) s = enterEvent (e 0x06 16) s ∧
      exec (.rem x y) s = enterEvent (e 0x07 16) (s.setReg x 0)) ∧
    (s.reg y ≠ 0 → (s.reg y).toNat ≤ (s.reg x).toNat →
      exec (.ediv x y) s =
        if s.tw.getMsbD 16 then enterEvent (e 0x2F 16) s else .next (s.advance 2))

/-- EADD and ESUB: the sum with carry in Rx, the carry in R0<31> and the overflow in R0<30>; with
Rx = R0 either of the two words, a free value (41_integer_logical.md R230, R231; `ESUB_FORM` =
rx_minus_ry, log entry 28; log entry 21). -/
def Obligations.ExtendedSums : Prop :=
  ∀ (s : State) (x y : Nib),
    let a := s.reg x
    let b := s.reg y
    let c : Nat := (s.reg 0).toNat % 2
    let flags (cy : Prop) [Decidable cy] (v : Int) : Word :=
      (if v < -(2 ^ 31) ∨ 2 ^ 31 ≤ v then 2 else 0) + (if cy then 1 else 0)
    let addFlags := flags (2 ^ 32 ≤ a.toNat + b.toNat + c) (a.toInt + b.toInt + c)
    let subFlags := flags (b.toNat + 1 ≤ a.toNat + c) (a.toInt - b.toInt - 1 + c)
    (x ≠ 0 →
      exec (.eadd x y) s =
        .next (((s.setReg x (a + b + BitVec.ofNat 32 c)).setReg 0 addFlags).advance 2) ∧
      exec (.esub x y) s =
        .next (((s.setReg x (a - b - 1 + BitVec.ofNat 32 c)).setReg 0 subFlags).advance 2)) ∧
    (x = 0 →
      (∃ w, (w = a + b + BitVec.ofNat 32 c ∨ w = addFlags) ∧
        exec (.eadd x y) s = .next ((s.setReg 0 w).drawn.advance 2)) ∧
      ∃ w, (w = a - b - 1 + BitVec.ofNat 32 c ∨ w = subFlags) ∧
        exec (.esub x y) s = .next ((s.setReg 0 w).drawn.advance 2))

/-- EMPY delivers the 64-bit unsigned product to RPx; EDIV the quotient and the remainder of the
64-bit RPx by Ry to Rx and Rx+1, where the quotient fits in 32 bits
(41_integer_logical.md R232, R233; `EDIV_OVF_BITS` = 32, log entry 30). -/
def Obligations.ExtendedMultiplyDivide : Prop :=
  ∀ (s : State) (x y : Nib),
    exec (.empy x y) s =
      .next ((s.setPair x ((s.reg x).setWidth 64 * (s.reg y).setWidth 64)).advance 2) ∧
    ((s.reg x).toNat < (s.reg y).toNat →
      ∃ q r : Word,
        (s.pair x).toNat = q.toNat * (s.reg y).toNat + r.toNat ∧ r.toNat < (s.reg y).toNat ∧
        exec (.ediv x y) s = .next (((s.setReg x q).setReg (x + 1) r).advance 2))

/-! ### Bits, tests, compares, shifts -/

/-- CBIT and SBIT clear and set bit `n` of RPx, TBIT copies it to Rx, with `n` the low 6 bits of Ry
and bit 0 the most significant (43_bit_compare_shift.md R301 to R303). The byte order of the encodings
is the model's choice, log entry 37. -/
def Obligations.BitInstructions : Prop :=
  ∀ (s : State) (x y : Nib),
    let n := (s.reg y).toNat % 64
    (∃ d : DWord, (∀ j < 64, d.getMsbD j = if j = n then false else (s.pair x).getMsbD j) ∧
      exec (.cbit x y) s = .next ((s.setPair x d).advance 2)) ∧
    (∃ d : DWord, (∀ j < 64, d.getMsbD j = if j = n then true else (s.pair x).getMsbD j) ∧
      exec (.sbit x y) s = .next ((s.setPair x d).advance 2)) ∧
    exec (.tbit x y) s =
      .next ((s.setReg x (if (s.pair x).getMsbD n then 1 else 0)).advance 2) ∧
    encode (.cbit x y) = [0x0C, x ++ y] ∧ encode (.sbit x y) = [0x0D, x ++ y] ∧
    encode (.tbit x y) = [0x0E, x ++ y]

/-- TEST compares Rx with Ry or with the Ry field, signed, and sets Rx to 1 or 0
(43_bit_compare_shift.md R305 to R311). -/
def Obligations.TestsCompare : Prop :=
  ∀ (s : State) (x : Nib) (b : Src),
    let a := (s.reg x).toInt
    let v : Int := match b with
      | .reg y => (s.reg y).toInt
      | .imm n => n.toNat
    exec (.testGt x b) s = .next ((s.setReg x (if a > v then 1 else 0)).advance 2) ∧
    exec (.testLt x b) s = .next ((s.setReg x (if a < v then 1 else 0)).advance 2) ∧
    exec (.testEq x b) s = .next ((s.setReg x (if a = v then 1 else 0)).advance 2) ∧
    exec (.testLe x b) s = .next ((s.setReg x (if a ≤ v then 1 else 0)).advance 2) ∧
    exec (.testGe x b) s = .next ((s.setReg x (if a ≥ v then 1 else 0)).advance 2) ∧
    exec (.testNe x b) s = .next ((s.setReg x (if a ≠ v then 1 else 0)).advance 2)

/-- LCOMP compares Rx and Ry unsigned and DCOMP RPx and RPy signed; Rx becomes -1, 0 or 1
(43_bit_compare_shift.md R312, R313). The byte order of the encodings is the model's choice, log
entry 37. -/
def Obligations.IntegerCompares : Prop :=
  ∀ (s : State) (x y : Nib),
    exec (.lcomp x y) s =
      .next ((s.setReg x (if s.reg x < s.reg y then -1 else if s.reg x = s.reg y then 0 else 1)).advance
        2) ∧
    exec (.dcomp x y) s =
      .next ((s.setReg x (if (s.pair x).slt (s.pair y) then -1
        else if s.pair x = s.pair y then 0 else 1)).advance 2) ∧
    encode (.lcomp x y) = [0x28, x ++ y] ∧ encode (.dcomp x y) = [0x38, x ++ y]

/-- The logical and circular shifts, by the low 5 bits (6 for a pair) of Ry or by the Ry field
(43_bit_compare_shift.md R318 to R320, R323 to R325). -/
def Obligations.LogicalShifts : Prop :=
  ∀ (s : State) (x : Nib) (c : Src),
    let n := match c with
      | .reg y => (s.reg y).toNat % 32
      | .imm m => m.toNat
    let n2 := match c with
      | .reg y => (s.reg y).toNat % 64
      | .imm m => m.toNat
    let a := (s.reg x).toNat
    let d := (s.pair x).toNat
    exec (.lsl x c) s = .next ((s.setReg x (BitVec.ofNat 32 (a * 2 ^ n))).advance 2) ∧
    exec (.lsr x c) s = .next ((s.setReg x (BitVec.ofNat 32 (a / 2 ^ n))).advance 2) ∧
    (∃ w : Word, (∀ j < 32, w.getMsbD j = (s.reg x).getMsbD ((j + n) % 32)) ∧
      exec (.csl x c) s = .next ((s.setReg x w).advance 2)) ∧
    exec (.dlsl x c) s = .next ((s.setPair x (BitVec.ofNat 64 (d * 2 ^ n2))).advance 2) ∧
    exec (.dlsr x c) s = .next ((s.setPair x (BitVec.ofNat 64 (d / 2 ^ n2))).advance 2)

/-- ASR divides by a power of two, rounding down; ASL multiplies by one, delivers the low 32 bits
and goes on wherever the product fits or the integer overflow trap is off; else it takes arithmetic
trap 16 after the delivery (43_bit_compare_shift.md R321, R322; `ASL_OVF` = arithmetic, log
entry 31). -/
def Obligations.ArithmeticShifts : Prop :=
  ∀ (s : State) (x : Nib) (c : Src),
    let n := match c with
      | .reg y => (s.reg y).toNat % 32
      | .imm m => m.toNat
    let v := (s.reg x).toInt * 2 ^ n
    let fits := -(2 ^ 31) ≤ v ∧ v < 2 ^ 31
    exec (.asr x c) s =
      .next ((s.setReg x (BitVec.ofInt 32 ((s.reg x).toInt.fdiv (2 ^ n)))).advance 2) ∧
    ((s.tw.getMsbD 16 = true → fits) →
      exec (.asl x c) s = .next ((s.setReg x (BitVec.ofInt 32 v)).advance 2)) ∧
    (s.tw.getMsbD 16 = true → ¬ fits →
      exec (.asl x c) s =
        enterEvent
          { off := 0x41C, saved := s.pc, sr0 := none,
            sr1 := some (match c with | .reg _ => 0x62 | .imm _ => 0x72),
            sr2 := some (match c with
              | .reg y => (x ++ y).setWidth 32
              | .imm m => (x ++ m).setWidth 32),
            sr3 := some 16 }
          (s.setReg x (BitVec.ofInt 32 v)))

/-- SEB and SEH extend the sign of the low byte or halfword of Ry into Rx
(43_bit_compare_shift.md R330, R331). The byte order of the encodings is the model's choice, log
entry 37. -/
def Obligations.SignExtension : Prop :=
  ∀ (s : State) (x y : Nib),
    (∃ w : Word, (∀ j < 32, w.getMsbD j = (s.reg y).getMsbD (if j < 24 then 24 else j)) ∧
      exec (.seb x y) s = .next ((s.setReg x w).advance 2)) ∧
    (∃ w : Word, (∀ j < 32, w.getMsbD j = (s.reg y).getMsbD (if j < 16 then 16 else j)) ∧
      exec (.seh x y) s = .next ((s.setReg x w).advance 2)) ∧
    encode (.seb x y) = [0x6B, x ++ y] ∧ encode (.seh x y) = [0x7B, x ++ y]

/-! ### Reals -/

/-- With the real traps off every real instruction delivers a result to its destination alone and
goes on, whatever its operands (42_real.md R254 to R261, R264 to R283;
43_bit_compare_shift.md R314, R315). -/
def Obligations.RealInstructionsComplete : Prop :=
  ∀ (s : State) (x y : Nib),
    (∀ n, n ∈ [18, 19, 20, 24, 25] → s.tw.getMsbD n = false) →
    (∀ f : Nib → Nib → Instr,
      f ∈ [Instr.radd, Instr.rsub, Instr.rmpy, Instr.rdiv, Instr.rneg, Instr.float, Instr.fixt,
        Instr.fixr, Instr.rcomp, Instr.dfixt, Instr.dfixr, Instr.makedr, Instr.drcomp] →
      ∃ w : Word, exec (f x y) s = .next ((s.setReg x w).advance 2)) ∧
    (∀ f : Nib → Nib → Instr,
      f ∈ [Instr.dradd, Instr.drsub, Instr.drmpy, Instr.drdiv, Instr.drneg, Instr.makerd,
        Instr.dfloat] →
      ∃ d : DWord, exec (f x y) s = .next ((s.setPair x d).advance 2))

/-- RADD, RSUB, RMPY and RDIV of two numbers deliver the number nearest the exact result, the even
one of two equally near, when the result is in range, the Round field says nearest and the inexact
trap is off (42_real.md R253, R264 to R268; `ROUND_BITS` = 22..23, log entry 26). -/
def Obligations.SingleArithmeticRounds : Prop :=
  ∀ (s : State) (x y : Nib),
    s.tw.getMsbD 22 = false → s.tw.getMsbD 23 = false → s.tw.getMsbD 24 = false →
    singleNumber (s.reg x) → singleNumber (s.reg y) →
    let a := singleValue (s.reg x)
    let b := singleValue (s.reg y)
    ∀ p ∈ [(Instr.radd x y, a + b), (Instr.rsub x y, a - b), (Instr.rmpy x y, a * b),
        (Instr.rdiv x y, a / b)],
      1 / 2 ^ 126 ≤ |p.2| → |p.2| ≤ (2 - 1 / 2 ^ 23) * 2 ^ 127 →
      ∃ w : Word, nearestEven singleValue singleNumber p.2 w ∧
        exec p.1 s = .next ((s.setReg x w).advance 2)

/-- DRADD, DRSUB, DRMPY and DRDIV of two numbers, the same in double precision
(42_real.md R253, R264, R275 to R278; `ROUND_BITS` = 22..23, log entry 26). -/
def Obligations.DoubleArithmeticRounds : Prop :=
  ∀ (s : State) (x y : Nib),
    s.tw.getMsbD 22 = false → s.tw.getMsbD 23 = false → s.tw.getMsbD 24 = false →
    doubleNumber (s.pair x) → doubleNumber (s.pair y) →
    let a := doubleValue (s.pair x)
    let b := doubleValue (s.pair y)
    ∀ p ∈ [(Instr.dradd x y, a + b), (Instr.drsub x y, a - b), (Instr.drmpy x y, a * b),
        (Instr.drdiv x y, a / b)],
      1 / 2 ^ 1022 ≤ |p.2| → |p.2| ≤ (2 - 1 / 2 ^ 52) * 2 ^ 1023 →
      ∃ d : DWord, nearestEven doubleValue doubleNumber p.2 d ∧
        exec p.1 s = .next ((s.setPair x d).advance 2)

/-- Table 4-1 where an operand is no number, with the before trap off, single and double: DN counts as
Zero and NaN as INF; INF plus or minus INF is +INF, zero times INF is Zero, INF by INF is Zero; and with
the divide-by-zero trap off too, a division by zero gives INF of the operands' combined sign
(42_real.md R252, R255, R257, R264; a sum of Zeros is negative only when both addends are, log
entry 32). -/
def Obligations.SpecialOperands : Prop :=
  ∀ (s : State) (x y : Nib), s.tw.getMsbD 25 = false →
    let single (op : RealOp) (d : Word) : Prop :=
      exec (match op with
        | .add => .radd x y | .sub => .rsub x y | .mul => .rmpy x y | .div => .rdiv x y) s =
          .next ((s.setReg x d).advance 2)
    let double (op : RealOp) (d : DWord) : Prop :=
      exec (match op with
        | .add => .dradd x y | .sub => .drsub x y | .mul => .drmpy x y | .div => .drdiv x y) s =
          .next ((s.setPair x d).advance 2)
    followsTable 8 (s.reg x) (s.reg y) single ∧ followsTable 11 (s.pair x) (s.pair y) double ∧
    (s.tw.getMsbD 20 = false →
      dividesByZero 8 (s.reg x) (s.reg y) single ∧ dividesByZero 11 (s.pair x) (s.pair y) double)

/-- Real arithmetic, single and double, in every rounding mode and with any traps enabled. A special
operand with the before trap on, and a division by zero with its trap on, modify nothing and take
arithmetic trap 25 or 20. Two numbers: the exact result is rounded; out of range it gives the wrapped
result and trap 18 or 19, or INF or +0 with the trap off; a rounded result takes trap 24 after its
delivery if that is on; an exact zero is delivered as +0. The manual's two examples of a wrapped
result (42_real.md R253, R254, R257 to R264; a Zero is special here, log entry 38; the Round field is
log entry 26). -/
def Obligations.RealTraps : Prop :=
  ∀ (s : State) (x y : Nib),
    let trap (op n : Word) (t : State) : Out :=
      enterEvent
        { off := 0x41C, saved := s.pc, sr0 := none, sr1 := some op,
          sr2 := some ((x ++ y).setWidth 32), sr3 := some n } t
    let a := s.reg x
    let b := s.reg y
    let c := s.pair x
    let d := s.pair y
    (∀ p ∈ [(Instr.radd x y, RealOp.add, 0x23#32), (Instr.rsub x y, .sub, 0x24),
        (Instr.rmpy x y, .mul, 0x25), (Instr.rdiv x y, .div, 0x26)],
      (s.tw.getMsbD 25 = true → ¬ (isNumber 8 a ∧ isNumber 8 b) →
        exec p.1 s = trap p.2.2 25 s) ∧
      (isNumber 8 a → isNumber 8 b →
        let r := exactResult p.2.1 (numberValue 8 a) (numberValue 8 b)
        (r ≠ 0 → realOutcome 8 s (fun w : Word => s.setReg x w) (trap p.2.2) r (exec p.1 s)) ∧
        (r = 0 → exec p.1 s = .next ((s.setReg x 0).advance 2)))) ∧
    (∀ p ∈ [(Instr.dradd x y, RealOp.add, 0x33#32), (Instr.drsub x y, .sub, 0x34),
        (Instr.drmpy x y, .mul, 0x35), (Instr.drdiv x y, .div, 0x36)],
      (s.tw.getMsbD 25 = true → ¬ (isNumber 11 c ∧ isNumber 11 d) →
        exec p.1 s = trap p.2.2 25 s) ∧
      (isNumber 11 c → isNumber 11 d →
        let r := exactResult p.2.1 (numberValue 11 c) (numberValue 11 d)
        (r ≠ 0 → realOutcome 11 s (fun w : DWord => s.setPair x w) (trap p.2.2) r (exec p.1 s)) ∧
        (r = 0 → exec p.1 s = .next ((s.setPair x 0).advance 2)))) ∧
    (s.tw.getMsbD 25 = false → s.tw.getMsbD 20 = true →
      (patternExp 8 b = 0 → exec (.rdiv x y) s = trap 0x26 20 s) ∧
      (patternExp 11 d = 0 → exec (.drdiv x y) s = trap 0x36 20 s)) ∧
    (s.tw.getMsbD 18 = true → a = 0x7F000000#32 → b = 0x40800000#32 →
      exec (.rmpy x y) s = trap 0x25 18 (s.setReg x 0)) ∧
    (s.tw.getMsbD 19 = true → a = 0x00800000#32 → b = 0x41000000#32 →
      exec (.rdiv x y) s = trap 0x26 19 (s.setReg x 0x7F000000#32))

/-- RNEG and DRNEG complement the sign bit of any operand and raise nothing
(42_real.md R269, R279). The byte order of the encodings is the model's choice, log entry 37. -/
def Obligations.RealNegate : Prop :=
  ∀ (s : State) (x y : Nib),
    exec (.rneg x y) s = .next ((s.setReg x (s.reg y ^^^ 0x80000000#32)).advance 2) ∧
    exec (.drneg x y) s =
      .next ((s.setPair x ((s.reg y ^^^ 0x80000000#32) ++ s.reg (y + 1))).advance 2) ∧
    encode (.rneg x y) = [0x22, x ++ y] ∧ encode (.drneg x y) = [0x32, x ++ y]

/-- The conversions, with any traps enabled. DFLOAT delivers the integer's exact double; FLOAT the
integer rounded to a single, exact up to 24 bits; FIXT and DFIXT the integer nearer zero, FIXR and
DFIXR the nearest integer, the largest integer of the sign and trap 18 if it is on when that is out
of range; MAKERD a double of the number's own value; MAKEDR the double rounded to a single, INF or
Zero of its sign out of range, with trap 18 or 19 if it is on; DN, INF and NaN take the before trap if
it is on (42_real.md R256, R270 to R273, R280 to R283; log entries 26 and 33). -/
def Obligations.Conversions : Prop :=
  ∀ (s : State) (x y : Nib),
    let trap (op n : Word) (t : State) : Out :=
      enterEvent
        { off := 0x41C, saved := s.pc, sr0 := none, sr1 := some op,
          sr2 := some ((x ++ y).setWidth 32), sr3 := some n } t
    let n := (s.reg y).toInt
    let b := s.reg y
    let c := s.pair y
    let put (w : Word) : State := s.setReg x w
    let putPair (d : DWord) : State := s.setPair x d
    (∃ d : DWord, exec (.dfloat x y) s = .next ((s.setPair x d).advance 2) ∧ (n = 0 → d = 0) ∧
      (n ≠ 0 → doubleNumber d ∧ doubleValue d = n)) ∧
    (n.natAbs ≤ 2 ^ 24 →
      ∃ w : Word, exec (.float x y) s = .next ((s.setReg x w).advance 2) ∧ (n = 0 → w = 0) ∧
        (n ≠ 0 → singleNumber w ∧ singleValue w = n)) ∧
    (n ≠ 0 → realOutcome 8 s put (trap 0x29) n (exec (.float x y) s)) ∧
    fixes 8 b false s put (trap 0x20) (exec (.fixt x y) s) ∧
    fixes 8 b true s put (trap 0x21) (exec (.fixr x y) s) ∧
    fixes 11 c false s put (trap 0x30) (exec (.dfixt x y) s) ∧
    fixes 11 c true s put (trap 0x31) (exec (.dfixr x y) s) ∧
    (singleNumber b →
      ∃ d : DWord, doubleNumber d ∧ doubleValue d = singleValue b ∧
        exec (.makerd x y) s = .next ((s.setPair x d).advance 2)) ∧
    convertsSpecial 8 11 b s putPair (trap 0x27) (exec (.makerd x y) s) ∧
    (isNumber 11 c →
      ∃ (v : ℚ) (d : Word) (E : ℤ),
        rounds 24 (s.tw.getMsbD 22) (s.tw.getMsbD 23) (numberValue 11 c) v ∧
        v = patternValue 8 d E ∧ (patternExp 8 d : ℤ) = E % 256 ∧
        let finish (t : State) : Out :=
          if v ≠ numberValue 11 c ∧ s.tw.getMsbD 24 = true then trap 0x37 24 t
          else .next (t.advance 2)
        let beyond (n : Nat) (w : Word) : Out :=
          if s.tw.getMsbD n then trap 0x37 (BitVec.ofNat 32 n) (put w) else finish (put w)
        exec (.makedr x y) s =
          if 255 ≤ E then beyond 18 (if v < 0 then 0xFF800000 else 0x7F800000)
          else if E < 1 then beyond 19 (if v < 0 then 0x80000000 else 0)
          else finish (put d)) ∧
    convertsSpecial 11 8 c s put (trap 0x37) (exec (.makedr x y) s)

/-- RCOMP and DRCOMP order their operands by value, a Zero of either sign and DN as zero, NaN as INF
of its sign, INF beyond every number; with the before trap on a DN, INF or NaN changes nothing and
takes arithmetic trap 25 (43_bit_compare_shift.md R314, R315). -/
def Obligations.RealCompare : Prop :=
  ∀ (s : State) (x y : Nib),
    let trap (op : Word) : Out :=
      enterEvent
        { off := 0x41C, saved := s.pc, sr0 := none, sr1 := some op,
          sr2 := some ((x ++ y).setWidth 32), sr3 := some 25 } s
    let order (a b : ℚ) : Out :=
      .next ((s.setReg x (if a < b then -1 else if a = b then 0 else 1)).advance 2)
    let special := isSpecial 8 (s.reg x) ∨ isSpecial 8 (s.reg y)
    let doubleSpecial := isSpecial 11 (s.pair x) ∨ isSpecial 11 (s.pair y)
    ((special → s.tw.getMsbD 25 = false) →
      exec (.rcomp x y) s = order (compareValue 8 (s.reg x)) (compareValue 8 (s.reg y))) ∧
    (special → s.tw.getMsbD 25 = true → exec (.rcomp x y) s = trap 0x2A) ∧
    ((doubleSpecial → s.tw.getMsbD 25 = false) →
      exec (.drcomp x y) s = order (compareValue 11 (s.pair x)) (compareValue 11 (s.pair y))) ∧
    (doubleSpecial → s.tw.getMsbD 25 = true → exec (.drcomp x y) s = trap 0x3A)

/-! ### Program control -/

/-- BR always branches, the conditional branches when the signed compare of Rx with Ry or with the
Ry field holds; the target is the displacement without its last bit from the branch itself
(44_program_control.md R340 to R348). -/
def Obligations.Branches : Prop :=
  ∀ (s : State) (x y n : Nib) (b : Src) (d : Disp),
    let a := (s.reg x).toInt
    let v : Int := match b with
      | .reg y => (s.reg y).toInt
      | .imm m => m.toNat
    exec (.br x y d) s = .next (s.setPc (branchEnd d s.pc True)) ∧
    exec (.brGt x b d) s = .next (s.setPc (branchEnd d s.pc (a > v))) ∧
    exec (.brEq x b d) s = .next (s.setPc (branchEnd d s.pc (a = v))) ∧
    exec (.brLe x b d) s = .next (s.setPc (branchEnd d s.pc (a ≤ v))) ∧
    exec (.brNe x b d) s = .next (s.setPc (branchEnd d s.pc (a ≠ v))) ∧
    exec (.brLt x n d) s = .next (s.setPc (branchEnd d s.pc (a < n.toNat))) ∧
    exec (.brGe x n d) s = .next (s.setPc (branchEnd d s.pc (a ≥ n.toNat)))

/-- LOOP adds the Ry field to Rx and branches while the true sum is negative; CALL, CALLR and RET
put the address of the next instruction in Rx and go to their target, CALLR from the program counter
and RET to the address in Ry as it was before (44_program_control.md R340, R349, R354 to R356); a
target that CALLR or RET finds odd is refused (log entry 14). -/
def Obligations.LoopAndLinkage : Prop :=
  ∀ (s : State) (x y n : Nib) (d : Disp),
    let v := (s.reg x).toInt + n.toNat
    exec (.loop x n d) s =
      .next ((s.setReg x (BitVec.ofInt 32 v)).setPc (branchEnd d s.pc (v < 0))) ∧
    exec (.call x y d) s =
      .next ((s.setReg x (branchEnd d s.pc False)).setPc (branchEnd d s.pc True)) ∧
    ((s.pc + s.reg y).toNat % 2 = 0 →
      exec (.callr x y) s = .next ((s.setReg x (s.pc + 2)).setPc (s.pc + s.reg y))) ∧
    ((s.reg y).toNat % 2 = 0 →
      exec (.ret x y) s = .next ((s.setReg x (s.pc + 2)).setPc (s.reg y))) ∧
    ((s.pc + s.reg y).toNat % 2 = 1 → exec (.callr x y) s = .refused .oddPc) ∧
    ((s.reg y).toNat % 2 = 1 → exec (.ret x y) s = .refused .oddPc)

/-- CHK goes on when Rx is at most Ry, CHKI when Rx is from 0 to the Ry field, signed; otherwise
the check trap, nothing modified (44_program_control.md R350, R351; 60_exceptions.md R444). -/
def Obligations.Checks : Prop :=
  ∀ (s : State) (x y : Nib),
    let a := (s.reg x).toInt
    let e (op : Word) : Event :=
      { off := 0x418, saved := s.pc, sr0 := none, sr1 := some op, sr2 := some (x.setWidth 32),
        sr3 := some (y.setWidth 32) }
    (a ≤ (s.reg y).toInt → exec (.chk x y) s = .next (s.advance 2)) ∧
    ((s.reg y).toInt < a → exec (.chk x y) s = enterEvent (e 0x0F) s) ∧
    (0 ≤ a → a ≤ y.toNat → exec (.chki x y) s = .next (s.advance 2)) ∧
    (a < 0 ∨ (y.toNat : Int) < a → exec (.chki x y) s = enterEvent (e 0x1F) s)

/-- TRAP puts the Ry field in SR3; in user mode with that bit of SR10 clear it goes on, otherwise
it takes the trap of offset 41C (44_program_control.md R352, 60_exceptions.md R445). -/
def Obligations.TrapInstruction : Prop :=
  ∀ (s : State) (x n : Nib),
    (s.mode = .user → (s.sr 10).getMsbD n.toNat = false →
      exec (.trap x n) s = .next ((s.setSr 3 (n.setWidth 32)).advance 2)) ∧
    (s.mode = .kernel ∨ (s.sr 10).getMsbD n.toNat = true →
      exec (.trap x n) s =
        enterEvent
          { off := 0x41C, saved := s.pc, sr0 := none, sr1 := some 0x3B,
            sr2 := some ((x ++ n).setWidth 32), sr3 := some (n.setWidth 32) }
          (s.setSr 3 (n.setWidth 32)))

/-- KCALL in user mode enters the kernel at the vector its number selects, SR15 holding the address
of the next instruction, SR0 to SR3 unchanged; in kernel mode it is a kernel violation
(44_program_control.md R353, 60_exceptions.md R439, R443). -/
def Obligations.KernelCall : Prop :=
  ∀ (s : State) (num : Byte),
    (∀ v, s.mode = .user → s.vectorAt (4 * num.setWidth 32) v →
      exec (.kcall num) s =
        .next { s.setSr 15 (s.pc + 2) with mode := .kernel, paused := false, pc := v }) ∧
    (s.mode = .kernel →
      exec (.kcall num) s =
        enterEvent
          { off := 0x414, saved := s.pc, sr0 := none, sr1 := some 0x5B,
            sr2 := some ((mfield num 0 3).setWidth 32), sr3 := some ((mfield num 4 7).setWidth 32) }
          s)

/-! ### Memory reference -/

/-- The loads, both spaces, at an aligned address of memory that exists: the bytes read, most
significant first, reach Rx zero-extended, or the pair RPx, and nothing else changes. Where the cache
may hold other copies of a word, the bytes of the word are main memory's or those of one copy; a
data-space load fills the line, so that a later one gets the same bytes or main memory's, and no load
makes readable what was not. Where a word shows a double-bit error the destination gets some value,
and an execute parity error with the word's address in SR3 is pending. In user mode the load follows
its translation, which leaves the state `s` (in kernel mode the state `r` itself)
(40_memory_reference.md R170, R171, R173 to R181; 20_memory.md R80, R87, R93, R111; 10_state.md R49;
60_exceptions.md R455; log entries 8, 9 and 12). -/
def Obligations.LoadsComplete : Prop :=
  ∀ (r s : State) (x : Nib) (m : MemRef) (sp : Space) (pa : Word),
    let ea := effectiveAddress sp m r
    r.reaches sp ea .read pa s →
    let ld (data code : Nib → MemRef → Instr) : Instr :=
      match sp with
      | .data => data x m
      | .code => code x m
    let b (k : Nat) : Byte := s.mem.read (pa.toNat + k)
    let fin (t : State) : Out := .next (t.setPc (branchEnd m.disp s.pc False))
    let value (bs : List Byte) : Nat := bs.foldl (fun v b => v * 256 + b.toNat) 0
    let word := pa.toNat / 4
    (s.settled →
      (pa.toNat + 1 ≤ Config.memSize →
        exec (ld .loadb .loadbp) r = fin (s.setReg x ((b 0).setWidth 32))) ∧
      (ea.toNat % 2 = 0 → pa.toNat + 2 ≤ Config.memSize →
        exec (ld .loadh .loadhp) r = fin (s.setReg x ((b 0 ++ b 1).setWidth 32))) ∧
      (ea.toNat % 4 = 0 → pa.toNat + 4 ≤ Config.memSize →
        exec (ld .load .loadp) r = fin (s.setReg x (b 0 ++ b 1 ++ b 2 ++ b 3))) ∧
      (ea.toNat % 8 = 0 → pa.toNat + 8 ≤ Config.memSize →
        exec (ld .loadd .loaddp) r =
          fin (s.setPair x (b 0 ++ b 1 ++ b 2 ++ b 3 ++ b 4 ++ b 5 ++ b 6 ++ b 7)))) ∧
    (s.dmaTurns = [] →
      (∀ p ∈ [(ld .loadb .loadbp, 1), (ld .loadh .loadhp, 2), (ld .load .loadp, 4)],
        ea.toNat % p.2 = 0 → pa.toNat + p.2 ≤ Config.memSize →
        (word ∉ s.badWords →
          ∃ bs n ls, bs.length = p.2 ∧ s.mayRead sp pa.toNat bs ∧ s.narrows sp ls ∧
            (sp = .data → s.decides ls pa.toNat bs) ∧
            exec p.1 r =
              fin { s.setReg x (BitVec.ofNat 32 (value bs)) with draws := n, staleData := ls }) ∧
        (word ∈ s.badWords →
          ∃ w n ls, s.narrows sp ls ∧ exec p.1 r =
            fin { s.setReg x w with
              draws := n, staleData := ls, badWords := s.badWords.filter (· ≠ word)
              parityPending := s.parityPending ++ [{ fetch := false, addr := ea }] })) ∧
      (ea.toNat % 8 = 0 → pa.toNat + 8 ≤ Config.memSize →
        (word ∉ s.badWords → word + 1 ∉ s.badWords →
          ∃ bs cs n ls, bs.length = 4 ∧ cs.length = 4 ∧ s.mayRead sp pa.toNat bs ∧
            s.mayRead sp (pa.toNat + 4) cs ∧ s.narrows sp ls ∧
            (sp = .data → s.decides ls pa.toNat bs ∧ s.decides ls (pa.toNat + 4) cs) ∧
            exec (ld .loadd .loaddp) r =
              fin { s.setPair x (BitVec.ofNat 64 (value (bs ++ cs))) with
                draws := n, staleData := ls }) ∧
        (word ∈ s.badWords ∨ word + 1 ∈ s.badWords →
          ∃ d n ls, s.narrows sp ls ∧ exec (ld .loadd .loaddp) r =
            fin { s.setPair x d with
              draws := n, staleData := ls, badWords := s.badWords.filter (fun w => w ≠ word ∧ w ≠ word + 1)
              parityPending := s.parityPending ++
                (if word ∈ s.badWords then [{ fetch := false, addr := ea }] else []) ++
                if word + 1 ∈ s.badWords then [{ fetch := false, addr := ea + 4 }] else [] })))

/-- STOREB, STOREH, STORE and STORED: at an aligned address of memory that exists, whose page in user mode
is writable, the low bytes of Rx, Rx, or the pair RPx reach memory, most significant first, whatever copies the cache holds
and whatever words show errors. A data load gets the bytes stored from then on; a code load or a fetch may
get the older ones; nothing else changes. In user mode the store follows its translation, which leaves
the state `s` (in kernel mode the state `r` itself) (40_memory_reference.md R182 to R186; 20_memory.md R80, R87,
R93, R111; 10_state.md R49; log entries 8, 9 and 12). -/
def Obligations.StoresComplete : Prop :=
  ∀ (r s : State) (x : Nib) (m : MemRef) (pa : Word), r.dmaTurns = [] → r.mem.wf →
    let ea := effectiveAddress .data m r
    r.reaches .data ea .write pa s →
    ∀ p ∈ storeForms r x m,
      ea.toNat % p.2.length = 0 → pa.toNat + p.2.length ≤ Config.memSize →
      ∃ t, exec p.1 r = .next (t.setPc (branchEnd m.disp r.pc False)) ∧ s.stores pa.toNat p.2 t

/-- LADDR puts the effective address itself in Rx: displacement plus the index register of the
indexed form, plus the program counter in the code form; it never traps
(40_memory_reference.md R187, R188; 20_memory.md R82). The opcodes and the place of the opcode byte
are the model's choices, `MEMOP_NIBBLE`, log entry 25, and log entry 37. -/
def Obligations.LoadAddress : Prop :=
  ∀ (s : State) (x : Nib) (m : MemRef),
    let disp : Word := match m.disp with
      | .short h => h.signExtend 32
      | .long w => w
    let index : Word := match m.form with
      | .direct => 0
      | .indexed => s.reg m.y
    exec (.laddr x m) s =
      .next ((s.setReg x (index + disp)).setPc (branchEnd m.disp s.pc False)) ∧
    exec (.laddrp x m) s =
      .next ((s.setReg x (s.pc + index + disp)).setPc (branchEnd m.disp s.pc False)) ∧
    (encode (.laddr x m)).head? = (match m.form, m.disp with
      | .direct, .short _ => some 0xCE
      | .indexed, .short _ => some 0xCF
      | .direct, .long _ => some 0xDE
      | .indexed, .long _ => some 0xDF) ∧
    (encode (.laddrp x m)).head? = (match m.form, m.disp with
      | .direct, .short _ => some 0xEE
      | .indexed, .short _ => some 0xEF
      | .direct, .long _ => some 0xFE
      | .indexed, .long _ => some 0xFF)

/-- A halfword, word or double-word access at an address that is no multiple of its length takes
the data alignment trap before anything else, with the segment number in SR2 (user mode; any value
in kernel mode, Config.kernelSegment) and the address in SR3 (20_memory.md R84,
60_exceptions.md R440). -/
def Obligations.DataAlignmentTrap : Prop :=
  ∀ (s : State) (x : Nib) (m : MemRef),
    ∀ p ∈ [(Instr.loadh x m, 2, Space.data), (Instr.load x m, 4, .data), (Instr.loadd x m, 8, .data),
        (Instr.loadhp x m, 2, .code), (Instr.loadp x m, 4, .code), (Instr.loaddp x m, 8, .code),
        (Instr.storeh x m, 2, .data), (Instr.store x m, 4, .data), (Instr.stored x m, 8, .data)],
      let ea := effectiveAddress p.2.2 m s
      let e (seg : Word) : Event :=
        { off := 0x400, saved := s.pc, sr0 := none, sr1 := none, sr2 := some seg, sr3 := some ea }
      ea.toNat % p.2.1 ≠ 0 →
        (s.mode = .user →
          exec p.1 s =
            enterEvent (e ((mfield (s.sr (if p.2.2 = .code then 8 else 9)) 16 31).setWidth 32)) s) ∧
        (s.mode = .kernel → ∃ w, exec p.1 s = enterEvent (e w) s.drawn)

/-! ### Translation -/

/-- A user-mode address with no entry in the TMT, found in the VRT: the entry's Referenced bit is set in
memory and the TMT holds it from then on, in the one place its index names, and nothing else changes;
the entry gives the real address of a load, a fetch, or a store to a page that allows it and is dirty
already, and a store to a page that does not allow it is the page fault -2
(20_memory.md R92, R93, R95 to R98; 60_exceptions.md R441). -/
def Obligations.TranslationLoadsEntry : Prop :=
  ∀ (s : State) (sp : Space) (va q : Word) (acc : Access),
    s.calm → s.mem.wf → s.mode = .user → tmtHit sp va s = none →
    let seg : Half := mfield (s.sr (if sp = .code then 8 else 9)) 16 31
    s.vrt seg va (some q) →
    let w := s.mem.readWord (q.toNat + 8)
    tmtV w = true → tmtU w = false →
    ∃ t, s.entryLoaded sp va q (w ||| 0x10#32) t ∧
      ((acc = .write → tmtW w = true ∧ tmtD w = true) →
        Machine.translate sp va acc s = .ok (physAddress w va) t) ∧
      (acc = .write → tmtW w = false →
        Machine.translate sp va acc s =
          .trap { off := 0x410, saved := s.pc, sr0 := none, sr1 := some 0xFFFFFFFE,
                  sr2 := some (seg.setWidth 32), sr3 := some va } t)

/-- The first user-mode STOREB, STOREH, STORE or STORED to a page that allows writing and is not dirty:
the Referenced and Dirty bits of the VRT entry are set in memory, the TMT entry is reloaded from it, and
the store's bytes reach the page, whether the TMT held the page's entry before or the VRT search of the
miss loaded it; on the miss the VRT is searched twice, the second time with the Referenced bit in memory
(20_memory.md R93, R97, R98; 40_memory_reference.md R182 to R186). -/
def Obligations.StoreMarksDirty : Prop :=
  ∀ (s : State) (va q : Word), s.calm → s.mem.wf → s.mode = .user →
    let found (m : Memory) : Prop :=
      ({ s with mem := m }).vrt (mfield (s.sr 9) 16 31) va (some q)
    let w := s.mem.readWord (q.toNat + 8)
    found s.mem → tmtV w = true → tmtU w = false →
    let marks (pa : Word) : Prop :=
      ∃ t, s.entryLoaded .data va q (w ||| 0x11#32) t ∧
        Machine.translate .data va .write s = .ok pa t ∧
        ∀ (x : Nib) (m : MemRef), effectiveAddress .data m s = va → ∀ p ∈ storeForms s x m,
          va.toNat % p.2.length = 0 → pa.toNat + p.2.length ≤ Config.memSize →
          ∃ u, exec p.1 s = .next (u.setPc (branchEnd m.disp s.pc False)) ∧
            t.stores pa.toNat p.2 u
    (∀ e, tmtHit .data va s = some e → tmtW e = true → tmtD e = false →
      marks (physAddress e va)) ∧
    (tmtHit .data va s = none → tmtW w = true → tmtD w = false →
      found (s.mem.writeBytes (q.toNat + 8) (wordBytes (w ||| 0x10#32))) →
      marks (physAddress w va))

/-- The page fault, from user mode: -1 in SR1 where neither the TMT nor the VRT has an entry for a load, a
store or a fetch, -2 for a store to a page that does not allow it; the segment number in SR2, the
address in SR3, of an instruction that runs on into a missing page the page boundary; nothing else
touched but, where a miss of the TMT was found in the VRT, the entry it loads (60_exceptions.md R441,
20_memory.md R93, R97, R98). That a store through a TMT entry not dirty, of a page that the VRT no longer
holds, is the page fault -1 is the model's choice, log entry 19: R98 gives no outcome there. -/
def Obligations.PageFaults : Prop :=
  ∀ (s : State) (x : Nib) (m : MemRef), s.calm → s.mode = .user →
    let seg (sp : Space) : Half := mfield (s.sr (if sp = .code then 8 else 9)) 16 31
    let e (code : Word) (sp : Space) (va : Word) : Event :=
      { off := 0x410, saved := s.pc, sr0 := none, sr1 := some code,
        sr2 := some ((seg sp).setWidth 32), sr3 := some va }
    (∀ p ∈ [(Instr.loadb x m, 1, Space.data), (Instr.loadh x m, 2, .data),
        (Instr.load x m, 4, .data), (Instr.loadd x m, 8, .data), (Instr.loadbp x m, 1, .code),
        (Instr.loadhp x m, 2, .code), (Instr.loadp x m, 4, .code), (Instr.loaddp x m, 8, .code),
        (Instr.storeb x m, 1, .data), (Instr.storeh x m, 2, .data), (Instr.store x m, 4, .data),
        (Instr.stored x m, 8, .data)],
      let ea := effectiveAddress p.2.2 m s
      ea.toNat % p.2.1 = 0 → tmtHit p.2.2 ea s = none → s.vrt (seg p.2.2) ea none →
        exec p.1 s = enterEvent (e 0xFFFFFFFF p.2.2 ea) s) ∧
    (∀ p ∈ [(Instr.storeb x m, 1), (Instr.storeh x m, 2), (Instr.store x m, 4),
        (Instr.stored x m, 8)],
      let ea := effectiveAddress .data m s
      ea.toNat % p.2 = 0 →
      (∀ w, tmtHit .data ea s = some w → tmtW w = false →
        exec p.1 s = enterEvent (e 0xFFFFFFFE .data ea) s) ∧
      (∀ w, tmtHit .data ea s = some w → tmtW w = true → tmtD w = false →
        s.vrt (seg .data) ea none → exec p.1 s = enterEvent (e 0xFFFFFFFF .data ea) s) ∧
      (s.mem.wf → tmtHit .data ea s = none → ∀ q, s.vrt (seg .data) ea (some q) →
        let w := s.mem.readWord (q.toNat + 8)
        tmtV w = true → tmtU w = false → tmtW w = false →
        ∃ t, s.entryLoaded .data ea q (w ||| 0x10#32) t ∧
          exec p.1 s = enterEvent (e 0xFFFFFFFE .data ea) t)) ∧
    (s.pc.toNat % 2 = 0 → tmtHit .code s.pc s = none → s.vrt (seg .code) s.pc none →
      ∃ n, runInstruction s = enterEvent (e 0xFFFFFFFF .code s.pc) { s with draws := n }) ∧
    (∀ k ∈ [2, 4], s.pc.toNat % 4096 + k = 4096 → ∀ w, tmtHit .code s.pc s = some w →
      let pa := (physAddress w s.pc).toNat
      let op := s.mem.read pa
      let next := s.pc + BitVec.ofNat 32 k
      pa + k ≤ Config.memSize → (∀ l ∈ s.staleCode, l.holds pa = false) →
      k < (if op.getMsbD 0 = false then 2 else if op.getMsbD 3 = false then 4 else 6) →
      tmtHit .code next s = none → s.vrt (seg .code) next none →
      ∃ n, runInstruction s = enterEvent (e 0xFFFFFFFF .code next) { s with draws := n })

/-- TRANS and DIRT in kernel mode: Rx receives the real address the VRT gives for the segment in Ry
and the address in Ry+1, or -1; TRANS sets the entry's Referenced bit, DIRT the Dirty bit too; the
TMT is not used (45_kernel.md R398, R399). -/
def Obligations.TransAndDirt : Prop :=
  ∀ (s : State) (x y : Nib), s.calm → s.mem.wf → s.mode = .kernel →
    let va := s.reg (y + 1)
    let seg : Half := mfield (s.reg y) 16 31
    (s.vrt seg va none →
      exec (.trans x y) s = .next ((s.setReg x 0xFFFFFFFF).advance 2) ∧
      exec (.dirt x y) s = .next ((s.setReg x 0xFFFFFFFF).advance 2)) ∧
    ∀ q, s.vrt seg va (some q) →
      let w := s.mem.readWord (q.toNat + 8)
      tmtV w = true → tmtU w = false →
      ∀ p ∈ [(Instr.trans x y, 0x10#32), (Instr.dirt x y, 0x11#32)],
        ∃ t, exec p.1 s = .next t ∧ t.pc = s.pc + 2 ∧
          t.regs = (s.setReg x ((mfield w 1 15 ++ mfield va 20 31).setWidth 32)).regs ∧
          t.mem.readWord (q.toNat + 8) = w ||| p.2 ∧
          (∀ a, a < q.toNat + 8 ∨ q.toNat + 12 ≤ a → t.mem.read a = s.mem.read a) ∧
          { t with
            pc := s.pc, regs := s.regs, mem := s.mem
            staleCode := s.staleCode, staleData := s.staleData } = s

/-! ### State switching and special registers -/

/-- SUS in kernel mode: nothing when SR14 is 1; otherwise SR15 and the registers Rx to Ry, or Rx
alone, reach their places in the PCB, and no other byte of memory changes; a PCB that is misaligned or
outside memory is refused (45_kernel.md R371, R374; 92_eei_decisions.md D47; `PCB_LAYOUT`, log entry 27;
log entries 15 and 16). -/
def Obligations.SaveState : Prop :=
  ∀ (s : State) (x y : Nib), s.dmaTurns = [] → s.mem.wf → s.mode = .kernel →
    let p := (s.sr 14).toNat
    (s.sr 14 = 1 → exec (.sus x y) s = .next (s.advance 2)) ∧
    (s.sr 14 ≠ 1 → p % 4 ≠ 0 → exec (.sus x y) s = .refused .pcbMisaligned) ∧
    (p % 4 = 0 → Config.memSize ≤ p → exec (.sus x y) s = .refused .absentRealAddress) ∧
    (p % 4 = 0 → p + 0x44 ≤ Config.memSize →
      let saved (i : Nat) : Prop := i = x.toNat ∨ x.toNat ≤ i ∧ i ≤ y.toNat
      ∃ t, exec (.sus x y) s = .next t ∧ t.pc = s.pc + 2 ∧
        t.mem.readWord (p + 0x40) = s.sr 15 ∧
        (∀ i : Nib, saved i.toNat → t.mem.readWord (p + 4 * i.toNat) = s.reg i) ∧
        (∀ a, ¬ (p + 0x40 ≤ a ∧ a < p + 0x44) →
          (∀ i, saved i → ¬ (p + 4 * i ≤ a ∧ a < p + 4 * i + 4)) →
          t.mem.read a = s.mem.read a) ∧
        { t with
          pc := s.pc, mem := s.mem, staleCode := s.staleCode, staleData := s.staleData } = s)

/-- LUS and LDREGS in kernel mode: nothing when SR14 is 1; otherwise the registers Rx to Ry, or Rx
alone, come from their places in the PCB; LUS also loads SR15, SR8, SR9, SR10 and the effective
traps word and flushes the TMT and the code half of the cache; a PCB that is misaligned or outside memory
is refused (45_kernel.md R372 to R374, 20_memory.md R99, R115; 92_eei_decisions.md D47; `PCB_LAYOUT`, log
entry 27; log entries 15 and 16). -/
def Obligations.LoadState : Prop :=
  ∀ (s : State) (x y : Nib), s.calm → s.mode = .kernel →
    let p := (s.sr 14).toNat
    let word (k : Nat) : Word := s.mem.readWord (p + k)
    let range (r : State) : Prop := ∀ i : Nib,
      r.reg i =
        if i = x ∨ x.toNat ≤ i.toNat ∧ i.toNat ≤ y.toNat then word (4 * i.toNat) else s.reg i
    (s.sr 14 = 1 → exec (.lus x y) s = .next (s.advance 2) ∧
      exec (.ldregs x y) s = .next (s.advance 2)) ∧
    (s.sr 14 ≠ 1 → p % 4 ≠ 0 → exec (.lus x y) s = .refused .pcbMisaligned ∧
      exec (.ldregs x y) s = .refused .pcbMisaligned) ∧
    (p % 4 = 0 → Config.memSize ≤ p → exec (.lus x y) s = .refused .absentRealAddress ∧
      exec (.ldregs x y) s = .refused .absentRealAddress) ∧
    (p % 4 = 0 → p + 0x4C ≤ Config.memSize →
      (∃ t, exec (.lus x y) s = .next t ∧ range t ∧
        { t with regs := s.regs } =
          { (((((s.setSr 15 (word 0x40)).setSr 8 ((mfield (word 0x44) 0 15).setWidth 32)).setSr 9
              ((mfield (word 0x44) 16 31).setWidth 32)).setSr 10 (word 0x48)).advance 2) with
            tw := word 0x48, tmtCode := [], tmtData := [], staleCode := [] }) ∧
      ∃ t, exec (.ldregs x y) s = .next t ∧ range t ∧
        { t with regs := s.regs } = s.advance 2)

/-- RUM in kernel mode resumes user mode at the address in SR15, or pauses when SR14 is 1; TRAPEXIT
goes on in kernel mode at the address in SR0 with the TMT and the cache flushed
(45_kernel.md R375, R391; 60_exceptions.md R434, R460); an odd address is refused (log
entry 14). -/
def Obligations.Returns : Prop :=
  ∀ (s : State) (x y : Nib), s.mode = .kernel →
    (s.sr 14 = 1 → exec (.rum x y) s = .next { s.advance 2 with paused := true }) ∧
    (s.sr 14 ≠ 1 → (s.sr 15).toNat % 2 = 0 →
      exec (.rum x y) s = .next { s.setPc (s.sr 15) with mode := .user, paused := false }) ∧
    (s.sr 14 ≠ 1 → (s.sr 15).toNat % 2 = 1 → exec (.rum x y) s = .refused .oddPc) ∧
    ((s.sr 0).toNat % 2 = 0 →
      exec (.trapexit x) s =
        .next { s.setPc (s.sr 0) with
          tmtCode := [], tmtData := [], staleCode := [], staleData := [] }) ∧
    ((s.sr 0).toNat % 2 = 1 → exec (.trapexit x) s = .refused .oddPc)

/-- The moves between general and special registers in kernel mode, every special register alike
(45_kernel.md R378, R379). The byte order of the encodings is the model's choice, log entry 37. -/
def Obligations.SpecialRegisterMoves : Prop :=
  ∀ (s : State) (x y : Nib), s.mode = .kernel →
    exec (.movesr x y) s = .next ((s.setSr x (s.reg y)).advance 2) ∧
    exec (.movers x y) s = .next ((s.setReg x (s.sr y)).advance 2) ∧
    encode (.movesr x y) = [0x46, x ++ y] ∧ encode (.movers x y) = [0x47, x ++ y]

/-! ### Maintenance, interrupts, input and output -/

/-- ELOGR, ELOGW, TWRITED, FLUSH, MACHINEID, VERSION, CREG and RDLOG, where they may run
(45_kernel.md R387 to R390, R393, R394, R396, R397). That the entries RDLOG delivers from the
locations below its count are those of the error log in order is the model's choice, log entry 24: R397
and R54 do not say which locations are the valid ones. -/
def Obligations.Maintenance : Prop :=
  ∀ (s : State) (x : Nib), s.privileged →
    let a := s.reg x
    let mask (c : BitVec 2) (old : Bool) : Bool :=
      if c = 1 then true else if c = 0 then false else old
    (∃ w : Word,
      (∀ j < 32, w.getMsbD j = if j = 23 then s.powerFail else if j = 31 then s.loaf else false) ∧
      exec (.elogr x) s = .next ((s.setReg x w).advance 2)) ∧
    (a.getMsbD 31 = true → exec (.elogw x) s = .next { s.advance 2 with errorLog := [] }) ∧
    (a.getMsbD 31 = false → exec (.elogw x) s = .next (s.advance 2)) ∧
    (mfield a 28 29 = 3 →
      exec (.twrited x) s =
        .next { s.advance 2 with
          mask1 := mask (mfield a 24 25) s.mask1, mask2 := mask (mfield a 26 27) s.mask2 }) ∧
    (mfield a 28 29 ≠ 3 → exec (.twrited x) s = .next (s.advance 2)) ∧
    exec (.flush x) s = .next { s.advance 2 with staleCode := [], staleData := [] } ∧
    exec (.machineid x) s = .next ((s.setReg x Config.machineId).advance 2) ∧
    Config.machineId.getMsbD 28 = true ∧ Config.machineId.getMsbD 30 = true ∧
    exec (.version x) s = .next ((s.setReg x Config.microcodeVersion).advance 2) ∧
    exec (.creg x) s =
      .next { (s.setReg (x + 1)
          ((if s.clock.dataIn then 2 else 0) + if s.clock.ack then 1 else 0)).advance 2 with
        clock := { s.clock with request := a.getMsbD 31, dataOut := a.getMsbD 30 } } ∧
    (a.getMsbD 0 = true →
      exec (.rdlog x) s =
        .next ((s.setReg x (BitVec.ofNat 32 s.errorLog.length)).advance 2)) ∧
    (a.getMsbD 0 = false →
      ∃ w, (∀ h : (mfield a 28 31).toNat < s.errorLog.length,
          w = s.errorLog[(mfield a 28 31).toNat]) ∧
        exec (.rdlog x) s = .next ((s.setReg x w).drawn.advance 2))

/-- ITEST, where it may run: the first requesting board of line 2, or with none there of line 1, as
the masks allow, is acknowledged: its device number and 24 bits go to Rx+1, 0 to Rx, and its request
is withdrawn; with no deliverable request Rx is 1 (45_kernel.md R392;
60_exceptions.md R451, R452, R486). -/
def Obligations.InterruptTest : Prop :=
  ∀ (s : State) (x : Nib), s.privileged →
    let quiet (l : Line) (bs : List Board) : Prop :=
      ∀ c ∈ bs, c.line = l → c.request = none
    (s.mask2 = true ∨ quiet .two s.boards ∧ (s.mask1 = true ∨ quiet .one s.boards) →
      exec (.itest x) s = .next ((s.setReg x 1).advance 2)) ∧
    ∀ (pre post : List Board) (b : Board) (info : BitVec 24),
      s.boards = pre ++ b :: post → b.request = some info → s.mask2 = false → quiet b.line pre →
      (b.line = .one → s.mask1 = false ∧ quiet .two s.boards) →
      exec (.itest x) s =
        .next { ((s.setReg (x + 1) (b.device ++ info)).setReg x 0).advance 2 with
          boards := pre ++ { b with request := none } :: post }

/-- What the boards do. READ and WRITE, where they may run: the board the address word names answers
the transfer; its data goes to Rx+1 and status 0 to Rx, status 1 when it is not ready, status 2 when
nothing answers; what was sent stands in the bus record. DMA of an installed board: a write changes
its one or four words and nothing else, and the cache may keep the older ones, the data half unless
`DMA_COHERENT`; a read gets the words of memory, or some words and MDNVIO after a double-bit error;
a misaligned burst is refused; of two boards that request at once the one on chain 2, or the one
earlier on the chain, is served first (45_kernel.md R400 to R402; 60_exceptions.md R481, R482,
R484 to R487; 20_memory.md R111; `IOSTAT_N_BIT` = 31, log entry 36; log entries 7, 8, 12 and 16). -/
def Obligations.InputOutput : Prop :=
  (∀ (s : State) (x y : Nib), s.privileged →
    let a := s.reg y
    let dev : Byte := mfield a 0 7
    let rd (bs : List Board) (st d : Word) : Out :=
      .next { ((s.setReg x st).setReg (x + 1) d).drawn.advance 2 with
        boards := bs, bus := .ioRead a st :: s.bus }
    let wr (bs : List Board) (st : Word) : Out :=
      .next { (s.setReg x st).advance 2 with
        boards := bs, bus := .ioWrite a (s.reg x) st :: s.bus }
    (∀ (pre post : List Board) (b : Board), s.boards = pre ++ b :: post →
      (∀ c ∈ pre, c.device ≠ dev) → b.device = dev →
      (b.replies = [] →
        (∃ d, exec (.read x y) s = rd s.boards 2 d) ∧ exec (.write x y) s = wr s.boards 2) ∧
      ∀ (r : Reply) (rs : List Reply), b.replies = r :: rs →
        let bs := pre ++ { b with replies := rs } :: post
        (r = .silent → (∃ d, exec (.read x y) s = rd bs 2 d) ∧ exec (.write x y) s = wr bs 2) ∧
        (r = .notReady → (∃ d, exec (.read x y) s = rd bs 1 d) ∧ exec (.write x y) s = wr bs 1) ∧
        (∀ d, r = .accept d → exec (.read x y) s = rd bs 0 d ∧ exec (.write x y) s = wr bs 0)) ∧
    ((∀ c ∈ s.boards, c.device ≠ dev) →
      (∃ d, exec (.read x y) s = rd s.boards 2 d) ∧ exec (.write x y) s = wr s.boards 2)) ∧
  (∀ (s : State) (dev : Byte) (a : Word), s.mem.wf → (∃ b ∈ s.boards, b.device = dev) →
    let A := (a &&& 0xFFFFFFFC#32).toNat
    let does (d : Dma) : Res Unit := applyArrival (.dma [{ device := dev, dma := d }]) s
    (∀ p ∈ [(fun ws : List Word => Dma.writeWord a (ws.getD 0 0), 1),
        (fun ws => .writeBurst a (ws.getD 0 0) (ws.getD 1 0) (ws.getD 2 0) (ws.getD 3 0), 4)],
      ∀ ws : List Word, ws.length = p.2 → A % (4 * p.2) = 0 → A + 4 * p.2 ≤ Config.memSize →
      ∃ t, does (p.1 ws) = .ok () t ∧
        (∀ (k : Nat) (h : k < ws.length), t.mem.readWord (A + 4 * k) = ws[k]) ∧
        (∀ c, c < A ∨ A + 4 * p.2 ≤ c → t.mem.read c = s.mem.read c) ∧
        (∀ k < p.2, ∀ sp : Space, sp = .code ∨ Config.dmaCoherent = false →
          t.mayRead sp (A + 4 * k) (wordBytes (s.mem.readWord (A + 4 * k)))) ∧
        (Config.dmaCoherent = true → ∀ l ∈ t.staleData, ∀ k < 4 * p.2,
          l.holds (A + k) = true → l.byte (A + k) = t.mem.read (A + k)) ∧
        { t with mem := s.mem, staleCode := s.staleCode, staleData := s.staleData } = s) ∧
    (∀ p ∈ [(Dma.readWord a, 1), (Dma.readBurst a, 4)],
      A % (4 * p.2) = 0 → A + 4 * p.2 ≤ Config.memSize →
      let meets (w : Nat) : Prop := A / 4 ≤ w ∧ w < A / 4 + p.2
      ((∀ w ∈ s.badWords, ¬ meets w) →
        does p.1 = .ok () { s with
          bus := .dmaRead (a &&& 0xFFFFFFFC#32)
            ((List.range p.2).map fun k => s.mem.readWord (A + 4 * k)) false :: s.bus }) ∧
      ((∃ w ∈ s.badWords, meets w) →
        ∃ ws, ws.length = p.2 ∧
          ∃ t, does p.1 = .ok () t ∧ t.bus = .dmaRead (a &&& 0xFFFFFFFC#32) ws true :: s.bus ∧
            (∀ w, w ∈ t.badWords ↔ w ∈ s.badWords ∧ ¬ meets w) ∧
            { t with bus := s.bus, badWords := s.badWords, draws := s.draws } = s)) ∧
    (A % 16 ≠ 0 → ∀ w0 w1 w2 w3, does (.writeBurst a w0 w1 w2 w3) = .refused .dmaBurstMisaligned ∧
      does (.readBurst a) = .refused .dmaBurstMisaligned)) ∧
  ∀ (s t : State) (b c : Board) (d e : Dma), b ∈ s.boards → c ∈ s.boards →
    (s.boards.map Board.device).Nodup →
    (b.dmaChain = .two ∧ c.dmaChain = .one ∨
      b.dmaChain = c.dmaChain ∧ b.dmaPosition < c.dmaPosition) →
    let r : DmaRequest := { device := b.device, dma := d }
    let q : DmaRequest := { device := c.device, dma := e }
    applyArrival (.dma [r]) s = .ok () t →
      applyArrival (.dma [r, q]) s = applyArrival (.dma [q]) t ∧
      applyArrival (.dma [q, r]) s = applyArrival (.dma [q]) t

/-! ### Exceptions -/

/-- Event entry: with a vector in the CCB every event continues in kernel mode at the handler, with
SR0 and SR15 as the mode left and the event's words in SR1 to SR3, and nothing else changed; with no
CCB the machine is stuck, at KCALL in user mode too. Where the vector word shows a double-bit error,
some value stands for it, and an execute parity error with its address is pending
(60_exceptions.md R430, R431, R437, R455; log entry 12). -/
def Obligations.EventEntry : Prop :=
  ∀ (s : State) (e : Event),
    (∀ v, s.vectorAt e.off v → ∃ t, enterEvent e s = .next t ∧ s.entered e v t) ∧
    ((s.sr 11).toNat % 2 = 1 →
      enterEvent e s = .fault .noCcb ∧
      (s.mode = .user → ∀ num, exec (.kcall num) s = .fault .noCcb)) ∧
    let a := (s.sr 11).toNat + e.off.toNat
    (s.dmaTurns = [] → (s.sr 11).toNat % 4 = 0 → e.off.toNat % 4 = 0 → a + 4 ≤ Config.memSize →
      a / 4 ∈ s.badWords →
      ∃ v : Word,
        (v.toNat % 2 = 1 → enterEvent e s = .refused .oddPc) ∧
        (v.toNat % 2 = 0 → ∃ t, enterEvent e s = .next t ∧
          State.entered { s with
            draws := s.draws + 1, badWords := s.badWords.filter (· ≠ a / 4)
            parityPending := s.parityPending ++
              [{ fetch := false, addr := s.sr 11 + e.off }] } e v t))

/-- A kernel instruction in user mode takes the kernel violation trap and modifies nothing: the
first class always, the second unless SR10's privileged process bit is set
(60_exceptions.md R421, R443; 45_kernel.md R370). -/
def Obligations.KernelViolation : Prop :=
  ∀ (s : State) (x y : Nib), s.mode = .user →
    let e (op : Word) (f2 : Nib) : Event :=
      { off := 0x414, saved := s.pc, sr0 := none, sr1 := some op, sr2 := some (x.setWidth 32),
        sr3 := some (f2.setWidth 32) }
    (∀ p ∈ [(Instr.sus x y, 0x40#32, y), (Instr.lus x y, 0x41, y), (Instr.rum x y, 0x42, y),
        (Instr.ldregs x y, 0x43, y), (Instr.trans x y, 0x44, y), (Instr.dirt x y, 0x45, y),
        (Instr.movesr x y, 0x46, y), (Instr.movers x y, 0x47, y), (Instr.trapexit x, 0x4C, 7)],
      exec p.1 s = enterEvent (e p.2.1 p.2.2) s) ∧
    ((s.sr 10).getMsbD 31 = false →
      ∀ p ∈ [(Instr.elogr x, 0x4C#32, (0 : Nib)), (Instr.elogw x, 0x4C, 1),
          (Instr.twrited x, 0x4C, 5), (Instr.flush x, 0x4C, 6), (Instr.itest x, 0x4C, 8),
          (Instr.machineid x, 0x4C, 10), (Instr.version x, 0x4C, 11), (Instr.creg x, 0x4C, 12),
          (Instr.rdlog x, 0x4C, 13), (Instr.read x y, 0x4E, y), (Instr.write x y, 0x4F, y)],
        exec p.1 s = enterEvent (e p.2.1 p.2.2) s)

/-- An undefined instruction takes the illegal instruction trap in either mode: opcode in SR1; for
the register format the two fields in SR2 and SR3; for the memory format the address its format bits
describe in SR3, indexed by bit 7 in rows A to F only, and its segment number in SR2 (any value in
kernel mode, Config.kernelSegment) (60_exceptions.md R442, 30_encoding.md R136, R155; log entry 50). -/
def Obligations.IllegalInstruction : Prop :=
  ∀ (s : State) (op : Byte) (x y : Nib) (d : Disp) (v : Word), s.vectorAt 0x404 v →
    let e (w2 w3 : Word) : Event :=
      { off := 0x404, saved := s.pc, sr0 := none, sr1 := some (op.setWidth 32), sr2 := some w2,
        sr3 := some w3 }
    let sp : Space := if op.getMsbD 1 = op.getMsbD 2 then .code else .data
    let ea := effectiveAddress sp
      { form := if (op.getMsbD 1 || op.getMsbD 2) && op.getMsbD 7 then .indexed else .direct
        y := y, disp := d } s
    (∃ t, exec (.undefinedReg op x y) s = .next t ∧
      s.entered (e (x.setWidth 32) (y.setWidth 32)) v t) ∧
    (s.mode = .user → ∃ t, exec (.undefinedMem op x y d) s = .next t ∧
      s.entered (e ((mfield (s.sr (if sp = .code then 8 else 9)) 16 31).setWidth 32) ea) v t) ∧
    (s.mode = .kernel → ∃ w t, exec (.undefinedMem op x y d) s = .next t ∧
      s.drawn.entered (e w ea) v t)

/-- Interrupts at a boundary. If any is deliverable, a deliverable one is taken: its event is entered,
and its source no longer requests it; if none is, the next instruction runs, or nothing while paused.
A parity error, power fail and switch 0 are deliverable in every mode; in user mode and while paused
also the request of a board, line 2 before line 1 as the masks allow, its word in SR0, timer 1, and
timer 2 when timer 1 is not. A fetch that meets a double-bit error runs nothing and makes a fetch
parity error with its address pending, with the instruction's length added to the program counter
(60_exceptions.md R438, R448 to R456, R460, R461, R471; `TIMER_PENDING` = level, log entry 34; log
entries 12, 13 and 47). -/
def Obligations.InterruptsTaken : Prop :=
  (∀ s : State, s.arrivals = [] → s.calm → (s.wakeable → s.countsReadable) →
    ((∃ i, s.deliverable i) →
      ∃ i u e n, s.deliverable i ∧ s.takes i u e ∧
        step s = enterEvent e { u with draws := n } ∧
        ∀ v, s.vectorAt e.off v →
          ∃ t, step s = .next t ∧ ({ u with draws := n }).entered e v t) ∧
    ((∀ i, ¬ s.deliverable i) →
      step s = if s.paused = true then .next s else runInstruction s)) ∧
  ∀ s : State, s.mode = .kernel → s.dmaTurns = [] → s.staleCode = [] → s.pc.toNat % 2 = 0 →
    s.pc.toNat + 2 ≤ Config.memSize → s.pc.toNat / 4 ∈ s.badWords →
    let op := s.mem.read s.pc.toNat
    runInstruction s = .next { s with
      pc := s.pc + if op.getMsbD 0 = false then 2 else if op.getMsbD 3 = false then 4 else 6
      badWords := s.badWords.filter (· ≠ s.pc.toNat / 4)
      parityPending := s.parityPending ++ [{ fetch := true, addr := s.pc }] }

/-- While paused, with nothing deliverable, a step changes nothing (60_exceptions.md R460, R461). That
a timer is deliverable as long as its count in the CCB is negative is `TIMER_PENDING` = level, a default
the spec recommends and the model takes, log entry 34 (R471). -/
def Obligations.PausedIdles : Prop :=
  ∀ s : State, s.paused = true → s.arrivals = [] → s.calm →
    s.powerFailPending = false → s.switch0Pending = false → s.parityPending = [] →
    (s.mask2 = true ∨ ∀ c ∈ s.boards, c.request = none) →
    ((s.sr 11).toNat % 2 = 1 ∨
      (s.sr 11).toNat % 4 = 0 ∧ (s.sr 11).toNat + 0x448 ≤ Config.memSize ∧
      (s.mem.readWord ((s.sr 11).toNat + 0x440)).msb = false ∧
      (s.mem.readWord ((s.sr 11).toNat + 0x444)).msb = false) →
    step s = .next s

/-- The millisecond tick: nothing without a CCB; otherwise the process clock, or with no current
process the idle count, goes up by 1, both timer counts down by 1, the time of day up by 1000000,
and nothing else changes (60_exceptions.md R470). -/
def Obligations.Tick : Prop :=
  ∀ s : State, s.calm → s.mem.wf →
    ((s.sr 11).toNat % 2 = 1 → applyArrival .tick s = .ok () s) ∧
    let c := (s.sr 11).toNat
    let p := if s.sr 14 = 1 then c + 0x43C else (s.sr 14).toNat + 0x50
    (c % 4 = 0 → c + 0x450 ≤ Config.memSize → p % 4 = 0 → p + 4 ≤ Config.memSize →
      p + 4 ≤ c + 0x440 ∨ c + 0x450 ≤ p →
      ∃ t, applyArrival .tick s = .ok () t ∧
        t.mem.readWord p = s.mem.readWord p + 1 ∧
        t.mem.readWord (c + 0x440) = s.mem.readWord (c + 0x440) - 1 ∧
        t.mem.readWord (c + 0x444) = s.mem.readWord (c + 0x444) - 1 ∧
        t.mem.readWord (c + 0x448) ++ t.mem.readWord (c + 0x44C) =
          s.mem.readWord (c + 0x448) ++ s.mem.readWord (c + 0x44C) + 1000000#64 ∧
        (∀ a, ¬ (p ≤ a ∧ a < p + 4) → ¬ (c + 0x440 ≤ a ∧ a < c + 0x450) →
          t.mem.read a = s.mem.read a) ∧
        { t with mem := s.mem, staleCode := s.staleCode, staleData := s.staleData } = s)

/-- What only the kernel can do: an instruction changes the effective traps word only if it is LUS
in kernel mode, and goes from kernel to user mode only if it is RUM with a current process, to the
address in SR15 (10_state.md R44; 60_exceptions.md R420, R434; 45_kernel.md R372, R375). -/
def Obligations.ModeAndTrapsWord : Prop :=
  ∀ (i : Instr) (s t : State), exec i s = .next t →
    (t.tw ≠ s.tw → s.mode = .kernel ∧ ∃ x y, i = .lus x y) ∧
    (s.mode = .kernel → t.mode = .user →
      (∃ x y, i = .rum x y) ∧ s.sr 14 ≠ 1 ∧ t.pc = s.sr 15 ∧ t.paused = false)

/-- What a process without the privileged process bit cannot reach: a step of user mode leaves the
effective traps word, SR4 to SR14, the interrupt masks, the clock board, the error log and the
status bits as they are. It stays in user mode with SR0 to SR2 and SR15 and the boards as they are,
or it ends in kernel mode, at an address the CCB holds unless a memory error hides it
(60_exceptions.md R420, R421, R430, R434; 10_state.md R26, R44, R51). -/
def Obligations.UserModeIsolation : Prop :=
  ∀ s t : State, s.mode = .user → s.paused = false → s.arrivals = [] →
    (s.sr 10).getMsbD 31 = false → step s = .next t →
    t.tw = s.tw ∧ (∀ j : SReg, 4 ≤ j.toNat → j.toNat ≤ 14 → t.sr j = s.sr j) ∧
    t.mask1 = s.mask1 ∧ t.mask2 = s.mask2 ∧ t.clock = s.clock ∧ t.errorLog = s.errorLog ∧
    t.powerFail = s.powerFail ∧ t.loaf = s.loaf ∧ t.paused = false ∧
    (t.mode = .user →
      t.boards = s.boards ∧ (∀ j : SReg, j = 0 ∨ j = 1 ∨ j = 2 ∨ j = 15 → t.sr j = s.sr j)) ∧
    (t.mode = .kernel → s.badWords = [] →
      ∃ off : Word, off.toNat % 4 = 0 ∧ off.toNat ≤ 0x434 ∧
        t.pc = t.mem.readWord (s.sr 11 + off).toNat)
end

