-- ==== Sys2Proof/Laws/Lines.lean ====
section
/-! SUPPORT. The lines of the data half of the cache: what loading a quadword, a store and DMA do to
the quadwords that the sets hold, and to the copies that may remain. -/

namespace Sys2Proof.Machine

/-! ### What the sets hold -/

@[simp] theorem residents_nil (n : Nat) : residents n [] = [] := rfl

theorem residents_append (n : Nat) (ls ks : List CacheLine) :
    residents n (ls ++ ks) = residents n ls ++ residents n ks := List.filter_append ..

theorem residents_cons (n : Nat) (l : CacheLine) (ls : List CacheLine) :
    residents n (l :: ls) =
      if (l.dataLine == n && l.resident) = true then l :: residents n ls else residents n ls :=
  List.filter_cons

theorem residents_sublist {ls ks : List CacheLine} (h : ls.Sublist ks) (n : Nat) :
    (residents n ls).Sublist (residents n ks) := h.filter _

theorem dataLinesLegal_nil : dataLinesLegal [] := fun n => by simp

theorem dataLinesLegal_sublist {ls ks : List CacheLine} (h : ls.Sublist ks)
    (k : dataLinesLegal ks) : dataLinesLegal ls :=
  fun n => (residents_sublist h n).length_le.trans (k n)

/-- Changing lines one by one, so that none comes to be held, holds no more of them. -/
theorem dataLinesLegal_map {ls : List CacheLine} {f : CacheLine → CacheLine}
    (hf : ∀ l, (f l).dataLine = l.dataLine ∧ ((f l).resident = true → l.resident = true))
    (h : dataLinesLegal ls) : dataLinesLegal (ls.map f) := fun n => by
  refine le_trans ?_ (h n)
  simp only [residents, ← List.countP_eq_length_filter, List.countP_map]
  refine List.countP_mono_left fun l _ hl => ?_
  simp only [Function.comp, Bool.and_eq_true, beq_iff_eq] at hl ⊢
  exact ⟨(hf l).1 ▸ hl.1, (hf l).2 hl.2⟩

/-- The quadwords that a write leaves behind are not known to be held. -/
theorem residents_quadwords (m : Memory) (a n k : Nat) : residents k (m.quadwords a n) = [] := by
  simp [residents, Memory.quadwords, Memory.quadword]

theorem storeReal_linesLegal {s : State} (a : Nat) (bs : List Byte)
    (h : dataLinesLegal s.staleData) : dataLinesLegal (s.storeReal a bs).staleData :=
  dataLinesLegal_map (fun _ => ⟨rfl, id⟩) h

theorem dmaStore_linesLegal {s : State} (a : Nat) (bs : List Byte)
    (h : dataLinesLegal s.staleData) : dataLinesLegal (dmaStore s a bs).staleData := by
  simp only [dmaStore]
  split
  · exact dataLinesLegal_map (fun _ => ⟨rfl, id⟩) h
  · intro n
    rw [residents_append, residents_quadwords, List.nil_append]
    exact dataLinesLegal_map (f := fun l => l.unsettled a bs.length)
      (fun l => ⟨rfl, fun hr => ((Bool.and_eq_true _ _).mp hr).1⟩) h n

/-- Replacing takes quadwords out of a line, and leaves one set free. -/
theorem evictLine_spec {way : Nat} (hw : way < cacheSets) (n : Nat) (ls : List CacheLine) :
    (evictLine way n ls).Sublist ls ∧
      ((residents n ls).length ≤ cacheSets →
        (residents n (evictLine way n ls)).length < cacheSets) := by
  unfold evictLine
  split
  · next v hv =>
    refine ⟨List.filter_sublist, fun hle => lt_of_lt_of_le ?_ hle⟩
    rw [residents, List.filter_comm]
    exact List.length_filter_lt_length_iff_exists.2 ⟨v, List.mem_of_getElem? hv, by simp⟩
  · next hn =>
    exact ⟨List.Sublist.refl _, fun _ => (List.getElem?_eq_none_iff.1 hn).trans_lt hw⟩

theorem wayFilled_lt (s : State) (draw a : Nat) : s.wayFilled draw a < cacheSets := by
  unfold State.wayFilled
  split
  · decide
  · exact Nat.mod_lt _ (by decide)

theorem fullLine_sublist (n : Nat) (ls : List CacheLine) : (fullLine n ls).Sublist ls := by
  unfold fullLine
  split
  · exact List.Sublist.refl _
  · exact List.filter_sublist

/-- Loading a quadword keeps the lines within their sets. -/
theorem loadLine_linesLegal {way : Nat} (hw : way < cacheSets) (l : CacheLine)
    {ls : List CacheLine} (h : dataLinesLegal ls) : dataLinesLegal (loadLine way l ls) := by
  have hs := dataLinesLegal_sublist (List.filter_sublist (p := fun k => k.tag != l.tag)) h
  obtain ⟨h1, h2⟩ := evictLine_spec hw l.dataLine (ls.filter fun k => k.tag != l.tag)
  refine dataLinesLegal_sublist (fullLine_sublist _ _) fun n => ?_
  rw [residents_cons]
  split
  · next hn =>
    simp only [Bool.and_eq_true, beq_iff_eq] at hn
    have : n = l.dataLine := hn.1.symm
    subst this
    exact h2 (hs _)
  · exact (residents_sublist h1 n).length_le.trans (hs n)

theorem lineFilled_linesLegal {s : State} (draw : Nat) (sp : Space) (a : Nat)
    (h : dataLinesLegal s.staleData) : dataLinesLegal (s.lineFilled draw sp a).staleData := by
  unfold State.lineFilled
  split
  · exact h
  · split
    · exact loadLine_linesLegal (wayFilled_lt s draw a) _ h
    · exact h

/-! ### What a fill leaves -/

/-- A quadword that has been loaded is the only copy of its tag; the others were there before. -/
theorem mem_loadLine {way : Nat} {l k : CacheLine} {ls : List CacheLine}
    (hw : way < cacheSets) (h : k ∈ loadLine way l ls) :
    k = { l with resident := true } ∨ k ∈ ls ∧ k.tag ≠ l.tag := by
  rcases List.mem_cons.1 ((fullLine_sublist _ _).subset h) with h | h
  · exact .inl h
  · have := List.mem_filter.1 ((evictLine_spec hw _ _).1.subset h)
    exact .inr ⟨this.1, by simpa using this.2⟩

/-- What a read through a half of the cache changes of the machine: the copies of the data half. -/
theorem lineFilled_frame (s : State) (draw : Nat) (sp : Space) (a : Nat) :
    ∃ ls, s.lineFilled draw sp a = { s with staleData := ls } := by
  unfold State.lineFilled
  split
  · exact ⟨_, rfl⟩
  · split <;> exact ⟨_, rfl⟩

theorem lineFilled_of {s : State} {sp : Space} (h : s.staleData = []) (draw a : Nat) :
    s.lineFilled draw sp a = s := by
  unfold State.lineFilled
  split <;> simp [h]

@[simp] theorem lineFilled_code (s : State) (draw a : Nat) : s.lineFilled draw .code a = s := rfl

end Sys2Proof.Machine
end

