-- ==== Sys2Proof/Laws/State.lean ====
section
/-! SUPPORT. What each update of the state leaves in each field. -/

namespace Sys2Proof.Machine

variable (s : State)

/-! ### `State.setReg` -/

@[simp] theorem State.setReg_pc (i : Reg) (w : Word) : (s.setReg i w).pc = s.pc := rfl
@[simp] theorem State.setReg_mode (i : Reg) (w : Word) : (s.setReg i w).mode = s.mode := rfl
@[simp] theorem State.setReg_srs (i : Reg) (w : Word) : (s.setReg i w).srs = s.srs := rfl
@[simp] theorem State.setReg_tw (i : Reg) (w : Word) : (s.setReg i w).tw = s.tw := rfl
@[simp] theorem State.setReg_paused (i : Reg) (w : Word) : (s.setReg i w).paused = s.paused := rfl
@[simp] theorem State.setReg_mask1 (i : Reg) (w : Word) : (s.setReg i w).mask1 = s.mask1 := rfl
@[simp] theorem State.setReg_mask2 (i : Reg) (w : Word) : (s.setReg i w).mask2 = s.mask2 := rfl
@[simp] theorem State.setReg_tmtCode (i : Reg) (w : Word) : (s.setReg i w).tmtCode = s.tmtCode := rfl
@[simp] theorem State.setReg_tmtData (i : Reg) (w : Word) : (s.setReg i w).tmtData = s.tmtData := rfl
@[simp] theorem State.setReg_staleCode (i : Reg) (w : Word) : (s.setReg i w).staleCode = s.staleCode := rfl
@[simp] theorem State.setReg_staleData (i : Reg) (w : Word) : (s.setReg i w).staleData = s.staleData := rfl
@[simp] theorem State.setReg_mem (i : Reg) (w : Word) : (s.setReg i w).mem = s.mem := rfl
@[simp] theorem State.setReg_powerFail (i : Reg) (w : Word) : (s.setReg i w).powerFail = s.powerFail := rfl
@[simp] theorem State.setReg_loaf (i : Reg) (w : Word) : (s.setReg i w).loaf = s.loaf := rfl
@[simp] theorem State.setReg_powerFailPending (i : Reg) (w : Word) : (s.setReg i w).powerFailPending = s.powerFailPending := rfl
@[simp] theorem State.setReg_switch0Pending (i : Reg) (w : Word) : (s.setReg i w).switch0Pending = s.switch0Pending := rfl
@[simp] theorem State.setReg_parityPending (i : Reg) (w : Word) : (s.setReg i w).parityPending = s.parityPending := rfl
@[simp] theorem State.setReg_timer1Due (i : Reg) (w : Word) : (s.setReg i w).timer1Due = s.timer1Due := rfl
@[simp] theorem State.setReg_timer2Due (i : Reg) (w : Word) : (s.setReg i w).timer2Due = s.timer2Due := rfl
@[simp] theorem State.setReg_errorLog (i : Reg) (w : Word) : (s.setReg i w).errorLog = s.errorLog := rfl
@[simp] theorem State.setReg_clock (i : Reg) (w : Word) : (s.setReg i w).clock = s.clock := rfl
@[simp] theorem State.setReg_boards (i : Reg) (w : Word) : (s.setReg i w).boards = s.boards := rfl
@[simp] theorem State.setReg_badWords (i : Reg) (w : Word) : (s.setReg i w).badWords = s.badWords := rfl
@[simp] theorem State.setReg_bus (i : Reg) (w : Word) : (s.setReg i w).bus = s.bus := rfl
@[simp] theorem State.setReg_draws (i : Reg) (w : Word) : (s.setReg i w).draws = s.draws := rfl
@[simp] theorem State.setReg_arrivals (i : Reg) (w : Word) : (s.setReg i w).arrivals = s.arrivals := rfl
@[simp] theorem State.setReg_dmaTurns (i : Reg) (w : Word) : (s.setReg i w).dmaTurns = s.dmaTurns := rfl

/-! ### `State.setPair` -/

@[simp] theorem State.setPair_pc (i : Reg) (d : DWord) : (s.setPair i d).pc = s.pc := rfl
@[simp] theorem State.setPair_mode (i : Reg) (d : DWord) : (s.setPair i d).mode = s.mode := rfl
@[simp] theorem State.setPair_srs (i : Reg) (d : DWord) : (s.setPair i d).srs = s.srs := rfl
@[simp] theorem State.setPair_tw (i : Reg) (d : DWord) : (s.setPair i d).tw = s.tw := rfl
@[simp] theorem State.setPair_paused (i : Reg) (d : DWord) : (s.setPair i d).paused = s.paused := rfl
@[simp] theorem State.setPair_mask1 (i : Reg) (d : DWord) : (s.setPair i d).mask1 = s.mask1 := rfl
@[simp] theorem State.setPair_mask2 (i : Reg) (d : DWord) : (s.setPair i d).mask2 = s.mask2 := rfl
@[simp] theorem State.setPair_tmtCode (i : Reg) (d : DWord) : (s.setPair i d).tmtCode = s.tmtCode := rfl
@[simp] theorem State.setPair_tmtData (i : Reg) (d : DWord) : (s.setPair i d).tmtData = s.tmtData := rfl
@[simp] theorem State.setPair_staleCode (i : Reg) (d : DWord) : (s.setPair i d).staleCode = s.staleCode := rfl
@[simp] theorem State.setPair_staleData (i : Reg) (d : DWord) : (s.setPair i d).staleData = s.staleData := rfl
@[simp] theorem State.setPair_mem (i : Reg) (d : DWord) : (s.setPair i d).mem = s.mem := rfl
@[simp] theorem State.setPair_powerFail (i : Reg) (d : DWord) : (s.setPair i d).powerFail = s.powerFail := rfl
@[simp] theorem State.setPair_loaf (i : Reg) (d : DWord) : (s.setPair i d).loaf = s.loaf := rfl
@[simp] theorem State.setPair_powerFailPending (i : Reg) (d : DWord) : (s.setPair i d).powerFailPending = s.powerFailPending := rfl
@[simp] theorem State.setPair_switch0Pending (i : Reg) (d : DWord) : (s.setPair i d).switch0Pending = s.switch0Pending := rfl
@[simp] theorem State.setPair_parityPending (i : Reg) (d : DWord) : (s.setPair i d).parityPending = s.parityPending := rfl
@[simp] theorem State.setPair_timer1Due (i : Reg) (d : DWord) : (s.setPair i d).timer1Due = s.timer1Due := rfl
@[simp] theorem State.setPair_timer2Due (i : Reg) (d : DWord) : (s.setPair i d).timer2Due = s.timer2Due := rfl
@[simp] theorem State.setPair_errorLog (i : Reg) (d : DWord) : (s.setPair i d).errorLog = s.errorLog := rfl
@[simp] theorem State.setPair_clock (i : Reg) (d : DWord) : (s.setPair i d).clock = s.clock := rfl
@[simp] theorem State.setPair_boards (i : Reg) (d : DWord) : (s.setPair i d).boards = s.boards := rfl
@[simp] theorem State.setPair_badWords (i : Reg) (d : DWord) : (s.setPair i d).badWords = s.badWords := rfl
@[simp] theorem State.setPair_bus (i : Reg) (d : DWord) : (s.setPair i d).bus = s.bus := rfl
@[simp] theorem State.setPair_draws (i : Reg) (d : DWord) : (s.setPair i d).draws = s.draws := rfl
@[simp] theorem State.setPair_arrivals (i : Reg) (d : DWord) : (s.setPair i d).arrivals = s.arrivals := rfl
@[simp] theorem State.setPair_dmaTurns (i : Reg) (d : DWord) : (s.setPair i d).dmaTurns = s.dmaTurns := rfl

/-! ### `State.setSr` -/

@[simp] theorem State.setSr_regs (i : SReg) (w : Word) : (s.setSr i w).regs = s.regs := rfl
@[simp] theorem State.setSr_pc (i : SReg) (w : Word) : (s.setSr i w).pc = s.pc := rfl
@[simp] theorem State.setSr_mode (i : SReg) (w : Word) : (s.setSr i w).mode = s.mode := rfl
@[simp] theorem State.setSr_tw (i : SReg) (w : Word) : (s.setSr i w).tw = s.tw := rfl
@[simp] theorem State.setSr_paused (i : SReg) (w : Word) : (s.setSr i w).paused = s.paused := rfl
@[simp] theorem State.setSr_mask1 (i : SReg) (w : Word) : (s.setSr i w).mask1 = s.mask1 := rfl
@[simp] theorem State.setSr_mask2 (i : SReg) (w : Word) : (s.setSr i w).mask2 = s.mask2 := rfl
@[simp] theorem State.setSr_tmtCode (i : SReg) (w : Word) : (s.setSr i w).tmtCode = s.tmtCode := rfl
@[simp] theorem State.setSr_tmtData (i : SReg) (w : Word) : (s.setSr i w).tmtData = s.tmtData := rfl
@[simp] theorem State.setSr_staleCode (i : SReg) (w : Word) : (s.setSr i w).staleCode = s.staleCode := rfl
@[simp] theorem State.setSr_staleData (i : SReg) (w : Word) : (s.setSr i w).staleData = s.staleData := rfl
@[simp] theorem State.setSr_mem (i : SReg) (w : Word) : (s.setSr i w).mem = s.mem := rfl
@[simp] theorem State.setSr_powerFail (i : SReg) (w : Word) : (s.setSr i w).powerFail = s.powerFail := rfl
@[simp] theorem State.setSr_loaf (i : SReg) (w : Word) : (s.setSr i w).loaf = s.loaf := rfl
@[simp] theorem State.setSr_powerFailPending (i : SReg) (w : Word) : (s.setSr i w).powerFailPending = s.powerFailPending := rfl
@[simp] theorem State.setSr_switch0Pending (i : SReg) (w : Word) : (s.setSr i w).switch0Pending = s.switch0Pending := rfl
@[simp] theorem State.setSr_parityPending (i : SReg) (w : Word) : (s.setSr i w).parityPending = s.parityPending := rfl
@[simp] theorem State.setSr_timer1Due (i : SReg) (w : Word) : (s.setSr i w).timer1Due = s.timer1Due := rfl
@[simp] theorem State.setSr_timer2Due (i : SReg) (w : Word) : (s.setSr i w).timer2Due = s.timer2Due := rfl
@[simp] theorem State.setSr_errorLog (i : SReg) (w : Word) : (s.setSr i w).errorLog = s.errorLog := rfl
@[simp] theorem State.setSr_clock (i : SReg) (w : Word) : (s.setSr i w).clock = s.clock := rfl
@[simp] theorem State.setSr_boards (i : SReg) (w : Word) : (s.setSr i w).boards = s.boards := rfl
@[simp] theorem State.setSr_badWords (i : SReg) (w : Word) : (s.setSr i w).badWords = s.badWords := rfl
@[simp] theorem State.setSr_bus (i : SReg) (w : Word) : (s.setSr i w).bus = s.bus := rfl
@[simp] theorem State.setSr_draws (i : SReg) (w : Word) : (s.setSr i w).draws = s.draws := rfl
@[simp] theorem State.setSr_arrivals (i : SReg) (w : Word) : (s.setSr i w).arrivals = s.arrivals := rfl
@[simp] theorem State.setSr_dmaTurns (i : SReg) (w : Word) : (s.setSr i w).dmaTurns = s.dmaTurns := rfl

/-! ### `State.setPc` -/

@[simp] theorem State.setPc_regs (a : Word) : (s.setPc a).regs = s.regs := rfl
@[simp] theorem State.setPc_mode (a : Word) : (s.setPc a).mode = s.mode := rfl
@[simp] theorem State.setPc_srs (a : Word) : (s.setPc a).srs = s.srs := rfl
@[simp] theorem State.setPc_tw (a : Word) : (s.setPc a).tw = s.tw := rfl
@[simp] theorem State.setPc_paused (a : Word) : (s.setPc a).paused = s.paused := rfl
@[simp] theorem State.setPc_mask1 (a : Word) : (s.setPc a).mask1 = s.mask1 := rfl
@[simp] theorem State.setPc_mask2 (a : Word) : (s.setPc a).mask2 = s.mask2 := rfl
@[simp] theorem State.setPc_tmtCode (a : Word) : (s.setPc a).tmtCode = s.tmtCode := rfl
@[simp] theorem State.setPc_tmtData (a : Word) : (s.setPc a).tmtData = s.tmtData := rfl
@[simp] theorem State.setPc_staleCode (a : Word) : (s.setPc a).staleCode = s.staleCode := rfl
@[simp] theorem State.setPc_staleData (a : Word) : (s.setPc a).staleData = s.staleData := rfl
@[simp] theorem State.setPc_mem (a : Word) : (s.setPc a).mem = s.mem := rfl
@[simp] theorem State.setPc_powerFail (a : Word) : (s.setPc a).powerFail = s.powerFail := rfl
@[simp] theorem State.setPc_loaf (a : Word) : (s.setPc a).loaf = s.loaf := rfl
@[simp] theorem State.setPc_powerFailPending (a : Word) : (s.setPc a).powerFailPending = s.powerFailPending := rfl
@[simp] theorem State.setPc_switch0Pending (a : Word) : (s.setPc a).switch0Pending = s.switch0Pending := rfl
@[simp] theorem State.setPc_parityPending (a : Word) : (s.setPc a).parityPending = s.parityPending := rfl
@[simp] theorem State.setPc_timer1Due (a : Word) : (s.setPc a).timer1Due = s.timer1Due := rfl
@[simp] theorem State.setPc_timer2Due (a : Word) : (s.setPc a).timer2Due = s.timer2Due := rfl
@[simp] theorem State.setPc_errorLog (a : Word) : (s.setPc a).errorLog = s.errorLog := rfl
@[simp] theorem State.setPc_clock (a : Word) : (s.setPc a).clock = s.clock := rfl
@[simp] theorem State.setPc_boards (a : Word) : (s.setPc a).boards = s.boards := rfl
@[simp] theorem State.setPc_badWords (a : Word) : (s.setPc a).badWords = s.badWords := rfl
@[simp] theorem State.setPc_bus (a : Word) : (s.setPc a).bus = s.bus := rfl
@[simp] theorem State.setPc_draws (a : Word) : (s.setPc a).draws = s.draws := rfl
@[simp] theorem State.setPc_arrivals (a : Word) : (s.setPc a).arrivals = s.arrivals := rfl
@[simp] theorem State.setPc_dmaTurns (a : Word) : (s.setPc a).dmaTurns = s.dmaTurns := rfl

/-! ### `State.advance` -/

@[simp] theorem State.advance_regs (n : Word) : (s.advance n).regs = s.regs := rfl
@[simp] theorem State.advance_mode (n : Word) : (s.advance n).mode = s.mode := rfl
@[simp] theorem State.advance_srs (n : Word) : (s.advance n).srs = s.srs := rfl
@[simp] theorem State.advance_tw (n : Word) : (s.advance n).tw = s.tw := rfl
@[simp] theorem State.advance_paused (n : Word) : (s.advance n).paused = s.paused := rfl
@[simp] theorem State.advance_mask1 (n : Word) : (s.advance n).mask1 = s.mask1 := rfl
@[simp] theorem State.advance_mask2 (n : Word) : (s.advance n).mask2 = s.mask2 := rfl
@[simp] theorem State.advance_tmtCode (n : Word) : (s.advance n).tmtCode = s.tmtCode := rfl
@[simp] theorem State.advance_tmtData (n : Word) : (s.advance n).tmtData = s.tmtData := rfl
@[simp] theorem State.advance_staleCode (n : Word) : (s.advance n).staleCode = s.staleCode := rfl
@[simp] theorem State.advance_staleData (n : Word) : (s.advance n).staleData = s.staleData := rfl
@[simp] theorem State.advance_mem (n : Word) : (s.advance n).mem = s.mem := rfl
@[simp] theorem State.advance_powerFail (n : Word) : (s.advance n).powerFail = s.powerFail := rfl
@[simp] theorem State.advance_loaf (n : Word) : (s.advance n).loaf = s.loaf := rfl
@[simp] theorem State.advance_powerFailPending (n : Word) : (s.advance n).powerFailPending = s.powerFailPending := rfl
@[simp] theorem State.advance_switch0Pending (n : Word) : (s.advance n).switch0Pending = s.switch0Pending := rfl
@[simp] theorem State.advance_parityPending (n : Word) : (s.advance n).parityPending = s.parityPending := rfl
@[simp] theorem State.advance_timer1Due (n : Word) : (s.advance n).timer1Due = s.timer1Due := rfl
@[simp] theorem State.advance_timer2Due (n : Word) : (s.advance n).timer2Due = s.timer2Due := rfl
@[simp] theorem State.advance_errorLog (n : Word) : (s.advance n).errorLog = s.errorLog := rfl
@[simp] theorem State.advance_clock (n : Word) : (s.advance n).clock = s.clock := rfl
@[simp] theorem State.advance_boards (n : Word) : (s.advance n).boards = s.boards := rfl
@[simp] theorem State.advance_badWords (n : Word) : (s.advance n).badWords = s.badWords := rfl
@[simp] theorem State.advance_bus (n : Word) : (s.advance n).bus = s.bus := rfl
@[simp] theorem State.advance_draws (n : Word) : (s.advance n).draws = s.draws := rfl
@[simp] theorem State.advance_arrivals (n : Word) : (s.advance n).arrivals = s.arrivals := rfl
@[simp] theorem State.advance_dmaTurns (n : Word) : (s.advance n).dmaTurns = s.dmaTurns := rfl

/-! ### `State.drawn` -/

@[simp] theorem State.drawn_regs : (s.drawn).regs = s.regs := rfl
@[simp] theorem State.drawn_pc : (s.drawn).pc = s.pc := rfl
@[simp] theorem State.drawn_mode : (s.drawn).mode = s.mode := rfl
@[simp] theorem State.drawn_srs : (s.drawn).srs = s.srs := rfl
@[simp] theorem State.drawn_tw : (s.drawn).tw = s.tw := rfl
@[simp] theorem State.drawn_paused : (s.drawn).paused = s.paused := rfl
@[simp] theorem State.drawn_mask1 : (s.drawn).mask1 = s.mask1 := rfl
@[simp] theorem State.drawn_mask2 : (s.drawn).mask2 = s.mask2 := rfl
@[simp] theorem State.drawn_tmtCode : (s.drawn).tmtCode = s.tmtCode := rfl
@[simp] theorem State.drawn_tmtData : (s.drawn).tmtData = s.tmtData := rfl
@[simp] theorem State.drawn_staleCode : (s.drawn).staleCode = s.staleCode := rfl
@[simp] theorem State.drawn_staleData : (s.drawn).staleData = s.staleData := rfl
@[simp] theorem State.drawn_mem : (s.drawn).mem = s.mem := rfl
@[simp] theorem State.drawn_powerFail : (s.drawn).powerFail = s.powerFail := rfl
@[simp] theorem State.drawn_loaf : (s.drawn).loaf = s.loaf := rfl
@[simp] theorem State.drawn_powerFailPending : (s.drawn).powerFailPending = s.powerFailPending := rfl
@[simp] theorem State.drawn_switch0Pending : (s.drawn).switch0Pending = s.switch0Pending := rfl
@[simp] theorem State.drawn_parityPending : (s.drawn).parityPending = s.parityPending := rfl
@[simp] theorem State.drawn_timer1Due : (s.drawn).timer1Due = s.timer1Due := rfl
@[simp] theorem State.drawn_timer2Due : (s.drawn).timer2Due = s.timer2Due := rfl
@[simp] theorem State.drawn_errorLog : (s.drawn).errorLog = s.errorLog := rfl
@[simp] theorem State.drawn_clock : (s.drawn).clock = s.clock := rfl
@[simp] theorem State.drawn_boards : (s.drawn).boards = s.boards := rfl
@[simp] theorem State.drawn_badWords : (s.drawn).badWords = s.badWords := rfl
@[simp] theorem State.drawn_bus : (s.drawn).bus = s.bus := rfl
@[simp] theorem State.drawn_arrivals : (s.drawn).arrivals = s.arrivals := rfl
@[simp] theorem State.drawn_dmaTurns : (s.drawn).dmaTurns = s.dmaTurns := rfl

/-! ### `State.storeReal` -/

@[simp] theorem State.storeReal_regs (a : Nat) (bs : List Byte) : (s.storeReal a bs).regs = s.regs := rfl
@[simp] theorem State.storeReal_pc (a : Nat) (bs : List Byte) : (s.storeReal a bs).pc = s.pc := rfl
@[simp] theorem State.storeReal_mode (a : Nat) (bs : List Byte) : (s.storeReal a bs).mode = s.mode := rfl
@[simp] theorem State.storeReal_srs (a : Nat) (bs : List Byte) : (s.storeReal a bs).srs = s.srs := rfl
@[simp] theorem State.storeReal_tw (a : Nat) (bs : List Byte) : (s.storeReal a bs).tw = s.tw := rfl
@[simp] theorem State.storeReal_paused (a : Nat) (bs : List Byte) : (s.storeReal a bs).paused = s.paused := rfl
@[simp] theorem State.storeReal_mask1 (a : Nat) (bs : List Byte) : (s.storeReal a bs).mask1 = s.mask1 := rfl
@[simp] theorem State.storeReal_mask2 (a : Nat) (bs : List Byte) : (s.storeReal a bs).mask2 = s.mask2 := rfl
@[simp] theorem State.storeReal_tmtCode (a : Nat) (bs : List Byte) : (s.storeReal a bs).tmtCode = s.tmtCode := rfl
@[simp] theorem State.storeReal_tmtData (a : Nat) (bs : List Byte) : (s.storeReal a bs).tmtData = s.tmtData := rfl
@[simp] theorem State.storeReal_powerFail (a : Nat) (bs : List Byte) : (s.storeReal a bs).powerFail = s.powerFail := rfl
@[simp] theorem State.storeReal_loaf (a : Nat) (bs : List Byte) : (s.storeReal a bs).loaf = s.loaf := rfl
@[simp] theorem State.storeReal_powerFailPending (a : Nat) (bs : List Byte) : (s.storeReal a bs).powerFailPending = s.powerFailPending := rfl
@[simp] theorem State.storeReal_switch0Pending (a : Nat) (bs : List Byte) : (s.storeReal a bs).switch0Pending = s.switch0Pending := rfl
@[simp] theorem State.storeReal_parityPending (a : Nat) (bs : List Byte) : (s.storeReal a bs).parityPending = s.parityPending := rfl
@[simp] theorem State.storeReal_timer1Due (a : Nat) (bs : List Byte) : (s.storeReal a bs).timer1Due = s.timer1Due := rfl
@[simp] theorem State.storeReal_timer2Due (a : Nat) (bs : List Byte) : (s.storeReal a bs).timer2Due = s.timer2Due := rfl
@[simp] theorem State.storeReal_errorLog (a : Nat) (bs : List Byte) : (s.storeReal a bs).errorLog = s.errorLog := rfl
@[simp] theorem State.storeReal_clock (a : Nat) (bs : List Byte) : (s.storeReal a bs).clock = s.clock := rfl
@[simp] theorem State.storeReal_boards (a : Nat) (bs : List Byte) : (s.storeReal a bs).boards = s.boards := rfl
@[simp] theorem State.storeReal_badWords (a : Nat) (bs : List Byte) : (s.storeReal a bs).badWords = s.badWords := rfl
@[simp] theorem State.storeReal_bus (a : Nat) (bs : List Byte) : (s.storeReal a bs).bus = s.bus := rfl
@[simp] theorem State.storeReal_draws (a : Nat) (bs : List Byte) : (s.storeReal a bs).draws = s.draws := rfl
@[simp] theorem State.storeReal_arrivals (a : Nat) (bs : List Byte) : (s.storeReal a bs).arrivals = s.arrivals := rfl
@[simp] theorem State.storeReal_dmaTurns (a : Nat) (bs : List Byte) : (s.storeReal a bs).dmaTurns = s.dmaTurns := rfl

/-! ### `dmaStore` -/

@[simp] theorem dmaStore_regs (a : Nat) (bs : List Byte) : (dmaStore s a bs).regs = s.regs := rfl
@[simp] theorem dmaStore_pc (a : Nat) (bs : List Byte) : (dmaStore s a bs).pc = s.pc := rfl
@[simp] theorem dmaStore_mode (a : Nat) (bs : List Byte) : (dmaStore s a bs).mode = s.mode := rfl
@[simp] theorem dmaStore_srs (a : Nat) (bs : List Byte) : (dmaStore s a bs).srs = s.srs := rfl
@[simp] theorem dmaStore_tw (a : Nat) (bs : List Byte) : (dmaStore s a bs).tw = s.tw := rfl
@[simp] theorem dmaStore_paused (a : Nat) (bs : List Byte) : (dmaStore s a bs).paused = s.paused := rfl
@[simp] theorem dmaStore_mask1 (a : Nat) (bs : List Byte) : (dmaStore s a bs).mask1 = s.mask1 := rfl
@[simp] theorem dmaStore_mask2 (a : Nat) (bs : List Byte) : (dmaStore s a bs).mask2 = s.mask2 := rfl
@[simp] theorem dmaStore_tmtCode (a : Nat) (bs : List Byte) : (dmaStore s a bs).tmtCode = s.tmtCode := rfl
@[simp] theorem dmaStore_tmtData (a : Nat) (bs : List Byte) : (dmaStore s a bs).tmtData = s.tmtData := rfl
@[simp] theorem dmaStore_powerFail (a : Nat) (bs : List Byte) : (dmaStore s a bs).powerFail = s.powerFail := rfl
@[simp] theorem dmaStore_loaf (a : Nat) (bs : List Byte) : (dmaStore s a bs).loaf = s.loaf := rfl
@[simp] theorem dmaStore_powerFailPending (a : Nat) (bs : List Byte) : (dmaStore s a bs).powerFailPending = s.powerFailPending := rfl
@[simp] theorem dmaStore_switch0Pending (a : Nat) (bs : List Byte) : (dmaStore s a bs).switch0Pending = s.switch0Pending := rfl
@[simp] theorem dmaStore_parityPending (a : Nat) (bs : List Byte) : (dmaStore s a bs).parityPending = s.parityPending := rfl
@[simp] theorem dmaStore_timer1Due (a : Nat) (bs : List Byte) : (dmaStore s a bs).timer1Due = s.timer1Due := rfl
@[simp] theorem dmaStore_timer2Due (a : Nat) (bs : List Byte) : (dmaStore s a bs).timer2Due = s.timer2Due := rfl
@[simp] theorem dmaStore_errorLog (a : Nat) (bs : List Byte) : (dmaStore s a bs).errorLog = s.errorLog := rfl
@[simp] theorem dmaStore_clock (a : Nat) (bs : List Byte) : (dmaStore s a bs).clock = s.clock := rfl
@[simp] theorem dmaStore_boards (a : Nat) (bs : List Byte) : (dmaStore s a bs).boards = s.boards := rfl
@[simp] theorem dmaStore_badWords (a : Nat) (bs : List Byte) : (dmaStore s a bs).badWords = s.badWords := rfl
@[simp] theorem dmaStore_bus (a : Nat) (bs : List Byte) : (dmaStore s a bs).bus = s.bus := rfl
@[simp] theorem dmaStore_draws (a : Nat) (bs : List Byte) : (dmaStore s a bs).draws = s.draws := rfl
@[simp] theorem dmaStore_arrivals (a : Nat) (bs : List Byte) : (dmaStore s a bs).arrivals = s.arrivals := rfl
@[simp] theorem dmaStore_dmaTurns (a : Nat) (bs : List Byte) : (dmaStore s a bs).dmaTurns = s.dmaTurns := rfl

/-! ### `reported` -/

@[simp] theorem reported_regs (a n : Nat) : (reported a n s).regs = s.regs := rfl
@[simp] theorem reported_pc (a n : Nat) : (reported a n s).pc = s.pc := rfl
@[simp] theorem reported_mode (a n : Nat) : (reported a n s).mode = s.mode := rfl
@[simp] theorem reported_srs (a n : Nat) : (reported a n s).srs = s.srs := rfl
@[simp] theorem reported_tw (a n : Nat) : (reported a n s).tw = s.tw := rfl
@[simp] theorem reported_paused (a n : Nat) : (reported a n s).paused = s.paused := rfl
@[simp] theorem reported_mask1 (a n : Nat) : (reported a n s).mask1 = s.mask1 := rfl
@[simp] theorem reported_mask2 (a n : Nat) : (reported a n s).mask2 = s.mask2 := rfl
@[simp] theorem reported_tmtCode (a n : Nat) : (reported a n s).tmtCode = s.tmtCode := rfl
@[simp] theorem reported_tmtData (a n : Nat) : (reported a n s).tmtData = s.tmtData := rfl
@[simp] theorem reported_staleCode (a n : Nat) : (reported a n s).staleCode = s.staleCode := rfl
@[simp] theorem reported_staleData (a n : Nat) : (reported a n s).staleData = s.staleData := rfl
@[simp] theorem reported_mem (a n : Nat) : (reported a n s).mem = s.mem := rfl
@[simp] theorem reported_powerFail (a n : Nat) : (reported a n s).powerFail = s.powerFail := rfl
@[simp] theorem reported_loaf (a n : Nat) : (reported a n s).loaf = s.loaf := rfl
@[simp] theorem reported_powerFailPending (a n : Nat) : (reported a n s).powerFailPending = s.powerFailPending := rfl
@[simp] theorem reported_switch0Pending (a n : Nat) : (reported a n s).switch0Pending = s.switch0Pending := rfl
@[simp] theorem reported_parityPending (a n : Nat) : (reported a n s).parityPending = s.parityPending := rfl
@[simp] theorem reported_timer1Due (a n : Nat) : (reported a n s).timer1Due = s.timer1Due := rfl
@[simp] theorem reported_timer2Due (a n : Nat) : (reported a n s).timer2Due = s.timer2Due := rfl
@[simp] theorem reported_errorLog (a n : Nat) : (reported a n s).errorLog = s.errorLog := rfl
@[simp] theorem reported_clock (a n : Nat) : (reported a n s).clock = s.clock := rfl
@[simp] theorem reported_boards (a n : Nat) : (reported a n s).boards = s.boards := rfl
@[simp] theorem reported_bus (a n : Nat) : (reported a n s).bus = s.bus := rfl
@[simp] theorem reported_draws (a n : Nat) : (reported a n s).draws = s.draws := rfl
@[simp] theorem reported_arrivals (a n : Nat) : (reported a n s).arrivals = s.arrivals := rfl
@[simp] theorem reported_dmaTurns (a n : Nat) : (reported a n s).dmaTurns = s.dmaTurns := rfl

/-! ### `flushProcess` -/

@[simp] theorem flushProcess_regs : (flushProcess s).regs = s.regs := rfl
@[simp] theorem flushProcess_pc : (flushProcess s).pc = s.pc := rfl
@[simp] theorem flushProcess_mode : (flushProcess s).mode = s.mode := rfl
@[simp] theorem flushProcess_srs : (flushProcess s).srs = s.srs := rfl
@[simp] theorem flushProcess_tw : (flushProcess s).tw = s.tw := rfl
@[simp] theorem flushProcess_paused : (flushProcess s).paused = s.paused := rfl
@[simp] theorem flushProcess_mask1 : (flushProcess s).mask1 = s.mask1 := rfl
@[simp] theorem flushProcess_mask2 : (flushProcess s).mask2 = s.mask2 := rfl
@[simp] theorem flushProcess_staleData : (flushProcess s).staleData = s.staleData := rfl
@[simp] theorem flushProcess_mem : (flushProcess s).mem = s.mem := rfl
@[simp] theorem flushProcess_powerFail : (flushProcess s).powerFail = s.powerFail := rfl
@[simp] theorem flushProcess_loaf : (flushProcess s).loaf = s.loaf := rfl
@[simp] theorem flushProcess_powerFailPending : (flushProcess s).powerFailPending = s.powerFailPending := rfl
@[simp] theorem flushProcess_switch0Pending : (flushProcess s).switch0Pending = s.switch0Pending := rfl
@[simp] theorem flushProcess_parityPending : (flushProcess s).parityPending = s.parityPending := rfl
@[simp] theorem flushProcess_timer1Due : (flushProcess s).timer1Due = s.timer1Due := rfl
@[simp] theorem flushProcess_timer2Due : (flushProcess s).timer2Due = s.timer2Due := rfl
@[simp] theorem flushProcess_errorLog : (flushProcess s).errorLog = s.errorLog := rfl
@[simp] theorem flushProcess_clock : (flushProcess s).clock = s.clock := rfl
@[simp] theorem flushProcess_boards : (flushProcess s).boards = s.boards := rfl
@[simp] theorem flushProcess_badWords : (flushProcess s).badWords = s.badWords := rfl
@[simp] theorem flushProcess_bus : (flushProcess s).bus = s.bus := rfl
@[simp] theorem flushProcess_draws : (flushProcess s).draws = s.draws := rfl
@[simp] theorem flushProcess_arrivals : (flushProcess s).arrivals = s.arrivals := rfl
@[simp] theorem flushProcess_dmaTurns : (flushProcess s).dmaTurns = s.dmaTurns := rfl

/-! ### `loadProcess` -/

@[simp] theorem loadProcess_regs (p g t : Word) : (loadProcess p g t s).regs = s.regs := rfl
@[simp] theorem loadProcess_pc (p g t : Word) : (loadProcess p g t s).pc = s.pc := rfl
@[simp] theorem loadProcess_mode (p g t : Word) : (loadProcess p g t s).mode = s.mode := rfl
@[simp] theorem loadProcess_paused (p g t : Word) : (loadProcess p g t s).paused = s.paused := rfl
@[simp] theorem loadProcess_mask1 (p g t : Word) : (loadProcess p g t s).mask1 = s.mask1 := rfl
@[simp] theorem loadProcess_mask2 (p g t : Word) : (loadProcess p g t s).mask2 = s.mask2 := rfl
@[simp] theorem loadProcess_tmtCode (p g t : Word) : (loadProcess p g t s).tmtCode = s.tmtCode := rfl
@[simp] theorem loadProcess_tmtData (p g t : Word) : (loadProcess p g t s).tmtData = s.tmtData := rfl
@[simp] theorem loadProcess_staleCode (p g t : Word) : (loadProcess p g t s).staleCode = s.staleCode := rfl
@[simp] theorem loadProcess_staleData (p g t : Word) : (loadProcess p g t s).staleData = s.staleData := rfl
@[simp] theorem loadProcess_mem (p g t : Word) : (loadProcess p g t s).mem = s.mem := rfl
@[simp] theorem loadProcess_powerFail (p g t : Word) : (loadProcess p g t s).powerFail = s.powerFail := rfl
@[simp] theorem loadProcess_loaf (p g t : Word) : (loadProcess p g t s).loaf = s.loaf := rfl
@[simp] theorem loadProcess_powerFailPending (p g t : Word) : (loadProcess p g t s).powerFailPending = s.powerFailPending := rfl
@[simp] theorem loadProcess_switch0Pending (p g t : Word) : (loadProcess p g t s).switch0Pending = s.switch0Pending := rfl
@[simp] theorem loadProcess_parityPending (p g t : Word) : (loadProcess p g t s).parityPending = s.parityPending := rfl
@[simp] theorem loadProcess_timer1Due (p g t : Word) : (loadProcess p g t s).timer1Due = s.timer1Due := rfl
@[simp] theorem loadProcess_timer2Due (p g t : Word) : (loadProcess p g t s).timer2Due = s.timer2Due := rfl
@[simp] theorem loadProcess_errorLog (p g t : Word) : (loadProcess p g t s).errorLog = s.errorLog := rfl
@[simp] theorem loadProcess_clock (p g t : Word) : (loadProcess p g t s).clock = s.clock := rfl
@[simp] theorem loadProcess_boards (p g t : Word) : (loadProcess p g t s).boards = s.boards := rfl
@[simp] theorem loadProcess_badWords (p g t : Word) : (loadProcess p g t s).badWords = s.badWords := rfl
@[simp] theorem loadProcess_bus (p g t : Word) : (loadProcess p g t s).bus = s.bus := rfl
@[simp] theorem loadProcess_draws (p g t : Word) : (loadProcess p g t s).draws = s.draws := rfl
@[simp] theorem loadProcess_arrivals (p g t : Word) : (loadProcess p g t s).arrivals = s.arrivals := rfl
@[simp] theorem loadProcess_dmaTurns (p g t : Word) : (loadProcess p g t s).dmaTurns = s.dmaTurns := rfl

/-! ### `State.setSrOpt` -/

@[simp] theorem State.setSrOpt_regs (i : SReg) (w : Option Word) : (s.setSrOpt i w).regs = s.regs := by
  cases w <;> rfl
@[simp] theorem State.setSrOpt_pc (i : SReg) (w : Option Word) : (s.setSrOpt i w).pc = s.pc := by
  cases w <;> rfl
@[simp] theorem State.setSrOpt_mode (i : SReg) (w : Option Word) : (s.setSrOpt i w).mode = s.mode := by
  cases w <;> rfl
@[simp] theorem State.setSrOpt_tw (i : SReg) (w : Option Word) : (s.setSrOpt i w).tw = s.tw := by
  cases w <;> rfl
@[simp] theorem State.setSrOpt_paused (i : SReg) (w : Option Word) : (s.setSrOpt i w).paused = s.paused := by
  cases w <;> rfl
@[simp] theorem State.setSrOpt_mask1 (i : SReg) (w : Option Word) : (s.setSrOpt i w).mask1 = s.mask1 := by
  cases w <;> rfl
@[simp] theorem State.setSrOpt_mask2 (i : SReg) (w : Option Word) : (s.setSrOpt i w).mask2 = s.mask2 := by
  cases w <;> rfl
@[simp] theorem State.setSrOpt_tmtCode (i : SReg) (w : Option Word) : (s.setSrOpt i w).tmtCode = s.tmtCode := by
  cases w <;> rfl
@[simp] theorem State.setSrOpt_tmtData (i : SReg) (w : Option Word) : (s.setSrOpt i w).tmtData = s.tmtData := by
  cases w <;> rfl
@[simp] theorem State.setSrOpt_staleCode (i : SReg) (w : Option Word) : (s.setSrOpt i w).staleCode = s.staleCode := by
  cases w <;> rfl
@[simp] theorem State.setSrOpt_staleData (i : SReg) (w : Option Word) : (s.setSrOpt i w).staleData = s.staleData := by
  cases w <;> rfl
@[simp] theorem State.setSrOpt_mem (i : SReg) (w : Option Word) : (s.setSrOpt i w).mem = s.mem := by
  cases w <;> rfl
@[simp] theorem State.setSrOpt_powerFail (i : SReg) (w : Option Word) : (s.setSrOpt i w).powerFail = s.powerFail := by
  cases w <;> rfl
@[simp] theorem State.setSrOpt_loaf (i : SReg) (w : Option Word) : (s.setSrOpt i w).loaf = s.loaf := by
  cases w <;> rfl
@[simp] theorem State.setSrOpt_powerFailPending (i : SReg) (w : Option Word) : (s.setSrOpt i w).powerFailPending = s.powerFailPending := by
  cases w <;> rfl
@[simp] theorem State.setSrOpt_switch0Pending (i : SReg) (w : Option Word) : (s.setSrOpt i w).switch0Pending = s.switch0Pending := by
  cases w <;> rfl
@[simp] theorem State.setSrOpt_parityPending (i : SReg) (w : Option Word) : (s.setSrOpt i w).parityPending = s.parityPending := by
  cases w <;> rfl
@[simp] theorem State.setSrOpt_timer1Due (i : SReg) (w : Option Word) : (s.setSrOpt i w).timer1Due = s.timer1Due := by
  cases w <;> rfl
@[simp] theorem State.setSrOpt_timer2Due (i : SReg) (w : Option Word) : (s.setSrOpt i w).timer2Due = s.timer2Due := by
  cases w <;> rfl
@[simp] theorem State.setSrOpt_errorLog (i : SReg) (w : Option Word) : (s.setSrOpt i w).errorLog = s.errorLog := by
  cases w <;> rfl
@[simp] theorem State.setSrOpt_clock (i : SReg) (w : Option Word) : (s.setSrOpt i w).clock = s.clock := by
  cases w <;> rfl
@[simp] theorem State.setSrOpt_boards (i : SReg) (w : Option Word) : (s.setSrOpt i w).boards = s.boards := by
  cases w <;> rfl
@[simp] theorem State.setSrOpt_badWords (i : SReg) (w : Option Word) : (s.setSrOpt i w).badWords = s.badWords := by
  cases w <;> rfl
@[simp] theorem State.setSrOpt_bus (i : SReg) (w : Option Word) : (s.setSrOpt i w).bus = s.bus := by
  cases w <;> rfl
@[simp] theorem State.setSrOpt_draws (i : SReg) (w : Option Word) : (s.setSrOpt i w).draws = s.draws := by
  cases w <;> rfl
@[simp] theorem State.setSrOpt_arrivals (i : SReg) (w : Option Word) : (s.setSrOpt i w).arrivals = s.arrivals := by
  cases w <;> rfl
@[simp] theorem State.setSrOpt_dmaTurns (i : SReg) (w : Option Word) : (s.setSrOpt i w).dmaTurns = s.dmaTurns := by
  cases w <;> rfl

/-! ### `State.setTmt` -/

@[simp] theorem State.setTmt_regs (sp : Space) (i : Nat) (w : Word) : (s.setTmt sp i w).regs = s.regs := by
  cases sp <;> rfl
@[simp] theorem State.setTmt_pc (sp : Space) (i : Nat) (w : Word) : (s.setTmt sp i w).pc = s.pc := by
  cases sp <;> rfl
@[simp] theorem State.setTmt_mode (sp : Space) (i : Nat) (w : Word) : (s.setTmt sp i w).mode = s.mode := by
  cases sp <;> rfl
@[simp] theorem State.setTmt_srs (sp : Space) (i : Nat) (w : Word) : (s.setTmt sp i w).srs = s.srs := by
  cases sp <;> rfl
@[simp] theorem State.setTmt_tw (sp : Space) (i : Nat) (w : Word) : (s.setTmt sp i w).tw = s.tw := by
  cases sp <;> rfl
@[simp] theorem State.setTmt_paused (sp : Space) (i : Nat) (w : Word) : (s.setTmt sp i w).paused = s.paused := by
  cases sp <;> rfl
@[simp] theorem State.setTmt_mask1 (sp : Space) (i : Nat) (w : Word) : (s.setTmt sp i w).mask1 = s.mask1 := by
  cases sp <;> rfl
@[simp] theorem State.setTmt_mask2 (sp : Space) (i : Nat) (w : Word) : (s.setTmt sp i w).mask2 = s.mask2 := by
  cases sp <;> rfl
@[simp] theorem State.setTmt_staleCode (sp : Space) (i : Nat) (w : Word) : (s.setTmt sp i w).staleCode = s.staleCode := by
  cases sp <;> rfl
@[simp] theorem State.setTmt_staleData (sp : Space) (i : Nat) (w : Word) : (s.setTmt sp i w).staleData = s.staleData := by
  cases sp <;> rfl
@[simp] theorem State.setTmt_mem (sp : Space) (i : Nat) (w : Word) : (s.setTmt sp i w).mem = s.mem := by
  cases sp <;> rfl
@[simp] theorem State.setTmt_powerFail (sp : Space) (i : Nat) (w : Word) : (s.setTmt sp i w).powerFail = s.powerFail := by
  cases sp <;> rfl
@[simp] theorem State.setTmt_loaf (sp : Space) (i : Nat) (w : Word) : (s.setTmt sp i w).loaf = s.loaf := by
  cases sp <;> rfl
@[simp] theorem State.setTmt_powerFailPending (sp : Space) (i : Nat) (w : Word) : (s.setTmt sp i w).powerFailPending = s.powerFailPending := by
  cases sp <;> rfl
@[simp] theorem State.setTmt_switch0Pending (sp : Space) (i : Nat) (w : Word) : (s.setTmt sp i w).switch0Pending = s.switch0Pending := by
  cases sp <;> rfl
@[simp] theorem State.setTmt_parityPending (sp : Space) (i : Nat) (w : Word) : (s.setTmt sp i w).parityPending = s.parityPending := by
  cases sp <;> rfl
@[simp] theorem State.setTmt_timer1Due (sp : Space) (i : Nat) (w : Word) : (s.setTmt sp i w).timer1Due = s.timer1Due := by
  cases sp <;> rfl
@[simp] theorem State.setTmt_timer2Due (sp : Space) (i : Nat) (w : Word) : (s.setTmt sp i w).timer2Due = s.timer2Due := by
  cases sp <;> rfl
@[simp] theorem State.setTmt_errorLog (sp : Space) (i : Nat) (w : Word) : (s.setTmt sp i w).errorLog = s.errorLog := by
  cases sp <;> rfl
@[simp] theorem State.setTmt_clock (sp : Space) (i : Nat) (w : Word) : (s.setTmt sp i w).clock = s.clock := by
  cases sp <;> rfl
@[simp] theorem State.setTmt_boards (sp : Space) (i : Nat) (w : Word) : (s.setTmt sp i w).boards = s.boards := by
  cases sp <;> rfl
@[simp] theorem State.setTmt_badWords (sp : Space) (i : Nat) (w : Word) : (s.setTmt sp i w).badWords = s.badWords := by
  cases sp <;> rfl
@[simp] theorem State.setTmt_bus (sp : Space) (i : Nat) (w : Word) : (s.setTmt sp i w).bus = s.bus := by
  cases sp <;> rfl
@[simp] theorem State.setTmt_draws (sp : Space) (i : Nat) (w : Word) : (s.setTmt sp i w).draws = s.draws := by
  cases sp <;> rfl
@[simp] theorem State.setTmt_arrivals (sp : Space) (i : Nat) (w : Word) : (s.setTmt sp i w).arrivals = s.arrivals := by
  cases sp <;> rfl
@[simp] theorem State.setTmt_dmaTurns (sp : Space) (i : Nat) (w : Word) : (s.setTmt sp i w).dmaTurns = s.dmaTurns := by
  cases sp <;> rfl

/-! ### `parityChecked` -/

@[simp] theorem parityChecked_regs (p : ParityError) (a n : Nat) : (parityChecked p a n s).regs = s.regs := by
  unfold parityChecked; split <;> rfl
@[simp] theorem parityChecked_pc (p : ParityError) (a n : Nat) : (parityChecked p a n s).pc = s.pc := by
  unfold parityChecked; split <;> rfl
@[simp] theorem parityChecked_mode (p : ParityError) (a n : Nat) : (parityChecked p a n s).mode = s.mode := by
  unfold parityChecked; split <;> rfl
@[simp] theorem parityChecked_srs (p : ParityError) (a n : Nat) : (parityChecked p a n s).srs = s.srs := by
  unfold parityChecked; split <;> rfl
@[simp] theorem parityChecked_tw (p : ParityError) (a n : Nat) : (parityChecked p a n s).tw = s.tw := by
  unfold parityChecked; split <;> rfl
@[simp] theorem parityChecked_paused (p : ParityError) (a n : Nat) : (parityChecked p a n s).paused = s.paused := by
  unfold parityChecked; split <;> rfl
@[simp] theorem parityChecked_mask1 (p : ParityError) (a n : Nat) : (parityChecked p a n s).mask1 = s.mask1 := by
  unfold parityChecked; split <;> rfl
@[simp] theorem parityChecked_mask2 (p : ParityError) (a n : Nat) : (parityChecked p a n s).mask2 = s.mask2 := by
  unfold parityChecked; split <;> rfl
@[simp] theorem parityChecked_tmtCode (p : ParityError) (a n : Nat) : (parityChecked p a n s).tmtCode = s.tmtCode := by
  unfold parityChecked; split <;> rfl
@[simp] theorem parityChecked_tmtData (p : ParityError) (a n : Nat) : (parityChecked p a n s).tmtData = s.tmtData := by
  unfold parityChecked; split <;> rfl
@[simp] theorem parityChecked_staleCode (p : ParityError) (a n : Nat) : (parityChecked p a n s).staleCode = s.staleCode := by
  unfold parityChecked; split <;> rfl
@[simp] theorem parityChecked_staleData (p : ParityError) (a n : Nat) : (parityChecked p a n s).staleData = s.staleData := by
  unfold parityChecked; split <;> rfl
@[simp] theorem parityChecked_mem (p : ParityError) (a n : Nat) : (parityChecked p a n s).mem = s.mem := by
  unfold parityChecked; split <;> rfl
@[simp] theorem parityChecked_powerFail (p : ParityError) (a n : Nat) : (parityChecked p a n s).powerFail = s.powerFail := by
  unfold parityChecked; split <;> rfl
@[simp] theorem parityChecked_loaf (p : ParityError) (a n : Nat) : (parityChecked p a n s).loaf = s.loaf := by
  unfold parityChecked; split <;> rfl
@[simp] theorem parityChecked_powerFailPending (p : ParityError) (a n : Nat) : (parityChecked p a n s).powerFailPending = s.powerFailPending := by
  unfold parityChecked; split <;> rfl
@[simp] theorem parityChecked_switch0Pending (p : ParityError) (a n : Nat) : (parityChecked p a n s).switch0Pending = s.switch0Pending := by
  unfold parityChecked; split <;> rfl
@[simp] theorem parityChecked_timer1Due (p : ParityError) (a n : Nat) : (parityChecked p a n s).timer1Due = s.timer1Due := by
  unfold parityChecked; split <;> rfl
@[simp] theorem parityChecked_timer2Due (p : ParityError) (a n : Nat) : (parityChecked p a n s).timer2Due = s.timer2Due := by
  unfold parityChecked; split <;> rfl
@[simp] theorem parityChecked_errorLog (p : ParityError) (a n : Nat) : (parityChecked p a n s).errorLog = s.errorLog := by
  unfold parityChecked; split <;> rfl
@[simp] theorem parityChecked_clock (p : ParityError) (a n : Nat) : (parityChecked p a n s).clock = s.clock := by
  unfold parityChecked; split <;> rfl
@[simp] theorem parityChecked_boards (p : ParityError) (a n : Nat) : (parityChecked p a n s).boards = s.boards := by
  unfold parityChecked; split <;> rfl
@[simp] theorem parityChecked_bus (p : ParityError) (a n : Nat) : (parityChecked p a n s).bus = s.bus := by
  unfold parityChecked; split <;> rfl
@[simp] theorem parityChecked_draws (p : ParityError) (a n : Nat) : (parityChecked p a n s).draws = s.draws := by
  unfold parityChecked; split <;> rfl
@[simp] theorem parityChecked_arrivals (p : ParityError) (a n : Nat) : (parityChecked p a n s).arrivals = s.arrivals := by
  unfold parityChecked; split <;> rfl
@[simp] theorem parityChecked_dmaTurns (p : ParityError) (a n : Nat) : (parityChecked p a n s).dmaTurns = s.dmaTurns := by
  unfold parityChecked; split <;> rfl

/-! ### `State.stamped` -/

@[simp] theorem State.stamped_regs (sp : Space) : (s.stamped sp).regs = s.regs := by
  unfold State.stamped; split <;> rfl
@[simp] theorem State.stamped_pc (sp : Space) : (s.stamped sp).pc = s.pc := by
  unfold State.stamped; split <;> rfl
@[simp] theorem State.stamped_mode (sp : Space) : (s.stamped sp).mode = s.mode := by
  unfold State.stamped; split <;> rfl
@[simp] theorem State.stamped_srs (sp : Space) : (s.stamped sp).srs = s.srs := by
  unfold State.stamped; split <;> rfl
@[simp] theorem State.stamped_tw (sp : Space) : (s.stamped sp).tw = s.tw := by
  unfold State.stamped; split <;> rfl
@[simp] theorem State.stamped_paused (sp : Space) : (s.stamped sp).paused = s.paused := by
  unfold State.stamped; split <;> rfl
@[simp] theorem State.stamped_mask1 (sp : Space) : (s.stamped sp).mask1 = s.mask1 := by
  unfold State.stamped; split <;> rfl
@[simp] theorem State.stamped_mask2 (sp : Space) : (s.stamped sp).mask2 = s.mask2 := by
  unfold State.stamped; split <;> rfl
@[simp] theorem State.stamped_tmtCode (sp : Space) : (s.stamped sp).tmtCode = s.tmtCode := by
  unfold State.stamped; split <;> rfl
@[simp] theorem State.stamped_tmtData (sp : Space) : (s.stamped sp).tmtData = s.tmtData := by
  unfold State.stamped; split <;> rfl
@[simp] theorem State.stamped_staleCode (sp : Space) : (s.stamped sp).staleCode = s.staleCode := by
  unfold State.stamped; split <;> rfl
@[simp] theorem State.stamped_staleData (sp : Space) : (s.stamped sp).staleData = s.staleData := by
  unfold State.stamped; split <;> rfl
@[simp] theorem State.stamped_mem (sp : Space) : (s.stamped sp).mem = s.mem := by
  unfold State.stamped; split <;> rfl
@[simp] theorem State.stamped_powerFail (sp : Space) : (s.stamped sp).powerFail = s.powerFail := by
  unfold State.stamped; split <;> rfl
@[simp] theorem State.stamped_loaf (sp : Space) : (s.stamped sp).loaf = s.loaf := by
  unfold State.stamped; split <;> rfl
@[simp] theorem State.stamped_powerFailPending (sp : Space) : (s.stamped sp).powerFailPending = s.powerFailPending := by
  unfold State.stamped; split <;> rfl
@[simp] theorem State.stamped_switch0Pending (sp : Space) : (s.stamped sp).switch0Pending = s.switch0Pending := by
  unfold State.stamped; split <;> rfl
@[simp] theorem State.stamped_parityPending (sp : Space) : (s.stamped sp).parityPending = s.parityPending := by
  unfold State.stamped; split <;> rfl
@[simp] theorem State.stamped_timer1Due (sp : Space) : (s.stamped sp).timer1Due = s.timer1Due := by
  unfold State.stamped; split <;> rfl
@[simp] theorem State.stamped_timer2Due (sp : Space) : (s.stamped sp).timer2Due = s.timer2Due := by
  unfold State.stamped; split <;> rfl
@[simp] theorem State.stamped_errorLog (sp : Space) : (s.stamped sp).errorLog = s.errorLog := by
  unfold State.stamped; split <;> rfl
@[simp] theorem State.stamped_clock (sp : Space) : (s.stamped sp).clock = s.clock := by
  unfold State.stamped; split <;> rfl
@[simp] theorem State.stamped_boards (sp : Space) : (s.stamped sp).boards = s.boards := by
  unfold State.stamped; split <;> rfl
@[simp] theorem State.stamped_badWords (sp : Space) : (s.stamped sp).badWords = s.badWords := by
  unfold State.stamped; split <;> rfl
@[simp] theorem State.stamped_bus (sp : Space) : (s.stamped sp).bus = s.bus := by
  unfold State.stamped; split <;> rfl
@[simp] theorem State.stamped_arrivals (sp : Space) : (s.stamped sp).arrivals = s.arrivals := by
  unfold State.stamped; split <;> rfl
@[simp] theorem State.stamped_dmaTurns (sp : Space) : (s.stamped sp).dmaTurns = s.dmaTurns := by
  unfold State.stamped; split <;> rfl

/-! ### `State.lineFilled` -/

@[simp] theorem State.lineFilled_regs (draw : Nat) (sp : Space) (a : Nat) :
    (s.lineFilled draw sp a).regs = s.regs := by
  unfold State.lineFilled; repeat' split
  all_goals rfl
@[simp] theorem State.lineFilled_pc (draw : Nat) (sp : Space) (a : Nat) :
    (s.lineFilled draw sp a).pc = s.pc := by
  unfold State.lineFilled; repeat' split
  all_goals rfl
@[simp] theorem State.lineFilled_mode (draw : Nat) (sp : Space) (a : Nat) :
    (s.lineFilled draw sp a).mode = s.mode := by
  unfold State.lineFilled; repeat' split
  all_goals rfl
@[simp] theorem State.lineFilled_srs (draw : Nat) (sp : Space) (a : Nat) :
    (s.lineFilled draw sp a).srs = s.srs := by
  unfold State.lineFilled; repeat' split
  all_goals rfl
@[simp] theorem State.lineFilled_tw (draw : Nat) (sp : Space) (a : Nat) :
    (s.lineFilled draw sp a).tw = s.tw := by
  unfold State.lineFilled; repeat' split
  all_goals rfl
@[simp] theorem State.lineFilled_paused (draw : Nat) (sp : Space) (a : Nat) :
    (s.lineFilled draw sp a).paused = s.paused := by
  unfold State.lineFilled; repeat' split
  all_goals rfl
@[simp] theorem State.lineFilled_mask1 (draw : Nat) (sp : Space) (a : Nat) :
    (s.lineFilled draw sp a).mask1 = s.mask1 := by
  unfold State.lineFilled; repeat' split
  all_goals rfl
@[simp] theorem State.lineFilled_mask2 (draw : Nat) (sp : Space) (a : Nat) :
    (s.lineFilled draw sp a).mask2 = s.mask2 := by
  unfold State.lineFilled; repeat' split
  all_goals rfl
@[simp] theorem State.lineFilled_tmtCode (draw : Nat) (sp : Space) (a : Nat) :
    (s.lineFilled draw sp a).tmtCode = s.tmtCode := by
  unfold State.lineFilled; repeat' split
  all_goals rfl
@[simp] theorem State.lineFilled_tmtData (draw : Nat) (sp : Space) (a : Nat) :
    (s.lineFilled draw sp a).tmtData = s.tmtData := by
  unfold State.lineFilled; repeat' split
  all_goals rfl
@[simp] theorem State.lineFilled_staleCode (draw : Nat) (sp : Space) (a : Nat) :
    (s.lineFilled draw sp a).staleCode = s.staleCode := by
  unfold State.lineFilled; repeat' split
  all_goals rfl
@[simp] theorem State.lineFilled_mem (draw : Nat) (sp : Space) (a : Nat) :
    (s.lineFilled draw sp a).mem = s.mem := by
  unfold State.lineFilled; repeat' split
  all_goals rfl
@[simp] theorem State.lineFilled_powerFail (draw : Nat) (sp : Space) (a : Nat) :
    (s.lineFilled draw sp a).powerFail = s.powerFail := by
  unfold State.lineFilled; repeat' split
  all_goals rfl
@[simp] theorem State.lineFilled_loaf (draw : Nat) (sp : Space) (a : Nat) :
    (s.lineFilled draw sp a).loaf = s.loaf := by
  unfold State.lineFilled; repeat' split
  all_goals rfl
@[simp] theorem State.lineFilled_powerFailPending (draw : Nat) (sp : Space) (a : Nat) :
    (s.lineFilled draw sp a).powerFailPending = s.powerFailPending := by
  unfold State.lineFilled; repeat' split
  all_goals rfl
@[simp] theorem State.lineFilled_switch0Pending (draw : Nat) (sp : Space) (a : Nat) :
    (s.lineFilled draw sp a).switch0Pending = s.switch0Pending := by
  unfold State.lineFilled; repeat' split
  all_goals rfl
@[simp] theorem State.lineFilled_parityPending (draw : Nat) (sp : Space) (a : Nat) :
    (s.lineFilled draw sp a).parityPending = s.parityPending := by
  unfold State.lineFilled; repeat' split
  all_goals rfl
@[simp] theorem State.lineFilled_timer1Due (draw : Nat) (sp : Space) (a : Nat) :
    (s.lineFilled draw sp a).timer1Due = s.timer1Due := by
  unfold State.lineFilled; repeat' split
  all_goals rfl
@[simp] theorem State.lineFilled_timer2Due (draw : Nat) (sp : Space) (a : Nat) :
    (s.lineFilled draw sp a).timer2Due = s.timer2Due := by
  unfold State.lineFilled; repeat' split
  all_goals rfl
@[simp] theorem State.lineFilled_errorLog (draw : Nat) (sp : Space) (a : Nat) :
    (s.lineFilled draw sp a).errorLog = s.errorLog := by
  unfold State.lineFilled; repeat' split
  all_goals rfl
@[simp] theorem State.lineFilled_clock (draw : Nat) (sp : Space) (a : Nat) :
    (s.lineFilled draw sp a).clock = s.clock := by
  unfold State.lineFilled; repeat' split
  all_goals rfl
@[simp] theorem State.lineFilled_boards (draw : Nat) (sp : Space) (a : Nat) :
    (s.lineFilled draw sp a).boards = s.boards := by
  unfold State.lineFilled; repeat' split
  all_goals rfl
@[simp] theorem State.lineFilled_badWords (draw : Nat) (sp : Space) (a : Nat) :
    (s.lineFilled draw sp a).badWords = s.badWords := by
  unfold State.lineFilled; repeat' split
  all_goals rfl
@[simp] theorem State.lineFilled_bus (draw : Nat) (sp : Space) (a : Nat) :
    (s.lineFilled draw sp a).bus = s.bus := by
  unfold State.lineFilled; repeat' split
  all_goals rfl
@[simp] theorem State.lineFilled_draws (draw : Nat) (sp : Space) (a : Nat) :
    (s.lineFilled draw sp a).draws = s.draws := by
  unfold State.lineFilled; repeat' split
  all_goals rfl
@[simp] theorem State.lineFilled_arrivals (draw : Nat) (sp : Space) (a : Nat) :
    (s.lineFilled draw sp a).arrivals = s.arrivals := by
  unfold State.lineFilled; repeat' split
  all_goals rfl
@[simp] theorem State.lineFilled_dmaTurns (draw : Nat) (sp : Space) (a : Nat) :
    (s.lineFilled draw sp a).dmaTurns = s.dmaTurns := by
  unfold State.lineFilled; repeat' split
  all_goals rfl

/-! ### Fields that an update writes -/

@[simp] theorem State.setPc_pc (a : Word) : (s.setPc a).pc = a := rfl
@[simp] theorem State.advance_pc (n : Word) : (s.advance n).pc = s.pc + n := rfl
@[simp] theorem State.drawn_draws : s.drawn.draws = s.draws + 1 := rfl
@[simp] theorem State.storeReal_mem (a : Nat) (bs : List Byte) :
    (s.storeReal a bs).mem = s.mem.writeBytes a bs := rfl
@[simp] theorem dmaStore_mem (a : Nat) (bs : List Byte) :
    (dmaStore s a bs).mem = s.mem.writeBytes a bs := rfl
@[simp] theorem loadProcess_tw (p g t : Word) : (loadProcess p g t s).tw = t := rfl
@[simp] theorem flushProcess_tmtCode : (flushProcess s).tmtCode = [] := rfl
@[simp] theorem flushProcess_tmtData : (flushProcess s).tmtData = [] := rfl
@[simp] theorem flushProcess_staleCode : (flushProcess s).staleCode = [] := rfl

end Sys2Proof.Machine
end

