-- ==== Sys2Proof/Laws/Memory.lean ====
section
/-! SUPPORT. Real memory: a read after a write, and the canonical form that every write keeps
(20_memory.md R72, R80). -/

namespace Sys2Proof.Machine

/-! ### The canonical form -/

theorem Memory.wf_nil : Memory.wf [] := ⟨List.Pairwise.nil, by simp⟩

/-- The front cell and the rest of a memory in canonical form. -/
theorem Memory.wf_cons {p : Host.Cell} {m : Memory} :
    Memory.wf (p :: m) ↔ (∀ q ∈ m, p.1 < q.1) ∧ p.2 ≠ blankByte ∧ Memory.wf m := by
  simp only [Memory.wf, List.pairwise_cons, List.mem_cons, forall_eq_or_imp]
  tauto

/-- An address below every cell reads as an unlisted one. -/
theorem Memory.read_of_lt {m : Memory} {a : Nat} (h : ∀ q ∈ m, a < q.1) :
    m.read a = blankByte := by
  induction m with
  | nil => rfl
  | cons p m ih =>
    obtain ⟨k, v⟩ := p
    have hk : a < k := h (k, v) (by simp)
    rw [Memory.read, if_neg (by omega)]
    exact ih fun q hq => h q (by simp [hq])

/-- Every cell after a write is the written one or one that was there. -/
theorem Memory.mem_write {m : Memory} {a : Nat} {b : Byte} {q : Host.Cell}
    (h : q ∈ m.write a b) : q = (a, b) ∧ b ≠ blankByte ∨ q ∈ m := by
  induction m with
  | nil =>
    simp only [Memory.write] at h
    split at h
    · simp at h
    · exact .inl ⟨by simpa using h, by assumption⟩
  | cons p m ih =>
    obtain ⟨k, v⟩ := p
    simp only [Memory.write] at h
    split at h
    · split at h
      · exact .inr h
      · rcases List.mem_cons.mp h with h | h
        · exact .inl ⟨h, by assumption⟩
        · exact .inr h
    · split at h
      · split at h
        · exact .inr (List.mem_cons_of_mem _ h)
        · rcases List.mem_cons.mp h with h | h
          · exact .inl ⟨h, by assumption⟩
          · exact .inr (List.mem_cons_of_mem _ h)
      · rcases List.mem_cons.mp h with h | h
        · exact .inr (h ▸ List.mem_cons_self)
        · rcases ih h with h | h
          · exact .inl h
          · exact .inr (List.mem_cons_of_mem _ h)

/-- A write keeps the canonical form. -/
theorem Memory.wf_write {m : Memory} (h : m.wf) (a : Nat) (b : Byte) : (m.write a b).wf := by
  induction m with
  | nil =>
    simp only [Memory.write]
    split
    · exact Memory.wf_nil
    · exact Memory.wf_cons.mpr ⟨by simp, by assumption, Memory.wf_nil⟩
  | cons p m ih =>
    obtain ⟨k, v⟩ := p
    obtain ⟨hk, hv, hm⟩ := Memory.wf_cons.mp h
    simp only [Memory.write]
    split
    · split
      · exact h
      · refine Memory.wf_cons.mpr ⟨?_, by assumption, h⟩
        rintro q hq
        rcases List.mem_cons.mp hq with rfl | hq
        · assumption
        · have := hk q hq
          simp only at this ⊢
          omega
    · split
      · split
        · exact hm
        · subst_vars
          exact Memory.wf_cons.mpr ⟨hk, by assumption, hm⟩
      · refine Memory.wf_cons.mpr ⟨?_, hv, ih hm⟩
        intro q hq
        rcases Memory.mem_write hq with ⟨rfl, _⟩ | hq
        · simp only
          omega
        · exact hk q hq

theorem Memory.wf_writeBytes {m : Memory} (h : m.wf) (a : Nat) (bs : List Byte) :
    (m.writeBytes a bs).wf := by
  induction bs generalizing m a with
  | nil => exact h
  | cons b bs ih => exact ih (Memory.wf_write h a b) (a + 1)

/-! ### Reading after writing -/

/-- A byte after a write: the written one at its address, every other one as before. -/
theorem Memory.read_write {m : Memory} (h : m.wf) (a c : Nat) (b : Byte) :
    (m.write a b).read c = if c = a then b else m.read c := by
  induction m with
  | nil =>
    by_cases hb : b = blankByte <;> by_cases hc : c = a <;>
      simp [Memory.write, Memory.read, hb, hc, eq_comm (a := a)]
  | cons p m ih =>
    obtain ⟨k, v⟩ := p
    obtain ⟨hk, hv, hm⟩ := Memory.wf_cons.mp h
    have low : ∀ x, x < k → Memory.read ((k, v) :: m) x = blankByte := by
      intro x hx
      apply Memory.read_of_lt
      intro q hq
      rcases List.mem_cons.mp hq with rfl | hq
      · exact hx
      · have := hk q hq
        simp only at this
        omega
    simp only [Memory.write]
    split
    · split
      · by_cases hc : c = a
        · subst hc; simp_all
        · simp [hc]
      · by_cases hc : c = a
        · simp [Memory.read, hc]
        · rw [if_neg hc, Memory.read, if_neg (Ne.symm hc)]
    · split
      · subst_vars
        split
        · by_cases hc : c = k
          · subst hc
            rw [if_pos rfl, Memory.read_of_lt hk]
            simp_all
          · rw [if_neg hc, Memory.read, if_neg (Ne.symm hc)]
        · by_cases hc : c = k
          · simp [Memory.read, hc]
          · rw [if_neg hc, Memory.read, if_neg (Ne.symm hc), Memory.read, if_neg (Ne.symm hc)]
      · by_cases hc : c = a
        · subst hc
          rw [Memory.read, if_neg (by omega), ih hm, if_pos rfl, if_pos rfl]
        · by_cases hkc : k = c
          · rw [Memory.read, if_pos hkc, if_neg hc, Memory.read, if_pos hkc]
          · rw [Memory.read, if_neg hkc, ih hm, if_neg hc, if_neg hc, Memory.read, if_neg hkc]

/-- A byte after a write of several. -/
theorem Memory.read_writeBytes {m : Memory} (h : m.wf) (a c : Nat) (bs : List Byte) :
    (m.writeBytes a bs).read c =
      if hc : a ≤ c ∧ c < a + bs.length then bs[c - a]'(by omega) else m.read c := by
  induction bs generalizing m a with
  | nil => simp [Memory.writeBytes]
  | cons b bs ih =>
    rw [Memory.writeBytes, ih (Memory.wf_write h a b), Memory.read_write h]
    by_cases h1 : c = a
    · subst h1
      rw [dif_neg (by omega), if_pos rfl, dif_pos ⟨le_refl c, by simp⟩]
      simp
    · by_cases h2 : a + 1 ≤ c ∧ c < a + 1 + bs.length
      · rw [dif_pos h2, dif_pos ⟨by omega, by simp; omega⟩]
        rw [List.getElem_cons, dif_neg (by omega)]
        congr 1
      · rw [dif_neg h2, if_neg h1, dif_neg]
        simp
        omega

/-- Bytes outside a write of several read as before. -/
theorem Memory.read_writeBytes_outside {m : Memory} (h : m.wf) {a c : Nat} {bs : List Byte}
    (hc : c < a ∨ a + bs.length ≤ c) : (m.writeBytes a bs).read c = m.read c := by
  rw [Memory.read_writeBytes h, dif_neg (by omega)]

/-! ### Words and bytes -/

/-- The bytes of a word, put together, are the word. -/
@[simp] theorem wordOf_bytes (w : Word) :
    wordOf (w.extractLsb' 24 8) (w.extractLsb' 16 8) (w.extractLsb' 8 8) (w.extractLsb' 0 8) =
      w := by
  apply BitVec.eq_of_getLsbD_eq
  intro i hi
  simp only [wordOf, BitVec.getLsbD_append, BitVec.getLsbD_extractLsb']
  split
  · simp [*]
  · split
    · simp [show i - 8 < 8 by omega, show 8 + (i - 8) = i by omega]
    · split
      · simp [show i - 8 - 8 < 8 by omega, show 16 + (i - 8 - 8) = i by omega]
      · simp [show i - 8 - 8 - 8 < 8 by omega, show 24 + (i - 8 - 8 - 8) = i by omega]

/-- A word reads as it was written. -/
theorem Memory.readWord_writeBytes {m : Memory} (h : m.wf) (a : Nat) (w : Word) :
    (m.writeBytes a (wordBytes w)).readWord a = w := by
  simp [Memory.readWord, Memory.read_writeBytes h, wordBytes]

/-- A word outside a write of several bytes reads as before. -/
theorem Memory.readWord_writeBytes_outside {m : Memory} (h : m.wf) {a c : Nat} {bs : List Byte}
    (hc : c + 4 ≤ a ∨ a + bs.length ≤ c) : (m.writeBytes a bs).readWord c = m.readWord c := by
  simp only [Memory.readWord]
  rw [Memory.read_writeBytes_outside h (by omega), Memory.read_writeBytes_outside h (by omega),
    Memory.read_writeBytes_outside h (by omega), Memory.read_writeBytes_outside h (by omega)]

/-! ### The addresses that exist -/

/-- `MEM_SIZE` is 4 to 128 megabytes (00_scope.md R5). -/
theorem memSize_bounds : 0x400000 ≤ Config.memSize ∧ Config.memSize ≤ 0x8000000 := by
  have := Nat.mod_lt Config.memPages (show 31745 > 0 by decide)
  unfold Config.memSize
  omega

/-- The addresses that exist are those below `MEM_SIZE`. -/
theorem realExists_iff (a n : Nat) : realExists a n = true ↔ a + n ≤ Config.memSize := by
  have := memSize_bounds.1
  simp only [realExists, Bool.or_eq_true, decide_eq_true_eq]
  omega

end Sys2Proof.Machine
end

