-- ==== Sys2Proof/Laws/Registers.lean ====
section
/-! SUPPORT. Reading a register after a write (10_state.md R20, R21, R26). -/

namespace Sys2Proof.Machine

variable (s : State)

theorem State.reg_setReg (i j : Reg) (w : Word) :
    (s.setReg i w).reg j = if j = i then w else s.reg j := by
  simp only [State.reg, State.setReg, Vector.getElem_set, eq_comm (a := i.toNat)]
  by_cases h : j = i
  · subst h; simp
  · have : j.toNat ≠ i.toNat := fun e => h (BitVec.eq_of_toNat_eq e)
    simp [h, this]

@[simp] theorem State.reg_setReg_same (i : Reg) (w : Word) : (s.setReg i w).reg i = w := by
  simp [State.reg_setReg]

theorem State.reg_setReg_ne {i j : Reg} (h : j ≠ i) (w : Word) :
    (s.setReg i w).reg j = s.reg j := by
  simp [State.reg_setReg, h]

theorem State.sr_setSr (i j : SReg) (w : Word) :
    (s.setSr i w).sr j = if j = i then w else s.sr j := by
  simp only [State.sr, State.setSr, Vector.getElem_set]
  by_cases h : j = i
  · subst h; simp
  · have : i.toNat ≠ j.toNat := fun e => h (BitVec.eq_of_toNat_eq e).symm
    simp [h, this]

@[simp] theorem State.sr_setSr_same (i : SReg) (w : Word) : (s.setSr i w).sr i = w := by
  simp [State.sr_setSr]

/-- The second register of a pair is another register. -/
theorem succ_ne (i : Reg) : i + 1 ≠ i := by
  revert i; decide

theorem State.reg_setPair (i j : Reg) (d : DWord) :
    (s.setPair i d).reg j =
      if j = i + 1 then loWord d else if j = i then hiWord d else s.reg j := by
  simp [State.setPair, State.reg_setReg]

/-- The halves of a double word, put together. -/
theorem hiWord_append_loWord (d : DWord) : hiWord d ++ loWord d = d := by
  apply BitVec.eq_of_getLsbD_eq
  intro i hi
  simp only [hiWord, loWord, BitVec.getLsbD_append, BitVec.getLsbD_extractLsb']
  by_cases h : i < 32
  · simp [h]
  · simp only [h, if_false, show i - 32 < 32 by omega, decide_true, Bool.true_and,
      show 32 + (i - 32) = i by omega]

@[simp] theorem hiWord_append (a b : Word) : hiWord (a ++ b) = a := by
  apply BitVec.eq_of_getLsbD_eq
  intro i hi
  have h : ¬ 32 + i < 32 := by omega
  rw [hiWord, BitVec.getLsbD_extractLsb', BitVec.getLsbD_append, if_neg h]
  simp [hi, show 32 + i - 32 = i by omega]

@[simp] theorem loWord_append (a b : Word) : loWord (a ++ b) = b := by
  apply BitVec.eq_of_getLsbD_eq
  intro i hi
  rw [loWord, BitVec.getLsbD_extractLsb', BitVec.getLsbD_append, if_pos (by omega)]
  simp [hi]

/-- A pair reads as it was written. -/
@[simp] theorem State.pair_setPair (i : Reg) (d : DWord) : (s.setPair i d).pair i = d := by
  simp [State.pair, State.reg_setPair, hiWord_append_loWord]

/-- Updates of other fields leave the registers as they read. -/
@[simp] theorem State.reg_setSr (i : SReg) (w : Word) (j : Reg) : (s.setSr i w).reg j = s.reg j :=
  rfl
@[simp] theorem State.reg_advance (n : Word) (j : Reg) : (s.advance n).reg j = s.reg j := rfl
@[simp] theorem State.reg_setPc (a : Word) (j : Reg) : (s.setPc a).reg j = s.reg j := rfl
@[simp] theorem State.reg_drawn (j : Reg) : s.drawn.reg j = s.reg j := rfl
@[simp] theorem State.reg_storeReal (a : Nat) (bs : List Byte) (j : Reg) :
    (s.storeReal a bs).reg j = s.reg j := rfl
@[simp] theorem State.reg_setTmt (sp : Space) (i : Nat) (w : Word) (j : Reg) :
    (s.setTmt sp i w).reg j = s.reg j := by cases sp <;> rfl
@[simp] theorem State.sr_setReg (i : Reg) (w : Word) (j : SReg) : (s.setReg i w).sr j = s.sr j :=
  rfl
@[simp] theorem State.sr_setPair (i : Reg) (d : DWord) (j : SReg) :
    (s.setPair i d).sr j = s.sr j := rfl
@[simp] theorem State.sr_advance (n : Word) (j : SReg) : (s.advance n).sr j = s.sr j := rfl
@[simp] theorem State.sr_setPc (a : Word) (j : SReg) : (s.setPc a).sr j = s.sr j := rfl
@[simp] theorem State.sr_drawn (j : SReg) : s.drawn.sr j = s.sr j := rfl
@[simp] theorem State.sr_storeReal (a : Nat) (bs : List Byte) (j : SReg) :
    (s.storeReal a bs).sr j = s.sr j := rfl
@[simp] theorem State.sr_setTmt (sp : Space) (i : Nat) (w : Word) (j : SReg) :
    (s.setTmt sp i w).sr j = s.sr j := by cases sp <;> rfl

end Sys2Proof.Machine
end

