-- ==== Sys2Proof/Laws/Access.lean ====
section
/-! SUPPORT. What a memory access can do: its result where nothing stands in its way, and what it
can change at most. -/

namespace Sys2Proof.Machine

/-! ### Results -/

@[simp] theorem Res.bind_ok {α β : Type} (v : α) (s : State) (f : α → State → Res β) :
    (Res.ok v s).bind f = f v s := rfl
@[simp] theorem Res.bind_trap {α β : Type} (e : Event) (s : State) (f : α → State → Res β) :
    (Res.trap e s : Res α).bind f = .trap e s := rfl
@[simp] theorem Res.bind_fault {α β : Type} (x : Fault) (f : α → State → Res β) :
    (Res.fault x : Res α).bind f = .fault x := rfl
@[simp] theorem Res.bind_refused {α β : Type} (x : Refusal) (f : α → State → Res β) :
    (Res.refused x : Res α).bind f = .refused x := rfl
@[simp] theorem Res.out_ok {α : Type} (v : α) (s : State) (f : α → State → Out) :
    (Res.ok v s).out f = f v s := rfl
@[simp] theorem Res.out_trap {α : Type} (e : Event) (s : State) (f : α → State → Out) :
    (Res.trap e s : Res α).out f = enterEvent e s := rfl
@[simp] theorem Res.out_fault {α : Type} (x : Fault) (f : α → State → Out) :
    (Res.fault x : Res α).out f = .fault x := rfl
@[simp] theorem Res.out_refused {α : Type} (x : Refusal) (f : α → State → Out) :
    (Res.refused x : Res α).out f = .refused x := rfl

/-- An instruction that finishes a result with a next state: the result is there, or an event was
entered. -/
theorem Res.out_eq_next {α : Type} {r : Res α} {f : α → State → Out} {t : State}
    (h : r.out f = .next t) :
    (∃ v u, r = .ok v u ∧ f v u = .next t) ∨ (∃ e u, r = .trap e u ∧ enterEvent e u = .next t) := by
  cases r with
  | ok v u => exact .inl ⟨v, u, rfl, h⟩
  | trap e u => exact .inr ⟨e, u, rfl, h⟩
  | fault x => cases h
  | refused x => cases h

/-! ### Alignment and addresses -/

theorem aligned_iff (a : Word) (n : Nat) : aligned a n = true ↔ a.toNat % n = 0 := by
  simp [aligned]

theorem oddAddress_iff (a : Word) : oddAddress a = true ↔ a.toNat % 2 = 1 := by
  simp [oddAddress]

theorem oddAddress_eq_false (a : Word) : oddAddress a = false ↔ a.toNat % 2 = 0 := by
  simp [oddAddress]

/-- A sum that stays in memory does not wrap. -/
theorem toNat_add_of_fits {a k : Word} {n : Nat} (h : a.toNat + k.toNat + n ≤ Config.memSize) :
    (a + k).toNat = a.toNat + k.toNat := by
  have := memSize_bounds.2
  rw [BitVec.toNat_add, Nat.mod_eq_of_lt (by omega)]

/-! ### Accesses that meet nothing -/

theorem readFails_of {s : State} (h : s.badWords = []) (a n : Nat) : readFails a n s = false := by
  simp [readFails, h]

theorem parityChecked_of {s : State} (h : s.badWords = []) (p : ParityError) (a n : Nat) :
    parityChecked p a n s = s := by
  simp [parityChecked, readFails_of h]

/-- Nothing is drawn where no other copies can be met. -/
theorem stamped_of {s : State} {sp : Space} (hd : s.dmaTurns = []) (hs : s.stale sp = []) :
    s.stamped sp = s := by
  simp [State.stamped, hs, hd]

theorem dmaTurn_of {s : State} (h : s.dmaTurns = []) : dmaTurn s = .ok () s := by
  simp [dmaTurn, h]

/-- The word the microcode reads. -/
theorem microRead_of {s : State} {a : Word} (h : s.calm)
    (ha : a.toNat + 4 ≤ Config.memSize) :
    microRead a s = .ok (s.mem.readWord a.toNat) s := by
  simp [microRead, dmaTurn_of h.1, readFails_of h.2, (realExists_iff _ _).2 ha]

/-- The word the microcode writes. -/
theorem microWrite_of {s : State} {a w : Word} (h : s.dmaTurns = [])
    (ha : a.toNat + 4 ≤ Config.memSize) :
    microWrite a w s = .ok () (s.storeReal a.toNat (wordBytes w)) := by
  simp [microWrite, dmaTurn_of h, (realExists_iff _ _).2 ha]

/-- Bytes read through a half of the cache that holds no other copy. -/
theorem cachedBytes_of {s : State} {sp : Space} (hs : s.stale sp = []) (draw a n : Nat) :
    s.cachedBytes draw sp a n = (List.range n).map fun k => s.mem.read (a + k) := by
  simp [State.cachedBytes, State.cachedByte, State.cachedCopy, hs]

theorem stale_of {s : State} (h : s.settled) (sp : Space) : s.stale sp = [] := by
  cases sp <;> simp [State.stale, h.code, h.data]

/-- A read through the cache when nothing is stale and nothing fails. -/
theorem busRead_of {s : State} (h : s.settled) (draw : Nat) (sp : Space) (p : ParityError)
    (a n : Nat) :
    busRead draw sp p a n s = .ok ((List.range n).map fun k => s.mem.read (a + k), false) s := by
  simp [busRead, dmaTurn_of h.dma, readFails_of h.errors, parityChecked_of h.errors,
    cachedBytes_of (stale_of h sp), lineFilled_of h.data]

/-- A read of up to two words when nothing is stale and nothing fails. -/
theorem memoryRead_of {s : State} (h : s.settled) (sp : Space) (ea : Word) (a : Nat) {n : Nat} :
    memoryRead sp ea a n s = .ok ((List.range n).map fun k => s.mem.read (a + k), false) s := by
  unfold memoryRead
  rw [stamped_of h.dma (stale_of h sp)]
  split
  · exact busRead_of h _ sp _ a n
  · next hn =>
    simp only [busRead_of h, Res.bind_ok, Bool.or_self]
    congr 2
    apply List.ext_getElem
    · simp; omega
    · intro i h1 h2
      by_cases hi : i < 4
      · simp [List.getElem_append_left, hi]
      · rw [List.getElem_append_right (by simp; omega)]
        simp
        congr 1
        omega

theorem storeReal_dmaTurns (s : State) (a : Nat) (bs : List Byte) :
    (s.storeReal a bs).dmaTurns = s.dmaTurns := rfl

/-- The vector of an event, where the CCB holds one. -/
theorem ccbVector_of {s : State} {off v : Word} (h : s.vectorAt off v) :
    ccbVector off s = .ok v s := by
  have hodd : oddAddress (s.sr 11) = false := by
    rw [oddAddress_eq_false]; have := h.base; omega
  have hadd : (s.sr 11 + off).toNat = (s.sr 11).toNat + off.toNat :=
    toNat_add_of_fits (n := 4) h.fits
  simp only [ccbVector, ccbBase, hodd, Bool.false_eq_true, if_false,
    (aligned_iff _ _).2 h.base, if_true, Res.bind_ok]
  rw [microRead_of h.calm (by rw [hadd]; exact h.fits), hadd, h.word]

/-- Continuing at a handler whose address the CCB holds. -/
theorem enterVector_of {s : State} {off v : Word} (h : s.vectorAt off v) :
    enterVector off s = .next { s with mode := .kernel, paused := false, pc := v } := by
  have : oddAddress v = false := by rw [oddAddress_eq_false]; exact h.even
  simp [enterVector, ccbVector_of h, this]

/-! ### What an access can change -/

/-- What memory accesses can change between two states at most: memory, kept in canonical form, the
caches' other copies, those held kept within the sets, the TMT, kept legal, the marks of failing
words, the parity errors pending, the bus record, the counter of free values, and the DMA to come. -/
structure State.Accessed (s t : State) : Prop where
  frame : { t with
    mem := s.mem, staleCode := s.staleCode, staleData := s.staleData, badWords := s.badWords
    parityPending := s.parityPending, bus := s.bus, draws := s.draws, dmaTurns := s.dmaTurns
    tmtCode := s.tmtCode, tmtData := s.tmtData } = s
  mem : s.mem.wf → t.mem.wf
  tmtCode : s.tmtCode.wf → t.tmtCode.wf
  tmtData : s.tmtData.wf → t.tmtData.wf
  cache : dataLinesLegal s.staleData → dataLinesLegal t.staleData

theorem State.Accessed.refl (s : State) : s.Accessed s := ⟨rfl, id, id, id, id⟩

theorem State.Accessed.trans {s t u : State} (h : s.Accessed t) (k : t.Accessed u) :
    s.Accessed u := by
  refine ⟨?_, k.mem ∘ h.mem, k.tmtCode ∘ h.tmtCode, k.tmtData ∘ h.tmtData, k.cache ∘ h.cache⟩
  have h1 := h.frame
  have h2 := k.frame
  rw [← h1, ← h2]

section Fields
variable {s t : State} (h : s.Accessed t)
include h
theorem State.Accessed.regs : t.regs = s.regs := (congrArg State.regs h.frame :)
theorem State.Accessed.pc : t.pc = s.pc := (congrArg State.pc h.frame :)
theorem State.Accessed.mode : t.mode = s.mode := (congrArg State.mode h.frame :)
theorem State.Accessed.srs : t.srs = s.srs := (congrArg State.srs h.frame :)
theorem State.Accessed.sr (j : SReg) : t.sr j = s.sr j := by simp only [State.sr, h.srs]
theorem State.Accessed.tw : t.tw = s.tw := (congrArg State.tw h.frame :)
theorem State.Accessed.paused : t.paused = s.paused := (congrArg State.paused h.frame :)
theorem State.Accessed.mask1 : t.mask1 = s.mask1 := (congrArg State.mask1 h.frame :)
theorem State.Accessed.mask2 : t.mask2 = s.mask2 := (congrArg State.mask2 h.frame :)
theorem State.Accessed.powerFail : t.powerFail = s.powerFail := (congrArg State.powerFail h.frame :)
theorem State.Accessed.loaf : t.loaf = s.loaf := (congrArg State.loaf h.frame :)
theorem State.Accessed.errorLog : t.errorLog = s.errorLog := (congrArg State.errorLog h.frame :)
theorem State.Accessed.clock : t.clock = s.clock := (congrArg State.clock h.frame :)
theorem State.Accessed.boards : t.boards = s.boards := (congrArg State.boards h.frame :)
end Fields

/-- A result whose state differs from `s` by accesses only. -/
def Res.within {α : Type} (s : State) (r : Res α) : Prop :=
  match r with
  | .ok _ t => s.Accessed t
  | .trap _ t => s.Accessed t
  | .fault _ => True
  | .refused _ => True

theorem Res.within_bind {α β : Type} {s : State} {r : Res α} {f : α → State → Res β}
    (h : r.within s) (k : ∀ v t, r = .ok v t → s.Accessed t → (f v t).within t) :
    (r.bind f).within s := by
  cases r with
  | ok v t =>
    have := k v t rfl h
    simp only [Res.bind_ok]
    cases hf : f v t with
    | ok w u => rw [hf] at this; exact State.Accessed.trans h this
    | trap w u => rw [hf] at this; exact State.Accessed.trans h this
    | fault => trivial
    | refused => trivial
  | trap e t => exact h
  | fault => trivial
  | refused => trivial

theorem Res.within_ok {α : Type} {s : State} (v : α) : (Res.ok v s).within s :=
  State.Accessed.refl s

theorem storeReal_within (s : State) (a : Nat) (bs : List Byte) :
    s.Accessed (s.storeReal a bs) :=
  ⟨rfl, fun h => Memory.wf_writeBytes h a bs, id, id, storeReal_linesLegal a bs⟩

theorem drawn_within (s : State) : s.Accessed s.drawn := ⟨rfl, id, id, id, id⟩

theorem lineFilled_within (s : State) (draw : Nat) (sp : Space) (a : Nat) :
    s.Accessed (s.lineFilled draw sp a) := by
  have hc := lineFilled_linesLegal (s := s) draw sp a
  obtain ⟨ls, h⟩ := lineFilled_frame s draw sp a
  rw [h] at hc ⊢
  exact ⟨rfl, id, id, id, hc⟩

theorem stamped_within (s : State) (sp : Space) : s.Accessed (s.stamped sp) := by
  unfold State.stamped
  split
  · exact .refl s
  · exact drawn_within s

theorem parityChecked_within (p : ParityError) (a n : Nat) (s : State) :
    s.Accessed (parityChecked p a n s) := by
  unfold parityChecked
  split
  · exact ⟨rfl, id, id, id, id⟩
  · exact .refl s

theorem segmentDrawn_within (s : State) : s.Accessed (segmentDrawn s) := by
  unfold segmentDrawn
  split
  · exact .refl s
  · exact drawn_within s

theorem applyDma_within (d : Dma) (s : State) : (applyDma d s).within s := by
  cases d <;> simp only [applyDma, dmaWrite, dmaRead] <;> split <;>
    first
    | trivial
    | exact ⟨rfl, fun h => Memory.wf_writeBytes h _ _, id, id, dmaStore_linesLegal _ _⟩
    | exact ⟨rfl, id, id, id, id⟩

theorem applyDmas_within (ds : List Dma) (s : State) : (applyDmas ds s).within s := by
  induction ds generalizing s with
  | nil => exact .refl s
  | cons d ds ih => exact Res.within_bind (applyDma_within d s) fun _ t _ _ => ih t

theorem Res.within_of {α : Type} {s t : State} {r : Res α} (h : s.Accessed t)
    (k : r.within t) : r.within s := by
  cases r with
  | ok v u => exact State.Accessed.trans h k
  | trap e u => exact State.Accessed.trans h k
  | fault => trivial
  | refused => trivial

theorem serveRounds_within (rs : List DmaRound) (s : State) : (serveRounds rs s).within s := by
  induction rs generalizing s with
  | nil => exact .refl s
  | cons r rs ih => exact Res.within_bind (applyDmas_within _ s) fun _ t _ _ => ih t

theorem dmaTurn_within (s : State) : (dmaTurn s).within s := by
  unfold dmaTurn
  split
  · exact .refl s
  · next now later _ =>
    exact Res.within_of (t := { s with dmaTurns := later }) ⟨rfl, id, id, id, id⟩
      (serveRounds_within now _)

theorem microRead_within (a : Word) (s : State) : (microRead a s).within s :=
  Res.within_bind (dmaTurn_within s) fun _ t _ _ => by
    split
    · trivial
    · split
      · exact State.Accessed.trans (parityChecked_within _ _ _ t) (drawn_within _)
      · exact .refl t

theorem microWrite_within (a w : Word) (s : State) : (microWrite a w s).within s :=
  Res.within_bind (dmaTurn_within s) fun _ t _ _ => by
    split
    · exact storeReal_within t _ _
    · trivial

theorem busRead_within (draw : Nat) (sp : Space) (p : ParityError) (a n : Nat) (s : State) :
    (busRead draw sp p a n s).within s :=
  Res.within_bind (dmaTurn_within s) fun _ t _ _ =>
    State.Accessed.trans (lineFilled_within t draw sp a) (parityChecked_within p a n _)

theorem busWrite_within (draw a : Nat) (bs : List Byte) (s : State) :
    (busWrite draw a bs s).within s :=
  Res.within_bind (dmaTurn_within s) fun _ t _ _ =>
    State.Accessed.trans (lineFilled_within t draw .data a) (storeReal_within _ a bs)

theorem memoryRead_within (sp : Space) (ea : Word) (a n : Nat) (s : State) :
    (memoryRead sp ea a n s).within s := by
  unfold memoryRead
  split
  · exact Res.within_of (stamped_within s sp) (busRead_within _ sp _ a n _)
  · exact Res.within_of (stamped_within s sp) <|
      Res.within_bind (busRead_within _ sp _ a 4 _) fun _ t _ _ =>
        Res.within_bind (busRead_within _ sp _ _ _ t) fun _ u _ _ => .refl u

theorem memoryWrite_within (a : Nat) (bs : List Byte) (s : State) :
    (memoryWrite a bs s).within s := by
  unfold memoryWrite
  split
  · exact Res.within_of (stamped_within s .data) (busWrite_within _ a bs _)
  · exact Res.within_of (stamped_within s .data) <|
      Res.within_bind (busWrite_within _ a _ _) fun _ t _ _ => busWrite_within _ _ _ t

theorem ccbBase_within (s : State) : (ccbBase s).within s := by
  unfold ccbBase
  split
  · trivial
  · split
    · exact .refl s
    · trivial

theorem ccbVector_within (off : Word) (s : State) : (ccbVector off s).within s :=
  Res.within_bind (ccbBase_within s) fun _ t _ _ => microRead_within _ t

/-! ### Event entry -/

/-- A vector that has been read is the CCB's word, unless a memory error hid it. -/
theorem ccbVector_ok {off v : Word} {s u : State} (h : ccbVector off s = .ok v u)
    (hb : ∀ t, dmaTurn s = .ok () t → t.badWords = []) :
    v = u.mem.readWord (s.sr 11 + off).toNat := by
  unfold ccbVector ccbBase at h
  split at h
  · cases h
  · split at h
    · simp only [Res.bind_ok, microRead] at h
      cases hd : dmaTurn s with
      | ok w x =>
        rw [hd] at h
        simp only [Res.bind_ok, readFails_of (hb x hd)] at h
        split at h
        · cases h
        · cases h; rfl
      | trap e x => rw [hd] at h; cases h
      | fault x => rw [hd] at h; cases h
      | refused x => rw [hd] at h; cases h
    · cases h

/-- DMA marks no word as failing. -/
theorem dmaTurn_badWords {s t : State} (hb : s.badWords = []) (h : dmaTurn s = .ok () t) :
    t.badWords = [] := by
  have one : ∀ (d : Dma) (u w : State), u.badWords = [] → applyDma d u = .ok () w →
      w.badWords = [] := by
    intro d u w hu hw
    cases d <;> simp only [applyDma, dmaWrite, dmaRead] at hw <;> split at hw <;> cases hw <;>
      simp [dmaStore, reported, hu]
  have all : ∀ (ds : List Dma) (u w : State), u.badWords = [] → applyDmas ds u = .ok () w →
      w.badWords = [] := by
    intro ds
    induction ds with
    | nil => intro u w hu hw; cases hw; exact hu
    | cons d ds ih =>
      intro u w hu hw
      simp only [applyDmas] at hw
      cases hd : applyDma d u with
      | ok v x => rw [hd] at hw; exact ih x w (one d u x hu hd) hw
      | trap e x => rw [hd] at hw; cases hw
      | fault x => rw [hd] at hw; cases hw
      | refused x => rw [hd] at hw; cases hw
  have rounds : ∀ (rs : List DmaRound) (u w : State), u.badWords = [] →
      serveRounds rs u = .ok () w → w.badWords = [] := by
    intro rs
    induction rs with
    | nil => intro u w hu hw; cases hw; exact hu
    | cons r rs ih =>
      intro u w hu hw
      simp only [serveRounds] at hw
      cases hd : serveRound r u with
      | ok v x => rw [hd] at hw; exact ih x w (all _ u x hu hd) hw
      | trap e x => rw [hd] at hw; cases hw
      | fault x => rw [hd] at hw; cases hw
      | refused x => rw [hd] at hw; cases hw
  unfold dmaTurn at h
  split at h
  · cases h; exact hb
  · next now later _ => exact rounds now { s with dmaTurns := later } t hb h

/-- What a vector entry that answers does. -/
theorem enterVector_next {off : Word} {s t : State} (h : enterVector off s = .next t) :
    ∃ u v, s.Accessed u ∧ t = { u with mode := .kernel, paused := false, pc := v } ∧
      v.toNat % 2 = 0 ∧ (s.badWords = [] → v = u.mem.readWord (s.sr 11 + off).toNat) := by
  unfold enterVector at h
  have hw := ccbVector_within off s
  split at h
  · next v u hv =>
    split at h
    · cases h
    · next hodd =>
      rw [hv] at hw
      refine ⟨u, v, hw, ?_, ?_, fun hb => ccbVector_ok hv fun x hx => dmaTurn_badWords hb hx⟩
      · simpa using h.symm
      · rw [← oddAddress_eq_false]; simpa using hodd
  · cases h
  · cases h
  · cases h

/-- The state in which an event looks up its vector: what it saves has been saved. -/
def saveEvent (e : Event) (s : State) : State :=
  (((savePc e s).setSrOpt 1 e.sr1).setSrOpt 2 e.sr2).setSrOpt 3 e.sr3

theorem State.sr_setSrOpt (s : State) (i j : SReg) (w : Option Word) :
    (s.setSrOpt i w).sr j = if j = i then w.getD (s.sr j) else s.sr j := by
  cases w <;> simp [State.setSrOpt, State.sr_setSr]

/-- Each special register after an event has saved what it saves. -/
theorem saveEvent_sr (e : Event) (s : State) (j : SReg) :
    (saveEvent e s).sr j =
      if j = 0 then e.sr0.getD (if s.mode = .user then 1 else e.saved)
      else if j = 1 then e.sr1.getD (s.sr 1)
      else if j = 2 then e.sr2.getD (s.sr 2)
      else if j = 3 then e.sr3.getD (s.sr 3)
      else if j = 15 ∧ s.mode = .user then e.saved
      else s.sr j := by
  simp only [saveEvent, State.sr_setSrOpt, savePc]
  cases hm : s.mode <;> simp only [State.sr_setSr] <;> revert j <;> intro j <;>
    by_cases h0 : j = 0 <;> by_cases h1 : j = 1 <;> by_cases h2 : j = 2 <;>
    by_cases h3 : j = 3 <;> by_cases h15 : j = 15 <;> simp_all

/-- What an event saves, it saves in the special registers alone. -/
theorem saveEvent_frame (e : Event) (s : State) :
    saveEvent e s = { s with srs := (saveEvent e s).srs } := by
  unfold saveEvent savePc
  split <;> cases e.sr1 <;> cases e.sr2 <;> cases e.sr3 <;> rfl

/-- What an event entry that answers does. -/
theorem enterEvent_next {e : Event} {s t : State} (h : enterEvent e s = .next t) :
    ∃ u v, (saveEvent e s).Accessed u ∧
      t = { u with mode := .kernel, paused := false, pc := v } ∧ v.toNat % 2 = 0 ∧
      (s.badWords = [] → v = u.mem.readWord (s.sr 11 + e.off).toNat) := by
  obtain ⟨u, v, h1, h2, h3, h4⟩ := enterVector_next h
  refine ⟨u, v, h1, h2, h3, fun hb => ?_⟩
  have : (saveEvent e s).sr 11 = s.sr 11 := by simp [saveEvent_sr]
  have hf : (saveEvent e s).badWords = s.badWords := by rw [saveEvent_frame]
  rw [← this]
  exact h4 (hf.trans hb)

/-- Event entry with a vector in the CCB. -/
theorem enterEvent_of {e : Event} {s : State} {v : Word} (h : s.vectorAt e.off v) :
    enterEvent e s = .next { saveEvent e s with mode := .kernel, paused := false, pc := v } := by
  have h11 : (saveEvent e s).sr 11 = s.sr 11 := by simp [saveEvent_sr]
  have hf := saveEvent_frame e s
  have hd : (saveEvent e s).dmaTurns = s.dmaTurns := by rw [hf]
  have hb : (saveEvent e s).badWords = s.badWords := by rw [hf]
  have hm : (saveEvent e s).mem = s.mem := by rw [hf]
  exact enterVector_of (s := saveEvent e s)
    ⟨⟨by rw [hd]; exact h.calm.1, by rw [hb]; exact h.calm.2⟩, by rw [h11]; exact h.base, by rw [h11]; exact h.fits,
      by rw [h11, hm]; exact h.word, h.even⟩

end Sys2Proof.Machine
end

