-- ==== Sys2Proof/Laws/Translation.lean ====
section
/-! SUPPORT. The TMT, the VRT search and translation: what they answer where nothing stands in
their way, and what they can change. -/

namespace Sys2Proof.Machine

/-! ### The TMT -/

/-- A half of the TMT after an entry has been loaded. -/
theorem TmtHalf.get_put (t : TmtHalf) (i j : Nat) (w : Word) :
    (TmtHalf.put t i w).get j = if j = i then some w else t.get j := by
  induction t with
  | nil => simp [TmtHalf.put, TmtHalf.get, eq_comm]
  | cons p t ih =>
    obtain ⟨k, v⟩ := p
    simp only [TmtHalf.put]
    split
    · simp [TmtHalf.get, eq_comm]
    · split
      · next h => subst h; simp [TmtHalf.get, eq_comm]; split <;> simp_all
      · next h1 h2 =>
        simp only [TmtHalf.get, ih]
        split
        · next hk => subst hk; rw [if_neg]; omega
        · rfl

/-- A member of a half after an entry has been loaded. -/
theorem TmtHalf.mem_put {t : TmtHalf} {i : Nat} {w : Word} {p : Nat × Word}
    (h : p ∈ TmtHalf.put t i w) : p = (i, w) ∨ p ∈ t := by
  induction t with
  | nil => simpa [TmtHalf.put] using h
  | cons q t ih =>
    obtain ⟨k, v⟩ := q
    simp only [TmtHalf.put] at h
    split at h
    · simpa using h
    · split at h
      · rcases List.mem_cons.1 h with h | h
        · exact .inl h
        · exact .inr (List.mem_cons_of_mem _ h)
      · rcases List.mem_cons.1 h with h | h
        · exact .inr (h ▸ List.mem_cons_self)
        · exact (ih h).imp_right (List.mem_cons_of_mem _)

/-- Loading a legal entry keeps a half legal. -/
theorem TmtHalf.wf_put {t : TmtHalf} (h : t.wf) {i : Nat} {w : Word} (hi : i < 512)
    (hv : tmtV w = true) (hu : tmtU w = false) : (TmtHalf.put t i w).wf := by
  constructor
  · have hp := h.1
    clear h
    induction t with
    | nil => simp [TmtHalf.put]
    | cons q t ih =>
      obtain ⟨k, v⟩ := q
      rw [List.pairwise_cons] at hp
      simp only [TmtHalf.put]
      split
      · next hk =>
        refine List.pairwise_cons.2 ⟨?_, List.pairwise_cons.2 hp⟩
        intro p hp'
        rcases List.mem_cons.1 hp' with rfl | hp'
        · exact hk
        · exact lt_trans hk (hp.1 p hp')
      · split
        · next hk => subst hk; exact List.pairwise_cons.2 hp
        · next h1 h2 =>
          refine List.pairwise_cons.2 ⟨?_, ih hp.2⟩
          intro p hp'
          rcases TmtHalf.mem_put hp' with rfl | hp'
          · change k < i; omega
          · exact hp.1 p hp'
  · intro p hp
    rcases TmtHalf.mem_put hp with rfl | hp
    · exact ⟨hi, hv, hu⟩
    · exact h.2 p hp

theorem tmtIndex_lt (va : Word) : tmtIndex va < 512 := (mfield va 11 19).isLt

@[simp] theorem tmtV_setReferenced (w : Word) : tmtV (setReferenced w) = tmtV w := by
  simp [tmtV, setReferenced, setMbit, mbit]
@[simp] theorem tmtU_setReferenced (w : Word) : tmtU (setReferenced w) = tmtU w := by
  simp [tmtU, setReferenced, setMbit, mbit]
@[simp] theorem tmtV_setDirty (w : Word) : tmtV (setDirty w) = tmtV w := by
  simp [tmtV, setDirty, setMbit, mbit]
@[simp] theorem tmtU_setDirty (w : Word) : tmtU (setDirty w) = tmtU w := by
  simp [tmtU, setDirty, setMbit, mbit]

theorem setReferenced_eq (w : Word) : setReferenced w = w ||| 0x10#32 := rfl
theorem setDirty_eq (w : Word) : setDirty w = w ||| 0x1#32 := rfl

theorem setDirty_setReferenced (w : Word) : setDirty (setReferenced w) = w ||| 0x11#32 := by
  rw [setDirty_eq, setReferenced_eq, BitVec.or_assoc]; rfl

/-- The bits Referenced and Dirty are no part of the real address. -/
theorem physAddress_or {w m : Word} (h : m = 0x10#32 ∨ m = 0x11#32) (va : Word) :
    physAddress (w ||| m) va = physAddress w va := by
  have : mfield (w ||| m) 1 15 = mfield w 1 15 := by
    apply BitVec.eq_of_getLsbD_eq
    intro i hi
    simp only [mfield, BitVec.getLsbD_extractLsb', BitVec.getLsbD_or]
    have : m.getLsbD (32 - 1 - 15 + i) = false := by
      rcases h with rfl | rfl <;> (interval_cases i <;> rfl)
    simp [this]
  simp only [physAddress, this]

/-- An entry loaded into the TMT of a state changes accesses' fields only. -/
theorem setTmt_within {s : State} (sp : Space) {i : Nat} {w : Word} (hi : i < 512)
    (hv : tmtV w = true) (hu : tmtU w = false) : s.Accessed (s.setTmt sp i w) := by
  cases sp
  · exact ⟨rfl, id, fun h => TmtHalf.wf_put h hi hv hu, id, id⟩
  · exact ⟨rfl, id, id, fun h => TmtHalf.wf_put h hi hv hu, id⟩

/-- The TMT after an entry has been loaded. -/
theorem tmt_setTmt (s : State) (sp sp' : Space) (i j : Nat) (w : Word) :
    ((s.setTmt sp i w).tmt sp').get j =
      if sp' = sp ∧ j = i then some w else (s.tmt sp').get j := by
  cases sp <;> cases sp' <;> simp [State.setTmt, State.tmt, TmtHalf.get_put]

/-! ### The VRT search -/

/-- The chase of a chain that stands in memory. -/
theorem vrtChase_of {s : State} (hd : s.calm) {key : Word} {n : Nat} {p : Word}
    {r : Option Word} (h : VrtChain s.mem key n p r) (k : Nat) :
    vrtChase key (n + k + 1) p s =
      .ok (r.map fun q => (q, s.mem.readWord (q.toNat + 8))) s := by
  induction h generalizing k with
  | ended => simp [vrtChase]
  | found p hp hm =>
    obtain ⟨h0, h4, hf⟩ := hp
    have h8 : (p + 8).toNat = p.toNat + 8 := toNat_add_of_fits (n := 4) (by simpa using hf)
    rw [vrtChase, if_neg (show ¬ p = 0#32 from h0)]
    simp only [(aligned_iff _ _).2 h4, Bool.not_true, Bool.false_eq_true, if_false]
    rw [microRead_of hd (by omega)]
    simp only [Res.bind_ok, hm, if_true]
    rw [microRead_of hd (by rw [h8]; omega), h8]
    rfl
  | link p r n hp hm hn ih =>
    obtain ⟨h0, h4, hf⟩ := hp
    have h8 : (p + 4).toNat = p.toNat + 4 := toNat_add_of_fits (n := 4) (by simpa using hf)
    rw [vrtChase, if_neg (show ¬ p = 0#32 from h0)]
    simp only [(aligned_iff _ _).2 h4, Bool.not_true, Bool.false_eq_true, if_false]
    rw [microRead_of hd (by omega)]
    simp only [Res.bind_ok, if_neg hm]
    rw [microRead_of hd (by rw [h8]; omega), h8]
    simp only [Res.bind_ok]
    rw [show n + 1 + k = n + k + 1 by omega]
    exact ih k

/-- A VRT search where memory holds no entry. -/
theorem vrtSearch_none {s : State} (hd : s.calm) {seg : Half} {va : Word}
    (h : s.vrt seg va none) : vrtSearch seg va s = .ok none s := by
  obtain ⟨n, hn, hc⟩ := h.chain
  have := vrtChase_of hd hc (2 ^ 25 - n - 1)
  rw [show n + (2 ^ 25 - n - 1) + 1 = 2 ^ 25 by omega] at this
  simp only [vrtSearch, (aligned_iff _ _).2 h.base, Bool.not_true, Bool.false_eq_true, if_false]
  rw [microRead_of hd h.fits]
  simp only [Res.bind_ok, hd.1, List.length_nil, Nat.add_zero, chainBound, matchWord]
  rw [this]
  rfl

/-- An entry's address, as a chain that stands in memory gives it. -/
theorem VrtChain.fits {m : Memory} {key : Word} {n : Nat} {p : Word} {r : Option Word}
    (h : VrtChain m key n p r) : ∀ q, r = some q → q.toNat + 12 ≤ Config.memSize := by
  induction h with
  | ended => simp
  | found p hp hm => intro q hq; cases hq; exact hp.2.2
  | link p r n hp hm hn ih => exact ih

theorem vrt_fits {s : State} {seg : Half} {va q : Word} (h : s.vrt seg va (some q)) :
    (q + 8).toNat = q.toNat + 8 ∧ q.toNat + 12 ≤ Config.memSize := by
  obtain ⟨n, _, hc⟩ := h.chain
  have := hc.fits q rfl
  exact ⟨toNat_add_of_fits (n := 4) (by simpa using this), this⟩

/-- A VRT search that finds a legal entry: its Referenced bit is set in memory. -/
theorem vrtSearch_some {s : State} (hd : s.calm) {seg : Half} {va q : Word}
    (h : s.vrt seg va (some q)) (hv : tmtV (s.mem.readWord (q.toNat + 8)) = true)
    (hu : tmtU (s.mem.readWord (q.toNat + 8)) = false) :
    vrtSearch seg va s =
      .ok (some (q, s.mem.readWord (q.toNat + 8) ||| 0x10#32))
        (s.storeReal (q.toNat + 8) (wordBytes (s.mem.readWord (q.toNat + 8) ||| 0x10#32))) := by
  obtain ⟨n, hn, hc⟩ := h.chain
  obtain ⟨h8, hf⟩ := vrt_fits h
  have := vrtChase_of hd hc (2 ^ 25 - n - 1)
  rw [show n + (2 ^ 25 - n - 1) + 1 = 2 ^ 25 by omega] at this
  simp only [vrtSearch, (aligned_iff _ _).2 h.base, Bool.not_true, Bool.false_eq_true, if_false]
  rw [microRead_of hd h.fits]
  simp only [Res.bind_ok, hd.1, List.length_nil, Nat.add_zero, chainBound, matchWord]
  rw [this]
  simp only [Res.bind_ok, Option.map_some, hv, hu, Bool.not_false, Bool.and_true, if_true]
  rw [microWrite_of hd.1 (by rw [h8]; omega), h8]
  rfl

/-- A second store to the same word of memory replaces the first. -/
theorem storeReal_storeReal_mem {s : State} (h : s.mem.wf) (a : Nat) (v w : Word) (c : Nat) :
    ((s.storeReal a (wordBytes v)).storeReal a (wordBytes w)).mem.read c =
      (s.storeReal a (wordBytes w)).mem.read c := by
  simp only [State.storeReal, Memory.read_writeBytes (Memory.wf_writeBytes h _ _),
    Memory.read_writeBytes h, wordBytes, List.length_cons, List.length_nil]
  split <;> rfl

/-- A search for DIRT or for a store that finds a legal entry: both bits are set in memory. -/
theorem vrtSearchDirty_some {s : State} (hd : s.calm) {seg : Half} {va q : Word}
    (h : s.vrt seg va (some q)) (hv : tmtV (s.mem.readWord (q.toNat + 8)) = true)
    (hu : tmtU (s.mem.readWord (q.toNat + 8)) = false) :
    vrtSearchDirty seg va s =
      .ok (some (q, s.mem.readWord (q.toNat + 8) ||| 0x11#32))
        ((s.storeReal (q.toNat + 8) (wordBytes (s.mem.readWord (q.toNat + 8) ||| 0x10#32))).storeReal
          (q.toNat + 8) (wordBytes (s.mem.readWord (q.toNat + 8) ||| 0x11#32))) := by
  obtain ⟨h8, hf⟩ := vrt_fits h
  simp only [vrtSearchDirty, vrtSearch_some hd h hv hu, Res.bind_ok]
  rw [microWrite_of (by exact hd.1) (by rw [h8]; omega), h8, ← setReferenced_eq,
    setDirty_setReferenced]
  rfl

/-! ### What translation can change -/

theorem vrtChase_within (key : Word) (n : Nat) (p : Word) (s : State) :
    (vrtChase key n p s).within s := by
  induction n generalizing p s with
  | zero => trivial
  | succ n ih =>
    unfold vrtChase
    split
    · exact .refl s
    · split
      · trivial
      · refine Res.within_bind (microRead_within _ s) fun m t _ _ => ?_
        split
        · exact Res.within_bind (microRead_within _ t) fun _ u _ _ => .refl u
        · exact Res.within_bind (microRead_within _ t) fun _ u _ _ => ih _ u

theorem vrtSearch_within (seg : Half) (va : Word) (s : State) : (vrtSearch seg va s).within s := by
  unfold vrtSearch
  split
  · trivial
  · refine Res.within_bind (microRead_within _ s) fun p t _ _ =>
      Res.within_bind (vrtChase_within _ _ _ t) fun r u _ _ => ?_
    split
    · exact .refl u
    · split
      · exact Res.within_bind (microWrite_within _ _ u) fun _ x _ _ => .refl x
      · trivial

/-- The state a bound result leaves. -/
theorem Res.bind_eq_ok {α β : Type} {r : Res α} {f : α → State → Res β} {b : β} {t : State}
    (h : r.bind f = .ok b t) : ∃ a u, r = .ok a u ∧ f a u = .ok b t := by
  cases r with
  | ok a u => exact ⟨a, u, rfl, h⟩
  | trap => cases h
  | fault => cases h
  | refused => cases h

/-- An entry that a VRT search returns is legal. -/
theorem vrtSearch_legal {seg : Half} {va q w : Word} {s t : State}
    (h : vrtSearch seg va s = .ok (some (q, w)) t) : tmtV w = true ∧ tmtU w = false := by
  unfold vrtSearch at h
  split at h
  · cases h
  · obtain ⟨p, u, _, h⟩ := Res.bind_eq_ok h
    obtain ⟨r, x, _, h⟩ := Res.bind_eq_ok h
    split at h
    · cases h
    · split at h
      · next hw =>
        obtain ⟨_, y, _, h⟩ := Res.bind_eq_ok h
        cases h
        simpa using hw
      · cases h

theorem vrtSearchDirty_within (seg : Half) (va : Word) (s : State) :
    (vrtSearchDirty seg va s).within s := by
  refine Res.within_bind (vrtSearch_within _ _ s) fun r t _ _ => ?_
  split
  · exact .refl t
  · exact Res.within_bind (microWrite_within _ _ t) fun _ x _ _ => .refl x

theorem vrtSearchDirty_legal {seg : Half} {va q w : Word} {s t : State}
    (h : vrtSearchDirty seg va s = .ok (some (q, w)) t) : tmtV w = true ∧ tmtU w = false := by
  unfold vrtSearchDirty at h
  obtain ⟨r, u, hr, h⟩ := Res.bind_eq_ok h
  split at h
  · cases h
  · obtain ⟨_, y, _, h⟩ := Res.bind_eq_ok h
    cases h
    simpa using vrtSearch_legal hr

theorem tmtEntry_within (sp : Space) (va : Word) (s : State) : (tmtEntry sp va s).within s := by
  unfold tmtEntry
  split
  · exact .refl s
  · refine Res.within_bind (vrtSearch_within _ _ s) fun r t hr _ => ?_
    split
    · exact .refl t
    · obtain ⟨hv, hu⟩ := vrtSearch_legal hr
      exact setTmt_within sp (tmtIndex_lt va) hv hu

theorem markDirty_within (sp : Space) (va : Word) (s : State) : (markDirty sp va s).within s := by
  refine Res.within_bind (vrtSearchDirty_within _ _ s) fun r t hr _ => ?_
  split
  · exact .refl t
  · obtain ⟨hv, hu⟩ := vrtSearchDirty_legal hr
    exact setTmt_within sp (tmtIndex_lt va) hv hu

theorem translate_within (sp : Space) (va : Word) (acc : Access) (s : State) :
    (translate sp va acc s).within s := by
  unfold translate
  split
  · exact .refl s
  · refine Res.within_bind (tmtEntry_within sp va s) fun e t _ _ => ?_
    split
    · exact .refl t
    · split
      · exact Res.within_bind (markDirty_within sp va t) fun _ u _ _ => .refl u
      · exact .refl t

theorem accessAddress_within (sp : Space) (ea : Word) (n : Nat) (acc : Access) (s : State) :
    (accessAddress sp ea n acc s).within s := by
  unfold accessAddress
  split
  · refine Res.within_bind (translate_within sp ea acc s) fun pa t _ _ => ?_
    split
    · exact .refl t
    · trivial
  · exact segmentDrawn_within s

theorem virtualWrite_within (sp : Space) (ea : Word) (bs : List Byte) (s : State) :
    (virtualWrite sp ea bs s).within s :=
  Res.within_bind (accessAddress_within _ _ _ _ s) fun _ t _ _ => memoryWrite_within _ _ t

theorem virtualRead_within (sp : Space) (ea : Word) (n : Nat) (s : State) :
    (virtualRead sp ea n s).within s :=
  Res.within_bind (accessAddress_within _ _ _ _ s) fun _ t _ _ =>
    Res.within_bind (memoryRead_within _ _ _ _ t) fun _ u _ _ => by
      split
      · exact drawn_within u
      · exact .refl u

theorem fetchHalf_within (draw : Nat) (va : Word) (s : State) :
    (fetchHalf draw va s).within s := by
  refine Res.within_bind (translate_within _ _ _ s) fun pa t _ _ => ?_
  split
  · exact busRead_within _ _ _ _ _ t
  · trivial

theorem fetchRest_within (draw n : Nat) (va : Word) (s : State) :
    (fetchRest draw n va s).within s := by
  induction n generalizing va s with
  | zero => exact .refl s
  | succ n ih =>
    refine Res.within_bind (fetchHalf_within _ _ s) fun b t _ _ => ?_
    split
    · exact .refl t
    · exact Res.within_bind (ih _ t) fun _ u _ _ => .refl u

theorem fetch_within (s : State) : (fetch s).within s := by
  unfold fetch
  split
  · trivial
  · refine Res.within_of (stamped_within s .code) <|
      Res.within_bind (fetchHalf_within _ _ _) fun r t _ _ => ?_
    split
    · exact .refl t
    · exact Res.within_bind (fetchRest_within _ _ _ t) fun _ u _ _ => .refl u

/-! ### Accesses that meet nothing -/

/-- The real address of an access that is mapped at once. -/
theorem accessAddress_of {s : State} {sp : Space} {ea pa : Word} {n : Nat} {acc : Access}
    (hn : ea.toNat % n = 0) (h : s.mapsTo sp ea acc pa) (hf : pa.toNat + n ≤ Config.memSize) :
    accessAddress sp ea n acc s = .ok pa s := by
  have ht : translate sp ea acc s = .ok pa s := by
    unfold State.mapsTo at h
    unfold translate
    cases hm : s.mode <;> simp only [hm] at h ⊢
    · rw [h]
    · obtain ⟨e, he, rfl, hw⟩ := h
      simp only [tmtEntry, he, Res.bind_ok]
      by_cases ha : acc = .write
      · obtain ⟨h1, h2⟩ := hw ha
        simp [h1, h2]
      · simp [ha]
  simp only [accessAddress, (aligned_iff _ _).2 hn, if_true, ht, Res.bind_ok,
    (realExists_iff _ _).2 hf]

/-- A read of an address that is mapped at once. -/
theorem virtualRead_of {s : State} (hs : s.settled) {sp : Space} {ea pa : Word} {n : Nat}
    (hn : ea.toNat % n = 0) (h : s.mapsTo sp ea .read pa) (hf : pa.toNat + n ≤ Config.memSize) :
    virtualRead sp ea n s =
      .ok (bytesValue ((List.range n).map fun k => s.mem.read (pa.toNat + k))) s := by
  simp only [virtualRead, accessAddress_of hn h hf, Res.bind_ok, memoryRead_of hs]
  rfl

end Sys2Proof.Machine
end

