-- ==== Sys2Proof/Laws/Operations.lean ====
section
/-! SUPPORT. What each shared operation of the meanings does: bits, results and traps, branches,
privilege, loads and stores, register ranges, boards, interrupts. -/

namespace Sys2Proof.Machine

/-! ### Bits -/

theorem mbit_eq_getMsbD {n : Nat} (v : BitVec n) {i : Nat} (h : i < n) : mbit v i = v.getMsbD i := by
  simp [mbit, BitVec.getMsbD, h]

theorem getMsbD_setMbit {n : Nat} (v : BitVec n) (i j : Nat) (b : Bool) (_hi : i < n) (hj : j < n) :
    (setMbit v i b).getMsbD j = if j = i then b else v.getMsbD j := by
  have hc : (n - 1 - i = n - 1 - j) ↔ j = i := by omega
  cases b <;>
    simp only [setMbit, if_true, Bool.false_eq_true, if_false, BitVec.getMsbD, BitVec.getLsbD_or,
      BitVec.getLsbD_and, BitVec.getLsbD_not, BitVec.getLsbD_twoPow, hj, decide_true,
      Bool.true_and] <;>
    by_cases h : j = i <;> simp [h, hc] <;> omega

theorem nibWord_toInt (n : Nib) : (nibWord n).toInt = (n.toNat : Int) := by
  revert n; decide

theorem srcValue_toInt (b : Src) (s : State) :
    (srcValue b s).toInt =
      match b with
      | .reg y => (s.reg y).toInt
      | .imm n => (n.toNat : Int) := by
  cases b with
  | reg y => rfl
  | imm n => exact nibWord_toInt n

/-! ### Integer results -/

theorem overflows_iff (v : Int) : overflows v = true ↔ v < -(2 ^ 31) ∨ 2 ^ 31 ≤ v := by
  simp [overflows]; omega

theorem wrap_add (a b : Word) : wrap (a.toInt + b.toInt) = a + b := by
  simp [wrap, BitVec.ofInt_add]

theorem wrap_sub (a b : Word) : wrap (a.toInt - b.toInt) = a - b := by
  apply BitVec.eq_of_toInt_eq; simp [wrap, BitVec.toInt_sub]

theorem wrap_mul (a b : Word) : wrap (a.toInt * b.toInt) = a * b := by
  simp [wrap, BitVec.ofInt_mul]

theorem wrap_neg (a : Word) : wrap (-a.toInt) = -a := by
  apply BitVec.eq_of_toInt_eq; simp [wrap, BitVec.toInt_neg]

theorem saddOverflow_eq (a b : Word) :
    BitVec.saddOverflow a b = overflows (a.toInt + b.toInt) := by
  rw [Bool.eq_iff_iff, overflows_iff]; simp [BitVec.saddOverflow]; omega

theorem ssubOverflow_eq (a b : Word) :
    BitVec.ssubOverflow a b = overflows (a.toInt - b.toInt) := by
  rw [Bool.eq_iff_iff, overflows_iff]; simp [BitVec.ssubOverflow]; omega

theorem smulOverflow_eq (a b : Word) :
    BitVec.smulOverflow a b = overflows (a.toInt * b.toInt) := by
  rw [Bool.eq_iff_iff, overflows_iff]; simp [BitVec.smulOverflow]; omega

/-- A result that fits, or whose trap is off, is delivered and the instruction goes on. -/
theorem deliver_goes_on {op : Byte} {x y : Nib} {v : Int} {s : State}
    (h : s.tw.getMsbD 16 = true → overflows v = false) :
    deliver op x y v s = .next ((s.setReg x (wrap v)).advance 2) := by
  unfold deliver arithCondition result
  by_cases ho : overflows v = true
  · have : s.tw.getMsbD 16 = false := by
      by_contra hh
      simp only [Bool.not_eq_false] at hh
      simp [h hh] at ho
    simp [ho, mbit_eq_getMsbD, this]
  · simp [ho]

/-- A result that does not fit is delivered before the trap. -/
theorem deliver_traps {op : Byte} {x y : Nib} {v : Int} {s : State}
    (h : s.tw.getMsbD 16 = true) (ho : overflows v = true) :
    deliver op x y v s = raiseArith op x y 16 (s.setReg x (wrap v)) := by
  unfold deliver arithCondition
  simp [ho, mbit_eq_getMsbD, h]

/-! ### Transfers of control -/

theorem advance_dispLength (d : Disp) (s : State) :
    s.advance (dispLength d) = s.setPc (branchEnd d s.pc False) := by
  cases d <;> simp [State.advance, dispLength, branchEnd]

theorem branchTarget_eq (d : Disp) (s : State) : branchTarget d s = branchEnd d s.pc True := by
  cases d <;> simp [branchTarget, dispValue, branchEnd]

/-- A branch on a condition. -/
theorem branchIf_eq (b : Bool) (p : Prop) [Decidable p] (h : b = true ↔ p) (d : Disp) (s : State) :
    branchIf b d s = .next (s.setPc (branchEnd d s.pc p)) := by
  unfold branchIf
  by_cases hp : p
  · simp only [h.2 hp, if_true, branchTarget_eq]
    cases d <;> simp [branchEnd, hp]
  · have : b = false := by simpa using mt h.1 hp
    simp only [this, Bool.false_eq_true, if_false, advance_dispLength]
    cases d <;> simp [branchEnd, hp]

theorem jump_even {a : Word} (h : a.toNat % 2 = 0) (s : State) : jump a s = .next (s.setPc a) := by
  simp [jump, (oddAddress_eq_false a).2 h]

theorem jump_odd {a : Word} (h : a.toNat % 2 = 1) (s : State) : jump a s = .refused .oddPc := by
  simp [jump, (oddAddress_iff a).2 h]

/-! ### Privilege -/

theorem guarded_kernel {s : State} (h : s.mode = .kernel) (c : Privilege) (op : Byte) (x y : Nib)
    (b : Out) : guarded c op x y s b = b := by
  simp [guarded, allowed, h]

/-- The second class runs wherever it may. -/
theorem guarded_privileged {s : State} (h : s.privileged) (op : Byte) (x y : Nib) (b : Out) :
    guarded .kernelOrPP op x y s b = b := by
  unfold guarded allowed
  cases hm : s.mode
  · rfl
  · have : mbit (s.sr 10) 31 = true := by rw [mbit_eq_getMsbD _ (by decide)]; exact h hm
    simp only []
    rw [this]
    rfl

theorem guarded_user {s : State} (h : s.mode = .user) (op : Byte) (x y : Nib) (b : Out) :
    guarded .kernelOnly op x y s b = raiseKernelViolation op x y s := by
  simp [guarded, allowed, h]

theorem guarded_unprivileged {s : State} (h : s.mode = .user)
    (hp : (s.sr 10).getMsbD 31 = false) (op : Byte) (x y : Nib) (b : Out) :
    guarded .kernelOrPP op x y s b = raiseKernelViolation op x y s := by
  have : mbit (s.sr 10) 31 = false := by rw [mbit_eq_getMsbD _ (by decide)]; exact hp
  simp only [guarded, allowed, h]
  rw [this]
  rfl

/-! ### Loads and stores -/

theorem bytesValue_one (a : Byte) : loWord (bytesValue [a]) = a.setWidth 32 := by
  apply BitVec.eq_of_getLsbD_eq
  intro i hi
  simp only [loWord, bytesValue, List.foldl, BitVec.getLsbD_extractLsb', BitVec.getLsbD_or,
    BitVec.getLsbD_shiftLeft, BitVec.getLsbD_setWidth]
  interval_cases i <;> simp

theorem bytesValue_two (a b : Byte) : loWord (bytesValue [a, b]) = (a ++ b).setWidth 32 := by
  apply BitVec.eq_of_getLsbD_eq
  intro i hi
  simp only [loWord, bytesValue, List.foldl, BitVec.getLsbD_extractLsb', BitVec.getLsbD_or,
    BitVec.getLsbD_shiftLeft, BitVec.getLsbD_setWidth, BitVec.getLsbD_append]
  interval_cases i <;> simp

theorem bytesValue_four (a b c d : Byte) :
    loWord (bytesValue [a, b, c, d]) = a ++ b ++ c ++ d := by
  apply BitVec.eq_of_getLsbD_eq
  intro i hi
  simp only [loWord, bytesValue, List.foldl, BitVec.getLsbD_extractLsb', BitVec.getLsbD_or,
    BitVec.getLsbD_shiftLeft, BitVec.getLsbD_setWidth, BitVec.getLsbD_append]
  interval_cases i <;> simp

theorem bytesValue_eight (a b c d e f g h : Byte) :
    bytesValue [a, b, c, d, e, f, g, h] = a ++ b ++ c ++ d ++ e ++ f ++ g ++ h := by
  apply BitVec.eq_of_getLsbD_eq
  intro i hi
  simp only [bytesValue, List.foldl, BitVec.getLsbD_or,
    BitVec.getLsbD_shiftLeft, BitVec.getLsbD_setWidth, BitVec.getLsbD_append]
  interval_cases i <;> simp

/-- A load that meets nothing. -/
theorem loadOp_of {s : State} (hs : s.settled) {sp : Space} {m : MemRef} {pa : Word} {n : Nat}
    (put : DWord → State → State) (hn : (effectiveAddress sp m s).toNat % n = 0)
    (h : s.mapsTo sp (effectiveAddress sp m s) .read pa) (hf : pa.toNat + n ≤ Config.memSize) :
    loadOp sp n put m s =
      .next ((put (bytesValue ((List.range n).map fun k => s.mem.read (pa.toNat + k))) s).advance
        (dispLength m.disp)) := by
  simp [loadOp, virtualRead_of hs hn h hf]

/-! ### Register ranges -/

theorem pcbReg_toNat (i : Nib) : (pcbReg i).toNat = 4 * i.toNat := by
  revert i; decide

theorem mem_regRange (x y i : Nib) :
    i ∈ regRange x y ↔ i = x ∨ x.toNat ≤ i.toNat ∧ i.toNat ≤ y.toNat := by
  revert i x y; decide

theorem toNat_add_pcbReg {p : Word} (hp : p.toNat + 0x44 ≤ Config.memSize) (i : Nib) :
    (p + pcbReg i).toNat = p.toNat + 4 * i.toNat := by
  rw [toNat_add_of_fits (n := 4) (by rw [pcbReg_toNat]; have := i.isLt; omega), pcbReg_toNat]

/-- Registers loaded from a PCB. -/
theorem loadRegs_of {p : Word} (hp : p.toNat + 0x44 ≤ Config.memSize) (is : List Nib) (s : State)
    (hd : s.calm) :
    ∃ t, loadRegs p is s = .ok () t ∧
      (∀ i, t.reg i =
        if i ∈ is then s.mem.readWord (p.toNat + 4 * i.toNat) else s.reg i) ∧
      { t with regs := s.regs } = s := by
  induction is generalizing s with
  | nil => exact ⟨s, rfl, by simp, rfl⟩
  | cons i is ih =>
    have ha := toNat_add_pcbReg hp i
    simp only [loadRegs]
    rw [microRead_of hd (by rw [ha]; have := i.isLt; omega), ha]
    simp only [Res.bind_ok]
    obtain ⟨t, h1, h2, h3⟩ := ih (s.setReg i (s.mem.readWord (p.toNat + 4 * i.toNat))) hd
    refine ⟨t, h1, ?_, ?_⟩
    · intro j
      rw [h2 j, State.reg_setReg]
      by_cases hj : j ∈ is <;> by_cases hji : j = i <;> simp [hj, hji]
    · exact (congrArg (fun u : State => { u with regs := s.regs }) h3 :)

/-- Registers saved in a PCB. -/
theorem saveRegs_of {p : Word} (hp : p.toNat + 0x44 ≤ Config.memSize) (is : List Nib) (s : State)
    (hd : s.dmaTurns = []) (hw : s.mem.wf) :
    ∃ t, saveRegs p is s = .ok () t ∧ t.mem.wf ∧
      (∀ i ∈ is, t.mem.readWord (p.toNat + 4 * i.toNat) = s.reg i) ∧
      (∀ a, (∀ i ∈ is, ¬ (p.toNat + 4 * i.toNat ≤ a ∧ a < p.toNat + 4 * i.toNat + 4)) →
        t.mem.read a = s.mem.read a) ∧
      { t with mem := s.mem, staleCode := s.staleCode, staleData := s.staleData } = s := by
  induction is generalizing s with
  | nil => exact ⟨s, rfl, hw, by simp, by simp, rfl⟩
  | cons i is ih =>
    have ha := toNat_add_pcbReg hp i
    simp only [saveRegs]
    rw [microWrite_of hd (by rw [ha]; have := i.isLt; omega), ha]
    simp only [Res.bind_ok]
    obtain ⟨t, h1, h2, h3, h4, h5⟩ :=
      ih (s.storeReal (p.toNat + 4 * i.toNat) (wordBytes (s.reg i))) hd (Memory.wf_writeBytes hw _ _)
    refine ⟨t, h1, h2, ?_, ?_, ?_⟩
    · intro j hj
      by_cases hji : j ∈ is
      · exact h3 j hji
      · obtain rfl : j = i := by simpa [hji] using hj
        have hsame : ∀ k < 4, t.mem.read (p.toNat + 4 * j.toNat + k) =
            (s.mem.writeBytes (p.toNat + 4 * j.toNat) (wordBytes (s.reg j))).read
              (p.toNat + 4 * j.toNat + k) := by
          intro k hk
          apply h4
          intro i hi hh
          have : i = j := BitVec.eq_of_toNat_eq (by omega)
          exact hji (this ▸ hi)
        rw [← Memory.readWord_writeBytes hw (p.toNat + 4 * j.toNat) (s.reg j)]
        have h0 := hsame 0 (by omega)
        simp only [Nat.add_zero] at h0
        simp only [Memory.readWord, h0, hsame 1 (by omega), hsame 2 (by omega),
          hsame 3 (by omega)]
    · intro a h
      rw [h4 a fun j hj => h j (List.mem_cons_of_mem _ hj)]
      have := h i List.mem_cons_self
      exact Memory.read_writeBytes_outside hw (by simp [wordBytes]; omega)
    · exact (congrArg (fun u : State =>
        { u with mem := s.mem, staleCode := s.staleCode, staleData := s.staleData }) h5 :)

/-! ### Boards -/

/-- The answer of the first board with a device number. -/
theorem boardReply_of {dev : Byte} (pre post : List Board) (b : Board)
    (hp : ∀ c ∈ pre, c.device ≠ dev) (hb : b.device = dev) :
    boardReply dev (pre ++ b :: post) =
      match b.replies with
      | [] => (.silent, pre ++ b :: post)
      | r :: rs => (r, pre ++ { b with replies := rs } :: post) := by
  induction pre with
  | nil => cases h : b.replies <;> simp [boardReply, hb, h]
  | cons c pre ih =>
    have hc := hp c List.mem_cons_self
    have := ih fun d hd => hp d (List.mem_cons_of_mem _ hd)
    simp only [List.cons_append, boardReply, if_neg hc, this]
    cases b.replies <;> rfl

theorem boardReply_absent {dev : Byte} (bs : List Board) (h : ∀ c ∈ bs, c.device ≠ dev) :
    boardReply dev bs = (.silent, bs) := by
  induction bs with
  | nil => rfl
  | cons c bs ih =>
    simp only [boardReply, if_neg (h c List.mem_cons_self),
      ih fun d hd => h d (List.mem_cons_of_mem _ hd)]

/-- The acknowledge of the first requesting board of a line. -/
theorem ackBoards_of {l : Line} (pre post : List Board) (b : Board) (info : BitVec 24)
    (hp : ∀ c ∈ pre, c.line = l → c.request = none) (hl : b.line = l)
    (hr : b.request = some info) :
    ackBoards l (pre ++ b :: post) =
      some (b.device ++ info, pre ++ { b with request := none } :: post) := by
  induction pre with
  | nil => simp [ackBoards, requesting, hl, hr, ioirWord]
  | cons c pre ih =>
    have hc : requesting l c = false := by
      have := hp c List.mem_cons_self
      by_cases h : c.line = l <;> simp_all [requesting]
    simp only [List.cons_append, ackBoards, hc,
      ih fun d hd => hp d (List.mem_cons_of_mem _ hd)]
    rfl

theorem any_requesting_false {l : Line} {bs : List Board}
    (h : ∀ c ∈ bs, c.line = l → c.request = none) : bs.any (requesting l) = false := by
  rw [List.any_eq_false]
  intro c hc
  have := h c hc
  by_cases hl : c.line = l <;> simp_all [requesting]

/-! ### Interrupts -/

theorem timerNegative_within (off : Word) (s : State) : (timerNegative off s).within s := by
  unfold timerNegative
  split
  · exact .refl s
  · exact Res.within_bind (ccbBase_within s) fun c t _ _ =>
      Res.within_bind (microRead_within _ t) fun w u _ _ => .refl u

theorem timerInterrupts_within (s : State) : (timerInterrupts s).within s := by
  unfold timerInterrupts
  split
  · refine Res.within_bind (timerNegative_within _ s) fun c t _ _ => ?_
    split
    · exact .refl t
    · exact Res.within_bind (timerNegative_within _ t) fun c u _ _ => .refl u
  · exact .refl s

theorem pendingInterrupt_within (s : State) : (pendingInterrupt s).within s :=
  Res.within_bind (timerInterrupts_within s) fun ts t _ _ => by
    unfold pick
    split
    · exact .refl t
    · exact .refl t
    · exact drawn_within t

/-- A timer count that can be read. -/
theorem timerNegative_of {s : State} {off : Word} (hd : s.calm)
    (h4 : (s.sr 11).toNat % 4 = 0) (hf : (s.sr 11).toNat + off.toNat + 4 ≤ Config.memSize) :
    timerNegative off s = .ok (s.mem.readWord ((s.sr 11).toNat + off.toNat)).msb s := by
  have hodd : oddAddress (s.sr 11) = false := by rw [oddAddress_eq_false]; omega
  have hadd : (s.sr 11 + off).toNat = (s.sr 11).toNat + off.toNat := toNat_add_of_fits (n := 4) hf
  simp only [timerNegative, ccbBase, hodd, Bool.false_eq_true, if_false, (aligned_iff _ _).2 h4,
    if_true, Res.bind_ok]
  rw [microRead_of hd (by rw [hadd]; exact hf), hadd]
  rfl

/-- In running kernel mode only a parity error, power fail and switch 0 can be taken. -/
theorem pendingInterrupt_kernel {s : State} (hm : s.mode = .kernel) (hp : s.paused = false) :
    pendingInterrupt s =
      .ok (pick ((if s.parityPending.isEmpty then [] else [.parity]) ++
        ((if s.powerFailPending then [.powerFail] else []) ++
          (if s.switch0Pending then [.switch0] else []))) s).1
        (pick ((if s.parityPending.isEmpty then [] else [.parity]) ++
          ((if s.powerFailPending then [.powerFail] else []) ++
            (if s.switch0Pending then [.switch0] else []))) s).2 := by
  simp [pendingInterrupt, timerInterrupts, latchedInterrupts, interruptible, hm, hp]

end Sys2Proof.Machine
end

