-- ==== Sys2Proof/Laws/Agents.lean ====
section
/-! SUPPORT. The other agents: the boards' slots, the deliverable request, what is pending at a
boundary, the boot page. -/

namespace Sys2Proof.Machine

/-! ### Boards keep their slots -/

theorem slots_ackBoards {l : Line} {bs bs' : List Board} {w : Word}
    (h : ackBoards l bs = some (w, bs')) : bs'.map Board.slot = bs.map Board.slot := by
  induction bs generalizing bs' w with
  | nil => cases h
  | cons b bs ih =>
    unfold ackBoards at h
    split at h
    · cases h; rfl
    · split at h
      · next h2 => cases h; simp [ih h2]
      · cases h

theorem slots_boardReply (dev : Byte) (bs : List Board) :
    (boardReply dev bs).2.map Board.slot = bs.map Board.slot := by
  induction bs with
  | nil => rfl
  | cons b bs ih =>
    unfold boardReply
    split
    · split <;> rfl
    · simp [ih]

theorem slots_updateBoard (dev : Byte) (f : Board → Board) (hf : ∀ b, (f b).slot = b.slot)
    (bs : List Board) : (updateBoard dev f bs).map Board.slot = bs.map Board.slot := by
  induction bs with
  | nil => rfl
  | cons b bs ih =>
    unfold updateBoard
    split
    · simp [hf]
    · simp [ih]

/-! ### The deliverable interrupts -/

/-- The choice is one of the interrupts, and nothing but a draw is used. -/
theorem pick_spec (is : List Interrupt) (s : State) :
    ∃ n, (pick is s).2 = { s with draws := n } ∧
      match (pick is s).1 with
      | none => is = []
      | some i => i ∈ is := by
  match is with
  | [] => exact ⟨s.draws, rfl, rfl⟩
  | [i] => exact ⟨s.draws, rfl, List.mem_singleton.2 rfl⟩
  | i :: j :: rest =>
    refine ⟨_, rfl, ?_⟩
    simp only [pick]
    rw [List.getD_eq_getElem?_getD, List.getElem?_eq_getElem (by
      simp only [List.length_cons]; exact Nat.mod_lt _ (by omega))]
    exact List.getElem_mem _

/-- Where a board of a line requests there is a first one. -/
theorem exists_first_requesting (l : Line) (bs : List Board) :
    bs.any (requesting l) = true ↔
      ∃ pre b post info, bs = pre ++ b :: post ∧ b.line = l ∧ b.request = some info ∧ quiet l pre := by
  constructor
  · intro h
    induction bs with
    | nil => cases h
    | cons c bs ih =>
      by_cases hc : requesting l c = true
      · simp only [requesting, Bool.and_eq_true, decide_eq_true_eq, Option.isSome_iff_exists] at hc
        obtain ⟨h1, info, h2⟩ := hc
        exact ⟨[], c, bs, info, rfl, h1, h2, fun b hb => by cases hb⟩
      · rw [List.any_cons, Bool.eq_false_iff.2 hc, Bool.false_or] at h
        obtain ⟨pre, b, post, info, rfl, h1, h2, h3⟩ := ih h
        refine ⟨c :: pre, b, post, info, rfl, h1, h2, fun d hd => ?_⟩
        obtain rfl | hd := List.mem_cons.1 hd
        · intro hl
          simpa [requesting, hl] using hc
        · exact h3 d hd
  · rintro ⟨pre, b, post, info, rfl, h1, h2, h3⟩
    rw [List.any_eq_true]
    exact ⟨b, by simp, by simp [requesting, h1, h2]⟩

theorem quiet_iff (l : Line) (bs : List Board) : quiet l bs ↔ bs.any (requesting l) = false := by
  refine ⟨fun h => any_requesting_false h, fun h b hb hl => ?_⟩
  rw [List.any_eq_false] at h
  simpa [requesting, hl] using h b hb

/-- The acknowledge finds the deliverable board. -/
theorem ackInterrupt_some {s : State} (h : (deliverableLine s).isSome = true) :
    ∃ pre b info post, s.deliverableBoard pre b info post ∧
      ackInterrupt s =
        some (b.device ++ info, { s with boards := pre ++ { b with request := none } :: post }) := by
  have key : ∀ l, s.boards.any (requesting l) = true → deliverableLine s = some l →
      s.mask2 = false → (l = .one → s.mask1 = false ∧ quiet .two s.boards) →
      ∃ pre b info post, s.deliverableBoard pre b info post ∧
      ackInterrupt s =
        some (b.device ++ info, { s with boards := pre ++ { b with request := none } :: post }) := by
    intro l h1 h2 h3 h4
    obtain ⟨pre, b, post, info, hb, hl, hr, hq⟩ := (exists_first_requesting l s.boards).1 h1
    refine ⟨pre, b, info, post, ⟨hb, hr, h3, by rw [hl]; exact hq, by rw [hl]; exact h4⟩, ?_⟩
    simp only [ackInterrupt, h2, hb, ackBoards_of pre post b info hq hl hr]
  unfold deliverableLine at h
  by_cases h2 : s.mask2 = true
  · simp [h2] at h
  · by_cases hb2 : s.boards.any (requesting .two) = true
    · exact key .two hb2 (by simp [deliverableLine, h2, hb2]) (by simpa using h2) fun h => by cases h
    · by_cases h1 : s.mask1 = true
      · simp [h2, hb2, h1] at h
      · by_cases hb1 : s.boards.any (requesting .one) = true
        · exact key .one hb1 (by simp [deliverableLine, h2, hb2, h1, hb1]) (by simpa using h2)
            fun _ => ⟨by simpa using h1, (quiet_iff _ _).2 (by simpa using hb2)⟩
        · simp [h2, hb2, h1, hb1] at h

/-- A line is deliverable where a board is. -/
theorem deliverableLine_iff (s : State) :
    (deliverableLine s).isSome = true ↔ ∃ pre b info post, s.deliverableBoard pre b info post := by
  refine ⟨fun h => let ⟨p, b, i, q, h, _⟩ := ackInterrupt_some h; ⟨p, b, i, q, h⟩, ?_⟩
  rintro ⟨pre, b, info, post, h⟩
  have hb : s.boards.any (requesting b.line) = true :=
    (exists_first_requesting _ _).2 ⟨pre, b, post, info, h.place, rfl, h.request, h.first⟩
  unfold deliverableLine
  rw [h.mask2]
  cases hl : b.line
  · obtain ⟨h1, h2⟩ := h.line1 hl
    rw [hl] at hb
    simp [h1, (quiet_iff _ _).1 h2, hb]
  · rw [hl] at hb
    simp [hb]

theorem interruptible_iff (s : State) : interruptible s = true ↔ s.wakeable := by
  simp [interruptible, State.wakeable]

/-- A timer count of the CCB, if there is one. -/
theorem timerNegative_calm {s : State} {off : Word} (hd : s.calm) (hc : s.countsReadable)
    (ho : off.toNat ≤ 0x444) :
    ∃ b, timerNegative off s = .ok b s ∧ (b = true ↔ s.countNegative off.toNat) := by
  obtain hc | ⟨h4, hf⟩ := hc
  · refine ⟨false, ?_, ?_⟩
    · unfold timerNegative; rw [if_pos ((oddAddress_iff _).2 hc)]
    · exact ⟨fun h => Bool.noConfusion h, fun h => absurd h.1 (by omega)⟩
  · exact ⟨_, timerNegative_of hd h4 (by omega), ⟨fun h => ⟨by omega, h⟩, fun h => h.2⟩⟩

/-- What may be taken at a boundary is what is deliverable. -/
theorem pendingInterrupt_calm {s : State} (hd : s.calm) (hc : s.wakeable → s.countsReadable) :
    ∃ is, (∀ i, i ∈ is ↔ s.deliverable i) ∧
      pendingInterrupt s = .ok (pick is s).1 (pick is s).2 := by
  have ht : ∃ ts, timerInterrupts s = .ok ts s ∧ ∀ i, i ∈ ts ↔
      s.wakeable ∧ (i = .timer1 ∧ s.countNegative 0x440 ∨
        i = .timer2 ∧ ¬ s.countNegative 0x440 ∧ s.countNegative 0x444) := by
    by_cases hw : s.wakeable
    · obtain ⟨b1, h1, n1⟩ := timerNegative_calm (off := 0x440) hd (hc hw) (by decide)
      obtain ⟨b2, h2, n2⟩ := timerNegative_calm (off := 0x444) hd (hc hw) (by decide)
      have e1 : (0x440 : Word).toNat = 0x440 := rfl
      have e2 : (0x444 : Word).toNat = 0x444 := rfl
      rw [e1] at n1
      rw [e2] at n2
      refine ⟨if b1 then [.timer1] else if b2 then [.timer2] else [], ?_, fun i => ?_⟩
      · simp only [timerInterrupts, (interruptible_iff s).2 hw, if_true, timerPending,
          ccbTimer1Count, ccbTimer2Count, h1, h2, Res.bind_ok]
        cases b1 <;> rfl
      · rw [← n1, ← n2]
        cases b1 <;> cases b2 <;> simp [hw]
    · refine ⟨[], ?_, fun i => by simp [hw]⟩
      have : interruptible s = false := by
        rw [← Bool.not_eq_true, interruptible_iff]; exact hw
      simp [timerInterrupts, this]
  obtain ⟨ts, h1, h2⟩ := ht
  refine ⟨latchedInterrupts s ++ ts, fun i => ?_, by simp only [pendingInterrupt, h1, Res.bind_ok]⟩
  rw [List.mem_append, h2]
  simp only [latchedInterrupts, List.mem_append, interruptible_iff, deliverableLine_iff,
    Bool.and_eq_true]
  cases i <;> simp [State.deliverable, interruptible_iff, deliverableLine_iff]

/-! ### The boot page -/

theorem length_bootPage (bs : List Byte) : (bootPage bs).length = 4096 := by
  simp [bootPage, bootPageBytes]

theorem getElem_bootPage (bs : List Byte) (k : Nat) (h : k < (bootPage bs).length) :
    (bootPage bs)[k] = bs.getD k 0 := by
  simp [bootPage, blankByte]

theorem writeBytes_nil_blank (n a : Nat) :
    Memory.writeBytes [] a (List.replicate n blankByte) = [] := by
  induction n generalizing a with
  | zero => rfl
  | succ n ih => simpa [List.replicate_succ, Memory.writeBytes, Memory.write] using ih (a + 1)

/-- Power-on without a boot page and boards leaves what `State.reset` says. -/
theorem powerOn_nil : State.powerOn [] [] = State.reset := by
  have h : bootPage [] = List.replicate 4096 blankByte := by
    simp [bootPage, bootPageBytes]
  unfold State.powerOn
  rw [h, writeBytes_nil_blank]
  rfl

end Sys2Proof.Machine
end

