-- ==== Sys2Proof/Laws/Cache.lean ====
section
/-! SUPPORT. What an access through the cache can get, what a store leaves, and what a read leaves when
a word shows a double-bit error. -/

namespace Sys2Proof.Machine

/-! ### Copies in the cache -/

/-- Addresses of one quadword have the same tag, so the same copies. -/
theorem CacheLine.holds_congr (l : CacheLine) {a b : Nat} (h : a / 16 = b / 16) :
    l.holds a = l.holds b := by
  simp [CacheLine.holds, cacheTag, lineBytes, h]

/-- The address of a line that holds the quadword of an address. -/
theorem CacheLine.address_of {l : CacheLine} {a : Nat} (h : l.holds a = true) :
    l.address = a / 16 * 16 := by
  simp only [CacheLine.holds, beq_iff_eq] at h
  simp only [CacheLine.address, h, cacheTag, lineBytes]

/-- A quadword goes to the line of its addresses. -/
theorem CacheLine.dataLine_of {l : CacheLine} {a : Nat} (h : l.holds a = true) :
    l.dataLine = cacheLine .data a := by
  simp only [CacheLine.dataLine, CacheLine.address_of h, cacheLine, lineBytes,
    Nat.mul_div_cancel _ (show 0 < 16 by norm_num)]

/-- The copy that an access meets is one of those that may remain. -/
theorem cachedCopy_mem {s : State} {draw : Nat} {sp : Space} {a : Nat} {l : CacheLine}
    (h : s.cachedCopy draw sp a = some l) : l ∈ s.stale sp ∧ l.holds a = true := by
  unfold State.cachedCopy at h
  split at h
  · cases h
  · next hf => exact List.mem_filter.1 (hf ▸ List.mem_of_getElem? h)

/-- The bytes of one word come from one copy. -/
theorem cachedCopy_congr (s : State) (draw : Nat) (sp : Space) {a b : Nat} (h : a / 4 = b / 4) :
    s.cachedCopy draw sp a = s.cachedCopy draw sp b := by
  have : (fun l : CacheLine => l.holds a) = fun l => l.holds b :=
    funext fun l => CacheLine.holds_congr l (by omega)
  simp only [State.cachedCopy, this, h]

/-- The bytes that an access to one word gets: main memory's, or those of one copy. -/
theorem cachedBytes_word (s : State) (draw : Nat) (sp : Space) {a n : Nat}
    (h : n = 0 ∨ a / 4 = (a + n - 1) / 4) :
    s.cachedBytes draw sp a n = (List.range n).map fun k =>
      match s.cachedCopy draw sp a with
      | some l => l.byte (a + k)
      | none => s.mem.read (a + k) := by
  refine List.map_congr_left fun k hk => ?_
  have hk := List.mem_range.1 hk
  have e := cachedCopy_congr s draw sp (show (a + k) / 4 = a / 4 by omega)
  cases hc : s.cachedCopy draw sp a <;> simp only [State.cachedByte, e, hc]

theorem cachedBytes_mayRead (s : State) (draw : Nat) (sp : Space) {a n : Nat}
    (h : n = 0 ∨ a / 4 = (a + n - 1) / 4) : s.mayRead sp a (s.cachedBytes draw sp a n) := by
  rw [cachedBytes_word s draw sp h]
  cases hc : s.cachedCopy draw sp a with
  | none => exact .inl fun k hk => by simp
  | some l =>
    obtain ⟨h1, h2⟩ := cachedCopy_mem hc
    exact .inr ⟨l, h1, h2, fun k hk => by simp⟩

/-- The quadword of memory that a read miss loads gives the bytes of memory. -/
theorem Memory.quadword_byte (m : Memory) {a b : Nat} (h : a / 16 = b / 16) :
    (m.quadword a).byte b = m.read b := by
  have : b % 16 < 16 := Nat.mod_lt _ (by norm_num)
  simp only [CacheLine.byte, Memory.quadword, lineBytes]
  rw [List.getD_eq_getElem?_getD, List.getElem?_map, List.getElem?_range this]
  simp only [Option.map_some, Option.getD_some]
  congr 1; omega

theorem Memory.quadword_holds (m : Memory) (a : Nat) : (m.quadword a).holds a = true := by
  simp [CacheLine.holds, Memory.quadword]

/-- The quadword of each byte of a range is among those of the range. -/
theorem Memory.mem_quadwords (m : Memory) {a n b : Nat} (h : a ≤ b) (hb : b < a + n) :
    ∃ l ∈ m.quadwords a n, l.holds b = true ∧ ∀ c, c / 16 = b / 16 → l.byte c = m.read c := by
  refine ⟨m.quadword (a + (b / 16 - a / 16) * 16), ?_, ?_, fun c hc =>
    Memory.quadword_byte m (by omega)⟩
  · simp only [Memory.quadwords, lineBytes, List.mem_map, List.mem_range]
    exact ⟨b / 16 - a / 16, by omega, rfl⟩
  · rw [CacheLine.holds_congr _ (show b / 16 = (a + (b / 16 - a / 16) * 16) / 16 by omega)]
    exact Memory.quadword_holds _ _

theorem CacheLine.write_holds (l : CacheLine) (a b : Nat) (bs : List Byte) :
    (l.write a bs).holds b = l.holds b := rfl

/-- A written line holds the bytes written. -/
theorem CacheLine.write_byte {l : CacheLine} {a c : Nat} {bs : List Byte}
    (h : l.holds c = true) (hc : a ≤ c) (hb : c < a + bs.length) :
    (l.write a bs).byte c = bs[c - a]'(by omega) := by
  have h2 := CacheLine.address_of h
  have : c % 16 < 16 := Nat.mod_lt _ (by norm_num)
  simp only [CacheLine.byte, CacheLine.write, lineBytes, h2]
  rw [List.getD_eq_getElem?_getD, List.getElem?_map, List.getElem?_range this]
  have h3 : c / 16 * 16 + c % 16 = c := by omega
  simp only [Option.map_some, Option.getD_some, h3]
  rw [if_pos ⟨hc, hb⟩, List.getD_eq_getElem?_getD, List.getElem?_eq_getElem (by omega)]
  rfl

/-- A written line holds its other bytes as before. -/
theorem CacheLine.write_byte_outside {l : CacheLine} {a c : Nat} {bs : List Byte}
    (h : l.holds c = true) (hc : c < a ∨ a + bs.length ≤ c) : (l.write a bs).byte c = l.byte c := by
  have h2 := CacheLine.address_of h
  have : c % 16 < 16 := Nat.mod_lt _ (by norm_num)
  simp only [CacheLine.byte, CacheLine.write, lineBytes, h2]
  rw [List.getD_eq_getElem?_getD, List.getElem?_map, List.getElem?_range this]
  have h3 : c / 16 * 16 + c % 16 = c := by omega
  simp only [Option.map_some, Option.getD_some, h3]
  rw [if_neg (by omega)]

/-- Every quadword that a write leaves behind is memory's. -/
theorem Memory.quadwords_byte {m : Memory} {a n c : Nat} {l : CacheLine}
    (h : l ∈ m.quadwords a n) (hc : l.holds c = true) : l.byte c = m.read c := by
  simp only [Memory.quadwords, List.mem_map, List.mem_range] at h
  obtain ⟨k, _, rfl⟩ := h
  refine Memory.quadword_byte m ?_
  simpa only [CacheLine.holds, Memory.quadword, cacheTag, lineBytes, beq_iff_eq] using hc

theorem mayRead_one {s : State} {sp : Space} {c : Nat} {b : Byte} :
    s.mayRead sp c [b] ↔
      b = s.mem.read c ∨ ∃ l ∈ s.stale sp, l.holds c = true ∧ b = l.byte c := by
  constructor
  · rintro (h | ⟨l, h1, h2, h3⟩)
    · exact .inl (by simpa using h 0 (by simp))
    · exact .inr ⟨l, h1, h2, by simpa using h3 0 (by simp)⟩
  · rintro (h | ⟨l, h1, h2, h3⟩)
    · exact .inl fun k hk => by
        obtain rfl : k = 0 := by simpa using hk
        simpa using h
    · exact .inr ⟨l, h1, h2, fun k hk => by
        obtain rfl : k = 0 := by simpa using hk
        simpa using h3⟩

/-- Bytes that the processor writes to real memory. -/
theorem storeReal_stores {s : State} (hw : s.mem.wf) (a : Nat) (bs : List Byte) :
    s.stores a bs (s.storeReal a bs) where
  bytes k h := by
    simp only [State.storeReal]
    rw [Memory.read_writeBytes hw, dif_pos (by omega)]
    congr 1; omega
  others c hc := Memory.read_writeBytes_outside hw hc
  data k h b hb := by
    rcases mayRead_one.1 hb with rfl | ⟨l, hl, hh, rfl⟩
    · simp only [State.storeReal]
      rw [Memory.read_writeBytes hw, dif_pos (by omega)]
      congr 1; omega
    · obtain ⟨l0, _, rfl⟩ := List.mem_map.1 hl
      have hh0 : l0.holds (a + k) = true := hh
      rw [CacheLine.write_byte hh0 (by omega) (by omega)]
      congr 1; omega
  dataOthers c b hc hb := by
    rcases mayRead_one.1 hb with rfl | ⟨l, hl, hh, rfl⟩
    · exact mayRead_one.2 (.inl (Memory.read_writeBytes_outside hw hc))
    · obtain ⟨l0, hl0, rfl⟩ := List.mem_map.1 hl
      have hh0 : l0.holds c = true := hh
      exact mayRead_one.2 (.inr ⟨l0, hl0, hh0, CacheLine.write_byte_outside hh0 hc⟩)
  code c b hb := by
    rcases mayRead_one.1 hb with rfl | ⟨l, hl, hh, rfl⟩
    · exact .inl rfl
    · rcases List.mem_append.1 hl with hl | hl
      · exact .inr (mayRead_one.2 (.inl (Memory.quadwords_byte hl hh)))
      · exact .inr (mayRead_one.2 (.inr ⟨l, hl, hh, rfl⟩))
  older c cs hc hb := by
    rcases hb with hb | ⟨l, hl, hh, hk⟩
    · by_cases hm : ∃ b, a ≤ b ∧ b < a + bs.length ∧ b / 16 = c / 16
      · obtain ⟨b, h1, h2, h3⟩ := hm
        obtain ⟨l, hl, hh, hq⟩ := s.mem.mem_quadwords h1 h2
        refine .inr ⟨l, List.mem_append_left _ hl, by rwa [CacheLine.holds_congr l h3.symm],
          fun k hk => ?_⟩
        rw [hq _ (by omega)]
        exact hb k hk
      · refine .inl fun k hk => (hb k hk).trans (Memory.read_writeBytes_outside hw ?_).symm
        by_contra hn
        exact hm ⟨c + k, by omega, by omega, by omega⟩
    · exact .inr ⟨l, List.mem_append_right _ hl, hh, hk⟩
  frame := rfl

/-- Two stores, one after the other, at consecutive addresses. -/
theorem State.stores.append {s t u : State} {a : Nat} {bs cs : List Byte} (h : s.stores a bs t)
    (k : t.stores (a + bs.length) cs u) : s.stores a (bs ++ cs) u where
  bytes i hi := by
    rw [List.length_append] at hi
    by_cases hb : i < bs.length
    · rw [List.getElem_append_left hb, k.others _ (by omega), h.bytes i hb]
    · rw [List.getElem_append_right (by omega), ← k.bytes _ (by omega)]
      congr 1; omega
  others c hc := by
    rw [List.length_append] at hc
    rw [k.others c (by omega), h.others c (by omega)]
  data i hi b hb := by
    rw [List.length_append] at hi
    by_cases hl : i < bs.length
    · rw [List.getElem_append_left hl]
      exact h.data i hl b (k.dataOthers _ b (by omega) hb)
    · rw [List.getElem_append_right (by omega)]
      refine k.data _ (by omega) b ?_
      rwa [show a + bs.length + (i - bs.length) = a + i by omega]
  dataOthers c b hc hb := by
    rw [List.length_append] at hc
    exact h.dataOthers c b (by omega) (k.dataOthers c b (by omega) hb)
  code c b hb := by
    rcases k.code c b hb with hb | hb
    · exact .inl hb
    · rcases h.code c b hb with hb | hb
      · by_cases hc : a ≤ c ∧ c < a + bs.length
        · exact .inl (hb.trans (k.others c (by omega)).symm)
        · exact .inr (mayRead_one.2 (.inl (hb.trans (h.others c (by omega)))))
      · exact .inr hb
  older c ds hc hb := k.older c ds hc (h.older c ds hc hb)
  frame := by
    have h1 := h.frame
    have h2 := k.frame
    rw [← h1, ← h2]

/-! ### What a read leaves in the data half -/

/-- The quadword that a data read puts in its line: the one it met. -/
theorem lineFilled_quadword_holds (s : State) (draw a : Nat) :
    ((s.cachedCopy draw .data a).getD (s.mem.quadword a)).holds a = true := by
  cases hc : s.cachedCopy draw .data a with
  | none => exact Memory.quadword_holds _ _
  | some l => exact (cachedCopy_mem hc).2

theorem lineFilled_narrows (s : State) (draw : Nat) (sp : Space) (a : Nat) :
    s.narrows sp (s.lineFilled draw sp a).staleData := by
  refine ⟨fun h => by subst h; rfl, fun b bs hb h => ?_⟩
  rcases h with h | ⟨l, hl, hh, hk⟩
  · exact .inl h
  · simp only [State.stale] at hl
    unfold State.lineFilled at hl
    split at hl
    · exact .inr ⟨l, hl, hh, hk⟩
    · split at hl
      · rcases mem_loadLine (wayFilled_lt s draw a) hl with rfl | ⟨hl, _⟩
        · cases hc : s.cachedCopy draw .data a with
          | none =>
            simp only [hc, Option.getD_none] at hh hk
            refine .inl fun k hb' => ?_
            have hq : a / 16 = b / 16 := by
              simpa only [CacheLine.holds, Memory.quadword, cacheTag, lineBytes, beq_iff_eq] using hh
            exact (hk k hb').trans (Memory.quadword_byte s.mem (by omega))
          | some l =>
            simp only [hc, Option.getD_some] at hh hk
            exact .inr ⟨l, (cachedCopy_mem hc).1, hh, hk⟩
        · exact .inr ⟨l, hl, hh, hk⟩
      · exact .inr ⟨l, hl, hh, hk⟩

theorem lineFilled_decides (s : State) (draw : Nat) {a n : Nat}
    (h : n = 0 ∨ a / 4 = (a + n - 1) / 4) :
    s.decides (s.lineFilled draw .data a).staleData a (s.cachedBytes draw .data a n) := by
  rw [cachedBytes_word s draw .data h]
  rintro cs hn (hm | ⟨l, hl, hh, hk⟩)
  · exact .inr hm
  simp only [List.length_map, List.length_range] at hn
  simp only [State.stale, State.lineFilled] at hl
  split at hl
  · rcases mem_loadLine (wayFilled_lt s draw a) hl with rfl | ⟨_, hne⟩
    · cases hc : s.cachedCopy draw .data a with
      | none =>
        simp only [hc, Option.getD_none] at hk
        exact .inr fun k hk' => (hk k hk').trans (Memory.quadword_byte s.mem (by omega))
      | some l =>
        simp only [hc, Option.getD_some] at hk
        exact .inl (List.ext_getElem (by simpa using hn) fun k h1 h2 => by
          simpa [CacheLine.byte] using hk k h1)
    · have := lineFilled_quadword_holds s draw a
      simp only [CacheLine.holds, beq_iff_eq] at this hh
      exact absurd (hh.trans this.symm) hne
  · next hany =>
    exact absurd (List.any_eq_true.2 ⟨l, hl, by simpa using CacheLine.dataLine_of hh⟩) hany

/-- What makes nothing new readable before a store makes nothing new readable after it. -/
theorem State.stores.of_narrows {s t : State} {a n : Nat} {bs : List Byte} {ls : List CacheLine}
    (hn : s.narrows .data ls) (h : ({ s with draws := n, staleData := ls }).stores a bs t) :
    s.stores a bs t where
  bytes := h.bytes
  others := h.others
  data := h.data
  dataOthers c b hc hb := hn.older c [b] (by simp) (h.dataOthers c b hc hb)
  code c b hb := h.code c b hb
  older c cs hc hb := h.older c cs hc hb
  frame := by
    have h1 := h.frame
    rw [State.mk.injEq] at h1 ⊢
    simp_all

/-- One write of up to a word, when no DMA falls before it, whatever copies the cache may hold. -/
theorem busWrite_stores {s : State} (hd : s.dmaTurns = []) (hw : s.mem.wf) (draw a : Nat)
    (bs : List Byte) : ∃ t, busWrite draw a bs s = .ok () t ∧ s.stores a bs t := by
  obtain ⟨ls, hls⟩ := lineFilled_frame s draw .data a
  refine ⟨_, by rw [busWrite, dmaTurn_of hd]; rfl, ?_⟩
  have hn := lineFilled_narrows s draw .data a
  rw [hls] at hn ⊢
  exact State.stores.of_narrows (n := s.draws) hn
    (storeReal_stores (s := { s with staleData := ls }) hw a bs)

theorem State.stores.dmaTurns {s t : State} {a : Nat} {bs : List Byte} (h : s.stores a bs t) :
    t.dmaTurns = s.dmaTurns := (congrArg State.dmaTurns h.frame :)

/-- What one read leaves, the next one may leave. -/
theorem State.narrows.trans {s : State} {sp : Space} {ls ks : List CacheLine}
    (h : s.narrows sp ls) (k : ({ s with staleData := ls }).narrows sp ks) : s.narrows sp ks :=
  ⟨fun hs => (k.code hs).trans (h.code hs), fun a bs hb hm => h.older a bs hb (k.older a bs hb hm)⟩

/-- What a read has decided stays decided. -/
theorem State.decides.narrows {s : State} {sp : Space} {ls ks : List CacheLine} {a : Nat}
    {bs : List Byte} (h : s.decides ls a bs) (hb : a / 16 = (a + bs.length - 1) / 16)
    (k : ({ s with staleData := ls }).narrows sp ks) : s.decides ks a bs :=
  fun cs hn hm => h cs hn (k.older a cs (hn ▸ hb) hm)

/-! ### Reads, with what they may meet but DMA -/

/-- A read within one word meets that word's double-bit error alone. -/
theorem readFails_word {a n : Nat} (h : a / 4 = (a + n - 1) / 4) (s : State) :
    readFails a n s = decide (a / 4 ∈ s.badWords) := by
  rw [Bool.eq_iff_iff]
  simp only [readFails, List.any_eq_true, Bool.and_eq_true, decide_eq_true_eq, ← h]
  exact ⟨fun ⟨w, h1, h2, h3⟩ => by rwa [show a / 4 = w by omega], fun h1 => ⟨_, h1, le_rfl, le_rfl⟩⟩

/-- The report of a double-bit error met by a read within one word. -/
theorem parityChecked_word (p : ParityError) {a n : Nat} (h : a / 4 = (a + n - 1) / 4)
    (s : State) :
    parityChecked p a n s =
      if a / 4 ∈ s.badWords then
        { s with
          badWords := s.badWords.filter (· ≠ a / 4), parityPending := s.parityPending ++ [p] }
      else s := by
  have hr : (reported a n s).badWords = s.badWords.filter (· ≠ a / 4) := by
    simp only [reported, ← h]
    refine List.filter_congr fun w _ => ?_
    rw [Bool.eq_iff_iff]
    simp
  simp only [parityChecked, readFails_word h, decide_eq_true_eq]
  split
  · rw [← hr]; rfl
  · rfl

/-- A read within one word, when no DMA falls before it. -/
theorem busRead_word {s : State} (hd : s.dmaTurns = []) (draw : Nat) (sp : Space) (p : ParityError)
    {a n : Nat} (h : a / 4 = (a + n - 1) / 4) :
    ∃ bs ls, bs.length = n ∧ s.mayRead sp a bs ∧ s.narrows sp ls ∧
      (sp = .data → s.decides ls a bs) ∧
      busRead draw sp p a n s =
        .ok (bs, decide (a / 4 ∈ s.badWords)) (if a / 4 ∈ s.badWords then
          { s with
            staleData := ls
            badWords := s.badWords.filter (· ≠ a / 4), parityPending := s.parityPending ++ [p] }
          else { s with staleData := ls }) := by
  obtain ⟨ls, hls⟩ := lineFilled_frame s draw sp a
  have hf : (s.lineFilled draw sp a).staleData = ls := by rw [hls]
  refine ⟨s.cachedBytes draw sp a n, ls, by simp [State.cachedBytes],
    cachedBytes_mayRead s draw sp (.inr h), hf ▸ lineFilled_narrows s draw sp a, ?_, ?_⟩
  · rintro rfl
    exact hf ▸ lineFilled_decides s draw (.inr h)
  · simp only [busRead, dmaTurn_of hd, Res.bind_ok, readFails_word h, parityChecked_word p h, hls]

/-- Before a read only the counter of free values may change. -/
theorem stamped_draws (s : State) (sp : Space) : ∃ n, s.stamped sp = { s with draws := n } := by
  unfold State.stamped
  split
  · exact ⟨_, rfl⟩
  · exact ⟨_, rfl⟩

/-- A read of a double word that shows no error, when no DMA falls into it. -/
theorem memoryRead_double {s : State} (hd : s.dmaTurns = []) (sp : Space) (ea : Word) {a : Nat}
    (h : a % 8 = 0) (h1 : a / 4 ∉ s.badWords) (h2 : a / 4 + 1 ∉ s.badWords) :
    ∃ bs cs n ls, bs.length = 4 ∧ cs.length = 4 ∧ s.mayRead sp a bs ∧ s.mayRead sp (a + 4) cs ∧
      s.narrows sp ls ∧ (sp = .data → s.decides ls a bs ∧ s.decides ls (a + 4) cs) ∧
      memoryRead sp ea a 8 s =
        .ok (bs ++ cs, false) { s with draws := n, staleData := ls } := by
  obtain ⟨n, hn⟩ := stamped_draws s sp
  obtain ⟨bs, ls, l1, m1, n1, d1, r1⟩ := busRead_word (s := { s with draws := n }) hd s.draws sp
    { fetch := false, addr := ea } (a := a) (n := 4) (by omega)
  obtain ⟨cs, ks, l2, m2, n2, d2, r2⟩ := busRead_word
    (s := { s with draws := n, staleData := ls }) hd s.draws sp
    { fetch := false, addr := ea + 4 } (a := a + 4) (n := 4) (by omega)
  simp only [h1, decide_false, if_false] at r1
  simp only [show (a + 4) / 4 = a / 4 + 1 by omega, h2, decide_false, if_false] at r2
  have n1' : s.narrows sp ls := ⟨n1.code, n1.older⟩
  have n2' : ({ s with staleData := ls }).narrows sp ks := ⟨n2.code, n2.older⟩
  have m2' : s.mayRead sp (a + 4) cs := by
    cases sp with
    | code => exact m2
    | data => exact n1'.older (a + 4) cs (by omega) m2
  refine ⟨bs, cs, n, ks, l1, l2, m1, m2', n1'.trans n2', fun hs => ⟨?_, d2 hs⟩, ?_⟩
  · exact State.decides.narrows (ls := ls) (d1 hs) (by omega) (by subst hs; exact n2')
  · simp only [memoryRead, hn, show ¬ (8 ≤ 4) by decide, if_false]
    rw [r1]
    simp only [Res.bind_ok]
    rw [r2]
    rfl

/-- A write of up to two words, when no DMA falls into it, whatever copies the cache may hold and
whatever words show an error. -/
theorem memoryWrite_stores {s : State} (hd : s.dmaTurns = []) (hw : s.mem.wf) (a : Nat)
    (bs : List Byte) : ∃ t, memoryWrite a bs s = .ok () t ∧ s.stores a bs t := by
  obtain ⟨n, hn⟩ := stamped_draws s .data
  have hs : ∀ {t cs}, (s.stamped .data).stores a cs t → s.stores a cs t := fun {t cs} h =>
    State.stores.of_narrows (n := n) (ls := s.staleData) ⟨by simp, fun _ _ _ h => h⟩
      (by rw [hn] at h; exact h)
  have hd' : (s.stamped .data).dmaTurns = [] := by rw [hn]; exact hd
  have hw' : (s.stamped .data).mem.wf := by rw [hn]; exact hw
  unfold memoryWrite
  split
  · obtain ⟨t, h1, h2⟩ := busWrite_stores hd' hw' s.draws a bs
    exact ⟨t, h1, hs h2⟩
  · obtain ⟨t, h1, h2⟩ := busWrite_stores hd' hw' s.draws a (bs.take 4)
    have ht : t.mem.wf := by
      have := busWrite_within s.draws a (bs.take 4) (s.stamped .data)
      rw [h1] at this
      exact this.mem hw'
    obtain ⟨u, h3, h4⟩ := busWrite_stores (h2.dmaTurns.trans hd') ht s.draws (a + 4) (bs.drop 4)
    refine ⟨u, by rw [h1]; exact h3, ?_⟩
    have h4' : t.stores (a + (bs.take 4).length) (bs.drop 4) u := by
      rwa [List.length_take, min_eq_left (by omega)]
    exact (List.take_append_drop 4 bs) ▸ hs (h2.append h4')

/-! ### Bytes as a number -/

theorem bytesValue_foldl (bs : List Byte) (n : Nat) :
    bs.foldl (fun (v : DWord) (b : Byte) => (v <<< 8) ||| b.setWidth 64) (BitVec.ofNat 64 n) =
      BitVec.ofNat 64 (bs.foldl (fun v b => v * 256 + b.toNat) n) := by
  induction bs generalizing n with
  | nil => rfl
  | cons b bs ih =>
    rw [List.foldl_cons, List.foldl_cons, ← ih]
    congr 1
    rw [← BitVec.add_eq_or_of_and_eq_zero]
    · apply BitVec.eq_of_toNat_eq
      simp [BitVec.toNat_shiftLeft, Nat.shiftLeft_eq]
    · apply BitVec.eq_of_getLsbD_eq
      intro i _
      simp only [BitVec.getLsbD_and, BitVec.getLsbD_shiftLeft, BitVec.getLsbD_setWidth]
      by_cases h8 : i < 8
      · simp [h8]
      · rw [BitVec.getLsbD_of_ge b i (by omega)]; simp

/-- Bytes, most significant first, as a number. -/
theorem bytesValue_eq (bs : List Byte) :
    bytesValue bs = BitVec.ofNat 64 (bs.foldl (fun v b => v * 256 + b.toNat) 0) :=
  bytesValue_foldl bs 0

end Sys2Proof.Machine
end

