-- ==== Sys2Proof/Laws/PerInstr.lean ====
section
/-! SUPPORT. Statements for all instructions, one lemma per constructor. -/

namespace Sys2Proof.Laws

open Sys2Proof Sys2Proof.Machine

theorem regWord_length {op : Byte} (h : instrLength op = 2) (x y : Nib) :
    (regWord op x y).length = instrLength ((regWord op x y).headD 0) := h.symm

theorem memWord_length {short long low : Nib} (hs : instrLength (short ++ low) = 4)
    (hl : instrLength (long ++ low) = 6) (x y : Nib) (d : Disp) :
    (memWord short long low x y d).length =
      instrLength ((memWord short long low x y d).headD 0) := by
  cases d
  · exact hs.symm
  · exact hl.symm

/-- An instruction's encoding is as long as its opcode says (30_encoding.md R131). -/
def EncodedLength.Statement (i : Instr) : Prop :=
  i.wf = true → (encode i).length = instrLength ((encode i).headD 0)

theorem EncodedLength.move (x : Reg) (y : Reg) :
    EncodedLength.Statement (.move x y) :=
  fun _ => regWord_length (by decide) _ _
theorem EncodedLength.neg (x : Reg) (y : Reg) :
    EncodedLength.Statement (.neg x y) :=
  fun _ => regWord_length (by decide) _ _
theorem EncodedLength.add (x : Reg) (y : Reg) :
    EncodedLength.Statement (.add x y) :=
  fun _ => regWord_length (by decide) _ _
theorem EncodedLength.sub (x : Reg) (y : Reg) :
    EncodedLength.Statement (.sub x y) :=
  fun _ => regWord_length (by decide) _ _
theorem EncodedLength.mpy (x : Reg) (y : Reg) :
    EncodedLength.Statement (.mpy x y) :=
  fun _ => regWord_length (by decide) _ _
theorem EncodedLength.div (x : Reg) (y : Reg) :
    EncodedLength.Statement (.div x y) :=
  fun _ => regWord_length (by decide) _ _
theorem EncodedLength.rem (x : Reg) (y : Reg) :
    EncodedLength.Statement (.rem x y) :=
  fun _ => regWord_length (by decide) _ _
theorem EncodedLength.not (x : Reg) (y : Reg) :
    EncodedLength.Statement (.not x y) :=
  fun _ => regWord_length (by decide) _ _
theorem EncodedLength.or (x : Reg) (y : Reg) :
    EncodedLength.Statement (.or x y) :=
  fun _ => regWord_length (by decide) _ _
theorem EncodedLength.xor (x : Reg) (y : Reg) :
    EncodedLength.Statement (.xor x y) :=
  fun _ => regWord_length (by decide) _ _
theorem EncodedLength.and (x : Reg) (y : Reg) :
    EncodedLength.Statement (.and x y) :=
  fun _ => regWord_length (by decide) _ _
theorem EncodedLength.cbit (x : Reg) (y : Reg) :
    EncodedLength.Statement (.cbit x y) :=
  fun _ => regWord_length (by decide) _ _
theorem EncodedLength.sbit (x : Reg) (y : Reg) :
    EncodedLength.Statement (.sbit x y) :=
  fun _ => regWord_length (by decide) _ _
theorem EncodedLength.tbit (x : Reg) (y : Reg) :
    EncodedLength.Statement (.tbit x y) :=
  fun _ => regWord_length (by decide) _ _
theorem EncodedLength.chk (x : Reg) (y : Reg) :
    EncodedLength.Statement (.chk x y) :=
  fun _ => regWord_length (by decide) _ _
theorem EncodedLength.nop (x : Reg) (y : Reg) :
    EncodedLength.Statement (.nop x y) :=
  fun _ => regWord_length (by decide) _ _
theorem EncodedLength.movei (x : Reg) (n : Nib) :
    EncodedLength.Statement (.movei x n) :=
  fun _ => regWord_length (by decide) _ _
theorem EncodedLength.addi (x : Reg) (n : Nib) :
    EncodedLength.Statement (.addi x n) :=
  fun _ => regWord_length (by decide) _ _
theorem EncodedLength.subi (x : Reg) (n : Nib) :
    EncodedLength.Statement (.subi x n) :=
  fun _ => regWord_length (by decide) _ _
theorem EncodedLength.mpyi (x : Reg) (n : Nib) :
    EncodedLength.Statement (.mpyi x n) :=
  fun _ => regWord_length (by decide) _ _
theorem EncodedLength.noti (x : Reg) (n : Nib) :
    EncodedLength.Statement (.noti x n) :=
  fun _ => regWord_length (by decide) _ _
theorem EncodedLength.andi (x : Reg) (n : Nib) :
    EncodedLength.Statement (.andi x n) :=
  fun _ => regWord_length (by decide) _ _
theorem EncodedLength.chki (x : Reg) (n : Nib) :
    EncodedLength.Statement (.chki x n) :=
  fun _ => regWord_length (by decide) _ _
theorem EncodedLength.fixt (x : Reg) (y : Reg) :
    EncodedLength.Statement (.fixt x y) :=
  fun _ => regWord_length (by decide) _ _
theorem EncodedLength.fixr (x : Reg) (y : Reg) :
    EncodedLength.Statement (.fixr x y) :=
  fun _ => regWord_length (by decide) _ _
theorem EncodedLength.rneg (x : Reg) (y : Reg) :
    EncodedLength.Statement (.rneg x y) :=
  fun _ => regWord_length (by decide) _ _
theorem EncodedLength.radd (x : Reg) (y : Reg) :
    EncodedLength.Statement (.radd x y) :=
  fun _ => regWord_length (by decide) _ _
theorem EncodedLength.rsub (x : Reg) (y : Reg) :
    EncodedLength.Statement (.rsub x y) :=
  fun _ => regWord_length (by decide) _ _
theorem EncodedLength.rmpy (x : Reg) (y : Reg) :
    EncodedLength.Statement (.rmpy x y) :=
  fun _ => regWord_length (by decide) _ _
theorem EncodedLength.rdiv (x : Reg) (y : Reg) :
    EncodedLength.Statement (.rdiv x y) :=
  fun _ => regWord_length (by decide) _ _
theorem EncodedLength.makerd (x : Reg) (y : Reg) :
    EncodedLength.Statement (.makerd x y) :=
  fun _ => regWord_length (by decide) _ _
theorem EncodedLength.lcomp (x : Reg) (y : Reg) :
    EncodedLength.Statement (.lcomp x y) :=
  fun _ => regWord_length (by decide) _ _
theorem EncodedLength.float (x : Reg) (y : Reg) :
    EncodedLength.Statement (.float x y) :=
  fun _ => regWord_length (by decide) _ _
theorem EncodedLength.rcomp (x : Reg) (y : Reg) :
    EncodedLength.Statement (.rcomp x y) :=
  fun _ => regWord_length (by decide) _ _
theorem EncodedLength.eadd (x : Reg) (y : Reg) :
    EncodedLength.Statement (.eadd x y) :=
  fun _ => regWord_length (by decide) _ _
theorem EncodedLength.esub (x : Reg) (y : Reg) :
    EncodedLength.Statement (.esub x y) :=
  fun _ => regWord_length (by decide) _ _
theorem EncodedLength.empy (x : Reg) (y : Reg) :
    EncodedLength.Statement (.empy x y) :=
  fun _ => regWord_length (by decide) _ _
theorem EncodedLength.ediv (x : Reg) (y : Reg) :
    EncodedLength.Statement (.ediv x y) :=
  fun _ => regWord_length (by decide) _ _
theorem EncodedLength.dfixt (x : Reg) (y : Reg) :
    EncodedLength.Statement (.dfixt x y) :=
  fun _ => regWord_length (by decide) _ _
theorem EncodedLength.dfixr (x : Reg) (y : Reg) :
    EncodedLength.Statement (.dfixr x y) :=
  fun _ => regWord_length (by decide) _ _
theorem EncodedLength.drneg (x : Reg) (y : Reg) :
    EncodedLength.Statement (.drneg x y) :=
  fun _ => regWord_length (by decide) _ _
theorem EncodedLength.dradd (x : Reg) (y : Reg) :
    EncodedLength.Statement (.dradd x y) :=
  fun _ => regWord_length (by decide) _ _
theorem EncodedLength.drsub (x : Reg) (y : Reg) :
    EncodedLength.Statement (.drsub x y) :=
  fun _ => regWord_length (by decide) _ _
theorem EncodedLength.drmpy (x : Reg) (y : Reg) :
    EncodedLength.Statement (.drmpy x y) :=
  fun _ => regWord_length (by decide) _ _
theorem EncodedLength.drdiv (x : Reg) (y : Reg) :
    EncodedLength.Statement (.drdiv x y) :=
  fun _ => regWord_length (by decide) _ _
theorem EncodedLength.makedr (x : Reg) (y : Reg) :
    EncodedLength.Statement (.makedr x y) :=
  fun _ => regWord_length (by decide) _ _
theorem EncodedLength.dcomp (x : Reg) (y : Reg) :
    EncodedLength.Statement (.dcomp x y) :=
  fun _ => regWord_length (by decide) _ _
theorem EncodedLength.dfloat (x : Reg) (y : Reg) :
    EncodedLength.Statement (.dfloat x y) :=
  fun _ => regWord_length (by decide) _ _
theorem EncodedLength.drcomp (x : Reg) (y : Reg) :
    EncodedLength.Statement (.drcomp x y) :=
  fun _ => regWord_length (by decide) _ _
theorem EncodedLength.trap (x : Reg) (n : Nib) :
    EncodedLength.Statement (.trap x n) :=
  fun _ => regWord_length (by decide) _ _
theorem EncodedLength.sus (x : Reg) (y : Reg) :
    EncodedLength.Statement (.sus x y) :=
  fun _ => regWord_length (by decide) _ _
theorem EncodedLength.lus (x : Reg) (y : Reg) :
    EncodedLength.Statement (.lus x y) :=
  fun _ => regWord_length (by decide) _ _
theorem EncodedLength.rum (x : Reg) (y : Reg) :
    EncodedLength.Statement (.rum x y) :=
  fun _ => regWord_length (by decide) _ _
theorem EncodedLength.ldregs (x : Reg) (y : Reg) :
    EncodedLength.Statement (.ldregs x y) :=
  fun _ => regWord_length (by decide) _ _
theorem EncodedLength.trans (x : Reg) (y : Reg) :
    EncodedLength.Statement (.trans x y) :=
  fun _ => regWord_length (by decide) _ _
theorem EncodedLength.dirt (x : Reg) (y : Reg) :
    EncodedLength.Statement (.dirt x y) :=
  fun _ => regWord_length (by decide) _ _
theorem EncodedLength.movesr (x : SReg) (y : Reg) :
    EncodedLength.Statement (.movesr x y) :=
  fun _ => regWord_length (by decide) _ _
theorem EncodedLength.movers (x : Reg) (y : SReg) :
    EncodedLength.Statement (.movers x y) :=
  fun _ => regWord_length (by decide) _ _
theorem EncodedLength.elogr (x : Reg) :
    EncodedLength.Statement (.elogr x) :=
  fun _ => regWord_length (by decide) _ _
theorem EncodedLength.elogw (x : Reg) :
    EncodedLength.Statement (.elogw x) :=
  fun _ => regWord_length (by decide) _ _
theorem EncodedLength.twrited (x : Reg) :
    EncodedLength.Statement (.twrited x) :=
  fun _ => regWord_length (by decide) _ _
theorem EncodedLength.flush (x : Reg) :
    EncodedLength.Statement (.flush x) :=
  fun _ => regWord_length (by decide) _ _
theorem EncodedLength.trapexit (x : Reg) :
    EncodedLength.Statement (.trapexit x) :=
  fun _ => regWord_length (by decide) _ _
theorem EncodedLength.itest (x : Reg) :
    EncodedLength.Statement (.itest x) :=
  fun _ => regWord_length (by decide) _ _
theorem EncodedLength.machineid (x : Reg) :
    EncodedLength.Statement (.machineid x) :=
  fun _ => regWord_length (by decide) _ _
theorem EncodedLength.version (x : Reg) :
    EncodedLength.Statement (.version x) :=
  fun _ => regWord_length (by decide) _ _
theorem EncodedLength.creg (x : Reg) :
    EncodedLength.Statement (.creg x) :=
  fun _ => regWord_length (by decide) _ _
theorem EncodedLength.rdlog (x : Reg) :
    EncodedLength.Statement (.rdlog x) :=
  fun _ => regWord_length (by decide) _ _
theorem EncodedLength.read (x : Reg) (y : Reg) :
    EncodedLength.Statement (.read x y) :=
  fun _ => regWord_length (by decide) _ _
theorem EncodedLength.write (x : Reg) (y : Reg) :
    EncodedLength.Statement (.write x y) :=
  fun _ => regWord_length (by decide) _ _
theorem EncodedLength.testGt (x : Reg) (b : Src) :
    EncodedLength.Statement (.testGt x b) := by
  cases b <;> exact fun _ => regWord_length (by decide) _ _
theorem EncodedLength.testLt (x : Reg) (b : Src) :
    EncodedLength.Statement (.testLt x b) := by
  cases b <;> exact fun _ => regWord_length (by decide) _ _
theorem EncodedLength.testEq (x : Reg) (b : Src) :
    EncodedLength.Statement (.testEq x b) := by
  cases b <;> exact fun _ => regWord_length (by decide) _ _
theorem EncodedLength.testLe (x : Reg) (b : Src) :
    EncodedLength.Statement (.testLe x b) := by
  cases b <;> exact fun _ => regWord_length (by decide) _ _
theorem EncodedLength.testGe (x : Reg) (b : Src) :
    EncodedLength.Statement (.testGe x b) := by
  cases b <;> exact fun _ => regWord_length (by decide) _ _
theorem EncodedLength.testNe (x : Reg) (b : Src) :
    EncodedLength.Statement (.testNe x b) := by
  cases b <;> exact fun _ => regWord_length (by decide) _ _
theorem EncodedLength.callr (x : Reg) (y : Reg) :
    EncodedLength.Statement (.callr x y) :=
  fun _ => regWord_length (by decide) _ _
theorem EncodedLength.ret (x : Reg) (y : Reg) :
    EncodedLength.Statement (.ret x y) :=
  fun _ => regWord_length (by decide) _ _
theorem EncodedLength.kcall (num : Byte) :
    EncodedLength.Statement (.kcall num) :=
  fun _ => (show instrLength 0x5B = 2 by decide).symm
theorem EncodedLength.lsl (x : Reg) (c : Src) :
    EncodedLength.Statement (.lsl x c) := by
  cases c <;> exact fun _ => regWord_length (by decide) _ _
theorem EncodedLength.lsr (x : Reg) (c : Src) :
    EncodedLength.Statement (.lsr x c) := by
  cases c <;> exact fun _ => regWord_length (by decide) _ _
theorem EncodedLength.asl (x : Reg) (c : Src) :
    EncodedLength.Statement (.asl x c) := by
  cases c <;> exact fun _ => regWord_length (by decide) _ _
theorem EncodedLength.asr (x : Reg) (c : Src) :
    EncodedLength.Statement (.asr x c) := by
  cases c <;> exact fun _ => regWord_length (by decide) _ _
theorem EncodedLength.dlsl (x : Reg) (c : Src) :
    EncodedLength.Statement (.dlsl x c) := by
  cases c <;> exact fun _ => regWord_length (by decide) _ _
theorem EncodedLength.dlsr (x : Reg) (c : Src) :
    EncodedLength.Statement (.dlsr x c) := by
  cases c <;> exact fun _ => regWord_length (by decide) _ _
theorem EncodedLength.csl (x : Reg) (c : Src) :
    EncodedLength.Statement (.csl x c) := by
  cases c <;> exact fun _ => regWord_length (by decide) _ _
theorem EncodedLength.seb (x : Reg) (y : Reg) :
    EncodedLength.Statement (.seb x y) :=
  fun _ => regWord_length (by decide) _ _
theorem EncodedLength.seh (x : Reg) (y : Reg) :
    EncodedLength.Statement (.seh x y) :=
  fun _ => regWord_length (by decide) _ _
theorem EncodedLength.br (x : Reg) (y : Reg) (d : Disp) :
    EncodedLength.Statement (.br x y d) :=
  fun _ => memWord_length (by decide) (by decide) _ _ _
theorem EncodedLength.brGt (x : Reg) (b : Src) (d : Disp) :
    EncodedLength.Statement (.brGt x b d) := by
  cases b <;> exact fun _ => memWord_length (by decide) (by decide) _ _ _
theorem EncodedLength.brEq (x : Reg) (b : Src) (d : Disp) :
    EncodedLength.Statement (.brEq x b d) := by
  cases b <;> exact fun _ => memWord_length (by decide) (by decide) _ _ _
theorem EncodedLength.brLt (x : Reg) (n : Nib) (d : Disp) :
    EncodedLength.Statement (.brLt x n d) :=
  fun _ => memWord_length (by decide) (by decide) _ _ _
theorem EncodedLength.brLe (x : Reg) (b : Src) (d : Disp) :
    EncodedLength.Statement (.brLe x b d) := by
  cases b <;> exact fun _ => memWord_length (by decide) (by decide) _ _ _
theorem EncodedLength.brNe (x : Reg) (b : Src) (d : Disp) :
    EncodedLength.Statement (.brNe x b d) := by
  cases b <;> exact fun _ => memWord_length (by decide) (by decide) _ _ _
theorem EncodedLength.brGe (x : Reg) (n : Nib) (d : Disp) :
    EncodedLength.Statement (.brGe x n d) :=
  fun _ => memWord_length (by decide) (by decide) _ _ _
theorem EncodedLength.call (x : Reg) (y : Reg) (d : Disp) :
    EncodedLength.Statement (.call x y d) :=
  fun _ => memWord_length (by decide) (by decide) _ _ _
theorem EncodedLength.loop (x : Reg) (n : Nib) (d : Disp) :
    EncodedLength.Statement (.loop x n d) :=
  fun _ => memWord_length (by decide) (by decide) _ _ _
theorem EncodedLength.storeb (x : Reg) (m : MemRef) :
    EncodedLength.Statement (.storeb x m) := by
  rcases m with ⟨_ | _, _, _⟩ <;> exact fun _ => memWord_length (by decide) (by decide) _ _ _
theorem EncodedLength.storeh (x : Reg) (m : MemRef) :
    EncodedLength.Statement (.storeh x m) := by
  rcases m with ⟨_ | _, _, _⟩ <;> exact fun _ => memWord_length (by decide) (by decide) _ _ _
theorem EncodedLength.store (x : Reg) (m : MemRef) :
    EncodedLength.Statement (.store x m) := by
  rcases m with ⟨_ | _, _, _⟩ <;> exact fun _ => memWord_length (by decide) (by decide) _ _ _
theorem EncodedLength.stored (x : Reg) (m : MemRef) :
    EncodedLength.Statement (.stored x m) := by
  rcases m with ⟨_ | _, _, _⟩ <;> exact fun _ => memWord_length (by decide) (by decide) _ _ _
theorem EncodedLength.loadb (x : Reg) (m : MemRef) :
    EncodedLength.Statement (.loadb x m) := by
  rcases m with ⟨_ | _, _, _⟩ <;> exact fun _ => memWord_length (by decide) (by decide) _ _ _
theorem EncodedLength.loadh (x : Reg) (m : MemRef) :
    EncodedLength.Statement (.loadh x m) := by
  rcases m with ⟨_ | _, _, _⟩ <;> exact fun _ => memWord_length (by decide) (by decide) _ _ _
theorem EncodedLength.load (x : Reg) (m : MemRef) :
    EncodedLength.Statement (.load x m) := by
  rcases m with ⟨_ | _, _, _⟩ <;> exact fun _ => memWord_length (by decide) (by decide) _ _ _
theorem EncodedLength.loadd (x : Reg) (m : MemRef) :
    EncodedLength.Statement (.loadd x m) := by
  rcases m with ⟨_ | _, _, _⟩ <;> exact fun _ => memWord_length (by decide) (by decide) _ _ _
theorem EncodedLength.laddr (x : Reg) (m : MemRef) :
    EncodedLength.Statement (.laddr x m) := by
  rcases m with ⟨_ | _, _, _⟩ <;> exact fun _ => memWord_length (by decide) (by decide) _ _ _
theorem EncodedLength.loadbp (x : Reg) (m : MemRef) :
    EncodedLength.Statement (.loadbp x m) := by
  rcases m with ⟨_ | _, _, _⟩ <;> exact fun _ => memWord_length (by decide) (by decide) _ _ _
theorem EncodedLength.loadhp (x : Reg) (m : MemRef) :
    EncodedLength.Statement (.loadhp x m) := by
  rcases m with ⟨_ | _, _, _⟩ <;> exact fun _ => memWord_length (by decide) (by decide) _ _ _
theorem EncodedLength.loadp (x : Reg) (m : MemRef) :
    EncodedLength.Statement (.loadp x m) := by
  rcases m with ⟨_ | _, _, _⟩ <;> exact fun _ => memWord_length (by decide) (by decide) _ _ _
theorem EncodedLength.loaddp (x : Reg) (m : MemRef) :
    EncodedLength.Statement (.loaddp x m) := by
  rcases m with ⟨_ | _, _, _⟩ <;> exact fun _ => memWord_length (by decide) (by decide) _ _ _
theorem EncodedLength.laddrp (x : Reg) (m : MemRef) :
    EncodedLength.Statement (.laddrp x m) := by
  rcases m with ⟨_ | _, _, _⟩ <;> exact fun _ => memWord_length (by decide) (by decide) _ _ _
theorem EncodedLength.undefinedReg (op : Byte) (x : Nib) (y : Nib) :
    EncodedLength.Statement (.undefinedReg op x y) := by
  intro h
  have hops : ∀ o : Byte, undefinedRegOps.contains o = true → mbit o 0 = false := by decide
  have h0 : mbit op 0 = false := by
    simp only [Instr.wf, undefinedRegOp, Bool.or_eq_true, Bool.and_eq_true, beq_iff_eq] at h
    rcases h with h | h
    · exact hops op h
    · rw [h.1]; rfl
  simp [encode, regWord, instrLength, h0]
theorem EncodedLength.undefinedMem (op : Byte) (x : Nib) (y : Nib) (d : Disp) :
    EncodedLength.Statement (.undefinedMem op x y d) := by
  intro h
  simp only [Instr.wf, wfUndefinedMem, undefinedMemOp, Bool.and_eq_true, beq_iff_eq] at h
  cases d <;> simp_all [encode, instrLength, Disp.isLong, halfBytes, wordBytes]

end Sys2Proof.Laws
end

