-- ==== Sys2Proof/Tests/Slice0.lean ====
section
/-! SUPPORT. Tests: the checks of `WellFormed`, each constructor's decoding from a word written out
from 30_encoding.md, one-step tests on the values of 95_test_vectors.md and of the rules' own
examples, and a witness for the hypotheses of every obligation. -/

namespace Sys2Proof.Tests

open Sys2Proof Sys2Proof.Machine

/-! ### Ill-formed instructions -/

theorem test_wf_refuses_defined_register_opcode :
    (Instr.undefinedReg 0x03 1 2).wf = false := by decide
theorem test_wf_refuses_memory_opcode_in_register_format :
    (Instr.undefinedReg 0x81 1 2).wf = false := by decide
theorem test_wf_refuses_listed_subop : (Instr.undefinedReg 0x4C 1 5).wf = false := by decide
theorem test_wf_refuses_defined_memory_opcode :
    (Instr.undefinedMem 0xC0 1 2 (.short 0)).wf = false := by decide
theorem test_wf_refuses_register_opcode_in_memory_format :
    (Instr.undefinedMem 0x3C 1 2 (.short 0)).wf = false := by decide
theorem test_wf_refuses_wrong_displacement_length :
    (Instr.undefinedMem 0x81 1 2 (.long 0)).wf = false := by decide
theorem test_wf_accepts_undefined_memory_opcode :
    (Instr.undefinedMem 0x91 1 2 (.long 0)).wf = true := by decide

/-! ### Decoding -/

/-- Whether bytes decode to an instruction, all of them used. -/
def reads (bs : List Byte) (i : Instr) : Bool :=
  match decode bs with
  | .ok (j, []) => j == i
  | _ => false

theorem test_decode_truncated : decode [0xC0, 0x10, 0x00] = .error .truncated := by rfl
theorem test_decode_move : reads [0x01, 0x1A] (.move 1 10) = true := by decide
theorem test_decode_neg : reads [0x02, 0x1A] (.neg 1 10) = true := by decide
theorem test_decode_add : reads [0x03, 0x1A] (.add 1 10) = true := by decide
theorem test_decode_sub : reads [0x04, 0x1A] (.sub 1 10) = true := by decide
theorem test_decode_mpy : reads [0x05, 0x1A] (.mpy 1 10) = true := by decide
theorem test_decode_div : reads [0x06, 0x1A] (.div 1 10) = true := by decide
theorem test_decode_rem : reads [0x07, 0x1A] (.rem 1 10) = true := by decide
theorem test_decode_not : reads [0x08, 0x1A] (.not 1 10) = true := by decide
theorem test_decode_or : reads [0x09, 0x1A] (.or 1 10) = true := by decide
theorem test_decode_xor : reads [0x0A, 0x1A] (.xor 1 10) = true := by decide
theorem test_decode_and : reads [0x0B, 0x1A] (.and 1 10) = true := by decide
theorem test_decode_cbit : reads [0x0C, 0x1A] (.cbit 1 10) = true := by decide
theorem test_decode_sbit : reads [0x0D, 0x1A] (.sbit 1 10) = true := by decide
theorem test_decode_tbit : reads [0x0E, 0x1A] (.tbit 1 10) = true := by decide
theorem test_decode_chk : reads [0x0F, 0x1A] (.chk 1 10) = true := by decide
theorem test_decode_nop : reads [0x10, 0x1A] (.nop 1 10) = true := by decide
theorem test_decode_movei : reads [0x11, 0x1A] (.movei 1 10) = true := by decide
theorem test_decode_addi : reads [0x13, 0x1A] (.addi 1 10) = true := by decide
theorem test_decode_subi : reads [0x14, 0x1A] (.subi 1 10) = true := by decide
theorem test_decode_mpyi : reads [0x15, 0x1A] (.mpyi 1 10) = true := by decide
theorem test_decode_noti : reads [0x18, 0x1A] (.noti 1 10) = true := by decide
theorem test_decode_andi : reads [0x1B, 0x1A] (.andi 1 10) = true := by decide
theorem test_decode_chki : reads [0x1F, 0x1A] (.chki 1 10) = true := by decide
theorem test_decode_fixt : reads [0x20, 0x1A] (.fixt 1 10) = true := by decide
theorem test_decode_fixr : reads [0x21, 0x1A] (.fixr 1 10) = true := by decide
theorem test_decode_rneg : reads [0x22, 0x1A] (.rneg 1 10) = true := by decide
theorem test_decode_radd : reads [0x23, 0x1A] (.radd 1 10) = true := by decide
theorem test_decode_rsub : reads [0x24, 0x1A] (.rsub 1 10) = true := by decide
theorem test_decode_rmpy : reads [0x25, 0x1A] (.rmpy 1 10) = true := by decide
theorem test_decode_rdiv : reads [0x26, 0x1A] (.rdiv 1 10) = true := by decide
theorem test_decode_makerd : reads [0x27, 0x1A] (.makerd 1 10) = true := by decide
theorem test_decode_lcomp : reads [0x28, 0x1A] (.lcomp 1 10) = true := by decide
theorem test_decode_float : reads [0x29, 0x1A] (.float 1 10) = true := by decide
theorem test_decode_rcomp : reads [0x2A, 0x1A] (.rcomp 1 10) = true := by decide
theorem test_decode_eadd : reads [0x2C, 0x1A] (.eadd 1 10) = true := by decide
theorem test_decode_esub : reads [0x2D, 0x1A] (.esub 1 10) = true := by decide
theorem test_decode_empy : reads [0x2E, 0x1A] (.empy 1 10) = true := by decide
theorem test_decode_ediv : reads [0x2F, 0x1A] (.ediv 1 10) = true := by decide
theorem test_decode_dfixt : reads [0x30, 0x1A] (.dfixt 1 10) = true := by decide
theorem test_decode_dfixr : reads [0x31, 0x1A] (.dfixr 1 10) = true := by decide
theorem test_decode_drneg : reads [0x32, 0x1A] (.drneg 1 10) = true := by decide
theorem test_decode_dradd : reads [0x33, 0x1A] (.dradd 1 10) = true := by decide
theorem test_decode_drsub : reads [0x34, 0x1A] (.drsub 1 10) = true := by decide
theorem test_decode_drmpy : reads [0x35, 0x1A] (.drmpy 1 10) = true := by decide
theorem test_decode_drdiv : reads [0x36, 0x1A] (.drdiv 1 10) = true := by decide
theorem test_decode_makedr : reads [0x37, 0x1A] (.makedr 1 10) = true := by decide
theorem test_decode_dcomp : reads [0x38, 0x1A] (.dcomp 1 10) = true := by decide
theorem test_decode_dfloat : reads [0x39, 0x1A] (.dfloat 1 10) = true := by decide
theorem test_decode_drcomp : reads [0x3A, 0x1A] (.drcomp 1 10) = true := by decide
theorem test_decode_trap : reads [0x3B, 0x1A] (.trap 1 10) = true := by decide
theorem test_decode_sus : reads [0x40, 0x1A] (.sus 1 10) = true := by decide
theorem test_decode_lus : reads [0x41, 0x1A] (.lus 1 10) = true := by decide
theorem test_decode_rum : reads [0x42, 0x1A] (.rum 1 10) = true := by decide
theorem test_decode_ldregs : reads [0x43, 0x1A] (.ldregs 1 10) = true := by decide
theorem test_decode_trans : reads [0x44, 0x1A] (.trans 1 10) = true := by decide
theorem test_decode_dirt : reads [0x45, 0x1A] (.dirt 1 10) = true := by decide
theorem test_decode_movesr : reads [0x46, 0x1A] (.movesr 1 10) = true := by decide
theorem test_decode_movers : reads [0x47, 0x1A] (.movers 1 10) = true := by decide
theorem test_decode_read : reads [0x4E, 0x1A] (.read 1 10) = true := by decide
theorem test_decode_write : reads [0x4F, 0x1A] (.write 1 10) = true := by decide
theorem test_decode_callr : reads [0x53, 0x1A] (.callr 1 10) = true := by decide
theorem test_decode_ret : reads [0x57, 0x1A] (.ret 1 10) = true := by decide
theorem test_decode_seb : reads [0x6B, 0x1A] (.seb 1 10) = true := by decide
theorem test_decode_seh : reads [0x7B, 0x1A] (.seh 1 10) = true := by decide
theorem test_decode_elogr : reads [0x4C, 0x30] (.elogr 3) = true := by decide
theorem test_decode_elogw : reads [0x4C, 0x31] (.elogw 3) = true := by decide
theorem test_decode_twrited : reads [0x4C, 0x35] (.twrited 3) = true := by decide
theorem test_decode_flush : reads [0x4C, 0x36] (.flush 3) = true := by decide
theorem test_decode_trapexit : reads [0x4C, 0x37] (.trapexit 3) = true := by decide
theorem test_decode_itest : reads [0x4C, 0x38] (.itest 3) = true := by decide
theorem test_decode_machineid : reads [0x4C, 0x3A] (.machineid 3) = true := by decide
theorem test_decode_version : reads [0x4C, 0x3B] (.version 3) = true := by decide
theorem test_decode_creg : reads [0x4C, 0x3C] (.creg 3) = true := by decide
theorem test_decode_rdlog : reads [0x4C, 0x3D] (.rdlog 3) = true := by decide
theorem test_decode_testGt : reads [0x50, 0x2B] (.testGt 2 (.reg 11)) = true := by decide
theorem test_decode_testGt_constant : reads [0x54, 0x2B] (.testGt 2 (.imm 11)) = true := by decide
theorem test_decode_testLt : reads [0x51, 0x2B] (.testLt 2 (.reg 11)) = true := by decide
theorem test_decode_testLt_constant : reads [0x55, 0x2B] (.testLt 2 (.imm 11)) = true := by decide
theorem test_decode_testEq : reads [0x52, 0x2B] (.testEq 2 (.reg 11)) = true := by decide
theorem test_decode_testEq_constant : reads [0x56, 0x2B] (.testEq 2 (.imm 11)) = true := by decide
theorem test_decode_testLe : reads [0x58, 0x2B] (.testLe 2 (.reg 11)) = true := by decide
theorem test_decode_testLe_constant : reads [0x5C, 0x2B] (.testLe 2 (.imm 11)) = true := by decide
theorem test_decode_testGe : reads [0x59, 0x2B] (.testGe 2 (.reg 11)) = true := by decide
theorem test_decode_testGe_constant : reads [0x5D, 0x2B] (.testGe 2 (.imm 11)) = true := by decide
theorem test_decode_testNe : reads [0x5A, 0x2B] (.testNe 2 (.reg 11)) = true := by decide
theorem test_decode_testNe_constant : reads [0x5E, 0x2B] (.testNe 2 (.imm 11)) = true := by decide
theorem test_decode_lsl : reads [0x60, 0x2B] (.lsl 2 (.reg 11)) = true := by decide
theorem test_decode_lsl_constant : reads [0x70, 0x2B] (.lsl 2 (.imm 11)) = true := by decide
theorem test_decode_lsr : reads [0x61, 0x2B] (.lsr 2 (.reg 11)) = true := by decide
theorem test_decode_lsr_constant : reads [0x71, 0x2B] (.lsr 2 (.imm 11)) = true := by decide
theorem test_decode_asl : reads [0x62, 0x2B] (.asl 2 (.reg 11)) = true := by decide
theorem test_decode_asl_constant : reads [0x72, 0x2B] (.asl 2 (.imm 11)) = true := by decide
theorem test_decode_asr : reads [0x63, 0x2B] (.asr 2 (.reg 11)) = true := by decide
theorem test_decode_asr_constant : reads [0x73, 0x2B] (.asr 2 (.imm 11)) = true := by decide
theorem test_decode_dlsl : reads [0x64, 0x2B] (.dlsl 2 (.reg 11)) = true := by decide
theorem test_decode_dlsl_constant : reads [0x74, 0x2B] (.dlsl 2 (.imm 11)) = true := by decide
theorem test_decode_dlsr : reads [0x65, 0x2B] (.dlsr 2 (.reg 11)) = true := by decide
theorem test_decode_dlsr_constant : reads [0x75, 0x2B] (.dlsr 2 (.imm 11)) = true := by decide
theorem test_decode_csl : reads [0x68, 0x2B] (.csl 2 (.reg 11)) = true := by decide
theorem test_decode_csl_constant : reads [0x78, 0x2B] (.csl 2 (.imm 11)) = true := by decide
theorem test_decode_kcall : reads [0x5B, 0xC7] (.kcall 0xC7) = true := by decide
theorem test_decode_br :
    reads [0x8B, 0x5E, 0x12, 0x34] (.br 5 14 (.short 0x1234)) =
      true := by decide
theorem test_decode_br_long :
    reads [0x9B, 0x5E, 0x12, 0x34, 0x56, 0x78] (.br 5 14 (.long 0x12345678)) =
      true := by decide
theorem test_decode_call :
    reads [0x83, 0x5E, 0x12, 0x34] (.call 5 14 (.short 0x1234)) =
      true := by decide
theorem test_decode_call_long :
    reads [0x93, 0x5E, 0x12, 0x34, 0x56, 0x78] (.call 5 14 (.long 0x12345678)) =
      true := by decide
theorem test_decode_brLt :
    reads [0x85, 0x5E, 0x12, 0x34] (.brLt 5 14 (.short 0x1234)) =
      true := by decide
theorem test_decode_brLt_long :
    reads [0x95, 0x5E, 0x12, 0x34, 0x56, 0x78] (.brLt 5 14 (.long 0x12345678)) =
      true := by decide
theorem test_decode_brGe :
    reads [0x8D, 0x5E, 0x12, 0x34] (.brGe 5 14 (.short 0x1234)) =
      true := by decide
theorem test_decode_brGe_long :
    reads [0x9D, 0x5E, 0x12, 0x34, 0x56, 0x78] (.brGe 5 14 (.long 0x12345678)) =
      true := by decide
theorem test_decode_loop :
    reads [0x87, 0x5E, 0x12, 0x34] (.loop 5 14 (.short 0x1234)) =
      true := by decide
theorem test_decode_loop_long :
    reads [0x97, 0x5E, 0x12, 0x34, 0x56, 0x78] (.loop 5 14 (.long 0x12345678)) =
      true := by decide
theorem test_decode_brGt :
    reads [0x80, 0x5E, 0x12, 0x34] (.brGt 5 (.reg 14) (.short 0x1234)) =
      true := by decide
theorem test_decode_brGt_constant_long :
    reads [0x94, 0x5E, 0x12, 0x34, 0x56, 0x78] (.brGt 5 (.imm 14) (.long 0x12345678)) =
      true := by decide
theorem test_decode_brEq :
    reads [0x82, 0x5E, 0x12, 0x34] (.brEq 5 (.reg 14) (.short 0x1234)) =
      true := by decide
theorem test_decode_brEq_constant_long :
    reads [0x96, 0x5E, 0x12, 0x34, 0x56, 0x78] (.brEq 5 (.imm 14) (.long 0x12345678)) =
      true := by decide
theorem test_decode_brLe :
    reads [0x88, 0x5E, 0x12, 0x34] (.brLe 5 (.reg 14) (.short 0x1234)) =
      true := by decide
theorem test_decode_brLe_constant_long :
    reads [0x9C, 0x5E, 0x12, 0x34, 0x56, 0x78] (.brLe 5 (.imm 14) (.long 0x12345678)) =
      true := by decide
theorem test_decode_brNe :
    reads [0x8A, 0x5E, 0x12, 0x34] (.brNe 5 (.reg 14) (.short 0x1234)) =
      true := by decide
theorem test_decode_brNe_constant_long :
    reads [0x9E, 0x5E, 0x12, 0x34, 0x56, 0x78] (.brNe 5 (.imm 14) (.long 0x12345678)) =
      true := by decide
theorem test_decode_storeb :
    reads [0xA0, 0x6D, 0x12, 0x34] (.storeb 6 ⟨.direct, 13, .short 0x1234⟩) =
      true := by decide
theorem test_decode_storeb_indexed_long :
    reads [0xB1, 0x6D, 0x12, 0x34, 0x56, 0x78] (.storeb 6 ⟨.indexed, 13, .long 0x12345678⟩) =
      true := by decide
theorem test_decode_storeh :
    reads [0xA4, 0x6D, 0x12, 0x34] (.storeh 6 ⟨.direct, 13, .short 0x1234⟩) =
      true := by decide
theorem test_decode_storeh_indexed_long :
    reads [0xB5, 0x6D, 0x12, 0x34, 0x56, 0x78] (.storeh 6 ⟨.indexed, 13, .long 0x12345678⟩) =
      true := by decide
theorem test_decode_store :
    reads [0xA8, 0x6D, 0x12, 0x34] (.store 6 ⟨.direct, 13, .short 0x1234⟩) =
      true := by decide
theorem test_decode_store_indexed_long :
    reads [0xB9, 0x6D, 0x12, 0x34, 0x56, 0x78] (.store 6 ⟨.indexed, 13, .long 0x12345678⟩) =
      true := by decide
theorem test_decode_stored :
    reads [0xAA, 0x6D, 0x12, 0x34] (.stored 6 ⟨.direct, 13, .short 0x1234⟩) =
      true := by decide
theorem test_decode_stored_indexed_long :
    reads [0xBB, 0x6D, 0x12, 0x34, 0x56, 0x78] (.stored 6 ⟨.indexed, 13, .long 0x12345678⟩) =
      true := by decide
theorem test_decode_loadb :
    reads [0xC0, 0x6D, 0x12, 0x34] (.loadb 6 ⟨.direct, 13, .short 0x1234⟩) =
      true := by decide
theorem test_decode_loadb_indexed_long :
    reads [0xD1, 0x6D, 0x12, 0x34, 0x56, 0x78] (.loadb 6 ⟨.indexed, 13, .long 0x12345678⟩) =
      true := by decide
theorem test_decode_loadh :
    reads [0xC4, 0x6D, 0x12, 0x34] (.loadh 6 ⟨.direct, 13, .short 0x1234⟩) =
      true := by decide
theorem test_decode_loadh_indexed_long :
    reads [0xD5, 0x6D, 0x12, 0x34, 0x56, 0x78] (.loadh 6 ⟨.indexed, 13, .long 0x12345678⟩) =
      true := by decide
theorem test_decode_load :
    reads [0xC8, 0x6D, 0x12, 0x34] (.load 6 ⟨.direct, 13, .short 0x1234⟩) =
      true := by decide
theorem test_decode_load_indexed_long :
    reads [0xD9, 0x6D, 0x12, 0x34, 0x56, 0x78] (.load 6 ⟨.indexed, 13, .long 0x12345678⟩) =
      true := by decide
theorem test_decode_loadd :
    reads [0xCA, 0x6D, 0x12, 0x34] (.loadd 6 ⟨.direct, 13, .short 0x1234⟩) =
      true := by decide
theorem test_decode_loadd_indexed_long :
    reads [0xDB, 0x6D, 0x12, 0x34, 0x56, 0x78] (.loadd 6 ⟨.indexed, 13, .long 0x12345678⟩) =
      true := by decide
theorem test_decode_laddr :
    reads [0xCE, 0x6D, 0x12, 0x34] (.laddr 6 ⟨.direct, 13, .short 0x1234⟩) =
      true := by decide
theorem test_decode_laddr_indexed_long :
    reads [0xDF, 0x6D, 0x12, 0x34, 0x56, 0x78] (.laddr 6 ⟨.indexed, 13, .long 0x12345678⟩) =
      true := by decide
theorem test_decode_loadbp :
    reads [0xE0, 0x6D, 0x12, 0x34] (.loadbp 6 ⟨.direct, 13, .short 0x1234⟩) =
      true := by decide
theorem test_decode_loadbp_indexed_long :
    reads [0xF1, 0x6D, 0x12, 0x34, 0x56, 0x78] (.loadbp 6 ⟨.indexed, 13, .long 0x12345678⟩) =
      true := by decide
theorem test_decode_loadhp :
    reads [0xE4, 0x6D, 0x12, 0x34] (.loadhp 6 ⟨.direct, 13, .short 0x1234⟩) =
      true := by decide
theorem test_decode_loadhp_indexed_long :
    reads [0xF5, 0x6D, 0x12, 0x34, 0x56, 0x78] (.loadhp 6 ⟨.indexed, 13, .long 0x12345678⟩) =
      true := by decide
theorem test_decode_loadp :
    reads [0xE8, 0x6D, 0x12, 0x34] (.loadp 6 ⟨.direct, 13, .short 0x1234⟩) =
      true := by decide
theorem test_decode_loadp_indexed_long :
    reads [0xF9, 0x6D, 0x12, 0x34, 0x56, 0x78] (.loadp 6 ⟨.indexed, 13, .long 0x12345678⟩) =
      true := by decide
theorem test_decode_loaddp :
    reads [0xEA, 0x6D, 0x12, 0x34] (.loaddp 6 ⟨.direct, 13, .short 0x1234⟩) =
      true := by decide
theorem test_decode_loaddp_indexed_long :
    reads [0xFB, 0x6D, 0x12, 0x34, 0x56, 0x78] (.loaddp 6 ⟨.indexed, 13, .long 0x12345678⟩) =
      true := by decide
theorem test_decode_laddrp :
    reads [0xEE, 0x6D, 0x12, 0x34] (.laddrp 6 ⟨.direct, 13, .short 0x1234⟩) =
      true := by decide
theorem test_decode_laddrp_indexed_long :
    reads [0xFF, 0x6D, 0x12, 0x34, 0x56, 0x78] (.laddrp 6 ⟨.indexed, 13, .long 0x12345678⟩) =
      true := by decide
theorem test_decode_undefinedReg : reads [0x3C, 0x7F] (.undefinedReg 0x3C 7 15) = true := by decide
theorem test_decode_undefined_subop :
    reads [0x4C, 0x7F] (.undefinedReg 0x4C 7 15) =
      true := by decide
theorem test_decode_undefinedMem :
    reads [0xAE, 0x7F, 0x12, 0x34] (.undefinedMem 0xAE 7 15 (.short 0x1234)) =
      true := by decide
theorem test_decode_undefinedMem_long :
    reads [0x99, 0x7F, 0x12, 0x34, 0x56, 0x78] (.undefinedMem 0x99 7 15 (.long 0x12345678)) =
      true := by decide

/-! ### One step -/

/-- A state of kernel mode: a traps word and some registers. -/
def start (tw : Word) (rs : List (Reg × Word)) : State :=
  rs.foldl (fun s p => s.setReg p.1 p.2) { State.reset with tw := tw }

/-- Some special registers set. -/
def withSrs (rs : List (SReg × Word)) (s : State) : State :=
  rs.foldl (fun s p => s.setSr p.1 p.2) s

/-- Words in memory from an address on. -/
def withWords (a : Nat) (ws : List Word) (s : State) : State :=
  { s with mem := s.mem.writeBytes a (ws.flatMap wordBytes) }

/-- The same state in user mode. -/
def inUser (s : State) : State := { s with mode := .user }

/-- A CCB at 10000 whose entry at an offset is 50000 plus the offset. -/
def withVector (off : Word) (s : State) : State :=
  withWords (0x10000 + off.toNat) [0x50000 + off] (s.setSr 11 0x10000)

/-- A board, first on DMA chain 1, with a device number, a line, a request and its replies. -/
def board (device : Byte) (line : Line) (request : Option (BitVec 24)) (replies : List Reply) :
    Board :=
  { device := device, line := line, dmaChain := .one, dmaPosition := 0, request := request
    replies := replies }

/-- A cached copy of the quadword at a real address, all of it ones. -/
def copied (a : Nat) : CacheLine :=
  { tag := cacheTag a, bytes := List.replicate 16 0xFF, resident := false }

/-- Whether an outcome is a next state with a property. -/
def answers (o : Out) (p : State → Bool) : Bool :=
  match o with
  | .next t => p t
  | _ => false

/-- Whether the instruction in some bytes answers a next state with a property. -/
def outcome (bs : List Byte) (s : State) (p : State → Bool) : Bool :=
  match decode bs with
  | .ok (i, []) => answers (exec i s) p
  | _ => false

theorem test_move :
    outcome [0x01, 0x10]
      (start 0 [(0, 0x63)])
      (fun t => t.reg 1 == 0x63 && t.pc == 0x3E002) = true := by
  decide
theorem test_neg_of_least :
    outcome [0x02, 0x44]
      (start 0 [(4, 0x80000000)])
      (fun t => t.reg 4 == 0x80000000) = true := by
  decide
theorem test_neg :
    outcome [0x02, 0x45]
      (start 0 [(5, 1)])
      (fun t => t.reg 4 == 0xFFFFFFFF) = true := by
  decide
theorem test_add_wraps :
    outcome [0x03, 0x12]
      (start 0 [(1, 0x7FFFFFFF), (2, 1)])
      (fun t => t.reg 1 == 0x80000000) = true := by
  decide
theorem test_add_traps :
    outcome [0x03, 0x12]
      (withVector 0x41C (start 0x8000 [(1, 0x7FFFFFFF), (2, 1)]))
      (fun t => t.reg 1 == 0x80000000 && t.sr 0 == 0x3E000 && t.sr 3 == 0x10 &&
        t.pc == 0x5041C) = true := by
  decide
theorem test_sub :
    outcome [0x04, 0x34]
      (start 0x8000 [(3, 5), (4, 7)])
      (fun t => t.reg 3 == 0xFFFFFFFE) = true := by
  decide
theorem test_sub_wraps :
    outcome [0x04, 0x34]
      (start 0 [(3, 0x80000000), (4, 1)])
      (fun t => t.reg 3 == 0x7FFFFFFF) = true := by
  decide
theorem test_mpy_wraps :
    outcome [0x05, 0x12]
      (start 0 [(1, 0x10000), (2, 0x10000)])
      (fun t => t.reg 1 == 0) = true := by
  decide
theorem test_mpy_of_negatives :
    outcome [0x05, 0x12]
      (start 0x8000 [(1, 0xFFFFFFFF), (2, 0xFFFFFFFF)])
      (fun t => t.reg 1 == 1) = true := by
  decide
theorem test_div_floors :
    outcome [0x06, 0x12]
      (start 0xc000 [(1, 0xFFFFFFF9), (2, 2)])
      (fun t => t.reg 1 == 0xFFFFFFFC) = true := by
  decide
theorem test_div_by_zero_traps :
    outcome [0x06, 0x12]
      (withVector 0x41C (start 0x4000 [(1, 5), (2, 0)]))
      (fun t => t.reg 1 == 5 && t.sr 3 == 0x11 && t.pc == 0x5041C) = true := by
  decide
theorem test_rem_has_sign_of_divisor :
    outcome [0x07, 0x12]
      (start 0 [(1, 7), (2, 0xFFFFFFFE)])
      (fun t => t.reg 1 == 0xFFFFFFFF) = true := by
  decide
theorem test_rem_overflow_delivers_zero :
    outcome [0x07, 0x12]
      (start 0 [(1, 0x80000000), (2, 0xFFFFFFFF)])
      (fun t => t.reg 1 == 0) = true := by
  decide
theorem test_not :
    outcome [0x08, 0x12]
      (start 0 [(2, 0xFFFF)])
      (fun t => t.reg 1 == 0xFFFF0000) = true := by
  decide
theorem test_or :
    outcome [0x09, 0x12]
      (start 0 [(1, 12), (2, 3)])
      (fun t => t.reg 1 == 15) = true := by
  decide
theorem test_xor :
    outcome [0x0A, 0x12]
      (start 0 [(1, 0xFFFF0000), (2, 0xFF00FF00)])
      (fun t => t.reg 1 == 0xFFFF00) = true := by
  decide
theorem test_and :
    outcome [0x0B, 0x67]
      (start 0 [(6, 0xFF0F), (7, 0xF0F0FF)])
      (fun t => t.reg 6 == 0xF00F) = true := by
  decide
theorem test_cbit_second_word :
    outcome [0x0C, 0x25]
      (start 0 [(2, 0xFFFFFFFF), (3, 0xFFFFFFFF), (5, 0x20)])
      (fun t => t.reg 2 == 0xFFFFFFFF && t.reg 3 == 0x7FFFFFFF) = true := by
  decide
theorem test_sbit_wraps_to_r0 :
    outcome [0x0D, 0xF5]
      (start 0 [(5, 0x3F)])
      (fun t => t.reg 15 == 0 && t.reg 0 == 1) = true := by
  decide
theorem test_tbit_first_bit :
    outcome [0x0E, 0x25]
      (start 0 [(2, 0x80000000), (5, 0)])
      (fun t => t.reg 2 == 1) = true := by
  decide
theorem test_tbit_second_bit :
    outcome [0x0E, 0x25]
      (start 0 [(2, 0x80000000), (5, 1)])
      (fun t => t.reg 2 == 0) = true := by
  decide
theorem test_chk_traps :
    outcome [0x0F, 0x12]
      (withVector 0x418 (start 0 [(1, 11), (2, 10)]))
      (fun t => t.sr 1 == 15 && t.sr 2 == 1 && t.sr 3 == 2 && t.pc == 0x50418) = true := by
  decide
theorem test_chk_equal :
    outcome [0x0F, 0x12]
      (start 0 [(1, 10), (2, 10)])
      (fun t => t.reg 1 == 10 && t.pc == 0x3E002) = true := by
  decide
theorem test_nop :
    outcome [0x10, 0x00]
      (start 0 [(0, 9)])
      (fun t => t.reg 0 == 9 && t.pc == 0x3E002) = true := by
  decide
theorem test_movei :
    outcome [0x11, 0x3F]
      (start 0 [])
      (fun t => t.reg 3 == 15) = true := by
  decide
theorem test_addi :
    outcome [0x13, 0x01]
      (start 0x8000 [(0, 0xFFFFFFFF)])
      (fun t => t.reg 0 == 0) = true := by
  decide
theorem test_subi :
    outcome [0x14, 0x51]
      (start 0x8000 [(5, 0)])
      (fun t => t.reg 5 == 0xFFFFFFFF) = true := by
  decide
theorem test_mpyi :
    outcome [0x15, 0x13]
      (start 0x8000 [(1, 7)])
      (fun t => t.reg 1 == 0x15) = true := by
  decide
theorem test_noti :
    outcome [0x18, 0x2F]
      (start 0 [])
      (fun t => t.reg 2 == 0xFFFFFFF0) = true := by
  decide
theorem test_andi :
    outcome [0x1B, 0x1F]
      (start 0 [(1, 0x12345678)])
      (fun t => t.reg 1 == 8) = true := by
  decide
theorem test_chki_negative_traps :
    outcome [0x1F, 0x1F]
      (withVector 0x418 (start 0 [(1, 0xFFFFFFFF)]))
      (fun t => t.sr 1 == 0x1F && t.sr 2 == 1 && t.sr 3 == 15 && t.pc == 0x50418) = true := by
  decide
theorem test_chki_limit :
    outcome [0x1F, 0x1F]
      (start 0 [(1, 15)])
      (fun t => t.reg 1 == 15 && t.pc == 0x3E002) = true := by
  decide
theorem test_fixt :
    outcome [0x20, 0x12]
      (start 0x80 [(2, 0xC129999C)])
      (fun t => t.reg 1 == 0xFFFFFFF6) = true := by
  decide
theorem test_fixr_tie_to_even :
    outcome [0x21, 0x12]
      (start 0 [(2, 0x40200000)])
      (fun t => t.reg 1 == 2) = true := by
  decide
theorem test_rneg :
    outcome [0x22, 0x12]
      (start 0 [(2, 0x3F99999A)])
      (fun t => t.reg 1 == 0xBF99999A) = true := by
  decide
theorem test_radd_inexact :
    outcome [0x23, 0x12]
      (start 0 [(1, 0x3DCCCCCD), (2, 0x3E4CCCCD)])
      (fun t => t.reg 1 == 0x3E99999A) = true := by
  decide
theorem test_rsub :
    outcome [0x24, 0x12]
      (start 0 [(1, 0x3F800000), (2, 0x40000000)])
      (fun t => t.reg 1 == 0xBF800000) = true := by
  decide
theorem test_rmpy :
    outcome [0x25, 0x34]
      (start 0 [(3, 0x40400000), (4, 0xC0000000)])
      (fun t => t.reg 3 == 0xC0C00000) = true := by
  decide
theorem test_rmpy_overflow_traps :
    outcome [0x25, 0x12]
      (withVector 0x41C (start 0x2000 [(1, 0x7F000000), (2, 0x40800000)]))
      (fun t => t.reg 1 == 0 && t.sr 3 == 0x12 && t.pc == 0x5041C) = true := by
  decide
theorem test_rdiv :
    outcome [0x26, 0x12]
      (start 0 [(1, 0x3F800000), (2, 0x40400000)])
      (fun t => t.reg 1 == 0x3EAAAAAB) = true := by
  decide
theorem test_makerd :
    outcome [0x27, 0x42]
      (start 0 [(2, 0x3F99999A)])
      (fun t => t.reg 4 == 0x3FF33333 && t.reg 5 == 0x40000000) = true := by
  decide
theorem test_lcomp_unsigned :
    outcome [0x28, 0x12]
      (start 0 [(1, 0x80000000), (2, 1)])
      (fun t => t.reg 1 == 1) = true := by
  decide
theorem test_float :
    outcome [0x29, 0x12]
      (start 0 [(2, 0x1000003)])
      (fun t => t.reg 1 == 0x4B800002) = true := by
  decide
theorem test_rcomp :
    outcome [0x2A, 0x12]
      (start 0 [(1, 0xC129999C), (2, 0x3F99999A)])
      (fun t => t.reg 1 == 0xFFFFFFFF) = true := by
  decide
theorem test_rcomp_zeros_equal :
    outcome [0x2A, 0x12]
      (start 0x40 [(1, 0x80000000), (2, 0)])
      (fun t => t.reg 1 == 0) = true := by
  decide
theorem test_eadd_carry :
    outcome [0x2C, 0x12]
      (start 0 [(0, 0), (1, 0xFFFFFFFF), (2, 1)])
      (fun t => t.reg 1 == 0 && t.reg 0 == 1) = true := by
  decide
theorem test_eadd_overflow :
    outcome [0x2C, 0x12]
      (start 0 [(0, 1), (1, 0x7FFFFFFF), (2, 0)])
      (fun t => t.reg 1 == 0x80000000 && t.reg 0 == 2) = true := by
  decide
theorem test_esub_borrow :
    outcome [0x2D, 0x12]
      (start 0 [(0, 1), (1, 0), (2, 1)])
      (fun t => t.reg 1 == 0xFFFFFFFF && t.reg 0 == 0) = true := by
  decide
theorem test_esub :
    outcome [0x2D, 0x12]
      (start 0 [(0, 1), (1, 5), (2, 3)])
      (fun t => t.reg 1 == 2 && t.reg 0 == 1) = true := by
  decide
theorem test_empy :
    outcome [0x2E, 0x24]
      (start 0 [(2, 0x12345678), (4, 0x9ABCDEF0)])
      (fun t => t.reg 2 == 0xB00EA4E && t.reg 3 == 0x242D2080) = true := by
  decide
theorem test_ediv :
    outcome [0x2F, 0x25]
      (start 0 [(2, 1), (3, 5), (5, 3)])
      (fun t => t.reg 2 == 0x55555557 && t.reg 3 == 0) = true := by
  decide
theorem test_ediv_overflow_traps :
    outcome [0x2F, 0x25]
      (withVector 0x41C (start 0x8000 [(2, 3), (3, 0), (5, 3)]))
      (fun t => t.reg 2 == 3 && t.reg 3 == 0 && t.pc == 0x5041C) = true := by
  decide
theorem test_dfixt :
    outcome [0x30, 0x14]
      (start 0 [(4, 0xC0253333), (5, 0x33333333)])
      (fun t => t.reg 1 == 0xFFFFFFF6) = true := by
  decide
theorem test_dfixr :
    outcome [0x31, 0x14]
      (start 0 [(4, 0xC0253333), (5, 0x33333333)])
      (fun t => t.reg 1 == 0xFFFFFFF5) = true := by
  decide
theorem test_drneg :
    outcome [0x32, 0x24]
      (start 0 [(4, 0x3FF33333), (5, 0x33333333)])
      (fun t => t.reg 2 == 0xBFF33333 && t.reg 3 == 0x33333333) = true := by
  decide
theorem test_dradd :
    outcome [0x33, 0x24]
      (start 0 [(2, 0x3FB99999), (3, 0x9999999A), (4, 0x3FC99999), (5, 0x9999999A)])
      (fun t => t.reg 2 == 0x3FD33333 && t.reg 3 == 0x33333334) = true := by
  decide
theorem test_drsub :
    outcome [0x34, 0x24]
      (start 0 [(2, 0x3FF00000), (3, 0), (4, 0x40000000), (5, 0)])
      (fun t => t.reg 2 == 0xBFF00000 && t.reg 3 == 0) = true := by
  decide
theorem test_drmpy :
    outcome [0x35, 0x24]
      (start 0 [(2, 0x40080000), (3, 0), (4, 0x40000000), (5, 0)])
      (fun t => t.reg 2 == 0x40180000 && t.reg 3 == 0) = true := by
  decide
theorem test_drdiv :
    outcome [0x36, 0x24]
      (start 0 [(2, 0x3FF00000), (3, 0), (4, 0x40100000), (5, 0)])
      (fun t => t.reg 2 == 0x3FD00000 && t.reg 3 == 0) = true := by
  decide
theorem test_makedr :
    outcome [0x37, 0x14]
      (start 0 [(4, 0x3FF33333), (5, 0x33333333)])
      (fun t => t.reg 1 == 0x3F99999A) = true := by
  decide
theorem test_dcomp :
    outcome [0x38, 0x24]
      (start 0 [(2, 0xFFFFFFFF), (3, 0xFFFFFFFF), (4, 0), (5, 0)])
      (fun t => t.reg 2 == 0xFFFFFFFF && t.reg 3 == 0xFFFFFFFF) = true := by
  decide
theorem test_dfloat :
    outcome [0x39, 0x43]
      (start 0 [(3, 0x64)])
      (fun t => t.reg 4 == 0x40590000 && t.reg 5 == 0) = true := by
  decide
theorem test_drcomp :
    outcome [0x3A, 0x24]
      (start 0 [(2, 0x40000000), (3, 0), (4, 0x3FF33333), (5, 0x33333333)])
      (fun t => t.reg 2 == 1 && t.reg 3 == 0) = true := by
  decide
theorem test_trap_enabled :
    outcome [0x3B, 0x09]
      (withVector 0x41C (inUser (withSrs [(10, 0x400000)] (start 0 []))))
      (fun t => t.sr 0 == 1 && t.sr 1 == 0x3B && t.sr 2 == 9 && t.sr 3 == 9 &&
        t.sr 15 == 0x3E000 && t.pc == 0x5041C) = true := by
  decide
theorem test_trap_not_enabled :
    outcome [0x3B, 0x08]
      (inUser (withSrs [(10, 0x400000)] (start 0 [])))
      (fun t => t.sr 3 == 8 && t.pc == 0x3E002) = true := by
  decide
theorem test_sus :
    outcome [0x40, 0x52]
      (withSrs [(14, 0x8000), (15, 0x102)] (start 0 [(5, 0x5007), (6, 0x6007)]))
      (fun t => t.mem.readWord 0x8014 == 0x5007 && t.mem.readWord 0x8040 == 0x102 &&
        t.mem.readWord 0x8018 == 0) = true := by
  decide
theorem test_lus :
    outcome [0x41, 0x01]
      (withWords 0x8000 [0x111, 0x222]
        (withWords 0x8040 [0x200, 0x120034, 0xC001] (withSrs [(14, 0x8000)] (start 0 []))))
      (fun t => t.reg 0 == 0x111 && t.reg 1 == 0x222 && t.sr 15 == 0x200 && t.sr 8 == 0x12 &&
        t.sr 9 == 0x34 && t.sr 10 == 0xC001 && t.tw == 0xC001) = true := by
  decide
theorem test_rum_resumes :
    outcome [0x42, 0x00]
      (withSrs [(14, 0x8000), (15, 0x102)] (start 0 []))
      (fun t => t.mode == .user && t.pc == 0x102) = true := by
  decide
theorem test_rum_pauses :
    outcome [0x42, 0x00]
      (withSrs [(14, 1)] (start 0 []))
      (fun t => t.paused && t.pc == 0x3E002) = true := by
  decide
theorem test_ldregs :
    outcome [0x43, 0x46]
      (withWords 0x8010 [0x444, 0x555, 0x666] (withSrs [(14, 0x8000)] (start 0 [(3, 7)])))
      (fun t => t.reg 3 == 7 && t.reg 4 == 0x444 && t.reg 6 == 0x666) = true := by
  decide
theorem test_trans :
    outcome [0x44, 0x14]
      (withWords 0x21000 [0x340001, 0, 0x140006]
        (withWords 0x20018 [0x21000] (withSrs
        [(12, 0x20000), (13, 15)] (start 0 [(4, 0x34), (5, 0x12ABC)]))))
      (fun t => t.reg 1 == 0x14ABC && t.mem.readWord 0x21008 == 0x140016) = true := by
  decide
theorem test_trans_absent :
    outcome [0x44, 0x14]
      (withWords 0x21000 [0x340001, 0, 0x140006]
        (withWords 0x20018 [0x21000] (withSrs
        [(12, 0x20000), (13, 15)] (start 0 [(4, 0x35), (5, 0x12ABC)]))))
      (fun t => t.reg 1 == 0xFFFFFFFF) = true := by
  decide
theorem test_dirt :
    outcome [0x45, 0x14]
      (withWords 0x21000 [0x340001, 0, 0x140006]
        (withWords 0x20018 [0x21000] (withSrs
        [(12, 0x20000), (13, 15)] (start 0 [(4, 0x34), (5, 0x12ABC)]))))
      (fun t => t.reg 1 == 0x14ABC && t.mem.readWord 0x21008 == 0x140017) = true := by
  decide
theorem test_movesr :
    outcome [0x46, 0xB3]
      (start 0 [(3, 0x20000)])
      (fun t => t.sr 11 == 0x20000) = true := by
  decide
theorem test_movers :
    outcome [0x47, 0x13]
      (withSrs [(3, 0x12ABC)] (start 0 []))
      (fun t => t.reg 1 == 0x12ABC) = true := by
  decide
theorem test_movers_in_user_mode_traps :
    outcome [0x47, 0x13]
      (withVector 0x414 (inUser (withSrs [(10, 1)] (start 0 []))))
      (fun t => t.sr 1 == 0x47 && t.sr 2 == 1 && t.sr 3 == 3 && t.pc == 0x50414) = true := by
  decide
theorem test_elogr :
    outcome [0x4C, 0x30]
      ({ (start 0 []) with powerFail := true })
      (fun t => t.reg 3 == 0x100) = true := by
  decide
theorem test_elogw :
    outcome [0x4C, 0x31]
      ({ (start 0 [(3, 1)]) with errorLog := [5] })
      (fun t => t.errorLog == []) = true := by
  decide
theorem test_twrited :
    outcome [0x4C, 0x35]
      ({ (start 0 [(3, 0x4C)]) with mask2 := true })
      (fun t => t.mask1 && !t.mask2) = true := by
  decide
theorem test_twrited_without_key :
    outcome [0x4C, 0x35]
      (start 0 [(3, 0x44)])
      (fun t => !t.mask1) = true := by
  decide
theorem test_flush :
    outcome [0x4C, 0x06]
      ({ (start 0 []) with
        staleCode := [copied 0]
        staleData := [copied 4] })
      (fun t => t.staleCode == [] && t.staleData == []) = true := by
  decide
theorem test_trapexit :
    outcome [0x4C, 0x07]
      (withSrs [(0, 0x20010)] (start 0 []))
      (fun t => t.pc == 0x20010) = true := by
  decide
theorem test_itest_none :
    outcome [0x4C, 0x38]
      (start 0 [])
      (fun t => t.reg 3 == 1) = true := by
  decide
theorem test_itest :
    outcome [0x4C, 0x38]
      ({ (start 0 []) with
        boards := [board 0x20 .two (some 0xABCDEF) []] })
      (fun t => t.reg 3 == 0 && t.reg 4 == 0x20ABCDEF) = true := by
  decide
theorem test_creg :
    outcome [0x4C, 0x3C]
      ({ (start 0 [(3, 3)]) with
        clock := { request := false, dataOut := false, ack := false, dataIn := true } })
      (fun t => t.reg 4 == 2 && t.clock.request && t.clock.dataOut) = true := by
  decide
theorem test_rdlog_count :
    outcome [0x4C, 0x3D]
      ({ (start 0 [(3, 0x80000000)]) with errorLog := [5, 6] })
      (fun t => t.reg 3 == 2) = true := by
  decide
theorem test_rdlog_entry :
    outcome [0x4C, 0x3D]
      ({ (start 0 [(3, 1)]) with errorLog := [5, 6] })
      (fun t => t.reg 3 == 6) = true := by
  decide
theorem test_read :
    outcome [0x4E, 0x24]
      ({ (start 0 [(4, 0x20000001)]) with
        boards := [board 0x20 .one none [.accept 0x77]] })
      (fun t => t.reg 2 == 0 && t.reg 3 == 0x77) = true := by
  decide
theorem test_read_times_out :
    outcome [0x4E, 0x24]
      ({ (start 0 [(4, 0x21000001)]) with
        boards := [board 0x20 .one none [.accept 0x77]] })
      (fun t => t.reg 2 == 2) = true := by
  decide
theorem test_write_not_ready :
    outcome [0x4F, 0x24]
      ({ (start 0 [(2, 9), (4, 0x20000001)]) with
        boards := [board 0x20 .one none [.notReady]] })
      (fun t => t.reg 2 == 1) = true := by
  decide
theorem test_testGt :
    outcome [0x50, 0x12]
      (start 0 [(1, 0xFFFFFFFF), (2, 0)])
      (fun t => t.reg 1 == 0) = true := by
  decide
theorem test_testLt :
    outcome [0x55, 0x10]
      (start 0 [(1, 0xFFFFFFFF)])
      (fun t => t.reg 1 == 1) = true := by
  decide
theorem test_testEq :
    outcome [0x56, 0x1F]
      (start 0 [(1, 15)])
      (fun t => t.reg 1 == 1) = true := by
  decide
theorem test_testLe :
    outcome [0x58, 0x12]
      (start 0 [(1, 5), (2, 5)])
      (fun t => t.reg 1 == 1) = true := by
  decide
theorem test_testGe :
    outcome [0x5D, 0x10]
      (start 0 [(1, 0x80000000)])
      (fun t => t.reg 1 == 0) = true := by
  decide
theorem test_testNe :
    outcome [0x5A, 0x12]
      (start 0 [(1, 1), (2, 1)])
      (fun t => t.reg 1 == 0) = true := by
  decide
theorem test_callr :
    outcome [0x53, 0xF2]
      (start 0 [(2, 0xFFFFFF00)])
      (fun t => t.reg 15 == 0x3E002 && t.pc == 0x3DF00) = true := by
  decide
theorem test_ret_same_register :
    outcome [0x57, 0x55]
      (start 0 [(5, 0x400)])
      (fun t => t.reg 5 == 0x3E002 && t.pc == 0x400) = true := by
  decide
theorem test_kcall :
    outcome [0x5B, 0x05]
      (withVector 0x14 (inUser (start 0 [])))
      (fun t => t.sr 15 == 0x3E002 && t.sr 0 == 0 && t.pc == 0x50014) = true := by
  decide
theorem test_lsl :
    outcome [0x70, 0x14]
      (start 0 [(1, 0x80000001)])
      (fun t => t.reg 1 == 0x10) = true := by
  decide
theorem test_lsl_count_is_five_bits :
    outcome [0x60, 0x12]
      (start 0 [(1, 1), (2, 0x20)])
      (fun t => t.reg 1 == 1) = true := by
  decide
theorem test_lsr :
    outcome [0x61, 0x12]
      (start 0 [(1, 0x80000000), (2, 0x1F)])
      (fun t => t.reg 1 == 1) = true := by
  decide
theorem test_asl_overflow_traps :
    outcome [0x72, 0x11]
      (withVector 0x41C (start 0x8000 [(1, 0x40000000)]))
      (fun t => t.reg 1 == 0x80000000 && t.sr 1 == 0x72 && t.sr 2 == 0x11 &&
        t.pc == 0x5041C) = true := by
  decide
theorem test_asl :
    outcome [0x72, 0x14]
      (start 0x8000 [(1, 0xFFFFFFFF)])
      (fun t => t.reg 1 == 0xFFFFFFF0) = true := by
  decide
theorem test_asr :
    outcome [0x73, 0x1F]
      (start 0 [(1, 0x80000000)])
      (fun t => t.reg 1 == 0xFFFF0000) = true := by
  decide
theorem test_csl :
    outcome [0x68, 0x12]
      (start 0 [(1, 0x12345678), (2, 0x10)])
      (fun t => t.reg 1 == 0x56781234) = true := by
  decide
theorem test_dlsl :
    outcome [0x74, 0x21]
      (start 0 [(2, 0), (3, 0x80000000)])
      (fun t => t.reg 2 == 1 && t.reg 3 == 0) = true := by
  decide
theorem test_dlsr :
    outcome [0x65, 0x25]
      (start 0 [(2, 1), (3, 0), (5, 0x21)])
      (fun t => t.reg 2 == 0 && t.reg 3 == 0) = true := by
  decide
theorem test_seb :
    outcome [0x6B, 0x12]
      (start 0 [(2, 0x12345680)])
      (fun t => t.reg 1 == 0xFFFFFF80) = true := by
  decide
theorem test_seh :
    outcome [0x7B, 0x12]
      (start 0 [(2, 0x8000)])
      (fun t => t.reg 1 == 0xFFFF8000) = true := by
  decide
theorem test_br :
    outcome [0x8B, 0x00, 0xFF, 0xF0]
      (start 0 [])
      (fun t => t.pc == 0x3DFF0) = true := by
  decide
theorem test_brGt_predicted :
    outcome [0x80, 0x20, 0xFF, 0xFD]
      (start 0 [(2, 0x64), (0, 1)])
      (fun t => t.pc == 0x3DFFC) = true := by
  decide
theorem test_brGt_not_taken :
    outcome [0x84, 0x1F, 0x00, 0x10]
      (start 0 [(1, 0xFFFFFFFF)])
      (fun t => t.pc == 0x3E004) = true := by
  decide
theorem test_brLt :
    outcome [0x85, 0x10, 0x00, 0x10]
      (start 0 [(1, 0xFFFFFFFF)])
      (fun t => t.pc == 0x3E010) = true := by
  decide
theorem test_brEq :
    outcome [0x86, 0x1F, 0x00, 0x11]
      (start 0 [(1, 15)])
      (fun t => t.pc == 0x3E010) = true := by
  decide
theorem test_brLe :
    outcome [0x88, 0x12, 0x00, 0x08]
      (start 0 [(1, 0x80000000), (2, 0x7FFFFFFF)])
      (fun t => t.pc == 0x3E008) = true := by
  decide
theorem test_brNe_not_taken :
    outcome [0x8E, 0x15, 0x00, 0x08]
      (start 0 [(1, 5)])
      (fun t => t.pc == 0x3E004) = true := by
  decide
theorem test_brGe_long :
    outcome [0x9D, 0x10, 0x00, 0x00, 0x00, 0x08]
      (start 0 [(1, 0)])
      (fun t => t.pc == 0x3E008) = true := by
  decide
theorem test_loop_taken :
    outcome [0x87, 0x31, 0xFF, 0xF8]
      (start 0 [(3, 0xFFFFFFFE)])
      (fun t => t.reg 3 == 0xFFFFFFFF && t.pc == 0x3DFF8) = true := by
  decide
theorem test_loop_true_sum :
    outcome [0x87, 0x31, 0xFF, 0xF8]
      (start 0 [(3, 0x7FFFFFFF)])
      (fun t => t.reg 3 == 0x80000000 && t.pc == 0x3E004) = true := by
  decide
theorem test_call :
    outcome [0x83, 0xF0, 0x00, 0x40]
      (start 0 [])
      (fun t => t.reg 15 == 0x3E004 && t.pc == 0x3E040) = true := by
  decide
theorem test_loadb :
    outcome [0xC1, 0x32, 0x00, 0x00]
      (withWords 0x1000 [0x12345678, 0x9ABCDEF0] (start 0 [(2, 0x1004)]))
      (fun t => t.reg 3 == 0x9A) = true := by
  decide
theorem test_loadh :
    outcome [0xC4, 0x10, 0x10, 0x04]
      (withWords 0x1000 [0x12345678, 0x9ABCDEF0] (start 0 []))
      (fun t => t.reg 1 == 0x9ABC) = true := by
  decide
theorem test_load_own_index :
    outcome [0xC9, 0x44, 0x0F, 0xFC]
      (withWords 0x1000 [0x12345678, 0x9ABCDEF0] (start 0 [(4, 4)]))
      (fun t => t.reg 4 == 0x12345678) = true := by
  decide
theorem test_loadd_wraps_to_r0 :
    outcome [0xCA, 0xF0, 0x10, 0x00]
      (withWords 0x1000 [0x12345678, 0x9ABCDEF0] (start 0 []))
      (fun t => t.reg 15 == 0x12345678 && t.reg 0 == 0x9ABCDEF0) = true := by
  decide
theorem test_load_misaligned_traps :
    outcome [0xC8, 0x40, 0x10, 0x02]
      (withVector 0x400 (start 0 [(4, 3)]))
      (fun t => t.reg 4 == 3 && t.sr 3 == 0x1002 && t.pc == 0x50400) = true := by
  decide
theorem test_loadbp :
    outcome [0xE0, 0x10, 0x00, 0x12]
      (withWords 0x3E010 [0x12345678, 0x9ABCDEF0] (start 0 []))
      (fun t => t.reg 1 == 0x56) = true := by
  decide
theorem test_loadhp :
    outcome [0xE4, 0x30, 0x00, 0x16]
      (withWords 0x3E010 [0x12345678, 0x9ABCDEF0] (start 0 []))
      (fun t => t.reg 3 == 0xDEF0) = true := by
  decide
theorem test_loadp :
    outcome [0xE8, 0x50, 0x00, 0x10]
      (withWords 0x3E010 [0x12345678, 0x9ABCDEF0] (start 0 []))
      (fun t => t.reg 5 == 0x12345678) = true := by
  decide
theorem test_loaddp :
    outcome [0xEA, 0x80, 0x00, 0x10]
      (withWords 0x3E010 [0x12345678, 0x9ABCDEF0] (start 0 []))
      (fun t => t.reg 8 == 0x12345678 && t.reg 9 == 0x9ABCDEF0) = true := by
  decide
theorem test_storeb :
    outcome [0xA0, 0x20, 0x10, 0x01]
      (withWords 0x1000 [0x12345678, 0x9ABCDEF0] (start 0 [(2, 0xAABBCCDD)]))
      (fun t => t.mem.readWord 0x1000 == 0x12DD5678) = true := by
  decide
theorem test_storeh :
    outcome [0xA4, 0x20, 0x10, 0x02]
      (withWords 0x1000 [0x12345678, 0x9ABCDEF0] (start 0 [(2, 0xAABBCCDD)]))
      (fun t => t.mem.readWord 0x1000 == 0x1234CCDD) = true := by
  decide
theorem test_store :
    outcome [0xA8, 0x20, 0x10, 0x04]
      (withWords 0x1000 [0x12345678, 0x9ABCDEF0] (start 0 [(2, 0xAABBCCDD)]))
      (fun t => t.mem.readWord 0x1004 == 0xAABBCCDD &&
        t.mem.readWord 0x1000 == 0x12345678) = true := by
  decide
theorem test_stored :
    outcome [0xAA, 0x20, 0x10, 0x00]
      (start 0 [(2, 0x11111111), (3, 0x22222222)])
      (fun t => t.mem.readWord 0x1000 == 0x11111111 &&
        t.mem.readWord 0x1004 == 0x22222222) = true := by
  decide
theorem test_laddr :
    outcome [0xCF, 0x22, 0xFF, 0xFF]
      (start 0 [(2, 0x64)])
      (fun t => t.reg 2 == 0x63) = true := by
  decide
theorem test_laddr_long :
    outcome [0xDE, 0x20, 0x12, 0x34, 0x56, 0x78]
      (start 0 [])
      (fun t => t.reg 2 == 0x12345678) = true := by
  decide
theorem test_laddrp :
    outcome [0xEE, 0x30, 0x00, 0x20]
      (start 0 [])
      (fun t => t.reg 3 == 0x3E020) = true := by
  decide
theorem test_undefinedReg :
    outcome [0x3C, 0x12]
      (withVector 0x404 (start 0 []))
      (fun t => t.sr 0 == 0x3E000 && t.sr 1 == 0x3C && t.sr 2 == 1 && t.sr 3 == 2 &&
        t.pc == 0x50404) = true := by
  decide
theorem test_undefinedReg_in_user_mode :
    outcome [0x3C, 0x12]
      (withVector 0x404 (inUser (start 0 [])))
      (fun t => t.sr 0 == 1 && t.sr 1 == 0x3C && t.sr 15 == 0x3E000 &&
        t.pc == 0x50404) = true := by
  decide
theorem test_undefinedMem :
    outcome [0xAE, 0x10, 0x00, 0x08]
      (withVector 0x404 (start 0 []))
      (fun t => t.sr 1 == 0xAE && t.sr 3 == 8 && t.pc == 0x50404) = true := by
  decide
theorem test_undefinedMem_row_8_has_no_index :
    outcome [0x89, 0x12, 0x00, 0x08]
      (withVector 0x404 (start 0 [(2, 0x100)]))
      (fun t => t.sr 1 == 0x89 && t.sr 3 == 0x3E008 && t.pc == 0x50404) = true := by
  decide
theorem test_machineid :
    (match exec (.machineid 3) (start 0 []) with
      | .next t => t.reg 3
      | _ => 0) = Config.machineId := by rfl
theorem test_version :
    (match exec (.version 3) (start 0 []) with
      | .next t => t.reg 3
      | _ => 0) = Config.microcodeVersion := by rfl

/-- 512 lines of a quadword in each of two sets (00_scope.md R4). -/
theorem test_cache_size : cacheBytes = 0x4000 := by rfl

/-- A line holds a quadword. -/
theorem test_cache_tag :
    (copied 0x1004).holds 0x100F = true ∧ (copied 0x1004).holds 0x1010 = false := by decide

/-- Lines 0 to 255 are the code half, 256 to 511 the data half (10_state.md R49). -/
theorem test_cache_halves (a : Nat) :
    cacheLine .code a < 256 ∧ 256 ≤ cacheLine .data a ∧ cacheLine .data a < 512 := by
  simp only [cacheLine, codeLines, cacheLines]
  omega

/-- 95_test_vectors.md section 2.4, the rows of RDIV 3F800000 by 00000000: DZ = 1, then B = 1. -/
theorem test_rdiv_by_zero_traps :
    outcome [0x26, 0x12] (withVector 0x41C (start 0x800 [(1, 0x3F800000), (2, 0)]))
        (fun t => t.reg 1 == 0x3F800000 && t.sr 3 == 0x14 && t.pc == 0x5041C) = true ∧
      outcome [0x26, 0x12] (withVector 0x41C (start 0x40 [(1, 0x3F800000), (2, 0)]))
        (fun t => t.reg 1 == 0x3F800000 && t.sr 3 == 0x19 && t.pc == 0x5041C) = true := by
  decide

/-- 95_test_vectors.md section 2.4, RADD inexact with IR = 1; 42_real.md R290, RADD 3F800000 + 00000000
with B = 1. -/
theorem test_radd_traps :
    outcome [0x23, 0x12] (withVector 0x41C (start 0x80 [(1, 0x3DCCCCCD), (2, 0x3E4CCCCD)]))
        (fun t => t.reg 1 == 0x3E99999A && t.sr 3 == 0x18 && t.pc == 0x5041C) = true ∧
      outcome [0x23, 0x12] (withVector 0x41C (start 0x40 [(1, 0x3F800000), (2, 0)]))
        (fun t => t.reg 1 == 0x3F800000 && t.sr 3 == 0x19 && t.pc == 0x5041C) = true := by
  decide

/-- A data read with one older copy keeps one copy of the quadword, held in its line
(10_state.md R49). -/
theorem test_read_fills_line :
    ((({ start 0 [] with staleData := [copied 4, copied 4] }).lineFilled 0 .data 4).staleData.map
      fun l : CacheLine => (l.tag, l.resident)) = [(0, true)] := by
  have h (l : CacheLine) (hl : l.tag = 0) (pick : Nat) :
      (loadLine pick l [copied 4, copied 4]).map (fun l => (l.tag, l.resident)) = [(0, true)] := by
    have : loadLine pick l [copied 4, copied 4] = [{ l with resident := true }] := by
      have hf : ([copied 4, copied 4].filter fun k => k.tag != l.tag) = [] := by
        rw [hl]; decide
      simp [loadLine, hf, evictLine, cacheSets, fullLine, residents, CacheLine.dataLine,
        CacheLine.address]
    simp [this, hl]
  have hany : ([copied 4, copied 4].any fun l => l.dataLine == cacheLine .data 4) = true := by
    simp [copied, CacheLine.dataLine, CacheLine.address, cacheTag, cacheLine, lineBytes]
  simp only [State.lineFilled, hany, if_true]
  refine h _ ?_ _
  simpa [CacheLine.holds, cacheTag, lineBytes] using
    lineFilled_quadword_holds { start 0 [] with staleData := [copied 4, copied 4] } 0 4

/-- Under each value of `BR_MAP` the branches and the empty columns are the 16 columns of rows 8 and 9
(30_encoding.md R151). -/
theorem test_branch_columns (p : BrMap) (n : Nib) :
    n ∈ [0, 2, 3, 4, 5, 6, 7, 8, (branchColumnsOf p).ne, (branchColumnsOf p).br,
      (branchColumnsOf p).leImm, (branchColumnsOf p).geImm, (branchColumnsOf p).neImm, 1, 9,
      (branchColumnsOf p).empty] := by
  revert n
  cases p <;> decide

/-- Under each value of `MEMOP_NIBBLE` a column of rows C to F is empty or holds one direct or indexed
instruction (30_encoding.md R152). -/
theorem test_memop_columns (b : ByteColumns) (d : DoubleColumns) (n : Nib) :
    n ∈ emptyMemColumns ⟨b, d⟩ ++ [byteColumnOf ⟨b, d⟩, byteColumnOf ⟨b, d⟩ + 1, 4, 5, 8, 9,
      doubleColumnOf ⟨b, d⟩, doubleColumnOf ⟨b, d⟩ + 1, 14, 15] := by
  revert n
  cases b <;> cases d <;> decide

/-- An SR14 outside real memory is refused (92_eei_decisions.md D47). -/
theorem test_sus_outside_memory :
    exec (.sus 1 15) (withSrs [(14, 0xFFFFFFFC)] (start 0 [])) = .refused .absentRealAddress := by
  have h : realExists (0xFFFFFFFC : Word).toNat 4 = false := by
    rw [Bool.eq_false_iff, ne_eq, realExists_iff]
    have := memSize_bounds.2
    show ¬ 0xFFFFFFFC + 4 ≤ _
    omega
  have h2 : currentPcb (withSrs [(14, 0xFFFFFFFC)] (start 0 [])) = .refused .absentRealAddress := by
    show (if realExists (0xFFFFFFFC : Word).toNat 4 = true then _ else _) = _
    rw [h]
    rfl
  show (Res.bind (currentPcb (withSrs [(14, 0xFFFFFFFC)] (start 0 []))) _).out _ = _
  rw [h2]
  rfl

/-- A parity error of a fetch goes to its own vector with the failing address
(60_exceptions.md R455). -/
theorem test_parity_interrupt :
    answers (step { withVector 0x408 (start 0 []) with
        parityPending := [{ fetch := true, addr := 0x1234 }] })
      (fun t => t.pc == 0x50408 && t.sr 3 == 0x1234 && t.sr 0 == 0x3E000 &&
        t.parityPending == []) = true := by decide

/-- The failing word of a double word is the address in SR3 (60_exceptions.md R455). -/
theorem test_parity_of_second_word :
    outcome [0xCA, 0x20, 0x10, 0x00] { start 0 [] with badWords := [0x401] }
      (fun t => t.parityPending == [{ fetch := false, addr := 0x1004 }] && t.badWords == [] &&
        t.pc == 0x3E004) = true := by decide

/-- Of two boards that request DMA of one word at once, the one on chain 2 is served first: the other
one's word remains (60_exceptions.md R486, R487). -/
theorem test_dma_priority :
    (match applyArrival (.dma [{ device := 1, dma := .writeWord 0x1003 0x11 },
          { device := 2, dma := .writeWord 0x1000 0x22 }])
        { start 0 [] with
          boards := [board 1 .one none [], { board 2 .one none [] with dmaChain := .two }] } with
      | .ok _ t => t.mem.readWord 0x1000
      | _ => 0) = 0x11 := by decide

/-- A model ends the run at a complete power loss (70_reset_and_hazards.md R503). -/
theorem test_power_lost :
    (match step { start 0 [] with arrivals := [[.powerLost]] } with
      | .fault .powerLost => true
      | _ => false) = true := by decide

/-- A run with fair ticks: the paused processor without a CCB (60_exceptions.md R460, R472). -/
theorem test_fair_run :
    isRun (fun _ => [.tick]) (fun _ => { start 0 [] with paused := true }) ∧
      fairTicks fun _ => [.tick] :=
  ⟨fun _ => by rfl, fun n => ⟨n, le_rfl, List.mem_singleton.2 rfl⟩⟩

/-- The first step from reset runs the instruction placed at the program counter. -/
theorem test_step_runs_placed_instruction :
    answers (step (State.reset.withFetchWord 16 0x1137))
      (fun t => t.reg 3 == 7 && t.pc == 0x3E002) = true := by
  decide

/-! ### Witnesses: states and operands that meet the hypotheses of the obligations -/

/-- Every installation has the first four megabytes. -/
theorem fits {n : Nat} (h : n ≤ 0x400000) : n ≤ Config.memSize := h.trans memSize_bounds.1

/-- An outcome with a property is a next state that has it. -/
theorem next_of_answers {o : Out} {p : State → Bool} (h : answers o p = true) :
    ∃ t, o = .next t ∧ p t = true := by
  cases o with
  | next t => exact ⟨t, rfl, h⟩
  | fault f => cases h
  | refused r => cases h

theorem witness_DecodeEncode :
    (Instr.kcall 255).wf = true ∧ (Instr.undefinedReg 0x4C 15 15).wf = true ∧
      (Instr.undefinedMem 0xFC 15 15 (.long 0xFFFFFFFF)).wf = true := by
  decide

theorem witness_EncodeDecode :
    decode [0x5B, 0xFF, 0x01] = .ok (.kcall 255, [0x01]) ∧
      decode [0x4C, 0xFF] = .ok (.undefinedReg 0x4C 15 15, []) := ⟨by rfl, by rfl⟩

/-- Tails of exactly the length an opcode asks for, and one byte short of it. -/
theorem witness_LengthByOpcode :
    (2 ≤ [(0xFF : Byte)].length + 1 ∧ ([] : List Byte).length + 1 < 2) ∧
      (4 ≤ [(0 : Byte), 0, 0].length + 1 ∧ [(0 : Byte), 0].length + 1 < 4) ∧
      6 ≤ [(0 : Byte), 0, 0, 0, 0].length + 1 ∧ [(0 : Byte), 0, 0, 0].length + 1 < 6 := by
  decide

/-- The reset state with MOVEI R3,7 at the program counter. -/
def placed : State := State.reset.withFetchWord 16 0x1137

theorem witness_StepRunsDecoded :
    boundary placed = .ok () placed ∧ pendingInterrupt placed = .ok none placed ∧
      placed.paused = false ∧ fetch placed = .ok (.bytes [0x11, 0x37]) placed ∧
      decode [0x11, 0x37] = .ok (.movei 3 7, []) := ⟨by rfl, by rfl, by rfl, by rfl, by rfl⟩

/-- Older copies of the quadwords before and after the instruction's may be cached, and the words next to
its word may fail. -/
def placedAmidst : State :=
  { placed with
    staleCode := [copied 0x3DFF0, copied 0x3E010], staleData := [copied 0x3E000]
    badWords := [0xF7FF, 0xF801] }

theorem witness_KernelStepRunsInstruction :
    (Instr.movei 3 7).wf = true ∧ placedAmidst.mode = .kernel ∧ placedAmidst.paused = false ∧
      placedAmidst.arrivals = [] ∧ placedAmidst.dmaTurns = [] ∧ placedAmidst.powerFailPending = false ∧
      placedAmidst.switch0Pending = false ∧ placedAmidst.parityPending = [] ∧
      placedAmidst.pc.toNat % 2 = 0 ∧
      placedAmidst.pc.toNat + (encode (.movei 3 7)).length ≤ Config.memSize ∧
      (∀ (k : Nat) (h : k < (encode (.movei 3 7)).length),
        placedAmidst.mem.read (placedAmidst.pc.toNat + k) = (encode (.movei 3 7))[k]) ∧
      (∀ l ∈ placedAmidst.staleCode, ∀ k < (encode (.movei 3 7)).length,
        l.holds (placedAmidst.pc.toNat + k) = false) ∧
      ∀ w ∈ placedAmidst.badWords, w < placedAmidst.pc.toNat / 4 ∨
        (placedAmidst.pc.toNat + (encode (.movei 3 7)).length - 1) / 4 < w :=
  ⟨by decide, by decide, by decide, by decide, by decide, by decide, by decide, by decide, by decide,
    fits (by decide), by decide, by decide, by decide⟩

/-- Eight boards on line 1, the first on DMA chain 2, the last at the end of chain 1. -/
def installed : List Board :=
  { board 9 .one none [] with dmaChain := .two } ::
    (List.range 7).map fun k =>
      { board (BitVec.ofNat 8 k) .one none [] with dmaPosition := Fin.ofNat 8 (k + 1) }

theorem chainsLegal_installed : chainsLegal (installed.map Board.slot) :=
  ⟨fun l => by cases l <;> decide, by decide⟩

theorem witness_ResetInv : chainsLegal (installed.map Board.slot) ∧ installed.length = 8 :=
  ⟨chainsLegal_installed, by decide⟩

theorem witness_StepKeepsInv :
    ({ placed with boards := installed }).Inv ∧
      ∃ t, step { placed with boards := installed } = .next t :=
  ⟨⟨by decide, by decide, ⟨by decide, by decide⟩, ⟨by decide, by decide⟩, by decide, by decide,
      chainsLegal_installed, dataLinesLegal_nil⟩,
    (next_of_answers (p := fun _ => true) (by decide)).imp fun _ h => h.1⟩

/-- A blank memory and one with a byte in it; the last byte of a whole page; the addresses next to
the page. -/
theorem witness_ResetValues :
    Memory.wf [] ∧ Memory.wf [(0x3E000, 0x11)] ∧
      (∃ page : List Byte, 4095 < page.length) ∧
      (0x3DFFF < 0x3E000 ∨ 0x3F000 ≤ 0x3DFFF) ∧ (0x3F000 < 0x3E000 ∨ 0x3F000 ≤ 0x3F000) :=
  ⟨by decide, by decide, ⟨List.replicate 4096 0x11, by rw [List.length_replicate]; decide⟩, by decide, by decide⟩

theorem witness_RegisterReadAfterWrite :
    ∃ i j : Nib, j ≠ i ∧ j ≠ i + 1 := ⟨15, 1, by decide⟩

theorem witness_MemoryReadAfterWrite :
    ∃ (m : Memory) (a : Nat) (bs : List Byte), m.wf ∧ 1 < bs.length ∧
      (a - 1 < a ∨ a + bs.length ≤ a - 1) ∧ (a + 2 < a ∨ a + bs.length ≤ a + 2) :=
  ⟨[(7, 1)], 7, [0, 2], by decide⟩

/-- Operands at and next to the limits of a word. -/
def limits (tw : Word) : State :=
  start tw [(1, 0x7FFFFFFF), (2, 1), (3, 0x80000000), (4, 0x10000), (5, 0x8000), (6, 0x40000000),
    (7, 0xFFFFFFFF), (8, 0x7FFFFFFE), (9, 0x7FFF), (10, 0x80000001), (11, 0xC0000000)]

theorem witness_SumsDeliver :
    (limits 0x8000).tw.getMsbD 16 = true ∧
      BitVec.saddOverflow ((limits 0x8000).reg 8) ((limits 0x8000).reg 2) = false ∧
      BitVec.ssubOverflow ((limits 0x8000).reg 10) ((limits 0x8000).reg 2) = false ∧
      BitVec.smulOverflow ((limits 0x8000).reg 4) ((limits 0x8000).reg 9) = false ∧
      (limits 0x8000).reg 10 ≠ 0x80000000#32 ∧
      BitVec.saddOverflow ((limits 0x8000).reg 8) 1#32 = false ∧
      BitVec.ssubOverflow ((limits 0x8000).reg 10) 1#32 = false ∧
      BitVec.smulOverflow ((limits 0x8000).reg 11) 2#32 = false := by
  decide

theorem witness_SumsTrap :
    (limits 0x8000).tw.getMsbD 16 = true ∧
      BitVec.saddOverflow ((limits 0x8000).reg 1) ((limits 0x8000).reg 2) = true ∧
      BitVec.ssubOverflow ((limits 0x8000).reg 3) ((limits 0x8000).reg 2) = true ∧
      BitVec.smulOverflow ((limits 0x8000).reg 4) ((limits 0x8000).reg 5) = true ∧
      (limits 0x8000).reg 3 = 0x80000000#32 ∧
      BitVec.saddOverflow ((limits 0x8000).reg 1) 1#32 = true ∧
      BitVec.ssubOverflow ((limits 0x8000).reg 3) 1#32 = true ∧
      BitVec.smulOverflow ((limits 0x8000).reg 6) 2#32 = true := by
  decide

/-- The least number by 1, and the next one by -1. -/
theorem witness_DivideAndRemainder :
    ((limits 0).reg 2 ≠ 0 ∧
      ¬ ((limits 0).reg 3 = 0x80000000#32 ∧ (limits 0).reg 2 = 0xFFFFFFFF#32)) ∧
      (limits 0).reg 7 ≠ 0 ∧
      ¬ ((limits 0).reg 10 = 0x80000000#32 ∧ (limits 0).reg 7 = 0xFFFFFFFF#32) := by
  decide

theorem witness_DivideExceptions :
    ((limits 0).reg 0 = 0 ∧ (limits 0).tw.getMsbD 17 = false) ∧
      ((limits 0x4000).reg 0 = 0 ∧ (limits 0x4000).tw.getMsbD 17 = true) ∧
      ((limits 0).reg 3 = 0x80000000#32 ∧ (limits 0).reg 7 = 0xFFFFFFFF#32 ∧
        (limits 0).tw.getMsbD 16 = false) ∧
      ((limits 0x8000).reg 3 = 0x80000000#32 ∧ (limits 0x8000).reg 7 = 0xFFFFFFFF#32 ∧
        (limits 0x8000).tw.getMsbD 16 = true) ∧
      (limits 0).reg 3 ≠ 0 ∧ ((limits 0).reg 3).toNat ≤ ((limits 0).reg 3).toNat := by
  decide

theorem witness_ExtendedSums : (15 : Nib) ≠ 0 ∧ (0 : Nib) = 0 := by decide

theorem witness_ExtendedMultiplyDivide :
    ((limits 0).reg 1).toNat < ((limits 0).reg 3).toNat := by decide

theorem witness_ArithmeticShifts :
    (limits 0x8000).tw.getMsbD 16 = true ∧
      (-(2 ^ 31) ≤ ((limits 0x8000).reg 11).toInt * 2 ^ (1 : Nib).toNat ∧
        ((limits 0x8000).reg 11).toInt * 2 ^ (1 : Nib).toNat < 2 ^ 31) ∧
      ¬ (-(2 ^ 31) ≤ ((limits 0x8000).reg 6).toInt * 2 ^ (1 : Nib).toNat ∧
        ((limits 0x8000).reg 6).toInt * 2 ^ (1 : Nib).toNat < 2 ^ 31) := by
  decide

theorem witness_RealInstructionsComplete :
    ∀ n, n ∈ [18, 19, 20, 24, 25] → (start 0xFFFFC73F []).tw.getMsbD n = false := by decide

/-- Singles: 1 by 2, the least number, the greatest number, 2 by 4, INF, NaN, DN, Zero. -/
def singles (tw : Word) : State :=
  start tw [(1, 0x3F800000), (2, 0x00800000), (3, 0x7F7FFFFF), (4, 0x40000000), (5, 0xFF800000),
    (6, 0x7FC00000), (7, 0x80000001), (8, 0x80000000), (9, 0x7F000000), (10, 0x40800000),
    (11, 0x41000000)]

theorem singleValue_one : singleValue 0x3F800000 = 1 := by
  have h : (mfield (0x3F800000 : Word) 9 31).toNat = 0 := by decide
  have h2 : singleExp 0x3F800000 = 127 := by decide
  have h3 : mbit (0x3F800000 : Word) 0 = false := by decide
  rw [singleValue, h, h2, h3]
  norm_num

theorem singleValue_least : singleValue 0x00800000 = 1 / 2 ^ 126 := by
  have h : (mfield (0x00800000 : Word) 9 31).toNat = 0 := by decide
  have h2 : singleExp 0x00800000 = 1 := by decide
  have h3 : mbit (0x00800000 : Word) 0 = false := by decide
  rw [singleValue, h, h2, h3]
  norm_num

theorem singleValue_greatest : singleValue 0x7F7FFFFF = (2 - 1 / 2 ^ 23) * 2 ^ 127 := by
  have h : (mfield (0x7F7FFFFF : Word) 9 31).toNat = 2 ^ 23 - 1 := by decide
  have h2 : singleExp 0x7F7FFFFF = 254 := by decide
  have h3 : mbit (0x7F7FFFFF : Word) 0 = false := by decide
  rw [singleValue, h, h2, h3]
  norm_num

theorem singleValue_two : singleValue 0x40000000 = 2 := by
  have h : (mfield (0x40000000 : Word) 9 31).toNat = 0 := by decide
  have h2 : singleExp 0x40000000 = 128 := by decide
  have h3 : mbit (0x40000000 : Word) 0 = false := by decide
  rw [singleValue, h, h2, h3]
  norm_num

/-- The sum and the difference of 2 and 1, the product of 1 and the least number, the quotient of
the greatest number and 1. -/
theorem witness_SingleArithmeticRounds :
    ((singles 0).tw.getMsbD 22 = false ∧ (singles 0).tw.getMsbD 23 = false ∧
      (singles 0).tw.getMsbD 24 = false) ∧
      (singleNumber ((singles 0).reg 1) ∧ singleNumber ((singles 0).reg 2) ∧
        singleNumber ((singles 0).reg 3) ∧ singleNumber ((singles 0).reg 4)) ∧
      ∀ v ∈ [singleValue ((singles 0).reg 4) + singleValue ((singles 0).reg 1),
          singleValue ((singles 0).reg 4) - singleValue ((singles 0).reg 1),
          singleValue ((singles 0).reg 1) * singleValue ((singles 0).reg 2),
          singleValue ((singles 0).reg 3) / singleValue ((singles 0).reg 1)],
        1 / 2 ^ 126 ≤ |v| ∧ |v| ≤ (2 - 1 / 2 ^ 23) * 2 ^ 127 := by
  refine ⟨by decide, ?_, ?_⟩
  · unfold singleNumber; decide
  · have h1 : (singles 0).reg 1 = 0x3F800000 := by decide
    have h2 : (singles 0).reg 2 = 0x00800000 := by decide
    have h3 : (singles 0).reg 3 = 0x7F7FFFFF := by decide
    have h4 : (singles 0).reg 4 = 0x40000000 := by decide
    rw [h1, h2, h3, h4, singleValue_one, singleValue_least, singleValue_greatest, singleValue_two]
    intro v hv
    simp only [List.mem_cons, List.not_mem_nil, or_false] at hv
    obtain rfl | rfl | rfl | rfl := hv <;> norm_num

/-- Doubles: Zero, 1, the least number, the greatest number, 2, -INF, NaN, DN. -/
def doubles (tw : Word) : State :=
  start tw [(2, 0x3FF00000), (4, 0x00100000), (6, 0x7FEFFFFF), (7, 0xFFFFFFFF), (8, 0x40000000),
    (10, 0xFFF00000), (12, 0x7FF00000), (13, 1), (14, 0x80000000), (15, 1)]

theorem doubleValue_one : doubleValue 0x3FF0000000000000 = 1 := by
  have h : (mfield (0x3FF0000000000000 : DWord) 12 63).toNat = 0 := by decide
  have h2 : doubleExp 0x3FF0000000000000 = 1023 := by decide
  have h3 : mbit (0x3FF0000000000000 : DWord) 0 = false := by decide
  rw [doubleValue, h, h2, h3]
  norm_num

theorem doubleValue_least : doubleValue 0x0010000000000000 = 1 / 2 ^ 1022 := by
  have h : (mfield (0x0010000000000000 : DWord) 12 63).toNat = 0 := by decide
  have h2 : doubleExp 0x0010000000000000 = 1 := by decide
  have h3 : mbit (0x0010000000000000 : DWord) 0 = false := by decide
  rw [doubleValue, h, h2, h3]
  rw [show ((1 : ℕ) : ℤ) - 1023 = -((1022 : ℕ) : ℤ) by norm_num, zpow_neg, zpow_natCast]
  simp

theorem doubleValue_greatest : doubleValue 0x7FEFFFFFFFFFFFFF = (2 - 1 / 2 ^ 52) * 2 ^ 1023 := by
  have h : (mfield (0x7FEFFFFFFFFFFFFF : DWord) 12 63).toNat = 2 ^ 52 - 1 := by decide
  have h2 : doubleExp 0x7FEFFFFFFFFFFFFF = 2046 := by decide
  have h3 : mbit (0x7FEFFFFFFFFFFFFF : DWord) 0 = false := by decide
  rw [doubleValue, h, h2, h3]
  rw [show ((2046 : ℕ) : ℤ) - 1023 = ((1023 : ℕ) : ℤ) by norm_num, zpow_natCast]
  norm_num

theorem doubleValue_two : doubleValue 0x4000000000000000 = 2 := by
  have h : (mfield (0x4000000000000000 : DWord) 12 63).toNat = 0 := by decide
  have h2 : doubleExp 0x4000000000000000 = 1024 := by decide
  have h3 : mbit (0x4000000000000000 : DWord) 0 = false := by decide
  rw [doubleValue, h, h2, h3]
  norm_num

theorem witness_DoubleArithmeticRounds :
    ((doubles 0).tw.getMsbD 22 = false ∧ (doubles 0).tw.getMsbD 23 = false ∧
      (doubles 0).tw.getMsbD 24 = false) ∧
      (doubleNumber ((doubles 0).pair 2) ∧ doubleNumber ((doubles 0).pair 4) ∧
        doubleNumber ((doubles 0).pair 6) ∧ doubleNumber ((doubles 0).pair 8)) ∧
      ∀ v ∈ [doubleValue ((doubles 0).pair 8) + doubleValue ((doubles 0).pair 2),
          doubleValue ((doubles 0).pair 8) - doubleValue ((doubles 0).pair 2),
          doubleValue ((doubles 0).pair 2) * doubleValue ((doubles 0).pair 4),
          doubleValue ((doubles 0).pair 6) / doubleValue ((doubles 0).pair 2)],
        1 / 2 ^ 1022 ≤ |v| ∧ |v| ≤ (2 - 1 / 2 ^ 52) * 2 ^ 1023 := by
  refine ⟨by decide, ?_, ?_⟩
  · unfold doubleNumber; decide
  · have h1 : (doubles 0).pair 2 = 0x3FF0000000000000 := by decide
    have h2 : (doubles 0).pair 4 = 0x0010000000000000 := by decide
    have h3 : (doubles 0).pair 6 = 0x7FEFFFFFFFFFFFFF := by decide
    have h4 : (doubles 0).pair 8 = 0x4000000000000000 := by decide
    rw [h1, h2, h3, h4, doubleValue_one, doubleValue_least, doubleValue_greatest, doubleValue_two]
    have hp : (1 : ℚ) ≤ 2 ^ 1022 := one_le_pow₀ (by norm_num)
    rw [show (2 : ℚ) ^ 1023 = 2 * 2 ^ 1022 from pow_succ' 2 1022]
    generalize (2 : ℚ) ^ 1022 = p at hp
    have h5 : 0 < 1 / p := by positivity
    have h6 : 1 / p ≤ 1 := (div_le_one (by linarith)).mpr hp
    intro v hv
    simp only [List.mem_cons, List.not_mem_nil, or_false] at hv
    obtain rfl | rfl | rfl | rfl := hv <;> rw [abs_of_pos (by norm_num; try linarith)] <;>
      constructor <;> nlinarith

/-- R5 and R6 count as INF, R7 and R8 as Zero, R2 and R3 are the numbers of least and greatest
exponent; of the pairs, 10 and 12 count as INF, 14 and 0 as Zero, 4 and 6 are numbers: operands for
each clause, in both formats; the divide-by-zero trap may be on. -/
theorem witness_SpecialOperands :
    ((singles 0x800).tw.getMsbD 25 = false ∧ (singles 0x800).tw.getMsbD 20 = true ∧
      (singles 0).tw.getMsbD 25 = false ∧ (singles 0).tw.getMsbD 20 = false ∧
      (∀ i ∈ [(5 : Nib), 6], patternExp 8 ((singles 0).reg i) = 2 ^ 8 - 1) ∧
      (∀ i ∈ [(7 : Nib), 8], patternExp 8 ((singles 0).reg i) = 0) ∧
      ∀ i ∈ [(2 : Nib), 3], isNumber 8 ((singles 0).reg i)) ∧
      (doubles 0).tw.getMsbD 25 = false ∧ (doubles 0).tw.getMsbD 20 = false ∧
      (∀ i ∈ [(10 : Nib), 12], patternExp 11 ((doubles 0).pair i) = 2 ^ 11 - 1) ∧
      (∀ i ∈ [(14 : Nib), 0], patternExp 11 ((doubles 0).pair i) = 0) ∧
      ∀ i ∈ [(4 : Nib), 6], isNumber 11 ((doubles 0).pair i) := by
  unfold isNumber; decide

theorem numberValue_one :
    numberValue 8 (0x3F800000 : Word) = 1 ∧ numberValue 11 (0x3FF0000000000000 : DWord) = 1 := by
  have h : patternExp 8 (0x3F800000 : Word) = 127 := by decide
  have h2 : patternExp 11 (0x3FF0000000000000 : DWord) = 1023 := by decide
  have h3 : (0x3F800000 : Word).getMsbD 0 = false := by decide
  have h4 : (0x3FF0000000000000 : DWord).getMsbD 0 = false := by decide
  constructor
  · rw [numberValue, patternValue, h, h3]; norm_num
  · rw [numberValue, patternValue, h2, h4]; norm_num

/-- A special operand with the before trap on; two numbers, 1 and 1, with a sum that is not zero and
a difference that is; a Zero divisor with its trap on; the manual's examples. -/
theorem witness_RealTraps :
    ((singles 0x40).tw.getMsbD 25 = true ∧
      ¬ (isNumber 8 ((singles 0x40).reg 2) ∧ isNumber 8 ((singles 0x40).reg 7)) ∧
      ¬ (isNumber 11 ((doubles 0x40).pair 10) ∧ isNumber 11 ((doubles 0x40).pair 2))) ∧
      (isNumber 8 ((singles 0).reg 1) ∧
        exactResult .add (numberValue 8 ((singles 0).reg 1)) (numberValue 8 ((singles 0).reg 1)) ≠ 0 ∧
        exactResult .sub (numberValue 8 ((singles 0).reg 1)) (numberValue 8 ((singles 0).reg 1)) = 0) ∧
      (isNumber 11 ((doubles 0).pair 2) ∧
        exactResult .div (numberValue 11 ((doubles 0).pair 2)) (numberValue 11 ((doubles 0).pair 2)) ≠
          0 ∧
        exactResult .sub (numberValue 11 ((doubles 0).pair 2)) (numberValue 11 ((doubles 0).pair 2)) =
          0) ∧
      ((singles 0x800).tw.getMsbD 25 = false ∧ (singles 0x800).tw.getMsbD 20 = true ∧
        patternExp 8 ((singles 0x800).reg 7) = 0 ∧ patternExp 11 ((doubles 0x800).pair 14) = 0) ∧
      ((singles 0x2000).tw.getMsbD 18 = true ∧ (singles 0x2000).reg 9 = 0x7F000000#32 ∧
        (singles 0x2000).reg 10 = 0x40800000#32) ∧
      (singles 0x1000).tw.getMsbD 19 = true ∧ (singles 0x1000).reg 2 = 0x00800000#32 ∧
        (singles 0x1000).reg 11 = 0x41000000#32 := by
  rw [show (singles 0).reg 1 = 0x3F800000 by decide,
    show (doubles 0).pair 2 = 0x3FF0000000000000 by decide, numberValue_one.1, numberValue_one.2]
  refine ⟨by unfold isNumber; decide, ⟨by unfold isNumber; decide, ?_, ?_⟩,
    ⟨by unfold isNumber; decide, ?_, ?_⟩, by decide, by decide, by decide⟩ <;>
    norm_num [exactResult]

/-- Integers: 0, and the greatest of 24 bits. Reals, in both formats: the numbers of least and
greatest exponent; a Zero; DN and INF with the before trap on and off. -/
theorem witness_Conversions :
    ((limits 0).reg 0).toInt = 0 ∧
      (((start 0 [(1, 0xFF000000)]).reg 1).toInt.natAbs ≤ 2 ^ 24 ∧
        ((start 0 [(1, 0xFF000000)]).reg 1).toInt ≠ 0) ∧
      (singleNumber ((singles 0).reg 2) ∧ isNumber 8 ((singles 0).reg 2) ∧
        isNumber 8 ((singles 0).reg 3) ∧ isNumber 11 ((doubles 0).pair 4) ∧
        isNumber 11 ((doubles 0).pair 6)) ∧
      (patternExp 8 ((singles 0).reg 8) = 0 ∧ ¬ isSpecial 8 ((singles 0).reg 8) ∧
        patternExp 11 ((doubles 0).pair 0) = 0 ∧ ¬ isSpecial 11 ((doubles 0).pair 0)) ∧
      ∀ tw ∈ [(0 : Word), 0x40],
        isSpecial 8 ((singles tw).reg 5) ∧ isSpecial 8 ((singles tw).reg 7) ∧
        isSpecial 11 ((doubles tw).pair 10) ∧ isSpecial 11 ((doubles tw).pair 14) ∧
        (singles tw).tw.getMsbD 25 = (tw == 0x40) ∧ (doubles tw).tw.getMsbD 25 = (tw == 0x40) := by
  refine ⟨by decide, by decide, by unfold singleNumber isNumber; decide, by unfold isSpecial; decide,
    fun tw h => ?_⟩
  simp only [List.mem_cons, List.not_mem_nil, or_false] at h
  unfold isSpecial
  obtain rfl | rfl := h <;> decide

/-- Two numbers with the before trap on; a special operand with it off and on; in both formats. -/
theorem witness_RealCompare :
    ((isSpecial 8 ((singles 0x40).reg 2) ∨ isSpecial 8 ((singles 0x40).reg 8) →
        (singles 0x40).tw.getMsbD 25 = false) ∧
      (isSpecial 11 ((doubles 0x40).pair 2) ∨ isSpecial 11 ((doubles 0x40).pair 0) →
        (doubles 0x40).tw.getMsbD 25 = false)) ∧
      ∀ tw ∈ [(0 : Word), 0x40],
        (isSpecial 8 ((singles tw).reg 7) ∨ isSpecial 8 ((singles tw).reg 2)) ∧
        (isSpecial 11 ((doubles tw).pair 2) ∨ isSpecial 11 ((doubles tw).pair 12)) ∧
        (singles tw).tw.getMsbD 25 = (tw == 0x40) ∧ (doubles tw).tw.getMsbD 25 = (tw == 0x40) := by
  refine ⟨by unfold isSpecial; decide, fun tw h => ?_⟩
  simp only [List.mem_cons, List.not_mem_nil, or_false] at h
  unfold isSpecial
  obtain rfl | rfl := h <;> decide

theorem witness_LoopAndLinkage :
    ((limits 0).pc + (limits 0).reg 8).toNat % 2 = 0 ∧ ((limits 0).reg 8).toNat % 2 = 0 ∧
      ((limits 0).pc + (limits 0).reg 7).toNat % 2 = 1 ∧ ((limits 0).reg 7).toNat % 2 = 1 := by
  decide

theorem witness_Checks :
    (((limits 0).reg 1).toInt ≤ ((limits 0).reg 1).toInt ∧
      ((limits 0).reg 8).toInt < ((limits 0).reg 1).toInt) ∧
      (0 ≤ ((limits 0).reg 2).toInt ∧ ((limits 0).reg 2).toInt ≤ (1 : Nib).toNat) ∧
      (((limits 0).reg 7).toInt < 0 ∨ ((15 : Nib).toNat : Int) < ((limits 0).reg 7).toInt) ∧
      (((limits 0).reg 2).toInt < 0 ∨ ((0 : Nib).toNat : Int) < ((limits 0).reg 2).toInt) := by
  decide

theorem witness_TrapInstruction :
    (inUser (start 0 [])).mode = .user ∧
      ((inUser (start 0 [])).sr 10).getMsbD (15 : Nib).toNat = false ∧
      ((start 0 []).mode = .kernel ∨ ((start 0 []).sr 10).getMsbD (0 : Nib).toNat = true) ∧
      ((inUser (withSrs [(10, 0x00010000)] (start 0 []))).mode = .kernel ∨
        ((inUser (withSrs [(10, 0x00010000)] (start 0 []))).sr 10).getMsbD (15 : Nib).toNat =
          true) := by
  decide

/-- The last KCALL number. -/
theorem witness_KernelCall :
    (inUser (withVector 0x3FC (start 0 []))).mode = .user ∧
      (inUser (withVector 0x3FC (start 0 []))).vectorAt (4 * (255 : Byte).setWidth 32) 0x503FC ∧
      (start 0 []).mode = .kernel :=
  ⟨by decide, ⟨by decide, by decide, fits (by decide), by decide, by decide⟩, by decide⟩

/-- A data and a code page in the TMT, both at real page 14, writable and dirty. -/
def mapped (s : State) : State :=
  { inUser s with tmtCode := [(0x12, 0x140007)], tmtData := [(0x12, 0x140007)] }

/-- The last double word of the first four megabytes in kernel mode; in user mode the last bytes of
a page. -/
theorem witness_LoadsComplete :
    ((start 0 [(2, 0x3FFFF8)]).settled ∧
      (start 0 [(2, 0x3FFFF8)]).reaches .data
        (effectiveAddress .data ⟨.indexed, 2, .short 0⟩ (start 0 [(2, 0x3FFFF8)])) .read 0x3FFFF8
        (start 0 [(2, 0x3FFFF8)]) ∧
      (effectiveAddress .data ⟨.indexed, 2, .short 0⟩ (start 0 [(2, 0x3FFFF8)])).toNat % 8 = 0 ∧
      (0x3FFFF8 : Word).toNat + 8 ≤ Config.memSize) ∧
      ((mapped (start 0 [])).settled ∧
        (mapped (start 0 [])).reaches .code
          (effectiveAddress .code ⟨.direct, 0, .long 0xFFFD4FF8⟩ (mapped (start 0 []))) .read
          0x14FF8 (mapped (start 0 [])) ∧
        (effectiveAddress .code ⟨.direct, 0, .long 0xFFFD4FF8⟩ (mapped (start 0 []))).toNat % 8 = 0 ∧
        (0x14FF8 : Word).toNat + 8 ≤ Config.memSize) := by
  refine ⟨⟨⟨by rfl, by rfl, by rfl, by rfl⟩, .inl ⟨?_, rfl⟩, by decide, fits (by decide)⟩,
    ⟨by rfl, by rfl, by rfl, by rfl⟩, .inl ⟨?_, rfl⟩, by decide, fits (by decide)⟩
  · show (0x3FFFF8 : Word) = _
    decide
  · exact ⟨0x140007, by decide, by decide, (fun h => by cases h)⟩

/-- The same double word with an older copy cached and no failing word, and with each of its two words
failing. -/
theorem witness_LoadsComplete_unsettled :
    (∃ s : State, s.dmaTurns = [] ∧ s.staleData ≠ [] ∧
      s.reaches .data (effectiveAddress .data ⟨.indexed, 2, .short 0⟩ s) .read 0x3FFFF8 s ∧
      (effectiveAddress .data ⟨.indexed, 2, .short 0⟩ s).toNat % 8 = 0 ∧
      (0x3FFFF8 : Word).toNat + 8 ≤ Config.memSize ∧
      (0x3FFFF8 : Word).toNat / 4 ∉ s.badWords ∧ (0x3FFFF8 : Word).toNat / 4 + 1 ∉ s.badWords) ∧
      ∀ bad ∈ [[0xFFFFE], [0xFFFFF]], ∃ s : State, s.dmaTurns = [] ∧ s.badWords = bad ∧
        s.reaches .data (effectiveAddress .data ⟨.indexed, 2, .short 0⟩ s) .read 0x3FFFF8 s ∧
        (effectiveAddress .data ⟨.indexed, 2, .short 0⟩ s).toNat % 8 = 0 ∧
        (0x3FFFF8 : Word).toNat + 8 ≤ Config.memSize ∧
        ((0x3FFFF8 : Word).toNat / 4 ∈ s.badWords ∨ (0x3FFFF8 : Word).toNat / 4 + 1 ∈ s.badWords) := by
  refine ⟨⟨{ start 0 [(2, 0x3FFFF8)] with staleData := [copied 0x3FFFF8] }, by rfl,
    List.cons_ne_nil _ _, .inl ⟨?_, rfl⟩, by decide, fits (by decide), by decide, by decide⟩, fun bad h =>
    ⟨{ start 0 [(2, 0x3FFFF8)] with badWords := bad }, by rfl, by rfl, .inl ⟨?_, rfl⟩, ?_, fits (by decide), ?_⟩⟩
  · show (0x3FFFF8 : Word) = _
    decide
  · show (0x3FFFF8 : Word) = _
    exact (show _ = effectiveAddress .data ⟨.indexed, 2, .short 0⟩ (start 0 [(2, 0x3FFFF8)]) by decide)
  · exact (show (effectiveAddress .data ⟨.indexed, 2, .short 0⟩
      (start 0 [(2, 0x3FFFF8)])).toNat % 8 = 0 by decide)
  · revert bad
    decide

/-- In kernel mode the last double word of the first four megabytes, after an earlier store: both halves
of the cache may hold another copy of its quadword, and both its words fail. In user mode the last bytes of
a page, at once. -/
theorem witness_StoresComplete :
    (∃ s : State, s.dmaTurns = [] ∧ s.mem.wf ∧ s.staleCode ≠ [] ∧ s.staleData ≠ [] ∧
      s.badWords = [0xFFFFE, 0xFFFFF] ∧
      s.reaches .data (effectiveAddress .data ⟨.indexed, 2, .short 0⟩ s) .write 0x3FFFF8 s ∧
      (effectiveAddress .data ⟨.indexed, 2, .short 0⟩ s).toNat % 8 = 0 ∧
      (0x3FFFF8 : Word).toNat + 8 ≤ Config.memSize) ∧
      ((mapped (start 0 [])).dmaTurns = [] ∧ (mapped (start 0 [])).mem.wf ∧
        (mapped (start 0 [])).reaches .data
          (effectiveAddress .data ⟨.direct, 0, .long 0x12FF8⟩ (mapped (start 0 []))) .write
          0x14FF8 (mapped (start 0 [])) ∧
        (effectiveAddress .data ⟨.direct, 0, .long 0x12FF8⟩ (mapped (start 0 []))).toNat % 8 = 0 ∧
        (0x14FF8 : Word).toNat + 8 ≤ Config.memSize) := by
  refine ⟨⟨{ start 0 [(2, 0x3FFFF8)] with
      staleCode := [copied 0x3FFFF8], staleData := [copied 0x3FFFF8], badWords := [0xFFFFE, 0xFFFFF] },
    by rfl, ⟨.nil, by decide⟩, List.cons_ne_nil _ _, List.cons_ne_nil _ _, by rfl, .inl ⟨?_, rfl⟩, by decide,
    fits (by decide)⟩, by rfl, by decide, .inl ⟨?_, rfl⟩, by decide, fits (by decide)⟩
  · show (0x3FFFF8 : Word) = _
    decide
  · exact ⟨0x140007, by decide, by decide, fun _ => by decide⟩

/-- An address one short of a multiple of 8, in both modes. -/
theorem witness_DataAlignmentTrap :
    ((effectiveAddress .data ⟨.direct, 0, .short 0xFFFF⟩ (start 0 [])).toNat % 8 ≠ 0 ∧
      (start 0 []).mode = .kernel) ∧
      (effectiveAddress .data ⟨.direct, 0, .short 7⟩ (inUser (start 0 []))).toNat % 2 ≠ 0 ∧
      (inUser (start 0 [])).mode = .user := by
  decide

/-- A VRT at 20000 with one chain: the entry at 21000 is that of address 12ABC of segment 34, with the
TMT Word `w`. -/
def withVrtWord (w : Word) (s : State) : State :=
  withWords 0x20018 [0x21000] (withWords 0x21000 [0x340001, 0, w]
    (withSrs [(9, 0x34), (12, 0x20000), (13, 15)] s))

/-- The same with a page that allows writing and is not dirty. -/
def withVrt (s : State) : State := withVrtWord 0x140006 s

/-- The entry is found: of a page not dirty, the same referenced, dirty, not allowing writing. -/
theorem vrt_found {w : Word} (h : w ∈ [(0x140006 : Word), 0x140016, 0x140007, 0x140002]) :
    (withVrtWord w (start 0 [])).vrt 0x34 0x12ABC (some 0x21000) := by
  have key : ((withVrtWord w (start 0 [])).sr 12).toNat % 4 = 0 ∧
      (hashAddress 0x34 0x12ABC (withVrtWord w (start 0 []))).toNat + 4 ≤ 0x400000 ∧
      (withVrtWord w (start 0 [])).mem.readWord
        (hashAddress 0x34 0x12ABC (withVrtWord w (start 0 []))).toNat = 0x21000 ∧
      (withVrtWord w (start 0 [])).mem.readWord (0x21000 : Word).toNat =
        (0x34 : Half) ++ mfield (0x12ABC : Word) 0 15 := by
    simp only [List.mem_cons, List.not_mem_nil, or_false] at h
    obtain rfl | rfl | rfl | rfl := h <;> exact ⟨by decide, by decide, by decide, by decide⟩
  obtain ⟨h1, h2, h3, h4⟩ := key
  refine ⟨h1, fits h2, 1, by norm_num, ?_⟩
  rw [h3]
  exact .found _ ⟨by decide, by decide, fits (by decide)⟩ h4

/-- The next page of the segment has an empty chain, and a page with the same hash a chain that
ends without it. -/
theorem vrt_absent :
    (withVrt (start 0 [])).vrt 0x34 0x13ABC none ∧ (withVrt (start 0 [])).vrt 0x34 0x22ABC none := by
  refine ⟨⟨by decide, fits (by decide), 0, by norm_num, ?_⟩,
    ⟨by decide, fits (by decide), 1, by norm_num, ?_⟩⟩
  · have h : (withVrt (start 0 [])).mem.readWord
        (hashAddress 0x34 0x13ABC (withVrt (start 0 []))).toNat = 0 := by decide
    rw [h]
    exact .ended
  · have h : (withVrt (start 0 [])).mem.readWord
        (hashAddress 0x34 0x22ABC (withVrt (start 0 []))).toNat = 0x21000 := by decide
    rw [h]
    refine .link _ _ _ ⟨by decide, by decide, fits (by decide)⟩ (by decide) ?_
    rw [show (withVrt (start 0 [])).mem.readWord ((0x21000 : Word).toNat + 4) = 0 by decide]
    exact .ended

/-- What the VRT says depends on memory and SR12 and SR13 alone. -/
theorem vrt_of_eq {s t : State} {seg : Half} {va : Word} {r : Option Word} (h : s.vrt seg va r)
    (hm : t.mem = s.mem) (hs : t.srs = s.srs) : t.vrt seg va r := by
  have h1 : ∀ i, t.sr i = s.sr i := fun i => by simp only [State.sr, hs]
  have h2 : hashAddress seg va t = hashAddress seg va s := by simp only [hashAddress, h1]
  exact ⟨by rw [h1]; exact h.base, by rw [h2]; exact h.fits, by rw [h2, hm]; exact h.chain⟩

/-- A page in the VRT that is not dirty, one that is, and one that does not allow writing. -/
def missed (w : Word) : State := inUser (withVrtWord w (start 0 []))

theorem witness_TranslationLoadsEntry :
    (∀ w ∈ [(0x140006 : Word), 0x140007, 0x140002],
      (missed w).calm ∧ (missed w).mem.wf ∧ (missed w).mode = .user ∧
        tmtHit .data 0x12ABC (missed w) = none ∧
        (missed w).vrt (mfield ((missed w).sr 9) 16 31) 0x12ABC (some 0x21000) ∧
        (missed w).mem.readWord ((0x21000 : Word).toNat + 8) = w ∧ tmtV w = true ∧
        tmtU w = false) ∧
      Access.read ≠ .write ∧ (tmtW 0x140007 = true ∧ tmtD 0x140007 = true) ∧
      tmtW 0x140002 = false := by
  refine ⟨fun w h => ?_, by decide, by decide, by decide⟩
  have key : (missed w).calm ∧ (missed w).mem.wf ∧ (missed w).mode = .user ∧
      tmtHit .data 0x12ABC (missed w) = none ∧ mfield ((missed w).sr 9) 16 31 = 0x34 ∧
      (missed w).mem.readWord ((0x21000 : Word).toNat + 8) = w ∧ tmtV w = true ∧
      tmtU w = false ∧ w ∈ [(0x140006 : Word), 0x140016, 0x140007, 0x140002] := by
    simp only [List.mem_cons, List.not_mem_nil, or_false] at h
    obtain rfl | rfl | rfl := h <;>
      exact ⟨by decide, by decide, by decide, by decide, by decide, by decide, by decide, by decide,
        by decide⟩
  obtain ⟨h1, h2, h3, h4, h5, h6, h7, h8, hw⟩ := key
  exact ⟨h1, h2, h3, h4, h5 ▸ vrt_of_eq (vrt_found hw) (by rfl) (by rfl), h6, h7, h8⟩

/-- The entry of `withVrt` in the TMT, not dirty; in the code half one that does not allow
writing. -/
def clean : State :=
  { inUser (withVrt (start 0 [])) with tmtData := [(0x12, 0x140006), (0x13, 0x150002)] }

/-- A hit, and a miss: the page's entry stands in the VRT after its Referenced bit has been set too. -/
theorem witness_StoreMarksDirty :
    (clean.calm ∧ clean.mem.wf ∧ clean.mode = .user ∧
      tmtHit .data 0x12ABC clean = some 0x140006 ∧ tmtW 0x140006 = true ∧
      tmtD 0x140006 = false ∧
      clean.vrt (mfield (clean.sr 9) 16 31) 0x12ABC (some 0x21000) ∧
      tmtV (clean.mem.readWord ((0x21000 : Word).toNat + 8)) = true ∧
      tmtU (clean.mem.readWord ((0x21000 : Word).toNat + 8)) = false) ∧
      (tmtHit .data 0x12ABC (missed 0x140006) = none ∧
        (missed 0x140006).mem.readWord ((0x21000 : Word).toNat + 8) = 0x140006 ∧
        (missed 0x140006).vrt (mfield ((missed 0x140006).sr 9) 16 31) 0x12ABC (some 0x21000) ∧
        ({ missed 0x140006 with
          mem := (missed 0x140006).mem.writeBytes ((0x21000 : Word).toNat + 8)
            (wordBytes (0x140006 ||| 0x10#32)) }).vrt
          (mfield ((missed 0x140006).sr 9) 16 31) 0x12ABC (some 0x21000)) ∧
      effectiveAddress .data ⟨.direct, 0, .long 0x12ABC⟩ (missed 0x140006) = 0x12ABC ∧
      (0x12ABC : Word).toNat % 4 = 0 ∧ (0x14ABC : Word).toNat + 4 ≤ Config.memSize := by
  refine ⟨⟨by decide, by decide, by decide, by decide, by decide, by decide, ?_, by decide,
    by decide⟩, ⟨by decide, by decide, ?_, ?_⟩, by decide, by decide, fits (by decide)⟩
  · rw [show mfield (clean.sr 9) 16 31 = 0x34 by decide]
    exact vrt_of_eq (vrt_found (w := 0x140006) (by decide)) (by rfl) (by rfl)
  · rw [show mfield ((missed 0x140006).sr 9) 16 31 = 0x34 by decide]
    exact vrt_of_eq (vrt_found (w := 0x140006) (by decide)) (by rfl) (by rfl)
  · rw [show mfield ((missed 0x140006).sr 9) 16 31 = 0x34 by decide]
    exact vrt_of_eq (vrt_found (w := 0x140016) (by decide)) (by decide) (by rfl)

/-- A page whose entry the TMT holds and the VRT does not. -/
def forgotten : State := { clean with tmtData := [(0x13, 0x150006)] }

/-- A store's address in a page of the VRT that does not allow writing; one in a page of the TMT alone. -/
theorem witness_PageFaults_stores :
    ((missed 0x140002).calm ∧ (missed 0x140002).mode = .user ∧ (missed 0x140002).mem.wf ∧
      effectiveAddress .data ⟨.direct, 0, .long 0x12ABC⟩ (missed 0x140002) = 0x12ABC ∧
      (0x12ABC : Word).toNat % 4 = 0 ∧ tmtHit .data 0x12ABC (missed 0x140002) = none ∧
      (missed 0x140002).vrt (mfield ((missed 0x140002).sr 9) 16 31) 0x12ABC (some 0x21000) ∧
      (missed 0x140002).mem.readWord ((0x21000 : Word).toNat + 8) = 0x140002 ∧
      tmtV 0x140002 = true ∧ tmtU 0x140002 = false ∧ tmtW 0x140002 = false) ∧
      (forgotten.calm ∧ forgotten.mode = .user ∧
        effectiveAddress .data ⟨.direct, 0, .long 0x13ABC⟩ forgotten = 0x13ABC ∧
        (0x13ABC : Word).toNat % 4 = 0 ∧ tmtHit .data 0x13ABC forgotten = some 0x150006 ∧
        tmtW 0x150006 = true ∧ tmtD 0x150006 = false ∧
        forgotten.vrt (mfield (forgotten.sr 9) 16 31) 0x13ABC none) := by
  refine ⟨⟨by decide, by decide, by decide, by decide, by decide, by decide, ?_, by decide, by decide,
    by decide, by decide⟩, by decide, by decide, by decide, by decide, by decide, by decide, by decide, ?_⟩
  · rw [show mfield ((missed 0x140002).sr 9) 16 31 = 0x34 by decide]
    exact vrt_of_eq (vrt_found (w := 0x140002) (by decide)) (by rfl) (by rfl)
  · rw [show mfield (forgotten.sr 9) 16 31 = 0x34 by decide]
    exact vrt_of_eq vrt_absent.1 (by rfl) (by rfl)

/-- Instructions of 4 and 6 bytes that run on into an absent page, at the last halfword of a page and at the
one before. -/
def straddling (pc : Word) : State :=
  { withWords 0x14FFC [0x9B008B00] clean with tmtCode := [(0x12, 0x140007)], pc := pc }

theorem witness_PageFaults_straddling :
    ∀ p ∈ [((0x12FFE : Word), 2, (0x14FFE : Word), 4), (0x12FFC, 4, 0x14FFC, 6)],
      let s := straddling p.1
      let op := s.mem.read p.2.2.1.toNat
      s.calm ∧ s.mode = .user ∧ s.pc.toNat % 4096 + p.2.1 = 4096 ∧
        tmtHit .code s.pc s = some 0x140007 ∧ physAddress 0x140007 s.pc = p.2.2.1 ∧
        p.2.2.1.toNat + p.2.1 ≤ Config.memSize ∧ s.staleCode = [] ∧
        (if op.getMsbD 0 = false then 2 else if op.getMsbD 3 = false then 4 else 6) = p.2.2.2 ∧
        p.2.1 < p.2.2.2 ∧ s.pc + BitVec.ofNat 32 p.2.1 = 0x13000 ∧ tmtHit .code 0x13000 s = none ∧
        s.vrt (mfield (s.sr 8) 16 31) 0x13000 none := by
  have key : ∀ pc : Word, (straddling pc).vrt 0 0x13000 none := by
    intro pc
    refine ⟨(show ((straddling 0).sr 12).toNat % 4 = 0 by decide),
      fits (show (hashAddress 0 0x13000 (straddling 0)).toNat + 4 ≤ 0x400000 by decide), 0, by norm_num, ?_⟩
    rw [show (straddling pc).mem.readWord (hashAddress 0 0x13000 (straddling pc)).toNat = 0 from
      (show (straddling 0).mem.readWord (hashAddress 0 0x13000 (straddling 0)).toNat = 0 by decide)]
    exact .ended
  intro p hp
  simp only [List.mem_cons, List.not_mem_nil, or_false] at hp
  obtain rfl | rfl := hp <;>
    exact ⟨by decide, by decide, by decide, by decide, by decide, fits (by decide), by decide, by decide,
      by decide, by decide, by decide, key _⟩

/-- An absent page of data, a page that does not allow writing, an absent page of code. -/
theorem witness_PageFaults :
    (clean.calm ∧ clean.mode = .user) ∧
      ((effectiveAddress .data ⟨.direct, 0, .long 0x22AB8⟩ clean).toNat % 8 = 0 ∧
        tmtHit .data (effectiveAddress .data ⟨.direct, 0, .long 0x22AB8⟩ clean) clean = none ∧
        clean.vrt (mfield (clean.sr 9) 16 31)
          (effectiveAddress .data ⟨.direct, 0, .long 0x22AB8⟩ clean) none) ∧
      ((effectiveAddress .data ⟨.direct, 0, .long 0x13AB8⟩ clean).toNat % 8 = 0 ∧
        tmtHit .data (effectiveAddress .data ⟨.direct, 0, .long 0x13AB8⟩ clean) clean =
          some 0x150002 ∧ tmtW 0x150002 = false) ∧
      clean.pc.toNat % 2 = 0 ∧ tmtHit .code clean.pc clean = none ∧
        clean.vrt (mfield (clean.sr 8) 16 31) clean.pc none := by
  refine ⟨by decide, ⟨by decide, by decide, ?_⟩, by decide, by decide, by decide, ?_⟩
  · rw [show mfield (clean.sr 9) 16 31 = 0x34 by decide,
      show effectiveAddress .data ⟨.direct, 0, .long 0x22AB8⟩ clean = 0x22AB8 by decide]
    refine ⟨by decide, fits (by decide), 1, by norm_num, ?_⟩
    rw [show clean.mem.readWord (hashAddress 0x34 0x22AB8 clean).toNat = 0x21000 by decide]
    refine .link _ _ _ ⟨by decide, by decide, fits (by decide)⟩ (by decide) ?_
    rw [show clean.mem.readWord ((0x21000 : Word).toNat + 4) = 0 by decide]
    exact .ended
  · rw [show mfield (clean.sr 8) 16 31 = 0 by decide, show clean.pc = 0x3E000 by decide]
    refine ⟨by decide, fits (by decide), 0, by norm_num, ?_⟩
    rw [show clean.mem.readWord (hashAddress 0 0x3E000 clean).toNat = 0 by decide]
    exact .ended

/-- The VRT and, in R4 and R5, the segment and the address of its page; in R6 and R7 those of an
absent one. -/
def asked : State := ((((withVrt (start 0 [])).setReg 4 0x34).setReg 5 0x12ABC).setReg 6 0x34).setReg
  7 0x22ABC

theorem witness_TransAndDirt :
    (asked.calm ∧ asked.mem.wf ∧ asked.mode = .kernel) ∧
      asked.vrt (mfield (asked.reg 6) 16 31) (asked.reg (6 + 1)) none ∧
      asked.vrt (mfield (asked.reg 4) 16 31) (asked.reg (4 + 1)) (some 0x21000) ∧
      tmtV (asked.mem.readWord ((0x21000 : Word).toNat + 8)) = true ∧
      tmtU (asked.mem.readWord ((0x21000 : Word).toNat + 8)) = false := by
  refine ⟨by decide, ?_, ?_, by decide, by decide⟩
  · rw [show mfield (asked.reg 6) 16 31 = 0x34 by decide,
      show asked.reg (6 + 1) = 0x22ABC by decide]
    exact vrt_of_eq vrt_absent.2 (by rfl) (by rfl)
  · rw [show mfield (asked.reg 4) 16 31 = 0x34 by decide,
      show asked.reg (4 + 1) = 0x12ABC by decide]
    exact vrt_of_eq (vrt_found (w := 0x140006) (by decide)) (by rfl) (by rfl)

/-- No current process; a PCB that ends where the first four megabytes end. -/
theorem witness_SaveState :
    ((start 0 []).dmaTurns = [] ∧ (start 0 []).mem.wf ∧ (start 0 []).mode = .kernel ∧
      (start 0 []).sr 14 = 1) ∧
      (withSrs [(14, 0x3FFFBC)] (start 0 [])).mode = .kernel ∧
      (withSrs [(14, 0x3FFFBC)] (start 0 [])).dmaTurns = [] ∧
      (withSrs [(14, 0x3FFFBC)] (start 0 [])).mem.wf ∧
      ((withSrs [(14, 0x3FFFBC)] (start 0 [])).sr 14).toNat % 4 = 0 ∧
      ((withSrs [(14, 0x3FFFBC)] (start 0 [])).sr 14).toNat + 0x44 ≤ Config.memSize :=
  ⟨by decide, by decide, by decide, by decide, by decide, fits (by decide)⟩

theorem witness_LoadState :
    ((start 0 []).calm ∧ (start 0 []).mode = .kernel ∧ (start 0 []).sr 14 = 1) ∧
      (withSrs [(14, 0x3FFFB4)] (start 0 [])).mode = .kernel ∧
      (withSrs [(14, 0x3FFFB4)] (start 0 [])).calm ∧
      ((withSrs [(14, 0x3FFFB4)] (start 0 [])).sr 14).toNat % 4 = 0 ∧
      ((withSrs [(14, 0x3FFFB4)] (start 0 [])).sr 14).toNat + 0x4C ≤ Config.memSize :=
  ⟨by decide, by decide, by decide, by decide, fits (by decide)⟩

/-- SR14 misaligned, and at the end of the largest memory: for SUS, LUS and LDREGS. -/
theorem witness_PcbRefused :
    (∃ s : State, s.calm ∧ s.mem.wf ∧ s.mode = .kernel ∧ s.sr 14 ≠ 1 ∧ (s.sr 14).toNat % 4 ≠ 0) ∧
      ∃ s : State, s.calm ∧ s.mem.wf ∧ s.mode = .kernel ∧ (s.sr 14).toNat % 4 = 0 ∧
        Config.memSize ≤ (s.sr 14).toNat :=
  ⟨⟨withSrs [(14, 2)] (start 0 []), by decide⟩,
    ⟨withSrs [(14, 0x8000000)] (start 0 []), by decide, by decide, by decide, by decide,
      memSize_bounds.2⟩⟩

theorem witness_Returns :
    ((start 0 []).mode = .kernel ∧ (start 0 []).sr 14 = 1 ∧ ((start 0 []).sr 0).toNat % 2 = 0) ∧
      (∃ s : State, s.mode = .kernel ∧ s.sr 14 ≠ 1 ∧ (s.sr 15).toNat % 2 = 0) ∧
      ∃ s : State, s.mode = .kernel ∧ s.sr 14 ≠ 1 ∧ (s.sr 15).toNat % 2 = 1 ∧
        (s.sr 0).toNat % 2 = 1 :=
  ⟨by decide, ⟨withSrs [(14, 0), (15, 0xFFFFFFFE)] (start 0 []), by decide⟩,
    ⟨withSrs [(14, 0), (15, 0xFFFFFFFF), (0, 1)] (start 0 []), by decide⟩⟩

theorem witness_SpecialRegisterMoves : (start 0 []).mode = .kernel := by decide

/-- The first clause of each pair with R1, the second with R2; in user mode with the privileged
process bit. -/
theorem witness_Maintenance :
    (start 0 []).privileged ∧
      ∃ s : State, s.mode = .user ∧ s.privileged ∧
        ((s.reg 1).getMsbD 31 = true ∧ (s.reg 2).getMsbD 31 = false) ∧
        (mfield (s.reg 1) 28 29 = 3 ∧ mfield (s.reg 2) 28 29 ≠ 3) ∧
        ((s.reg 1).getMsbD 0 = true ∧ (s.reg 2).getMsbD 0 = false) ∧
        (mfield (s.reg 2) 28 31).toNat < s.errorLog.length :=
  ⟨(fun h => by cases h),
    { inUser (withSrs [(10, 1)] (start 0 [(1, 0x8000000D), (2, 0x0A)])) with
      errorLog := [0, 1, 2, 3, 4, 5, 6, 7, 8, 9, 10] },
    by decide, fun _ => by decide, by decide, by decide, by decide, by decide⟩

/-- Nothing deliverable, by the mask and by silence; a request on line 2 behind a quiet board of the
line; a request on line 1 with line 2 quiet. -/
theorem witness_InterruptTest :
    ((start 0 []).privileged ∧ ∀ c ∈ (start 0 []).boards, c.line = .two → c.request = none) ∧
      (∃ s : State, s.privileged ∧ s.mask2 = true) ∧
      (∃ (s : State) (pre post : List Board) (b : Board), s.privileged ∧
        s.boards = pre ++ b :: post ∧ b.request = some 0xFFFFFF ∧ b.line = .two ∧
        s.mask2 = false ∧ pre ≠ [] ∧ ∀ c ∈ pre, c.line = .two → c.request = none) ∧
      ∃ (s : State) (b : Board), s.privileged ∧ s.boards = [] ++ b :: [] ∧
        b.request = some 1 ∧ s.mask2 = false ∧ b.line = .one ∧ s.mask1 = false ∧
        ∀ c ∈ s.boards, c.line = .two → c.request = none :=
  ⟨⟨(fun h => by cases h), by decide⟩, ⟨{ start 0 [] with mask2 := true }, (fun h => by cases h), by rfl⟩,
    ⟨{ start 0 [] with boards := [board 1 .two none [], board 2 .two (some 0xFFFFFF) []] },
      [board 1 .two none []], [], board 2 .two (some 0xFFFFFF) [], (fun h => by cases h), by rfl,
      by decide⟩,
    ⟨{ start 0 [] with boards := [board 1 .one (some 1) []] }, board 1 .one (some 1) [],
      (fun h => by cases h), by rfl, by decide⟩⟩

/-- A board behind another one with nothing decided, and with each reply; a device number that no
board has. -/
theorem witness_InputOutput :
    ∃ s : State, s.privileged ∧
      (∃ (pre post : List Board) (b : Board), s.boards = pre ++ b :: post ∧
        (∀ c ∈ pre, c.device ≠ mfield (s.reg 1) 0 7) ∧ b.device = mfield (s.reg 1) 0 7 ∧
        b.replies = []) ∧
      (∀ r ∈ [Reply.silent, .notReady, .accept 5],
        ∃ (t : State) (pre post : List Board) (b : Board), t.privileged ∧
          t.boards = pre ++ b :: post ∧ (∀ c ∈ pre, c.device ≠ mfield (t.reg 1) 0 7) ∧
          b.device = mfield (t.reg 1) 0 7 ∧ b.replies = r :: []) ∧
      ∀ c ∈ s.boards, c.device ≠ mfield (s.reg 2) 0 7 :=
  ⟨{ start 0 [(1, 0xFF000000)] with boards := [board 1 .one none [], board 255 .two none []] },
    (fun h => by cases h),
    ⟨[board 1 .one none []], [], board 255 .two none [], by rfl, by decide⟩,
    fun r _ =>
      ⟨{ start 0 [(1, 0xFF000000)] with boards := [board 255 .two none [r]] }, [], [],
        board 255 .two none [r], (fun h => by cases h), by rfl, (fun c hc => by cases hc),
        (show (255 : Byte) = mfield ((start 0 [(1, 0xFF000000)]).reg 1) 0 7 by decide), by rfl⟩,
    by decide⟩

/-- DMA by an installed board at the last quadword of the first four megabytes, of one word and of
four, with no failing word met and with the last one met; a misaligned burst; two boards on one
chain and on two, the first one's request served. -/
theorem witness_InputOutput_dma :
    (∃ s : State, s.mem.wf ∧ (∃ b ∈ s.boards, b.device = 9) ∧
      (∀ n ∈ [1, 4], ∃ ws : List Word, ws.length = n ∧
        ((0x3FFFF3 : Word) &&& 0xFFFFFFFC#32).toNat % (4 * n) = 0 ∧
        ((0x3FFFF3 : Word) &&& 0xFFFFFFFC#32).toNat + 4 * n ≤ Config.memSize ∧
        ∀ w ∈ s.badWords, ¬ (((0x3FFFF3 : Word) &&& 0xFFFFFFFC#32).toNat / 4 ≤ w ∧
          w < ((0x3FFFF3 : Word) &&& 0xFFFFFFFC#32).toNat / 4 + n)) ∧
      ((0x3FFFF4 : Word) &&& 0xFFFFFFFC#32).toNat % 16 ≠ 0) ∧
      (∃ s : State, s.mem.wf ∧ (∃ b ∈ s.boards, b.device = 9) ∧
        ∃ w ∈ s.badWords, ((0x3FFFF3 : Word) &&& 0xFFFFFFFC#32).toNat / 4 ≤ w ∧
          w < ((0x3FFFF3 : Word) &&& 0xFFFFFFFC#32).toNat / 4 + 4) ∧
      ∃ (s t : State) (b c d : Board), b ∈ s.boards ∧ c ∈ s.boards ∧ d ∈ s.boards ∧
        (s.boards.map Board.device).Nodup ∧ b.dmaChain = .two ∧ c.dmaChain = .one ∧
        c.dmaChain = d.dmaChain ∧ c.dmaPosition < d.dmaPosition ∧
        applyArrival (.dma [{ device := b.device, dma := .writeWord 0x1000 5 }]) s = .ok () t := by
  refine ⟨⟨{ start 0 [] with boards := installed }, by decide, by decide, ?_, by decide⟩,
    ⟨{ start 0 [] with boards := installed, badWords := [0xFFFFF] }, by decide, by decide, by decide⟩,
    ⟨{ start 0 [] with boards := installed }, _, { board 9 .one none [] with dmaChain := .two },
      { board 0 .one none [] with dmaPosition := 1 }, { board 1 .one none [] with dmaPosition := 2 },
      by decide, by decide, by decide, by decide, by rfl, by rfl, by rfl, by decide, by rfl⟩⟩
  intro n hn
  simp only [List.mem_cons, List.not_mem_nil, or_false] at hn
  obtain rfl | rfl := hn
  · exact ⟨[1], by rfl, by decide, fits (by decide), fun w hw => by cases hw⟩
  · exact ⟨[1, 2, 3, 4], by rfl, by decide, fits (by decide), fun w hw => by cases hw⟩

/-- A vector at the offset of the timer 2 event, the last one; no CCB, in user mode too; a vector word
that shows a double-bit error, at the end of the first four megabytes. -/
theorem witness_EventEntry :
    (∃ (s : State) (e : Event) (v : Word), s.vectorAt e.off v ∧ e.off = 0x434) ∧
      (((start 0 []).sr 11).toNat % 2 = 1 ∧
        ((inUser (start 0 [])).sr 11).toNat % 2 = 1 ∧ (inUser (start 0 [])).mode = .user) ∧
      ∃ (s : State) (e : Event), s.dmaTurns = [] ∧ (s.sr 11).toNat % 4 = 0 ∧ e.off.toNat % 4 = 0 ∧
        (s.sr 11).toNat + e.off.toNat + 4 ≤ Config.memSize ∧
        ((s.sr 11).toNat + e.off.toNat) / 4 ∈ s.badWords :=
  ⟨⟨withVector 0x434 (start 0 []), interruptEvent 0x434 none none (start 0 []), 0x50434,
      ⟨by decide, by decide, fits (by decide), by decide, by decide⟩, by rfl⟩,
    by decide,
    { withSrs [(11, 0x3FFBC8)] (start 0 []) with badWords := [0xFFFFF] },
    interruptEvent 0x434 none none (start 0 []), by rfl, by decide, by decide, fits (by decide),
    by decide⟩

theorem witness_KernelViolation :
    (inUser (start 0 [])).mode = .user ∧ ((inUser (start 0 [])).sr 10).getMsbD 31 = false := by
  decide

theorem witness_IllegalInstruction :
    ((withVector 0x404 (start 0 [])).vectorAt 0x404 0x50404 ∧
      (withVector 0x404 (start 0 [])).mode = .kernel) ∧
      (inUser (withVector 0x404 (start 0 []))).vectorAt 0x404 0x50404 ∧
      (inUser (withVector 0x404 (start 0 []))).mode = .user :=
  ⟨⟨⟨by decide, by decide, fits (by decide), by decide, by decide⟩, by decide⟩,
    ⟨by decide, by decide, fits (by decide), by decide, by decide⟩, by decide⟩

/-- Each interrupt is deliverable somewhere: a parity error, power fail and switch 0 in kernel and in
user mode; a board of line 2 in user mode, a board of line 1 while paused; timer 1, and timer 2 with
timer 1 quiet. None is in user mode, nor in kernel mode beside a request. A fetch that fails. -/
theorem witness_InterruptsTaken :
    (∀ m ∈ [Mode.kernel, .user], ∀ i ∈ [Interrupt.parity, .powerFail, .switch0],
      ∃ s : State, s.arrivals = [] ∧ s.calm ∧ s.countsReadable ∧ s.mode = m ∧ s.deliverable i) ∧
      (∃ (s : State) (b : Board), s.arrivals = [] ∧ s.calm ∧ s.countsReadable ∧ s.mode = .user ∧
        b.line = .two ∧ s.deliverableBoard [] b 1 [] ∧ s.deliverable .external) ∧
      (∃ (s : State) (b c : Board), s.arrivals = [] ∧ s.calm ∧ s.countsReadable ∧ s.paused = true ∧
        b.line = .one ∧ s.deliverableBoard [c] b 1 [] ∧ s.deliverable .external) ∧
      (∀ i ∈ [Interrupt.timer1, .timer2], ∃ (s : State) (v : Word), s.arrivals = [] ∧ s.calm ∧
        s.countsReadable ∧ s.mode = .user ∧ s.deliverable i ∧
        s.vectorAt (if i = .timer1 then 0x430 else 0x434) v) ∧
      (∃ s : State, s.arrivals = [] ∧ s.calm ∧ s.countsReadable ∧ s.wakeable ∧
        ∀ i, ¬ s.deliverable i) ∧
      (∃ s : State, s.arrivals = [] ∧ s.calm ∧ ¬ s.wakeable ∧ (∃ b ∈ s.boards, b.request = some 1) ∧
        ∀ i, ¬ s.deliverable i) ∧
      ∃ s : State, s.mode = .kernel ∧ s.dmaTurns = [] ∧ s.staleCode = [] ∧ s.pc.toNat % 2 = 0 ∧
        s.pc.toNat + 2 ≤ Config.memSize ∧ s.pc.toNat / 4 ∈ s.badWords := by
  refine ⟨?_, ⟨{ inUser (start 0 []) with boards := [board 1 .two (some 1) []] },
      board 1 .two (some 1) [], by rfl, ⟨by rfl, by rfl⟩, .inl (by decide), by rfl, by rfl, ?_,
      ⟨.inl (by rfl), [], board 1 .two (some 1) [], 1, [], ?_⟩⟩,
    ⟨{ start 0 [] with paused := true, boards := [board 2 .one none [], board 1 .one (some 1) []] },
      board 1 .one (some 1) [], board 2 .one none [], by rfl, ⟨by rfl, by rfl⟩, .inl (by decide),
      by rfl, by rfl, ?_, ⟨.inr (by rfl), [board 2 .one none []], board 1 .one (some 1) [], 1, [], ?_⟩⟩,
    ?_, ⟨inUser (start 0 []), by rfl, ⟨by rfl, by rfl⟩, .inl (by decide), .inl (by rfl), ?_⟩,
    ⟨{ start 0 [] with boards := [board 1 .two (some 1) []] }, by rfl, ⟨by rfl, by rfl⟩,
      ?_, by decide, ?_⟩,
    ⟨{ start 0 [] with badWords := [0xF800] }, by rfl, by rfl, by rfl, by decide, fits (by decide),
      by decide⟩⟩
  · intro m _ i hi
    simp only [List.mem_cons, List.not_mem_nil, or_false] at hi
    obtain rfl | rfl | rfl := hi
    · exact ⟨{ start 0 [] with mode := m, parityPending := [{ fetch := true, addr := 0x10 }] },
        by rfl, ⟨by rfl, by rfl⟩, .inl (show ((start 0 []).sr 11).toNat % 2 = 1 by decide), by rfl,
        List.cons_ne_nil _ _⟩
    · exact ⟨{ start 0 [] with mode := m, powerFailPending := true }, by rfl, ⟨by rfl, by rfl⟩,
        .inl (show ((start 0 []).sr 11).toNat % 2 = 1 by decide), by rfl, by rfl⟩
    · exact ⟨{ start 0 [] with mode := m, switch0Pending := true }, by rfl, ⟨by rfl, by rfl⟩,
        .inl (show ((start 0 []).sr 11).toNat % 2 = 1 by decide), by rfl, by rfl⟩
  · exact ⟨by rfl, by rfl, by rfl, (fun _ h => by cases h), fun h => by cases h⟩
  · exact ⟨by rfl, by rfl, by rfl, (fun _ h => by cases h), fun h => by cases h⟩
  · exact ⟨by rfl, by rfl, by rfl, by unfold quiet; decide, fun _ => ⟨by rfl, by unfold quiet; decide⟩⟩
  · exact ⟨by rfl, by rfl, by rfl, by unfold quiet; decide, fun _ => ⟨by rfl, by unfold quiet; decide⟩⟩
  · intro i hi
    simp only [List.mem_cons, List.not_mem_nil, or_false] at hi
    obtain rfl | rfl := hi
    · exact ⟨inUser (withWords 0x10440 [0x80000000] (withVector 0x430 (start 0 []))), 0x50430, by rfl,
        ⟨by rfl, by rfl⟩, .inr ⟨by decide, fits (by decide)⟩, by rfl,
        ⟨.inl (by rfl), by decide, by decide⟩,
        ⟨⟨by rfl, by rfl⟩, by decide, fits (by decide), by decide, by decide⟩⟩
    · exact ⟨inUser (withWords 0x10444 [0xFFFFFFFF] (withVector 0x434 (start 0 []))), 0x50434, by rfl,
        ⟨by rfl, by rfl⟩, .inr ⟨by decide, fits (by decide)⟩, by rfl,
        ⟨.inl (by rfl), fun h => absurd h.2 (by decide), by decide, by decide⟩,
        ⟨⟨by rfl, by rfl⟩, by decide, fits (by decide), by decide, by decide⟩⟩
  · have hc : ∀ off, ¬ (inUser (start 0 [])).countNegative off := fun off h =>
      absurd h.1 (by decide)
    intro i
    cases i
    · exact fun h => h rfl
    · exact fun h => by cases h
    · exact fun h => by cases h
    · rintro ⟨_, pre, b, info, post, h⟩
      have := h.place
      simp only [inUser, start, List.foldl_nil] at this
      exact absurd this (by cases pre <;> exact fun h => by cases h)
    · exact fun h => hc _ h.2
    · exact fun h => hc _ h.2.2
  · exact fun h => by obtain h | h := h <;> cases h
  · intro i
    cases i
    · exact fun h => h rfl
    · exact fun h => by cases h
    · exact fun h => by cases h
    · exact fun h => by obtain h | h := h.1 <;> cases h
    · exact fun h => by obtain h | h := h.1 <;> cases h
    · exact fun h => by obtain h | h := h.1 <;> cases h

/-- Without a CCB, and with one that ends where the first four megabytes end. -/
theorem witness_PausedIdles :
    (∃ s : State, s.paused = true ∧ s.arrivals = [] ∧ s.calm ∧
      s.powerFailPending = false ∧ s.switch0Pending = false ∧ s.parityPending = [] ∧
      s.mask2 = true ∧ (s.sr 11).toNat % 2 = 1) ∧
      ∃ s : State, s.paused = true ∧ s.arrivals = [] ∧ s.calm ∧
        s.powerFailPending = false ∧ s.switch0Pending = false ∧ s.parityPending = [] ∧
        (∀ c ∈ s.boards, c.request = none) ∧ (s.sr 11).toNat % 4 = 0 ∧
        (s.sr 11).toNat + 0x448 ≤ Config.memSize ∧
        (s.mem.readWord ((s.sr 11).toNat + 0x440)).msb = false ∧
        (s.mem.readWord ((s.sr 11).toNat + 0x444)).msb = false :=
  ⟨⟨{ start 0 [] with paused := true, mask2 := true },
      by rfl, by rfl, ⟨by rfl, by rfl⟩, by rfl, by rfl, by rfl, by rfl, by decide⟩,
    ⟨{ withSrs [(11, 0x3FFBB8)] (start 0 []) with paused := true },
      by rfl, by rfl, ⟨by rfl, by rfl⟩, by rfl, by rfl, by rfl, by decide, by decide,
      fits (by decide), by decide, by decide⟩⟩

/-- No CCB; a CCB without a process, its counted words touching the idle count; a process clock
right after the CCB. -/
theorem witness_Tick :
    ((start 0 []).calm ∧ (start 0 []).mem.wf ∧ ((start 0 []).sr 11).toNat % 2 = 1) ∧
      (∃ s : State, s.calm ∧ s.mem.wf ∧ (s.sr 11).toNat % 4 = 0 ∧
        (s.sr 11).toNat + 0x450 ≤ Config.memSize ∧ s.sr 14 = 1 ∧
        (s.sr 11).toNat + 0x43C + 4 ≤ (s.sr 11).toNat + 0x440) ∧
      ∃ s : State, s.calm ∧ s.mem.wf ∧ (s.sr 11).toNat % 4 = 0 ∧
        (s.sr 11).toNat + 0x450 ≤ Config.memSize ∧ s.sr 14 ≠ 1 ∧
        ((s.sr 14).toNat + 0x50) % 4 = 0 ∧ (s.sr 14).toNat + 0x50 + 4 ≤ Config.memSize ∧
        (s.sr 11).toNat + 0x450 ≤ (s.sr 14).toNat + 0x50 :=
  ⟨by decide,
    ⟨withSrs [(11, 0x3FFBB0)] (start 0 []), ⟨by rfl, by rfl⟩, by decide, by decide, fits (by decide), by decide,
      by decide⟩,
    ⟨withSrs [(11, 0x10000), (14, 0x10400)] (start 0 []), ⟨by rfl, by rfl⟩, by decide, by decide,
      fits (by decide), by decide, by decide, fits (by decide), by decide⟩⟩

/-- LUS changes the traps word; RUM enters user mode. -/
theorem witness_ModeAndTrapsWord :
    (∃ s t : State, exec (.lus 0 0) s = .next t ∧ t.tw ≠ s.tw) ∧
      ∃ s t : State, exec (.rum 0 0) s = .next t ∧ s.mode = .kernel ∧ t.mode = .user := by
  have h1 := next_of_answers (o := exec (.lus 0 0)
      (withWords 0x8048 [0xFFFFFFFF] (withSrs [(14, 0x8000)] (start 0 []))))
    (p := fun t => t.tw == 0xFFFFFFFF) (by decide)
  have h2 := next_of_answers (o := exec (.rum 0 0) (withSrs [(14, 0x8000)] (start 0 [])))
    (p := fun t => t.mode == .user) (by decide)
  obtain ⟨t, h1, ht⟩ := h1
  obtain ⟨u, h2, hu⟩ := h2
  exact ⟨⟨_, t, h1, by rw [beq_iff_eq.mp ht]; decide⟩, _, u, h2, by rfl, by simpa using hu⟩

/-- A process at 3E000 whose code page is in the TMT, with a CCB. -/
def process (w : Word) : State :=
  { inUser (withWords 0x3E000 [w] (withVector 0x14 (start 0 []))) with
    tmtCode := [(0x3E, 0x3E0002)] }

/-- MOVEI stays in user mode; KCALL 5 ends in kernel mode. -/
theorem witness_UserModeIsolation :
    (∃ t, (process 0x11370000).mode = .user ∧ (process 0x11370000).paused = false ∧
      (process 0x11370000).arrivals = [] ∧
      ((process 0x11370000).sr 10).getMsbD 31 = false ∧
      step (process 0x11370000) = .next t ∧ t.mode = .user) ∧
      ∃ t, (process 0x5B050000).mode = .user ∧ (process 0x5B050000).paused = false ∧
        (process 0x5B050000).arrivals = [] ∧
        ((process 0x5B050000).sr 10).getMsbD 31 = false ∧
        step (process 0x5B050000) = .next t ∧ t.mode = .kernel ∧
        (process 0x5B050000).badWords = [] := by
  have h1 := next_of_answers (o := step (process 0x11370000)) (p := fun t => t.mode == .user)
    (by decide)
  have h2 := next_of_answers (o := step (process 0x5B050000)) (p := fun t => t.mode == .kernel)
    (by decide)
  obtain ⟨t, h1, ht⟩ := h1
  obtain ⟨u, h2, hu⟩ := h2
  exact ⟨⟨t, by rfl, by rfl, by rfl, by decide, h1, by simpa using ht⟩,
    u, by rfl, by rfl, by rfl, by decide, h2, by simpa using hu, by rfl⟩

end Sys2Proof.Tests
end

/-! SUPPORT. What reset leaves: the boot page in memory, the values of R60, and the invariant
(00_scope.md R5, 10_state.md R60, 70_reset_and_hazards.md R500). -/

namespace Sys2Proof.Machine

/-! ### The boot page in memory -/

/-- Inside the page a boot page, once written, reads as the bytes supplied, continued with zeros. -/
theorem Memory.read_bootPage_inside {m : Memory} (h : m.wf) (page : List Byte) {k : Nat}
    (hk : k < 4096) :
    (m.writeBytes 0x3E000 (bootPage page)).read (0x3E000 + k) = page.getD k 0 := by
  have hin : 0x3E000 ≤ 0x3E000 + k ∧ 0x3E000 + k < 0x3E000 + (bootPage page).length := by
    rw [length_bootPage]
    omega
  rw [Memory.read_writeBytes h, dif_pos hin, getElem_bootPage, Nat.add_sub_cancel_left]

/-- Writing a boot page leaves memory outside the page as it was. -/
theorem Memory.read_bootPage_outside {m : Memory} (h : m.wf) (page : List Byte) {a : Nat}
    (ha : a < 0x3E000 ∨ 0x3F000 ≤ a) :
    (m.writeBytes 0x3E000 (bootPage page)).read a = m.read a :=
  Memory.read_writeBytes_outside h (by rw [length_bootPage]; exact ha)

/-- Stated, as `pressReset_mem` is, so that no later proof evaluates the 4096 bytes of the page. -/
theorem State.powerOn_mem (bootImage : List Byte) (devices : List Board) :
    (State.powerOn bootImage devices).mem =
      Memory.writeBytes [] 0x3E000 (bootPage bootImage) := by
  simp only [State.powerOn]

theorem pressReset_mem (page : List Byte) (s : State) :
    (pressReset page s).mem = s.mem.writeBytes 0x3E000 (bootPage page) := by
  simp only [pressReset]

/-! ### The values after reset -/

/-- The values that 10_state.md R60 gives after a reset of either kind; registers, masks and the
other agents are unspecified there. -/
def State.ResetByR60 (r : State) : Prop :=
  r.pc = 0x3E000 ∧ r.mode = .kernel ∧ r.paused = false ∧ r.tw = 0 ∧
    r.sr 2 = BitVec.ofNat 32 Config.memSize ∧ r.sr 11 = 1 ∧ r.sr 14 = 1 ∧
    r.tmtCode = [] ∧ r.tmtData = [] ∧ r.staleCode = [] ∧ r.staleData = []

theorem State.reset_resetByR60 : State.reset.ResetByR60 :=
  ⟨rfl, rfl, rfl, rfl, rfl, rfl, rfl, rfl, rfl, rfl, rfl⟩

/-- Memory and the boards are no part of R60's processor values. -/
theorem State.ResetByR60.with_mem_boards {r : State} (h : r.ResetByR60) (m : Memory)
    (bs : List Board) : ({ r with mem := m, boards := bs }).ResetByR60 := h

theorem State.powerOn_resetByR60 (bootImage : List Byte) (devices : List Board) :
    (State.powerOn bootImage devices).ResetByR60 :=
  State.reset_resetByR60.with_mem_boards _ devices

/-- Of the special registers, which the button leaves as free values, it then sets SR2, SR11 and
SR14. -/
theorem pressReset_sr (page : List Byte) (s : State) :
    (pressReset page s).sr 2 = BitVec.ofNat 32 Config.memSize ∧
      (pressReset page s).sr 11 = 1 ∧ (pressReset page s).sr 14 = 1 := by
  simp [State.sr, pressReset]

theorem pressReset_resetByR60 (page : List Byte) (s : State) :
    (pressReset page s).ResetByR60 := by
  obtain ⟨h2, h11, h14⟩ := pressReset_sr page s
  exact ⟨rfl, rfl, rfl, rfl, h2, h11, h14, rfl, rfl, rfl, rfl⟩

/-! ### The invariant after reset -/

theorem TmtHalf.wf_nil : TmtHalf.wf [] := ⟨List.Pairwise.nil, by simp⟩

theorem chainsLegal_nil : chainsLegal [] := ⟨by simp, List.nodup_nil⟩

/-- The reset state with a memory in canonical form and legal boards meets the invariant. -/
theorem State.reset_with_inv {m : Memory} {bs : List Board} (hm : m.wf)
    (hb : chainsLegal (bs.map Board.slot)) :
    ({ State.reset with mem := m, boards := bs }).Inv where
  mem := hm
  pc := (by decide : (0x3E000 : Word).toNat % 2 = 0)
  tmtCode := TmtHalf.wf_nil
  tmtData := TmtHalf.wf_nil
  errorLog := Nat.zero_le 16
  paused := fun _ => rfl
  boards := hb
  cache := dataLinesLegal_nil

theorem State.powerOn_inv (bootImage : List Byte) {devices : List Board}
    (h : chainsLegal (devices.map Board.slot)) : (State.powerOn bootImage devices).Inv :=
  State.reset_with_inv (Memory.wf_writeBytes Memory.wf_nil 0x3E000 (bootPage bootImage)) h

theorem State.reset_inv : State.reset.Inv :=
  State.reset_with_inv Memory.wf_nil chainsLegal_nil

/-! ### The obligations -/

/-- Settles O7: both states are the reset state with a memory in canonical form and legal boards. -/
theorem resetInv : Obligations.ResetInv :=
  ⟨State.reset_inv, fun bootImage _ h => State.powerOn_inv bootImage h⟩

/-- Settles O9: the state after the button is `pressReset`; both it and power-on write the boot page
into a memory in canonical form. -/
theorem resetValues : Obligations.ResetValues := by
  intro s page devices hs p
  refine ⟨pressReset page s, rfl, ?values, ?page, ?outside, rfl, rfl⟩
  case values =>
    rintro r (rfl | rfl | rfl)
    · exact State.reset_resetByR60
    · exact State.powerOn_resetByR60 page devices
    · exact pressReset_resetByR60 page s
  case page =>
    intro k hk
    rw [State.powerOn_mem, pressReset_mem]
    exact ⟨Memory.read_bootPage_inside hs page hk,
      Memory.read_bootPage_inside Memory.wf_nil page hk⟩
  case outside =>
    intro a ha
    rw [State.powerOn_mem, pressReset_mem]
    exact ⟨Memory.read_bootPage_outside hs page ha,
      Memory.read_bootPage_outside Memory.wf_nil page ha⟩

end Sys2Proof.Machine

/-! SUPPORT. Registers read after a write (10_state.md R20, R21, R26), and the sums of EADD and ESUB
(41_integer_logical.md R230, R231). -/

namespace Sys2Proof.Machine

/-! ### Registers -/

/-- Settles O10, by the rules for a read after a write; a write leaves the other fields by `rfl`. -/
theorem registerReadAfterWrite : Obligations.RegisterReadAfterWrite := by
  intro s i j w d
  refine ⟨State.reg_setReg_same s i w, fun h => State.reg_setReg_ne s h w,
    State.pair_setPair s i d, fun h1 h2 => ?other, State.sr_setSr_same s i w,
    fun h => ?special, rfl, rfl, rfl, rfl⟩
  case other => rw [State.reg_setPair, if_neg h2, if_neg h1]
  case special => rw [State.sr_setSr, if_neg h]

/-! ### Extended sums -/

theorem carryIn_eq (w : Word) : carryIn w = w.toNat % 2 := by
  have hbit : mbit w 31 = decide (w.toNat % 2 = 1) := by
    simp [mbit, BitVec.getLsbD, Nat.testBit_zero]
  rw [carryIn, hbit]
  split <;> simp_all

/-- The flag word, with the overflow and the carry as conditions (10_state.md R22). -/
theorem flagWord_of {ov cy : Bool} {p q : Prop} [Decidable p] [Decidable q]
    (hp : ov = true ↔ p) (hq : cy = true ↔ q) :
    flagWord ov cy = (if p then 2 else 0) + if q then 1 else 0 := by
  have table : ∀ o c : Bool,
      flagWord o c = (if o = true then 2 else 0) + if c = true then 1 else 0 := by decide
  simp only [table, hp, hq]

theorem eadd_word (a b : Word) (c : Nat) :
    BitVec.ofNat 32 (a.toNat + b.toNat + c) = a + b + BitVec.ofNat 32 c := by
  simp [BitVec.ofNat_add]

theorem esub_word (a b : Word) (c : Nat) :
    BitVec.ofNat 32 (a.toNat + (~~~b).toNat + c) = a - b - 1 + BitVec.ofNat 32 c := by
  have hone : (1 : Word).toNat = 1 := rfl
  apply BitVec.eq_of_toNat_eq
  simp only [BitVec.toNat_not, BitVec.toNat_add, BitVec.toNat_sub, BitVec.toNat_ofNat, hone]
  omega

theorem eaddSums_eq (a b r : Word) :
    eaddSums a b r =
      (a.toNat + b.toNat + r.toNat % 2, a.toInt + b.toInt + (r.toNat % 2 : Nat)) := by
  rw [eaddSums, carryIn_eq]

theorem esubSums_eq (a b r : Word) :
    esubSums a b r =
      (a.toNat + (~~~b).toNat + r.toNat % 2, a.toInt - b.toInt - 1 + (r.toNat % 2 : Nat)) := by
  rw [← carryIn_eq]
  rfl

/-- What EADD puts in R0: the carry and the overflow of the true sum. -/
theorem sumFlags_eadd (a b r : Word) :
    sumFlags (eaddSums a b r) =
      (if a.toInt + b.toInt + (r.toNat % 2 : Nat) < -(2 ^ 31) ∨
          2 ^ 31 ≤ a.toInt + b.toInt + (r.toNat % 2 : Nat) then 2 else 0) +
        if 2 ^ 32 ≤ a.toNat + b.toNat + r.toNat % 2 then 1 else 0 := by
  rw [sumFlags, eaddSums_eq]
  exact flagWord_of (overflows_iff _) decide_eq_true_iff

/-- What ESUB puts in R0: the carry says that nothing was borrowed. -/
theorem sumFlags_esub (a b r : Word) :
    sumFlags (esubSums a b r) =
      (if a.toInt - b.toInt - 1 + (r.toNat % 2 : Nat) < -(2 ^ 31) ∨
          2 ^ 31 ≤ a.toInt - b.toInt - 1 + (r.toNat % 2 : Nat) then 2 else 0) +
        if b.toNat + 1 ≤ a.toNat + r.toNat % 2 then 1 else 0 := by
  rw [sumFlags, esubSums_eq]
  refine flagWord_of (overflows_iff _) (decide_eq_true_iff.trans ?_)
  rw [BitVec.toNat_not]
  omega

/-- The end of EADD and ESUB where Rx is another register than R0. -/
theorem deliverExtended_ne {x : Reg} (hx : x ≠ 0) (u : Nat × Int) (s : State) :
    deliverExtended x u s =
      .next (((s.setReg x (BitVec.ofNat 32 u.1)).setReg 0 (sumFlags u)).advance 2) :=
  if_neg hx

/-- The end of EADD and ESUB with Rx = R0: one of the two words (41_integer_logical.md R230). -/
theorem deliverExtended_zero (u : Nat × Int) (s : State) :
    ∃ w, (w = BitVec.ofNat 32 u.1 ∨ w = sumFlags u) ∧
      deliverExtended 0 u s = .next ((s.setReg 0 w).drawn.advance 2) := by
  refine ⟨_, ?_, if_pos rfl⟩
  split
  · exact .inr rfl
  · exact .inl rfl

/-- Settles O17: both instructions end in `deliverExtended`, with their sum and its flags. -/
theorem extendedSums : Obligations.ExtendedSums := by
  intro s x y a b c flags addFlags subFlags
  have addWord : BitVec.ofNat 32 (eaddSums a b (s.reg 0)).1 = a + b + BitVec.ofNat 32 c := by
    rw [eaddSums_eq, eadd_word]
  have subWord : BitVec.ofNat 32 (esubSums a b (s.reg 0)).1 = a - b - 1 + BitVec.ofNat 32 c := by
    rw [esubSums_eq, esub_word]
  have addFlags_eq : sumFlags (eaddSums a b (s.reg 0)) = addFlags := sumFlags_eadd a b _
  have subFlags_eq : sumFlags (esubSums a b (s.reg 0)) = subFlags := sumFlags_esub a b _
  refine ⟨fun hx => ⟨?_, ?_⟩, fun hx => ?_⟩
  · rw [← addWord, ← addFlags_eq]
    exact deliverExtended_ne hx _ s
  · rw [← subWord, ← subFlags_eq]
    exact deliverExtended_ne hx _ s
  · subst hx
    rw [← addWord, ← addFlags_eq, ← subWord, ← subFlags_eq]
    exact ⟨deliverExtended_zero _ s, deliverExtended_zero _ s⟩

end Sys2Proof.Machine

/-! SUPPORT. What an access cannot bring about: a failing word, DMA to come, an event without a vector
in the CCB. `State.Accessed` says what an access can change; this is the rest. -/

namespace Sys2Proof.Machine

/-! ### What an access brings about -/

/-- From `s` to `t` no failing word and no DMA to come has appeared: the two obstacles to an access
that `State.Accessed` lets change. -/
structure State.Quieter (s t : State) : Prop where
  badWords : s.badWords = [] → t.badWords = []
  dmaTurns : s.dmaTurns = [] → t.dmaTurns = []

theorem State.Quieter.refl (s : State) : s.Quieter s := ⟨id, id⟩

theorem State.Quieter.trans {s t u : State} (h : s.Quieter t) (k : t.Quieter u) : s.Quieter u :=
  ⟨k.badWords ∘ h.badWords, k.dmaTurns ∘ h.dmaTurns⟩

/-- The offset of a vector in the CCB, of a KCALL or of an event (60_exceptions.md R432). -/
abbrev vectorOffset (off : Word) : Prop := off.toNat % 4 = 0 ∧ off.toNat ≤ 0x434

/-- A result that brings about no failing word and no DMA, and whose event has its vector in the
CCB. -/
def Res.orderly {α : Type} (s : State) (r : Res α) : Prop :=
  match r with
  | .ok _ t => s.Quieter t
  | .trap e t => s.Quieter t ∧ vectorOffset e.off
  | .fault _ => True
  | .refused _ => True

theorem Res.orderly_of {α : Type} {s t : State} {r : Res α} (h : s.Quieter t)
    (k : r.orderly t) : r.orderly s := by
  cases r with
  | ok v u => exact h.trans k
  | trap e u => exact ⟨h.trans k.1, k.2⟩
  | fault => trivial
  | refused => trivial

theorem Res.orderly_bind {α β : Type} {s : State} {r : Res α} {f : α → State → Res β}
    (h : r.orderly s) (k : ∀ v t, (f v t).orderly t) : (r.bind f).orderly s := by
  cases r with
  | ok v t => exact Res.orderly_of h (k v t)
  | trap e t => exact h
  | fault => trivial
  | refused => trivial

theorem drawn_quieter (s : State) : s.Quieter s.drawn := ⟨id, id⟩

theorem storeReal_quieter (s : State) (a : Nat) (bs : List Byte) : s.Quieter (s.storeReal a bs) :=
  ⟨id, id⟩

theorem stamped_quieter (s : State) (sp : Space) : s.Quieter (s.stamped sp) :=
  ⟨fun h => by simpa using h, fun h => by simpa using h⟩

theorem lineFilled_quieter (s : State) (draw : Nat) (sp : Space) (a : Nat) :
    s.Quieter (s.lineFilled draw sp a) :=
  ⟨fun h => by simpa using h, fun h => by simpa using h⟩

theorem setTmt_quieter (s : State) (sp : Space) (i : Nat) (w : Word) :
    s.Quieter (s.setTmt sp i w) :=
  ⟨fun h => by simpa using h, fun h => by simpa using h⟩

theorem segmentDrawn_quieter (s : State) : s.Quieter (segmentDrawn s) := by
  unfold segmentDrawn
  split
  · exact .refl s
  · exact drawn_quieter s

theorem reported_quieter (a n : Nat) (s : State) : s.Quieter (reported a n s) :=
  ⟨fun h => by simp [reported, h], id⟩

theorem parityChecked_quieter (p : ParityError) (a n : Nat) (s : State) :
    s.Quieter (parityChecked p a n s) := by
  unfold parityChecked
  split
  · exact ⟨(reported_quieter a n s).badWords, id⟩
  · exact .refl s

/-! ### DMA -/

theorem dmaWrite_orderly (a : Word) (ws : List Word) (s : State) : (dmaWrite a ws s).orderly s := by
  unfold dmaWrite
  split
  · trivial
  · exact ⟨id, id⟩

theorem dmaRead_orderly (a : Word) (n : Nat) (s : State) : (dmaRead a n s).orderly s := by
  unfold dmaRead
  split
  · trivial
  · exact ⟨(reported_quieter _ _ s).badWords, id⟩

theorem applyDma_orderly (d : Dma) (s : State) : (applyDma d s).orderly s := by
  cases d with
  | writeWord a w => exact dmaWrite_orderly a [w] s
  | writeBurst a w0 w1 w2 w3 => exact dmaWrite_orderly a [w0, w1, w2, w3] s
  | readWord a => exact dmaRead_orderly a 1 s
  | readBurst a => exact dmaRead_orderly a 4 s

theorem applyDmas_orderly (ds : List Dma) (s : State) : (applyDmas ds s).orderly s := by
  induction ds generalizing s with
  | nil => exact .refl s
  | cons d ds ih => exact Res.orderly_bind (applyDma_orderly d s) fun _ => ih

theorem serveRounds_orderly (rs : List DmaRound) (s : State) : (serveRounds rs s).orderly s := by
  induction rs generalizing s with
  | nil => exact .refl s
  | cons r rs ih => exact Res.orderly_bind (applyDmas_orderly _ s) fun _ => ih

theorem dmaTurn_orderly (s : State) : (dmaTurn s).orderly s := by
  unfold dmaTurn
  split
  · exact .refl s
  · next now later hd =>
    exact Res.orderly_of (t := { s with dmaTurns := later })
      ⟨id, fun h => absurd (hd.symm.trans h) (List.cons_ne_nil _ _)⟩ (serveRounds_orderly now _)

/-! ### Memory accesses -/

theorem microRead_orderly (a : Word) (s : State) : (microRead a s).orderly s :=
  Res.orderly_bind (dmaTurn_orderly s) fun _ t => by
    split
    · trivial
    · split
      · exact (parityChecked_quieter _ _ _ t).trans (drawn_quieter _)
      · exact .refl t

theorem microWrite_orderly (a w : Word) (s : State) : (microWrite a w s).orderly s :=
  Res.orderly_bind (dmaTurn_orderly s) fun _ t => by
    split
    · exact storeReal_quieter t _ _
    · trivial

theorem busRead_orderly (draw : Nat) (sp : Space) (p : ParityError) (a n : Nat) (s : State) :
    (busRead draw sp p a n s).orderly s :=
  Res.orderly_bind (dmaTurn_orderly s) fun _ t =>
    (lineFilled_quieter t draw sp a).trans (parityChecked_quieter p a n _)

theorem busWrite_orderly (draw a : Nat) (bs : List Byte) (s : State) :
    (busWrite draw a bs s).orderly s :=
  Res.orderly_bind (dmaTurn_orderly s) fun _ t =>
    (lineFilled_quieter t draw .data a).trans (storeReal_quieter _ a bs)

theorem memoryRead_orderly (sp : Space) (ea : Word) (a n : Nat) (s : State) :
    (memoryRead sp ea a n s).orderly s := by
  unfold memoryRead
  split
  · exact Res.orderly_of (stamped_quieter s sp) (busRead_orderly _ sp _ a n _)
  · exact Res.orderly_of (stamped_quieter s sp) <|
      Res.orderly_bind (busRead_orderly _ sp _ a 4 _) fun _ t =>
        Res.orderly_bind (busRead_orderly _ sp _ _ _ t) fun _ u => .refl u

theorem memoryWrite_orderly (a : Nat) (bs : List Byte) (s : State) :
    (memoryWrite a bs s).orderly s := by
  unfold memoryWrite
  split
  · exact Res.orderly_of (stamped_quieter s .data) (busWrite_orderly _ a bs _)
  · exact Res.orderly_of (stamped_quieter s .data) <|
      Res.orderly_bind (busWrite_orderly _ a _ _) fun _ t => busWrite_orderly _ _ _ t

theorem ccbBase_orderly (s : State) : (ccbBase s).orderly s := by
  unfold ccbBase
  split
  · trivial
  · split
    · exact .refl s
    · trivial

/-! ### Translation -/

theorem vrtChase_orderly (key : Word) (n : Nat) (p : Word) (s : State) :
    (vrtChase key n p s).orderly s := by
  induction n generalizing p s with
  | zero => trivial
  | succ n ih =>
    unfold vrtChase
    split
    · exact .refl s
    · split
      · trivial
      · refine Res.orderly_bind (microRead_orderly _ s) fun m t => ?_
        split
        · exact Res.orderly_bind (microRead_orderly _ t) fun _ u => .refl u
        · exact Res.orderly_bind (microRead_orderly _ t) ih

theorem vrtSearch_orderly (seg : Half) (va : Word) (s : State) :
    (vrtSearch seg va s).orderly s := by
  unfold vrtSearch
  split
  · trivial
  · refine Res.orderly_bind (microRead_orderly _ s) fun p t =>
      Res.orderly_bind (vrtChase_orderly _ _ _ t) fun r u => ?_
    split
    · exact .refl u
    · split
      · exact Res.orderly_bind (microWrite_orderly _ _ u) fun _ x => .refl x
      · trivial

theorem vrtSearchDirty_orderly (seg : Half) (va : Word) (s : State) :
    (vrtSearchDirty seg va s).orderly s := by
  refine Res.orderly_bind (vrtSearch_orderly _ _ s) fun r t => ?_
  split
  · exact .refl t
  · exact Res.orderly_bind (microWrite_orderly _ _ t) fun _ x => .refl x

theorem pageFault_orderly {α : Type} (k : PageFaultKind) (seg : Half) (va : Word) (s : State) :
    (Res.trap (pageFault k seg va s) s : Res α).orderly s :=
  ⟨.refl s, (by decide : ccbPageFault.toNat % 4 = 0 ∧ ccbPageFault.toNat ≤ 0x434)⟩

theorem tmtEntry_orderly (sp : Space) (va : Word) (s : State) : (tmtEntry sp va s).orderly s := by
  unfold tmtEntry
  split
  · exact .refl s
  · refine Res.orderly_bind (vrtSearch_orderly _ _ s) fun r t => ?_
    split
    · exact pageFault_orderly _ _ _ t
    · exact setTmt_quieter t _ _ _

theorem markDirty_orderly (sp : Space) (va : Word) (s : State) :
    (markDirty sp va s).orderly s := by
  refine Res.orderly_bind (vrtSearchDirty_orderly _ _ s) fun r t => ?_
  split
  · exact pageFault_orderly _ _ _ t
  · exact setTmt_quieter t _ _ _

theorem translate_orderly (sp : Space) (va : Word) (acc : Access) (s : State) :
    (translate sp va acc s).orderly s := by
  unfold translate
  split
  · exact .refl s
  · refine Res.orderly_bind (tmtEntry_orderly sp va s) fun e t => ?_
    split
    · exact pageFault_orderly _ _ _ t
    · split
      · exact Res.orderly_bind (markDirty_orderly sp va t) fun _ u => .refl u
      · exact .refl t

theorem accessAddress_orderly (sp : Space) (ea : Word) (n : Nat) (acc : Access) (s : State) :
    (accessAddress sp ea n acc s).orderly s := by
  unfold accessAddress
  split
  · refine Res.orderly_bind (translate_orderly sp ea acc s) fun pa t => ?_
    split
    · exact .refl t
    · trivial
  · exact ⟨segmentDrawn_quieter s,
      (by decide : ccbDataAlignment.toNat % 4 = 0 ∧ ccbDataAlignment.toNat ≤ 0x434)⟩

theorem virtualWrite_orderly (sp : Space) (ea : Word) (bs : List Byte) (s : State) :
    (virtualWrite sp ea bs s).orderly s :=
  Res.orderly_bind (accessAddress_orderly _ _ _ _ s) fun _ t => memoryWrite_orderly _ _ t

theorem virtualRead_orderly (sp : Space) (ea : Word) (n : Nat) (s : State) :
    (virtualRead sp ea n s).orderly s :=
  Res.orderly_bind (accessAddress_orderly _ _ _ _ s) fun _ t =>
    Res.orderly_bind (memoryRead_orderly _ _ _ _ t) fun _ u => by
      split
      · exact drawn_quieter u
      · exact .refl u

/-! ### Fetches and pending interrupts -/

theorem fetchHalf_orderly (draw : Nat) (va : Word) (s : State) :
    (fetchHalf draw va s).orderly s := by
  refine Res.orderly_bind (translate_orderly _ _ _ s) fun pa t => ?_
  split
  · exact busRead_orderly _ _ _ _ _ t
  · trivial

theorem fetchRest_orderly (draw n : Nat) (va : Word) (s : State) :
    (fetchRest draw n va s).orderly s := by
  induction n generalizing va s with
  | zero => exact .refl s
  | succ n ih =>
    refine Res.orderly_bind (fetchHalf_orderly _ _ s) fun b t => ?_
    split
    · exact .refl t
    · exact Res.orderly_bind (ih _ t) fun _ u => .refl u

theorem fetch_orderly (s : State) : (fetch s).orderly s := by
  unfold fetch
  split
  · trivial
  · refine Res.orderly_of (stamped_quieter s .code) <|
      Res.orderly_bind (fetchHalf_orderly _ _ _) fun r t => ?_
    split
    · exact .refl t
    · exact Res.orderly_bind (fetchRest_orderly _ _ _ t) fun _ u => .refl u

theorem timerNegative_orderly (off : Word) (s : State) : (timerNegative off s).orderly s := by
  unfold timerNegative
  split
  · exact .refl s
  · exact Res.orderly_bind (ccbBase_orderly s) fun _ t =>
      Res.orderly_bind (microRead_orderly _ t) fun _ u => .refl u

theorem timerInterrupts_orderly (s : State) : (timerInterrupts s).orderly s := by
  unfold timerInterrupts
  split
  · refine Res.orderly_bind (timerNegative_orderly _ s) fun _ t => ?_
    split
    · exact .refl t
    · exact Res.orderly_bind (timerNegative_orderly _ t) fun _ u => .refl u
  · exact .refl s

theorem pendingInterrupt_orderly (s : State) : (pendingInterrupt s).orderly s :=
  Res.orderly_bind (timerInterrupts_orderly s) fun ts t => by
    obtain ⟨n, hn, _⟩ := pick_spec (latchedInterrupts t ++ ts) t
    rw [hn]
    exact ⟨id, id⟩

end Sys2Proof.Machine

/-! SUPPORT. The stores: an access that reaches its address, and what is stored there
(40_memory_reference.md R182 to R186). -/

namespace Sys2Proof.Machine

/-! ### Stores -/

/-- An address that is mapped at once translates to its real address and changes nothing. -/
theorem translate_of_mapsTo {s : State} {sp : Space} {ea pa : Word} {acc : Access}
    (h : s.mapsTo sp ea acc pa) : translate sp ea acc s = .ok pa s := by
  unfold State.mapsTo at h
  unfold translate
  cases hm : s.mode with
  | kernel =>
    simp only [hm] at h
    simp only [h]
  | user =>
    simp only [hm] at h
    obtain ⟨e, he, rfl, hw⟩ := h
    simp only [tmtEntry, he, Res.bind_ok]
    by_cases ha : acc = .write
    · obtain ⟨h1, h2⟩ := hw ha
      simp [h1, h2]
    · simp [ha]

theorem translate_of_reaches {r s : State} {sp : Space} {ea pa : Word} {acc : Access}
    (h : r.reaches sp ea acc pa s) : translate sp ea acc r = .ok pa s := by
  rcases h with ⟨h, rfl⟩ | h
  · exact translate_of_mapsTo h
  · exact h

/-- The address of an aligned access to memory that exists is its translation. -/
theorem accessAddress_of_translate {r s : State} {sp : Space} {ea pa : Word} {n : Nat}
    {acc : Access} (hn : ea.toNat % n = 0) (h : translate sp ea acc r = .ok pa s)
    (hf : pa.toNat + n ≤ Config.memSize) : accessAddress sp ea n acc r = .ok pa s := by
  rw [accessAddress, if_pos ((aligned_iff _ _).2 hn), h, Res.bind_ok,
    if_pos ((realExists_iff _ _).2 hf)]

/-- What a translation that answers keeps of what a store needs. -/
theorem translate_ok_keeps {r s : State} {sp : Space} {ea pa : Word} {acc : Access}
    (h : translate sp ea acc r = .ok pa s) : r.Accessed s ∧ r.Quieter s := by
  have hw := translate_within sp ea acc r
  have ho := translate_orderly sp ea acc r
  rw [h] at hw ho
  exact ⟨hw, ho⟩

theorem State.stores.pc {s t : State} {a : Nat} {bs : List Byte} (h : s.stores a bs t) :
    t.pc = s.pc := (congrArg State.pc h.frame :)

/-- A store at an aligned address that reaches memory that exists. -/
theorem storeOp_stores {r s : State} {m : MemRef} {pa : Word} {bs : List Byte}
    (hd : r.dmaTurns = []) (hw : r.mem.wf)
    (h : r.reaches .data (effectiveAddress .data m r) .write pa s)
    (hn : (effectiveAddress .data m r).toNat % bs.length = 0)
    (hf : pa.toNat + bs.length ≤ Config.memSize) :
    ∃ t, storeOp bs m r = .next (t.setPc (branchEnd m.disp r.pc False)) ∧
      s.stores pa.toNat bs t := by
  have htr := translate_of_reaches h
  obtain ⟨hacc, hquiet⟩ := translate_ok_keeps htr
  obtain ⟨t, hwrite, hst⟩ := memoryWrite_stores (hquiet.dmaTurns hd) (hacc.mem hw) pa.toNat bs
  refine ⟨t, ?_, hst⟩
  rw [storeOp, virtualWrite, accessAddress_of_translate hn htr hf, Res.bind_ok, hwrite, Res.out_ok,
    advance_dispLength, hst.pc, hacc.pc]

/-- The bytes of a word's low halfword. -/
theorem halfBytes_lowHalf (w : Word) :
    halfBytes (lowHalf w) = [mfield w 16 23, mfield w 24 31] := by
  have hi : (lowHalf w).extractLsb' 8 8 = mfield w 16 23 := by
    apply BitVec.eq_of_getLsbD_eq
    intro i hi
    simp [lowHalf, mfield, hi]
  have lo : (lowHalf w).extractLsb' 0 8 = mfield w 24 31 := by
    apply BitVec.eq_of_getLsbD_eq
    intro i hi
    simp [lowHalf, mfield, hi]
  rw [halfBytes, hi, lo]

/-- Each store is `storeOp` of the bytes it stores. -/
theorem exec_storeForms {s : State} {x : Nib} {m : MemRef} {p : Instr × List Byte}
    (h : p ∈ storeForms s x m) : exec p.1 s = storeOp p.2 m s := by
  simp only [storeForms, List.mem_cons, List.not_mem_nil, or_false] at h
  rcases h with rfl | rfl | rfl | rfl
  · rfl
  · exact congrArg (storeOp · m s) (halfBytes_lowHalf (s.reg x))
  · rfl
  · rfl

/-- Settles O39: each store is a `storeOp`, whose write `memoryWrite_stores` describes. -/
theorem storesComplete : Obligations.StoresComplete := by
  intro r s x m pa hd hw ea hr p hp hn hf
  rw [exec_storeForms hp]
  exact storeOp_stores hd hw hr hn hf

end Sys2Proof.Machine

/-! SUPPORT. The two ways to leave a state: to run on, with the kernel's state kept, or to enter a handler
through the CCB (60_exceptions.md R420, R421, R430). -/

namespace Sys2Proof.Machine

/-! ### What is kept -/

/-- What everything but the kernel's own instructions and the other agents keep: mode, pause, `TW`,
SR4 to SR14, masks, status bits, error log, clock board, the slots of the boards; and the parts of
the invariant that accesses keep. -/
structure State.Keeps (s t : State) : Prop where
  frame : { t with
    regs := s.regs, pc := s.pc, srs := s.srs, boards := s.boards
    powerFailPending := s.powerFailPending, switch0Pending := s.switch0Pending
    parityPending := s.parityPending, timer1Due := s.timer1Due, timer2Due := s.timer2Due
    mem := s.mem, staleCode := s.staleCode, staleData := s.staleData, badWords := s.badWords
    bus := s.bus, draws := s.draws, dmaTurns := s.dmaTurns
    tmtCode := s.tmtCode, tmtData := s.tmtData } = s
  sr : ∀ j : SReg, 4 ≤ j.toNat → j.toNat ≤ 14 → t.sr j = s.sr j
  slots : t.boards.map Board.slot = s.boards.map Board.slot
  mem : s.mem.wf → t.mem.wf
  tmtCode : s.tmtCode.wf → t.tmtCode.wf
  tmtData : s.tmtData.wf → t.tmtData.wf
  cache : dataLinesLegal s.staleData → dataLinesLegal t.staleData

theorem State.Keeps.refl (s : State) : s.Keeps s := ⟨rfl, fun _ _ _ => rfl, rfl, id, id, id, id⟩

theorem State.Keeps.trans {s t u : State} (h : s.Keeps t) (k : t.Keeps u) : s.Keeps u where
  frame := by
    have h1 := h.frame
    have h2 := k.frame
    rw [← h1, ← h2]
  sr j h4 h14 := (k.sr j h4 h14).trans (h.sr j h4 h14)
  slots := k.slots.trans h.slots
  mem := k.mem ∘ h.mem
  tmtCode := k.tmtCode ∘ h.tmtCode
  tmtData := k.tmtData ∘ h.tmtData
  cache := k.cache ∘ h.cache

section Fields
variable {s t : State} (h : s.Keeps t)
include h
theorem State.Keeps.mode : t.mode = s.mode := (congrArg State.mode h.frame :)
theorem State.Keeps.paused : t.paused = s.paused := (congrArg State.paused h.frame :)
theorem State.Keeps.tw : t.tw = s.tw := (congrArg State.tw h.frame :)
theorem State.Keeps.mask1 : t.mask1 = s.mask1 := (congrArg State.mask1 h.frame :)
theorem State.Keeps.mask2 : t.mask2 = s.mask2 := (congrArg State.mask2 h.frame :)
theorem State.Keeps.powerFail : t.powerFail = s.powerFail := (congrArg State.powerFail h.frame :)
theorem State.Keeps.loaf : t.loaf = s.loaf := (congrArg State.loaf h.frame :)
theorem State.Keeps.clock : t.clock = s.clock := (congrArg State.clock h.frame :)
theorem State.Keeps.errorLog : t.errorLog = s.errorLog := (congrArg State.errorLog h.frame :)

/-- The kept parts of the invariant, with an even program counter (10_state.md R23) and the pause in
kernel mode only (60_exceptions.md R460). -/
theorem State.Keeps.inv {v : Word} {m : Mode} {p : Bool} (hs : s.Inv) (hv : v.toNat % 2 = 0)
    (hp : p = true → m = .kernel) : ({ t with pc := v, mode := m, paused := p } : State).Inv where
  mem := h.mem hs.mem
  pc := hv
  tmtCode := h.tmtCode hs.tmtCode
  tmtData := h.tmtData hs.tmtData
  errorLog := h.errorLog ▸ hs.errorLog
  paused := hp
  boards := h.slots ▸ hs.boards
  cache := h.cache hs.cache
end Fields

theorem State.Accessed.keeps {s t : State} (h : s.Accessed t) : s.Keeps t where
  frame := by
    have h1 := h.frame
    rw [← h1]
  sr j _ _ := h.sr j
  slots := by rw [h.boards]
  mem := h.mem
  tmtCode := h.tmtCode
  tmtData := h.tmtData
  cache := h.cache

/-- An event saves in SR0 to SR3 and SR15 alone (60_exceptions.md R430). -/
theorem saveEvent_keeps (e : Event) (s : State) : s.Keeps (saveEvent e s) := by
  have hsr : ∀ j : SReg, 4 ≤ j.toNat → j.toNat ≤ 14 → (saveEvent e s).sr j = s.sr j := by
    intro j h4 h14
    have apart : ∀ j : SReg, 4 ≤ j.toNat → j.toNat ≤ 14 →
        j ≠ 0 ∧ j ≠ 1 ∧ j ≠ 2 ∧ j ≠ 3 ∧ j ≠ 15 := by decide
    obtain ⟨h0, h1, h2, h3, h15⟩ := apart j h4 h14
    rw [saveEvent_sr, if_neg h0, if_neg h1, if_neg h2, if_neg h3, if_neg fun h => h15 h.1]
  rw [saveEvent_frame] at hsr ⊢
  exact ⟨rfl, hsr, rfl, id, id, id, id⟩

/-! ### The two ways to leave a state -/

/-- From `s` to `t` an instruction has run that enters no event and is none of the kernel's, or a
part of one: SR3 is the one special register it writes, and the boards stay as they are. -/
structure State.Ran (s t : State) : Prop where
  keeps : s.Keeps t
  quiet : s.Quieter t
  sr : ∀ j : SReg, j ≠ 3 → t.sr j = s.sr j
  boards : t.boards = s.boards
  pc : s.pc.toNat % 2 = 0 → t.pc.toNat % 2 = 0

theorem State.Ran.refl (s : State) : s.Ran s :=
  ⟨.refl s, .refl s, fun _ _ => rfl, rfl, id⟩

theorem State.Ran.trans {s t u : State} (h : s.Ran t) (k : t.Ran u) : s.Ran u :=
  ⟨h.keeps.trans k.keeps, h.quiet.trans k.quiet, fun j hj => (k.sr j hj).trans (h.sr j hj),
    k.boards.trans h.boards, k.pc ∘ h.pc⟩

theorem State.Ran.inv {s t : State} (h : s.Ran t) (hs : s.Inv) : t.Inv :=
  h.keeps.inv (v := t.pc) (m := t.mode) (p := t.paused) hs (h.pc hs.pc) fun hp =>
    h.keeps.mode.trans (hs.paused (h.keeps.paused.symm.trans hp))

/-- From `s` to `t` a handler has been entered whose address the CCB holds, unless a memory error
hides it (60_exceptions.md R430, R432). -/
def State.Enters (s t : State) : Prop :=
  ∃ u v, s.Keeps u ∧ t = { u with mode := .kernel, paused := false, pc := v } ∧
    v.toNat % 2 = 0 ∧
    (s.badWords = [] → ∃ off, vectorOffset off ∧ v = u.mem.readWord (s.sr 11 + off).toNat)

theorem State.Enters.inv {s t : State} (h : s.Enters t) (hs : s.Inv) : t.Inv := by
  obtain ⟨u, v, hk, rfl, hv, -⟩ := h
  exact hk.inv hs hv fun _ => rfl

/-- Running on, or entering a handler. -/
def State.Leaves (s t : State) : Prop := s.Ran t ∨ s.Enters t

theorem State.Ran.leaves {s t u : State} (h : s.Ran t) (k : t.Leaves u) : s.Leaves u := by
  rcases k with k | ⟨w, v, hk, rfl, hv, hoff⟩
  · exact .inl (h.trans k)
  · refine .inr ⟨w, v, h.keeps.trans hk, rfl, hv, fun hb => ?_⟩
    rw [← h.sr 11 (by decide)]
    exact hoff (h.quiet.badWords hb)

theorem State.Leaves.inv {s t : State} (h : s.Leaves t) (hs : s.Inv) : t.Inv :=
  h.elim (fun h => h.inv hs) fun h => h.inv hs

/-- The next state of an outcome, if there is one, has a property. -/
def leadsTo (P : State → Prop) (o : Out) : Prop := ∀ t, o = .next t → P t

theorem leadsTo_next {P : State → Prop} {t : State} (h : P t) : leadsTo P (.next t) :=
  fun _ ht => by cases ht; exact h

theorem leadsTo_refused (P : State → Prop) (r : Refusal) : leadsTo P (.refused r) :=
  fun _ ht => by cases ht

theorem State.Ran.leadsTo {s u : State} {o : Out} (h : s.Ran u)
    (k : Machine.leadsTo u.Leaves o) : Machine.leadsTo s.Leaves o :=
  fun t ht => h.leaves (k t ht)

theorem leadsTo_ran {s t : State} (h : s.Ran t) : leadsTo s.Leaves (.next t) :=
  leadsTo_next (.inl h)

/-! ### Updates -/

/-- Registers, an even program counter and the counter of free values may change. -/
theorem ran_of_local (s : State) (r : Vector Word 16) (p : Word) (n : Nat)
    (hp : s.pc.toNat % 2 = 0 → p.toNat % 2 = 0) :
    s.Ran { s with regs := r, pc := p, draws := n } :=
  ⟨⟨rfl, fun _ _ _ => rfl, rfl, id, id, id, id⟩, ⟨id, id⟩, fun _ _ => rfl, rfl, hp⟩

theorem setReg_ran (s : State) (x : Reg) (w : Word) : s.Ran (s.setReg x w) :=
  ran_of_local s _ s.pc s.draws id

theorem setPair_ran (s : State) (x : Reg) (d : DWord) : s.Ran (s.setPair x d) :=
  (setReg_ran s x _).trans (setReg_ran _ (x + 1) _)

theorem drawn_ran (s : State) : s.Ran s.drawn := ran_of_local s s.regs s.pc _ id

theorem setPc_ran {s : State} {a : Word} (h : s.pc.toNat % 2 = 0 → a.toNat % 2 = 0) :
    s.Ran (s.setPc a) := ran_of_local s s.regs a s.draws h

theorem even_add {a b : Word} (ha : a.toNat % 2 = 0) (hb : b.toNat % 2 = 0) :
    (a + b).toNat % 2 = 0 := by
  rw [BitVec.toNat_add]
  omega

theorem advance_ran {s : State} {n : Word} (h : n.toNat % 2 = 0) : s.Ran (s.advance n) :=
  setPc_ran fun hp => even_add hp h

theorem setSr_three_ran (s : State) (w : Word) : s.Ran (s.setSr 3 w) where
  keeps := by
    refine ⟨rfl, fun j h4 h14 => ?_, rfl, id, id, id, id⟩
    rw [State.sr_setSr, if_neg]
    rintro rfl
    exact absurd h4 (by decide)
  quiet := ⟨id, id⟩
  sr j hj := by rw [State.sr_setSr, if_neg hj]
  boards := rfl
  pc := id

theorem ran_of_access {s t : State} (h : s.Accessed t) (k : s.Quieter t) : s.Ran t :=
  ⟨h.keeps, k, fun j _ => h.sr j, h.boards, fun hp => h.pc ▸ hp⟩

theorem segmentDrawn_ran (s : State) : s.Ran (segmentDrawn s) :=
  ran_of_access (segmentDrawn_within s) (segmentDrawn_quieter s)

theorem dispLength_even (d : Disp) : (dispLength d).toNat % 2 = 0 := by
  cases d with
  | short _ => exact (by decide : (4 : Word).toNat % 2 = 0)
  | long _ => exact (by decide : (6 : Word).toNat % 2 = 0)

theorem branchTarget_even {d : Disp} {s : State} (h : s.pc.toNat % 2 = 0) :
    (branchTarget d s).toNat % 2 = 0 := by
  refine even_add h ?_
  have hmask : (0xFFFFFFFE#32).toNat % 2 ^ 1 = 0 := rfl
  rw [BitVec.toNat_and, ← pow_one 2, Nat.and_mod_two_pow, hmask, Nat.and_zero]

/-! ### Entering a handler -/

theorem enterVector_leaves {s u : State} {off : Word} (hk : s.Keeps u) (hq : s.Quieter u)
    (ho : vectorOffset off) : leadsTo s.Leaves (enterVector off u) := by
  intro t h
  obtain ⟨w, v, hacc, rfl, hv, hword⟩ := enterVector_next h
  refine .inr ⟨w, v, hk.trans hacc.keeps, rfl, hv, fun hb => ⟨off, ho, ?_⟩⟩
  rw [← hk.sr 11 (by decide) (by decide)]
  exact hword (hq.badWords hb)

theorem enterEvent_leaves {s u : State} {e : Event} (hk : s.Keeps u) (hq : s.Quieter u)
    (ho : vectorOffset e.off) : leadsTo s.Leaves (enterEvent e u) := by
  have hsave : u.Quieter (saveEvent e u) := by
    rw [saveEvent_frame]
    exact ⟨id, id⟩
  exact enterVector_leaves (hk.trans (saveEvent_keeps e u)) (hq.trans hsave) ho

/-- An event of the instruction at hand. -/
theorem enterEvent_leaves_self {s : State} {e : Event} (ho : vectorOffset e.off) :
    leadsTo s.Leaves (enterEvent e s) := enterEvent_leaves (.refl s) (.refl s) ho

theorem raiseArith_leaves (op : Byte) (x y : Nib) (n : Word) (s : State) :
    leadsTo s.Leaves (raiseArith op x y n s) :=
  enterEvent_leaves_self (by decide : vectorOffset ccbArithmetic)

theorem raiseCheckTrap_leaves (op : Byte) (x y : Nib) (s : State) :
    leadsTo s.Leaves (raiseCheckTrap op x y s) :=
  enterEvent_leaves_self (by decide : vectorOffset ccbCheckTrap)

theorem raiseKernelViolation_leaves (op : Byte) (x y : Nib) (s : State) :
    leadsTo s.Leaves (raiseKernelViolation op x y s) :=
  enterEvent_leaves_self (by decide : vectorOffset ccbKernelViolation)

/-! ### Results -/

/-- A result that leaves a state to which `s` runs on; its event has its vector in the CCB. -/
def Res.runs {α : Type} (s : State) (r : Res α) : Prop :=
  match r with
  | .ok _ t => s.Ran t
  | .trap e t => s.Ran t ∧ vectorOffset e.off
  | .fault _ => True
  | .refused _ => True

theorem Res.runs_of {α : Type} {s t : State} {r : Res α} (h : s.Ran t) (k : r.runs t) :
    r.runs s := by
  cases r with
  | ok v u => exact h.trans k
  | trap e u => exact ⟨h.trans k.1, k.2⟩
  | fault => trivial
  | refused => trivial

theorem Res.runs_bind {α β : Type} {s : State} {r : Res α} {f : α → State → Res β}
    (h : r.runs s) (k : ∀ v t, (f v t).runs t) : (r.bind f).runs s := by
  cases r with
  | ok v t => exact Res.runs_of h (k v t)
  | trap e t => exact h
  | fault => trivial
  | refused => trivial

/-- Accesses leave registers, SR3 and the program counter as they are. -/
theorem Res.runs_of_access {α : Type} {s : State} {r : Res α} (hw : r.within s)
    (ho : r.orderly s) : r.runs s := by
  cases r with
  | ok v t => exact ran_of_access hw ho
  | trap e t => exact ⟨ran_of_access hw ho.1, ho.2⟩
  | fault => trivial
  | refused => trivial

/-- What holds of every way to leave a state holds of what a result leads to, when it holds of what
the part that finishes it leads to. -/
theorem Res.out_leadsTo {α : Type} {P : State → Prop} {s : State} {r : Res α}
    {f : α → State → Out} (hr : r.runs s) (hP : ∀ t, s.Leaves t → P t)
    (hf : ∀ v u, r = .ok v u → s.Ran u → leadsTo P (f v u)) : leadsTo P (r.out f) := by
  cases r with
  | ok v u => exact hf v u rfl hr
  | trap e u => exact fun t h => hP t (hr.1.leaves (enterEvent_leaves_self hr.2 t h))
  | fault x => exact fun _ ht => by cases ht
  | refused x => exact leadsTo_refused _ x

/-- A result finished by a part that runs on or enters a handler. -/
theorem out_leaves {α : Type} {s : State} {r : Res α} {f : α → State → Out} (h : r.runs s)
    (hf : ∀ v u, leadsTo u.Leaves (f v u)) : leadsTo s.Leaves (r.out f) :=
  Res.out_leadsTo h (fun _ => id) fun v u _ hu => hu.leadsTo (hf v u)

end Sys2Proof.Machine

/-! SUPPORT. What each instruction leads to: outside the kernel's own, it runs on or enters a handler. -/

namespace Sys2Proof.Machine

/-! ### The ends of instructions -/

section Ends
variable (s : State)

/-- The end of an instruction that goes on to the next one. -/
theorem advance_leaves {n : Word} (h : n.toNat % 2 = 0) : leadsTo s.Leaves (.next (s.advance n)) :=
  leadsTo_ran (advance_ran h)

theorem advance_two_leaves : leadsTo s.Leaves (.next (s.advance 2)) :=
  advance_leaves s (by decide : (2 : Word).toNat % 2 = 0)

theorem advance_disp_leaves (d : Disp) : leadsTo s.Leaves (.next (s.advance (dispLength d))) :=
  advance_leaves s (dispLength_even d)

theorem result_leaves (x : Reg) (w : Word) : leadsTo s.Leaves (result x w s) :=
  (setReg_ran s x w).leadsTo (advance_two_leaves _)

theorem resultPair_leaves (x : Reg) (d : DWord) : leadsTo s.Leaves (resultPair x d s) :=
  (setPair_ran s x d).leadsTo (advance_two_leaves _)

theorem arithCondition_leaves (n : Nat) (op : Byte) (x y : Nib) :
    leadsTo s.Leaves (arithCondition n op x y s) := by
  unfold arithCondition
  split
  · exact raiseArith_leaves op x y _ s
  · exact advance_two_leaves s

theorem deliver_leaves (op : Byte) (x y : Nib) (v : Int) :
    leadsTo s.Leaves (deliver op x y v s) := by
  unfold deliver
  split
  · exact (setReg_ran s x _).leadsTo (arithCondition_leaves _ 16 op x y)
  · exact result_leaves s x _

theorem deliverExtended_leaves (x : Reg) (u : Nat × Int) :
    leadsTo s.Leaves (deliverExtended x u s) := by
  unfold deliverExtended
  split
  · exact ((setReg_ran s 0 _).trans (drawn_ran _)).leadsTo (advance_two_leaves _)
  · exact ((setReg_ran s x _).trans (setReg_ran _ 0 _)).leadsTo (advance_two_leaves _)

theorem finishReal_leaves (op : Byte) (x y : Nib) (trap : Option Nat) :
    leadsTo s.Leaves (finishReal op x y trap s) := by
  cases trap with
  | some n => exact raiseArith_leaves op x y _ s
  | none => exact advance_two_leaves s

theorem realToReg_leaves (op : Byte) (x y : Nib) (r : RealResult) :
    leadsTo s.Leaves (realToReg op x y r s) := by
  unfold realToReg
  split
  · exact (setReg_ran s x _).leadsTo (finishReal_leaves _ op x y r.trap)
  · exact finishReal_leaves s op x y r.trap

theorem realToPair_leaves (op : Byte) (x y : Nib) (r : RealResult) :
    leadsTo s.Leaves (realToPair op x y r s) := by
  unfold realToPair
  split
  · exact (setPair_ran s x _).leadsTo (finishReal_leaves _ op x y r.trap)
  · exact finishReal_leaves s op x y r.trap

theorem branchIf_leaves (taken : Bool) (d : Disp) : leadsTo s.Leaves (branchIf taken d s) := by
  unfold branchIf
  split
  · exact leadsTo_ran (setPc_ran branchTarget_even)
  · exact advance_disp_leaves s d

theorem jump_leaves (a : Word) : leadsTo s.Leaves (jump a s) := by
  unfold jump
  split
  · exact leadsTo_refused _ _
  · next h => exact leadsTo_ran (setPc_ran fun _ => (oddAddress_eq_false a).1 (by simpa using h))

theorem loadOp_leaves (sp : Space) (n : Nat) {put : DWord → State → State} (m : MemRef)
    (hput : ∀ (d : DWord) (t : State), t.Ran (put d t)) : leadsTo s.Leaves (loadOp sp n put m s) :=
  out_leaves (Res.runs_of_access (virtualRead_within _ _ _ s) (virtualRead_orderly _ _ _ s))
    fun d t => (hput d t).leadsTo (advance_disp_leaves _ m.disp)

theorem loadToReg_leaves (sp : Space) (n : Nat) (x : Reg) (m : MemRef) :
    leadsTo s.Leaves (loadOp sp n (toReg x) m s) :=
  loadOp_leaves s sp n m fun d t => setReg_ran t x (loWord d)

theorem loadToPair_leaves (sp : Space) (n : Nat) (x : Reg) (m : MemRef) :
    leadsTo s.Leaves (loadOp sp n (toPair x) m s) :=
  loadOp_leaves s sp n m fun d t => setPair_ran t x d

theorem storeOp_leaves (bs : List Byte) (m : MemRef) : leadsTo s.Leaves (storeOp bs m s) :=
  out_leaves (Res.runs_of_access (virtualWrite_within _ _ _ s) (virtualWrite_orderly _ _ _ s))
    fun _ t => advance_disp_leaves t m.disp

theorem loadAddress_leaves (sp : Space) (x : Reg) (m : MemRef) :
    leadsTo s.Leaves (loadAddress sp x m s) :=
  (setReg_ran s x _).leadsTo (advance_disp_leaves _ m.disp)

/-! ### Instructions with an end of their own -/

theorem execDiv_leaves (x y : Reg) : leadsTo s.Leaves (execDiv x y s) := by
  unfold execDiv
  split
  · exact arithCondition_leaves s 17 _ x y
  · split
    · exact arithCondition_leaves s 16 _ x y
    · exact result_leaves s x _

theorem execRem_leaves (x y : Reg) : leadsTo s.Leaves (execRem x y s) := by
  unfold execRem
  split
  · exact arithCondition_leaves s 17 _ x y
  · split
    · exact (setReg_ran s x 0#32).leadsTo (arithCondition_leaves _ 16 _ x y)
    · exact result_leaves s x _

theorem execEdiv_leaves (x y : Reg) : leadsTo s.Leaves (execEdiv x y s) := by
  unfold execEdiv
  split
  · exact arithCondition_leaves s 17 _ x y
  · split
    · exact arithCondition_leaves s 16 _ x y
    · exact ((setReg_ran s x _).trans (setReg_ran _ (x + 1) _)).leadsTo (advance_two_leaves _)

theorem execAsl_leaves (x : Reg) (c : Src) : leadsTo s.Leaves (execAsl x c s) := by
  unfold execAsl
  split
  · exact (setReg_ran s x _).leadsTo (arithCondition_leaves _ 16 _ x (srcField c))
  · exact result_leaves s x _

theorem execRcomp_leaves (x y : Reg) : leadsTo s.Leaves (execRcomp x y s) := by
  unfold execRcomp
  split
  · exact raiseArith_leaves _ x y 25 s
  · exact result_leaves s x _

theorem execDrcomp_leaves (x y : Reg) : leadsTo s.Leaves (execDrcomp x y s) := by
  unfold execDrcomp
  split
  · exact raiseArith_leaves _ x y 25 s
  · exact result_leaves s x _

theorem execChk_leaves (x y : Reg) : leadsTo s.Leaves (execChk x y s) := by
  unfold execChk
  split
  · exact raiseCheckTrap_leaves _ x y s
  · exact advance_two_leaves s

theorem execChki_leaves (x : Reg) (n : Nib) : leadsTo s.Leaves (execChki x n s) := by
  unfold execChki
  split
  · exact raiseCheckTrap_leaves _ x n s
  · exact advance_two_leaves s

/-- TRAP writes SR3 whether or not it traps (44_program_control.md R352). -/
theorem execTrap_leaves (x : Reg) (n : Nib) : leadsTo s.Leaves (execTrap x n s) := by
  unfold execTrap
  split
  · exact (setSr_three_ran s _).leadsTo (raiseArith_leaves _ x n _ _)
  · exact (setSr_three_ran s _).leadsTo (advance_two_leaves _)

theorem execLoop_leaves (x : Reg) (n : Nib) (d : Disp) : leadsTo s.Leaves (execLoop x n d s) :=
  (setReg_ran s x _).leadsTo (branchIf_leaves _ _ d)

theorem execCall_leaves (x y : Reg) (d : Disp) : leadsTo s.Leaves (execCall x y d s) :=
  leadsTo_ran ((setReg_ran s x _).trans (setPc_ran (branchTarget_even (s := s))))

theorem execCallr_leaves (x y : Reg) : leadsTo s.Leaves (execCallr x y s) :=
  (setReg_ran s x _).leadsTo (jump_leaves _ _)

theorem execRet_leaves (x y : Reg) : leadsTo s.Leaves (execRet x y s) :=
  (setReg_ran s x _).leadsTo (jump_leaves _ _)

/-- The vector of a KCALL stands at four times its number (44_program_control.md R353). -/
theorem kcall_vectorOffset (num : Byte) : vectorOffset ((num ++ 0#2).setWidth 32) := by
  revert num
  decide

theorem setSr_fifteen_keeps (w : Word) : s.Keeps (s.setSr 15 w) := by
  refine ⟨rfl, fun j _ h14 => ?_, rfl, id, id, id, id⟩
  rw [State.sr_setSr, if_neg]
  rintro rfl
  exact absurd h14 (by decide)

/-- KCALL saves the return address in SR15 on its way to the handler. -/
theorem execKcall_leaves (num : Byte) : leadsTo s.Leaves (execKcall num s) := by
  unfold execKcall
  split
  · exact raiseKernelViolation_leaves _ _ _ s
  · exact enterVector_leaves (setSr_fifteen_keeps s _) ⟨id, id⟩ (kcall_vectorOffset num)

theorem execUndefinedReg_leaves (op : Byte) (x y : Nib) :
    leadsTo s.Leaves (execUndefinedReg op x y s) :=
  enterEvent_leaves_self (by decide : vectorOffset ccbIllegalInstruction)

theorem execUndefinedMem_leaves (op : Byte) (x y : Nib) (d : Disp) :
    leadsTo s.Leaves (execUndefinedMem op x y d s) :=
  (segmentDrawn_ran s).leadsTo <|
    enterEvent_leaves_self (by decide : vectorOffset ccbIllegalInstruction)

end Ends

/-! ### The kernel's instructions -/

/-- The class of a kernel instruction (45_kernel.md R370); none for the others. -/
def kernelClass (i : Instr) : Option Privilege :=
  match i with
  | .sus .. | .lus .. | .rum .. | .ldregs .. | .trans .. | .dirt .. | .movesr .. | .movers ..
  | .trapexit .. => some .kernelOnly
  | .elogr .. | .elogw .. | .twrited .. | .flush .. | .itest .. | .machineid .. | .version ..
  | .creg .. | .rdlog .. | .read .. | .write .. => some .kernelOrPP
  | _ => none

theorem guarded_denied {c : Privilege} {op : Byte} {x y : Nib} {s : State} {body : Out}
    (h : allowed c s = false) : leadsTo s.Leaves (guarded c op x y s body) := by
  rw [guarded, h]
  exact raiseKernelViolation_leaves op x y s

/-- An instruction that is none of the kernel's, or may not run, runs on or enters a handler. -/
theorem exec_leaves {i : Instr} {s : State}
    (h : ∀ c, kernelClass i = some c → allowed c s = false) : leadsTo s.Leaves (exec i s) := by
  cases i with
  | move | not | or | xor | and | movei | noti | andi | tbit | rneg | lcomp | dcomp | seb | seh
  | testGt | testLt | testEq | testLe | testGe | testNe | lsl | lsr | asr | csl =>
    exact result_leaves s _ _
  | cbit | sbit | empy | drneg | dlsl | dlsr => exact resultPair_leaves s _ _
  | neg | add | sub | mpy | addi | subi | mpyi => exact deliver_leaves s _ _ _ _
  | eadd | esub => exact deliverExtended_leaves s _ _
  | div => exact execDiv_leaves s _ _
  | rem => exact execRem_leaves s _ _
  | ediv => exact execEdiv_leaves s _ _
  | asl => exact execAsl_leaves s _ _
  | nop => exact advance_two_leaves s
  | fixt | fixr | radd | rsub | rmpy | rdiv | float | dfixt | dfixr | makedr =>
    exact realToReg_leaves s _ _ _ _
  | makerd | dradd | drsub | drmpy | drdiv | dfloat => exact realToPair_leaves s _ _ _ _
  | rcomp => exact execRcomp_leaves s _ _
  | drcomp => exact execDrcomp_leaves s _ _
  | chk => exact execChk_leaves s _ _
  | chki => exact execChki_leaves s _ _
  | trap => exact execTrap_leaves s _ _
  | br => exact branchIf_leaves s true _
  | brGt | brEq | brLt | brLe | brNe | brGe => exact branchIf_leaves s _ _
  | loop => exact execLoop_leaves s _ _ _
  | call x y d => exact execCall_leaves s x y d
  | callr => exact execCallr_leaves s _ _
  | ret => exact execRet_leaves s _ _
  | kcall => exact execKcall_leaves s _
  | storeb | storeh | store | stored => exact storeOp_leaves s _ _
  | loadb | loadh | load | loadbp | loadhp | loadp => exact loadToReg_leaves s _ _ _ _
  | loadd | loaddp => exact loadToPair_leaves s _ _ _ _
  | laddr | laddrp => exact loadAddress_leaves s _ _ _
  | undefinedReg => exact execUndefinedReg_leaves s _ _ _
  | undefinedMem op x y d => exact execUndefinedMem_leaves s op x y d
  | sus | lus | rum | ldregs | trans | dirt | movesr | movers | trapexit | elogr | elogw
  | twrited | flush | itest | machineid | version | creg | rdlog | read | write =>
    exact guarded_denied (h _ rfl)

end Sys2Proof.Machine

/-! SUPPORT. What a step leads to, and what a process without the privileged process bit cannot reach
(60_exceptions.md R420, R421, R448). -/

namespace Sys2Proof.Machine

/-! ### Interrupts -/

/-- An acknowledge withdraws a request, and changes nothing else. -/
theorem ackInterrupt_boards {s t : State} {w : Word} (h : ackInterrupt s = some (w, t)) :
    ∃ bs, t = { s with boards := bs } ∧ bs.map Board.slot = s.boards.map Board.slot := by
  unfold ackInterrupt at h
  split at h
  · cases h
  · split at h
    · next hack => cases h; exact ⟨_, rfl, slots_ackBoards hack⟩
    · cases h

/-- The entry of an interrupt, from a state in which its source no longer requests it. -/
theorem enterEvent_leaves_of_source (s : State) {bs : List Board} {ps : List ParityError}
    {pf sw t1 t2 : Bool} {e : Event} (hb : bs.map Board.slot = s.boards.map Board.slot)
    (ho : vectorOffset e.off) :
    leadsTo s.Leaves (enterEvent e { s with
      boards := bs, parityPending := ps, powerFailPending := pf, switch0Pending := sw
      timer1Due := t1, timer2Due := t2 }) :=
  enterEvent_leaves ⟨rfl, fun _ _ _ => rfl, hb, id, id, id, id⟩ ⟨id, id⟩ ho

theorem parityVector_vectorOffset (p : ParityError) : vectorOffset (parityVector p) := by
  unfold parityVector
  split
  · exact (by decide : vectorOffset ccbParityFetch)
  · exact (by decide : vectorOffset ccbParityExecute)

theorem takeInterrupt_leaves (i : Interrupt) (s : State) :
    leadsTo s.Leaves (takeInterrupt i s) := by
  cases i with
  | parity =>
    simp only [takeInterrupt]
    split
    · next p later _ => exact enterEvent_leaves_of_source s rfl (parityVector_vectorOffset p)
    · exact leadsTo_ran (.refl s)
  | powerFail =>
    exact enterEvent_leaves_of_source s rfl (by decide : vectorOffset ccbPowerFail)
  | switch0 => exact enterEvent_leaves_of_source s rfl (by decide : vectorOffset ccbSwitch0)
  | external =>
    simp only [takeInterrupt]
    split
    · next w t hack =>
      obtain ⟨bs, rfl, hslots⟩ := ackInterrupt_boards hack
      exact enterEvent_leaves_of_source s hslots (by decide : vectorOffset ccbExternal)
    · exact leadsTo_ran (.refl s)
  | timer1 => exact enterEvent_leaves_of_source s rfl (by decide : vectorOffset ccbTimer1)
  | timer2 => exact enterEvent_leaves_of_source s rfl (by decide : vectorOffset ccbTimer2)

/-! ### After the boundary -/

theorem instrLength_even (op : Byte) : (BitVec.ofNat 32 (instrLength op)).toNat % 2 = 0 := by
  revert op
  decide

/-- A fetch that fails still says how long an instruction is. -/
theorem fetch_failed {s t : State} {len : Nat} (h : fetch s = .ok (.failed len) t) :
    (BitVec.ofNat 32 len).toNat % 2 = 0 := by
  unfold fetch at h
  split at h
  · cases h
  · obtain ⟨r, u, -, h⟩ := Res.bind_eq_ok h
    split at h
    · cases h
      exact instrLength_even _
    · obtain ⟨q, x, -, h⟩ := Res.bind_eq_ok h
      injection h with hf _
      split at hf
      · cases hf
        exact instrLength_even _
      · cases hf

/-- What holds of every way to leave a state, and of what instructions lead to, holds after the
fetch and the instruction. -/
theorem runInstruction_leadsTo {P : State → Prop} {s : State} (hP : ∀ t, s.Leaves t → P t)
    (hexec : ∀ i u, s.Ran u → leadsTo P (exec i u)) : leadsTo P (runInstruction s) := by
  refine Res.out_leadsTo (Res.runs_of_access (fetch_within s) (fetch_orderly s)) hP
    fun f u hf hu => ?_
  cases f with
  | failed len => exact leadsTo_next (hP _ (.inl (hu.trans (advance_ran (fetch_failed hf)))))
  | bytes bs =>
    simp only
    split
    · exact hexec _ u hu
    · exact leadsTo_refused _ _

/-- The same after a boundary: an interrupt's entry and the pause are ways to leave a state. -/
theorem afterBoundary_leadsTo {P : State → Prop} {s : State} (hP : ∀ t, s.Leaves t → P t)
    (hexec : ∀ i u, s.Ran u → leadsTo P (exec i u)) : leadsTo P (afterBoundary s) := by
  refine Res.out_leadsTo
    (Res.runs_of_access (pendingInterrupt_within s) (pendingInterrupt_orderly s)) hP fun i u _ hu => ?_
  cases i with
  | some i => exact fun t h => hP t (hu.leaves (takeInterrupt_leaves i u t h))
  | none =>
    simp only
    split
    · exact leadsTo_next (hP u (.inl hu))
    · exact runInstruction_leadsTo (fun t ht => hP t (hu.leaves ht))
        fun i x hx => hexec i x (hu.trans hx)

theorem step_of_no_arrivals {s : State} (h : s.arrivals = []) : step s = afterBoundary s := by
  simp only [step, boundary, h, Res.out_ok]

/-! ### User mode without the privileged bit -/

/-- Neither class of kernel instructions may run (60_exceptions.md R421). -/
theorem allowed_unprivileged {s : State} (hm : s.mode = .user)
    (hp : (s.sr 10).getMsbD 31 = false) (c : Privilege) : allowed c s = false := by
  have hbit : mbit (s.sr 10) 31 = false := (mbit_eq_getMsbD _ (by decide)).trans hp
  cases c with
  | kernelOnly => simp only [allowed, hm]
  | kernelOrPP => simp only [allowed, hm, hbit]

/-- A step of such a process runs on or enters a handler. -/
theorem step_leaves_unprivileged {s : State} (hm : s.mode = .user) (ha : s.arrivals = [])
    (hp : (s.sr 10).getMsbD 31 = false) : leadsTo s.Leaves (step s) := by
  rw [step_of_no_arrivals ha]
  refine afterBoundary_leadsTo (fun _ => id) fun i u hu => hu.leadsTo (exec_leaves fun c _ => ?_)
  exact allowed_unprivileged (hu.keeps.mode.trans hm) (by rwa [hu.sr 10 (by decide)]) c

/-- Settles O60: what runs on keeps the kernel's state and the mode, and what enters a handler keeps
it too. -/
theorem userModeIsolation : Obligations.UserModeIsolation := by
  intro s t hm hpaused ha hp h
  rcases step_leaves_unprivileged hm ha hp t h with hran | ⟨u, v, hk, rfl, -, hvector⟩
  · have hk := hran.keeps
    have hmode : t.mode = .user := hk.mode.trans hm
    refine ⟨hk.tw, hk.sr, hk.mask1, hk.mask2, hk.clock, hk.errorLog, hk.powerFail, hk.loaf,
      hk.paused.trans hpaused, fun _ => ⟨hran.boards, ?_⟩, fun hkernel => ?_⟩
    · rintro j (rfl | rfl | rfl | rfl)
      all_goals exact hran.sr _ (by decide)
    · rw [hmode] at hkernel
      cases hkernel
  · refine ⟨hk.tw, hk.sr, hk.mask1, hk.mask2, hk.clock, hk.errorLog, hk.powerFail, hk.loaf,
      rfl, (fun huser : Mode.kernel = .user => nomatch huser), fun _ hb => ?_⟩
    obtain ⟨off, ⟨h4, hle⟩, hv⟩ := hvector hb
    exact ⟨off, h4, hle, hv⟩

end Sys2Proof.Machine

/-! SUPPORT. The kernel's instructions: what each keeps of the invariant, of `TW` and of the mode
(45_kernel.md R370 to R401; 60_exceptions.md R420, R434). -/

namespace Sys2Proof.Machine

/-! ### Results of the kernel's accesses -/

theorem microRead_runs (a : Word) (s : State) : (microRead a s).runs s :=
  Res.runs_of_access (microRead_within a s) (microRead_orderly a s)

theorem microWrite_runs (a w : Word) (s : State) : (microWrite a w s).runs s :=
  Res.runs_of_access (microWrite_within a w s) (microWrite_orderly a w s)

theorem pcbBase_runs (s : State) : (pcbBase s).runs s := by
  unfold pcbBase
  split
  · exact State.Ran.refl s
  · trivial

theorem currentPcb_runs (s : State) : (currentPcb s).runs s :=
  Res.runs_bind (pcbBase_runs s) fun _ t => by
    split
    · exact State.Ran.refl t
    · trivial

theorem saveRegs_runs (p : Word) (is : List Reg) (s : State) : (saveRegs p is s).runs s := by
  induction is generalizing s with
  | nil => exact State.Ran.refl s
  | cons i is ih => exact Res.runs_bind (microWrite_runs _ _ s) fun _ => ih

theorem loadRegs_runs (p : Word) (is : List Reg) (s : State) : (loadRegs p is s).runs s := by
  induction is generalizing s with
  | nil => exact State.Ran.refl s
  | cons i is ih =>
    exact Res.runs_bind (microRead_runs _ s) fun w t => Res.runs_of (setReg_ran t i w) (ih _)

theorem saveUserState_runs (x y : Reg) (s : State) : (saveUserState x y s).runs s :=
  Res.runs_bind (currentPcb_runs s) fun p t =>
    Res.runs_bind (microWrite_runs _ _ t) fun _ u => saveRegs_runs p _ u

/-! ### Kernel instructions that leave the kernel's registers alone -/

section Leaves
variable (s : State)

theorem kernelDone_leaves : leadsTo s.Leaves (kernelDone s) := advance_two_leaves s

theorem kernelDone_setReg_leaves (x : Reg) (w : Word) :
    leadsTo s.Leaves (kernelDone (s.setReg x w)) :=
  (setReg_ran s x w).leadsTo (kernelDone_leaves _)

/-- A kernel instruction that may not run enters the handler of kernel violations. -/
theorem guarded_leaves {c : Privilege} {op : Byte} {x y : Nib} {body : Out}
    (h : leadsTo s.Leaves body) : leadsTo s.Leaves (guarded c op x y s body) := by
  unfold guarded
  split
  · exact h
  · exact raiseKernelViolation_leaves op x y s

theorem execSus_leaves (x y : Reg) : leadsTo s.Leaves (execSus x y s) := by
  refine guarded_leaves s ?_
  split
  · exact kernelDone_leaves s
  · exact out_leaves (saveUserState_runs x y s) fun _ u => kernelDone_leaves u

theorem execLdregs_leaves (x y : Reg) : leadsTo s.Leaves (execLdregs x y s) := by
  refine guarded_leaves s ?_
  split
  · exact kernelDone_leaves s
  · exact out_leaves (Res.runs_bind (currentPcb_runs s) fun p t => loadRegs_runs p _ t)
      fun _ u => kernelDone_leaves u

theorem execTrans_leaves (x y : Reg) : leadsTo s.Leaves (execTrans x y s) :=
  guarded_leaves s <|
    out_leaves (Res.runs_of_access (vrtSearch_within _ _ s) (vrtSearch_orderly _ _ s))
      fun _ t => kernelDone_setReg_leaves t x _

theorem execDirt_leaves (x y : Reg) : leadsTo s.Leaves (execDirt x y s) :=
  guarded_leaves s <|
    out_leaves (Res.runs_of_access (vrtSearchDirty_within _ _ s) (vrtSearchDirty_orderly _ _ s))
      fun _ t => kernelDone_setReg_leaves t x _

theorem execRdlog_leaves (x : Reg) : leadsTo s.Leaves (execRdlog x s) := by
  refine guarded_leaves s ?_
  split
  · exact kernelDone_setReg_leaves s x _
  · exact ((setReg_ran s x _).trans (drawn_ran _)).leadsTo (kernelDone_leaves _)

end Leaves

/-! ### What an instruction keeps in every mode -/

/-- From `s` to `t` the invariant and `TW` are kept, and user mode is not entered. -/
structure State.Sound (s t : State) : Prop where
  inv : s.Inv → t.Inv
  tw : t.tw = s.tw
  mode : t.mode = s.mode ∨ t.mode = .kernel

theorem State.Sound.refl (s : State) : s.Sound s := ⟨id, rfl, .inl rfl⟩

theorem State.Sound.trans {s t u : State} (h : s.Sound t) (k : t.Sound u) : s.Sound u :=
  ⟨k.inv ∘ h.inv, k.tw.trans h.tw, k.mode.elim (fun e => h.mode.imp e.trans e.trans) .inr⟩

theorem State.Leaves.sound {s t : State} (h : s.Leaves t) : s.Sound t := by
  refine ⟨h.inv, ?_, ?_⟩
  · rcases h with h | ⟨u, v, hk, rfl, -⟩
    · exact h.keeps.tw
    · exact hk.tw
  · rcases h with h | ⟨u, v, -, rfl, -⟩
    · exact .inl h.keeps.mode
    · exact .inr rfl

theorem leadsTo_sound {s u : State} {o : Out} (h : s.Sound u) (k : leadsTo u.Leaves o) :
    leadsTo s.Sound o := fun t ht => h.trans (k t ht).sound

theorem guarded_sound {s : State} {c : Privilege} {op : Byte} {x y : Nib} {body : Out}
    (h : leadsTo s.Sound body) : leadsTo s.Sound (guarded c op x y s body) := by
  unfold guarded
  split
  · exact h
  · exact fun t ht => (raiseKernelViolation_leaves op x y s t ht).sound

/-- The end of a kernel instruction, after an update. -/
theorem kernelDone_sound {s u : State} (h : s.Sound u) : leadsTo s.Sound (kernelDone u) :=
  leadsTo_sound h (kernelDone_leaves u)

theorem setSr_sound (s : State) (i : SReg) (w : Word) : s.Sound (s.setSr i w) :=
  ⟨fun h => { h with }, rfl, .inl rfl⟩

theorem clearLog_sound (s : State) : s.Sound { s with errorLog := [] } :=
  ⟨fun h => { h with errorLog := Nat.zero_le 16 }, rfl, .inl rfl⟩

theorem masks_sound (s : State) (m1 m2 : Bool) : s.Sound { s with mask1 := m1, mask2 := m2 } :=
  ⟨fun h => { h with }, rfl, .inl rfl⟩

theorem flushCache_sound (s : State) : s.Sound { s with staleCode := [], staleData := [] } :=
  ⟨fun h => { h with cache := dataLinesLegal_nil }, rfl, .inl rfl⟩

theorem flushAll_sound (s : State) :
    s.Sound { s with tmtCode := [], tmtData := [], staleCode := [], staleData := [] } :=
  ⟨fun h => { h with
    tmtCode := TmtHalf.wf_nil, tmtData := TmtHalf.wf_nil, cache := dataLinesLegal_nil },
    rfl, .inl rfl⟩

theorem boards_sound (s : State) {bs : List Board} (b : List BusRecord)
    (h : bs.map Board.slot = s.boards.map Board.slot) :
    s.Sound { s with boards := bs, bus := b } :=
  ⟨fun hs => { hs with boards := h ▸ hs.boards }, rfl, .inl rfl⟩

theorem clock_sound (s : State) (c : ClockBoard) : s.Sound { s with clock := c } :=
  ⟨fun h => { h with }, rfl, .inl rfl⟩

theorem pause_sound {s : State} (hm : s.mode = .kernel) : s.Sound { s with paused := true } :=
  ⟨fun h => { h with paused := fun _ => hm }, rfl, .inl rfl⟩

section Sound
variable (s : State)

theorem execElogw_sound (x : Reg) : leadsTo s.Sound (execElogw x s) := by
  refine guarded_sound ?_
  split
  · exact kernelDone_sound (clearLog_sound s)
  · exact kernelDone_sound (.refl s)

theorem execTwrited_sound (x : Reg) : leadsTo s.Sound (execTwrited x s) := by
  refine guarded_sound ?_
  split
  · exact kernelDone_sound (masks_sound s _ _)
  · exact kernelDone_sound (.refl s)

theorem execTrapexit_sound (x : Reg) : leadsTo s.Sound (execTrapexit x s) :=
  guarded_sound (leadsTo_sound (flushAll_sound s) (jump_leaves _ _))

theorem execItest_sound (x : Reg) : leadsTo s.Sound (execItest x s) := by
  refine guarded_sound ?_
  split
  · next w t hack =>
    obtain ⟨bs, rfl, hslots⟩ := ackInterrupt_boards hack
    exact leadsTo_sound (boards_sound s s.bus hslots) <|
      (setReg_ran _ (x + 1) w).leadsTo (kernelDone_setReg_leaves _ x 0)
  · exact fun t ht => (kernelDone_setReg_leaves s x 1 t ht).sound

theorem execCreg_sound (x : Reg) : leadsTo s.Sound (execCreg x s) :=
  guarded_sound (leadsTo_sound (clock_sound s _) (kernelDone_setReg_leaves _ (x + 1) _))

theorem execRead_sound (x y : Reg) : leadsTo s.Sound (execRead x y s) :=
  guarded_sound <| leadsTo_sound (boards_sound s _ (slots_boardReply _ _)) <|
    (((setReg_ran _ x _).trans (setReg_ran _ (x + 1) _)).trans (drawn_ran _)).leadsTo
      (kernelDone_leaves _)

theorem execWrite_sound (x y : Reg) : leadsTo s.Sound (execWrite x y s) :=
  guarded_sound <| leadsTo_sound (boards_sound s _ (slots_boardReply _ _))
    (kernelDone_setReg_leaves _ x _)

end Sound

/-! ### LUS and RUM -/

/-- From `s` to `t` the invariant and the mode are kept. -/
structure State.Resumes (s t : State) : Prop where
  inv : s.Inv → t.Inv
  mode : t.mode = s.mode

theorem State.Resumes.trans {s t u : State} (h : s.Resumes t) (k : t.Resumes u) : s.Resumes u :=
  ⟨k.inv ∘ h.inv, k.mode.trans h.mode⟩

theorem State.Ran.resumes {s t : State} (h : s.Ran t) : s.Resumes t := ⟨h.inv, h.keeps.mode⟩

/-- The state a result leaves, with an event or without, has a property. -/
def Res.satisfies {α : Type} (P : State → Prop) (r : Res α) : Prop :=
  match r with
  | .ok _ t => P t
  | .trap _ t => P t
  | .fault _ => True
  | .refused _ => True

theorem Res.satisfies_bind {α β : Type} {P : State → Prop} {r : Res α} {f : α → State → Res β}
    (h : r.satisfies P) (k : ∀ v t, P t → (f v t).satisfies P) : (r.bind f).satisfies P := by
  cases r with
  | ok v t => exact k v t h
  | trap e t => exact h
  | fault => trivial
  | refused => trivial

theorem Res.runs.satisfies {α : Type} {P : State → Prop} {s : State} {r : Res α} (h : r.runs s)
    (hP : ∀ t, s.Ran t → P t) : r.satisfies P := by
  cases r with
  | ok v t => exact hP t h
  | trap e t => exact hP t h.1
  | fault => trivial
  | refused => trivial

theorem Res.within.satisfies {α : Type} {P : State → Prop} {s : State} {r : Res α}
    (h : r.within s) (hP : ∀ t, s.Accessed t → P t) : r.satisfies P := by
  cases r with
  | ok v t => exact hP t h
  | trap e t => exact hP t h
  | fault => trivial
  | refused => trivial

theorem loadProcess_resumes (p g w : Word) (s : State) : s.Resumes (loadProcess p g w s) :=
  ⟨fun h => { h with }, rfl⟩

theorem flushProcess_resumes (s : State) : s.Resumes (flushProcess s) :=
  ⟨fun h => { h with tmtCode := TmtHalf.wf_nil, tmtData := TmtHalf.wf_nil }, rfl⟩

theorem loadUserState_resumes (x y : Reg) (s : State) :
    (loadUserState x y s).satisfies s.Resumes := by
  have read : ∀ a t, s.Resumes t → (microRead a t).satisfies s.Resumes := fun a t ht =>
    (microRead_runs a t).satisfies fun _ hu => ht.trans hu.resumes
  refine Res.satisfies_bind ((currentPcb_runs s).satisfies fun _ hu => hu.resumes) fun p t ht => ?_
  refine Res.satisfies_bind (read _ t ht) fun upc t ht => ?_
  refine Res.satisfies_bind (read _ t ht) fun segs t ht => ?_
  refine Res.satisfies_bind (read _ t ht) fun traps t ht => ?_
  refine Res.satisfies_bind ((loadRegs_runs p _ _).satisfies fun _ hu =>
    (ht.trans (loadProcess_resumes upc segs traps t)).trans hu.resumes) fun _ t ht => ?_
  exact ht.trans (flushProcess_resumes t)

/-- An event's entry keeps the invariant and ends in kernel mode, whatever its vector. -/
theorem enterEvent_leadsTo (e : Event) (s : State) :
    leadsTo (fun t => (s.Inv → t.Inv) ∧ t.mode = .kernel) (enterEvent e s) := by
  intro t h
  obtain ⟨u, v, hacc, rfl, hv, -⟩ := enterEvent_next h
  exact ⟨fun hs => ((saveEvent_keeps e s).trans hacc.keeps).inv hs hv fun _ => rfl, rfl⟩

/-- What an instruction does to the invariant, to `TW` and to the mode. -/
structure State.Executes (s : State) (i : Instr) (t : State) : Prop where
  inv : s.Inv → t.Inv
  tw : t.tw ≠ s.tw → s.mode = .kernel ∧ ∃ x y, i = .lus x y
  mode : s.mode = .kernel → t.mode = .user →
    (∃ x y, i = .rum x y) ∧ s.sr 14 ≠ 1 ∧ t.pc = s.sr 15 ∧ t.paused = false

theorem State.Sound.executes {s t : State} (h : s.Sound t) (i : Instr) : s.Executes i t where
  inv := h.inv
  tw hne := absurd h.tw hne
  mode hs ht := by
    rcases h.mode with e | e
    · rw [ht, hs] at e
      cases e
    · rw [ht] at e
      cases e

theorem allowed_kernelOnly {s : State} (h : allowed .kernelOnly s = true) : s.mode = .kernel := by
  cases hm : s.mode with
  | kernel => rfl
  | user => simp [allowed, hm] at h

theorem execLus_executes (x y : Reg) (s : State) :
    leadsTo (s.Executes (.lus x y)) (execLus x y s) := by
  intro t h
  unfold execLus guarded at h
  split at h
  · next ha =>
    have hm := allowed_kernelOnly ha
    have kernel : (s.Inv → t.Inv) → t.mode = .kernel → s.Executes (.lus x y) t := fun hinv ht =>
      ⟨hinv, fun _ => ⟨hm, x, y, rfl⟩, fun _ hu => by rw [ht] at hu; cases hu⟩
    have hload := loadUserState_resumes x y s
    split at h
    · exact (kernelDone_leaves s t h).sound.executes _
    · rcases Res.out_eq_next h with ⟨v, u, hr, h⟩ | ⟨e, u, hr, h⟩
      · rw [hr] at hload
        cases h
        have hu := hload.trans (advance_ran (by decide : (2 : Word).toNat % 2 = 0)).resumes
        exact kernel hu.inv (hu.mode.trans hm)
      · rw [hr] at hload
        obtain ⟨hinv, ht⟩ := enterEvent_leadsTo e u t h
        exact kernel (fun hs => hinv (hload.inv hs)) ht
  · exact (raiseKernelViolation_leaves _ x y s t h).sound.executes _

theorem execRum_executes (x y : Reg) (s : State) :
    leadsTo (s.Executes (.rum x y)) (execRum x y s) := by
  intro t h
  unfold execRum guarded at h
  split at h
  · next ha =>
    have hm := allowed_kernelOnly ha
    split at h
    · exact (kernelDone_sound (pause_sound hm) t h).executes _
    · next h14 =>
      unfold returnToUser jump at h
      split at h
      · cases h
      · next hodd =>
        cases h
        have heven := (oddAddress_eq_false _).1 (Bool.not_eq_true _ ▸ hodd)
        exact ⟨fun hs => { hs with pc := heven, paused := fun hp => nomatch hp },
          fun hne => absurd rfl hne, fun _ _ => ⟨⟨x, y, rfl⟩, h14, rfl, rfl⟩⟩
  · exact (raiseKernelViolation_leaves _ x y s t h).sound.executes _

theorem exec_executes (i : Instr) (s : State) : leadsTo (s.Executes i) (exec i s) := by
  have sound : leadsTo s.Sound (exec i s) → leadsTo (s.Executes i) (exec i s) :=
    fun h t ht => (h t ht).executes i
  have leaves : leadsTo s.Leaves (exec i s) → leadsTo (s.Executes i) (exec i s) :=
    fun h t ht => (h t ht).sound.executes i
  cases i with
  | lus x y => exact execLus_executes x y s
  | rum x y => exact execRum_executes x y s
  | sus => exact leaves (execSus_leaves s _ _)
  | ldregs => exact leaves (execLdregs_leaves s _ _)
  | trans => exact leaves (execTrans_leaves s _ _)
  | dirt => exact leaves (execDirt_leaves s _ _)
  | movers | elogr | machineid | version =>
    exact leaves (guarded_leaves s (kernelDone_setReg_leaves s _ _))
  | rdlog => exact leaves (execRdlog_leaves s _)
  | movesr => exact sound (guarded_sound (kernelDone_sound (setSr_sound s _ _)))
  | elogw => exact sound (execElogw_sound s _)
  | twrited => exact sound (execTwrited_sound s _)
  | flush => exact sound (guarded_sound (kernelDone_sound (flushCache_sound s)))
  | trapexit x => exact sound (execTrapexit_sound s x)
  | itest => exact sound (execItest_sound s _)
  | creg => exact sound (execCreg_sound s _)
  | read => exact sound (execRead_sound s _ _)
  | write => exact sound (execWrite_sound s _ _)
  | _ => exact leaves (exec_leaves fun c hc => nomatch hc)

/-- Settles O59: `exec_executes` says of each instruction what it does to `TW` and to the mode. -/
theorem modeAndTrapsWord : Obligations.ModeAndTrapsWord := fun i s t h =>
  have he := exec_executes i s t h
  ⟨he.tw, he.mode⟩

end Sys2Proof.Machine

/-! SUPPORT. The tick and the other agents keep the invariant, and so does every step. -/

namespace Sys2Proof.Machine

/-! ### The tick -/

theorem pcbBase_within (s : State) : (pcbBase s).within s := by
  unfold pcbBase
  split
  · exact .refl s
  · trivial

theorem microAdd_within (a d : Word) (s : State) : (microAdd a d s).within s :=
  Res.within_bind (microRead_within _ s) fun _ t _ _ =>
    Res.within_bind (microWrite_within _ _ t) fun _ u _ _ => .refl u

theorem tick_within (s : State) : (tick s).within s := by
  unfold tick
  split
  · exact .refl s
  · refine Res.within_bind (ccbBase_within s) fun c s _ _ => ?_
    refine Res.within_bind ?clock fun _ s _ _ => ?_
    case clock =>
      split
      · exact microAdd_within _ _ s
      · exact Res.within_bind (pcbBase_within s) fun _ t _ _ => microAdd_within _ _ t
    refine Res.within_bind (microAdd_within _ _ s) fun t1 s _ _ => ?_
    refine Res.within_bind (microAdd_within _ _ s) fun t2 s _ _ => ?_
    refine Res.within_bind (microRead_within _ s) fun hi s _ _ => ?_
    refine Res.within_bind (microRead_within _ s) fun lo s _ _ => ?_
    refine Res.within_bind (microWrite_within _ _ s) fun _ s _ _ => ?_
    exact Res.within_bind (microWrite_within _ _ s) fun _ s _ _ => .refl s

/-! ### The other agents keep the invariant -/

theorem State.Accessed.inv {s t : State} (h : s.Accessed t) (hs : s.Inv) : t.Inv :=
  h.keeps.inv (v := t.pc) (m := t.mode) (p := t.paused) hs (h.pc ▸ hs.pc) fun hp =>
    h.mode.trans (hs.paused (h.paused.symm.trans hp))

theorem updateBoard_inv {s : State} (hs : s.Inv) (dev : Byte) {f : Board → Board}
    (hf : ∀ b, (f b).slot = b.slot) :
    ({ s with boards := updateBoard dev f s.boards } : State).Inv :=
  { hs with boards := (slots_updateBoard dev f hf s.boards).symm ▸ hs.boards }

/-- Stated, as `pressReset_mem` is, so that no later proof evaluates the boot page. -/
theorem pressReset_errorLog (page : List Byte) (s : State) :
    (pressReset page s).errorLog = s.errorLog := by
  simp only [pressReset]

theorem pressReset_boards (page : List Byte) (s : State) :
    (pressReset page s).boards = s.boards := by
  simp only [pressReset]

/-- The reset button leaves what R60 says, and memory and the boards in order. -/
theorem pressReset_inv {s : State} (hs : s.Inv) (page : List Byte) : (pressReset page s).Inv where
  mem := by
    rw [pressReset_mem]
    exact Memory.wf_writeBytes hs.mem _ _
  pc := (by decide : (0x3E000 : Word).toNat % 2 = 0)
  tmtCode := TmtHalf.wf_nil
  tmtData := TmtHalf.wf_nil
  errorLog := (pressReset_errorLog page s).symm ▸ hs.errorLog
  paused := fun _ => rfl
  boards := (pressReset_boards page s).symm ▸ hs.boards
  cache := dataLinesLegal_nil

theorem applyArrival_inv {s : State} (hs : s.Inv) (a : Arrival) :
    (applyArrival a s).satisfies State.Inv := by
  cases a with
  | tick => exact (tick_within s).satisfies fun _ h => h.inv hs
  | dma r => exact Res.within.satisfies (applyDmas_within _ s) fun _ h => h.inv hs
  | interruptRequest dev info => exact updateBoard_inv hs dev fun _ => rfl
  | ioReply dev r => exact updateBoard_inv hs dev fun _ => rfl
  | errorLog es => exact { hs with errorLog := List.length_take_le 16 es }
  | resetButton page => exact pressReset_inv hs page
  | switch0 | powerFail | loaf | clockInput | memoryFailure => exact { hs with }
  | powerLost => trivial

theorem applyArrivals_inv {s : State} (hs : s.Inv) (as : List Arrival) :
    (applyArrivals as s).satisfies State.Inv := by
  induction as generalizing s with
  | nil => exact hs
  | cons a as ih => exact Res.satisfies_bind (applyArrival_inv hs a) fun _ _ => ih

theorem boundary_inv {s : State} (hs : s.Inv) : (boundary s).satisfies State.Inv := by
  unfold boundary
  split
  · exact hs
  · next now later _ =>
    exact applyArrivals_inv (s := { s with arrivals := later }) { hs with } now

/-! ### Every step keeps the invariant -/

theorem afterBoundary_inv {s : State} (hs : s.Inv) : leadsTo State.Inv (afterBoundary s) :=
  afterBoundary_leadsTo (fun _ h => h.inv hs) fun i u hu t h =>
    (exec_executes i u t h).inv (hu.inv hs)

/-- Settles O8: the boundary keeps the invariant, and so does what follows it, an interrupt's entry,
the pause or an instruction. -/
theorem stepKeepsInv : Obligations.StepKeepsInv := by
  intro s t hs h
  have hb := boundary_inv hs
  rcases Res.out_eq_next h with ⟨v, u, hr, h⟩ | ⟨e, u, hr, h⟩
  · rw [hr] at hb
    exact afterBoundary_inv hb t h
  · rw [hr] at hb
    exact (enterEvent_leadsTo e u t h).1 hb

end Sys2Proof.Machine

/-! SUPPORT. Memory as bytes and words, the effective address as a value, and the data alignment
trap (20_memory.md R80, R82, R84; 40_memory_reference.md R187, R188). -/

namespace Sys2Proof.Machine

/-! ### Memory -/

/-- A byte inside a write of several is the one written there. -/
theorem Memory.read_writeBytes_inside {m : Memory} (h : m.wf) (a : Nat) {bs : List Byte} {k : Nat}
    (hk : k < bs.length) : (m.writeBytes a bs).read (a + k) = bs[k] := by
  rw [Memory.read_writeBytes h, dif_pos (by omega)]
  simp only [Nat.add_sub_cancel_left]

/-- Settles O11, by the rules for a read inside and outside a write of several bytes. -/
theorem memoryReadAfterWrite : Obligations.MemoryReadAfterWrite := by
  intro m a bs w hw
  exact ⟨Memory.wf_writeBytes hw a bs, fun _ hk => Memory.read_writeBytes_inside hw a hk,
    fun _ hc => Memory.read_writeBytes_outside hw hc, Memory.readWord_writeBytes hw a w,
    Memory.read_writeBytes_inside hw a (bs := wordBytes w) (k := 0) (show 0 < 4 by decide),
    Memory.read_writeBytes_inside hw a (bs := wordBytes w) (k := 3) (show 3 < 4 by decide)⟩

/-! ### Effective addresses -/

/-- LADDR writes Rx and goes on to the next instruction. -/
theorem loadAddress_eq (sp : Space) (x : Reg) (m : MemRef) (s : State) :
    loadAddress sp x m s =
      .next ((s.setReg x (effectiveAddress sp m s)).setPc (branchEnd m.disp s.pc False)) := by
  rw [loadAddress, advance_dispLength, State.setReg_pc]

/-! ### The data alignment trap -/

theorem accessAddress_misaligned {sp : Space} {ea : Word} {n : Nat} (h : ea.toNat % n ≠ 0)
    (acc : Access) (s : State) :
    accessAddress sp ea n acc s = .trap (dataAlignment sp ea s) (segmentDrawn s) := by
  rw [accessAddress, if_neg (mt (aligned_iff ea n).1 h)]

/-- An access whose address is an event enters that event. -/
theorem loadOp_of_trap {sp : Space} {n : Nat} {m : MemRef} {s t : State} {e : Event}
    (h : accessAddress sp (effectiveAddress sp m s) n .read s = .trap e t)
    (put : DWord → State → State) : loadOp sp n put m s = enterEvent e t := by
  rw [loadOp, virtualRead, h, Res.bind_trap, Res.out_trap]

theorem storeOp_of_trap {bs : List Byte} {m : MemRef} {s t : State} {e : Event}
    (h : accessAddress .data (effectiveAddress .data m s) bs.length .write s = .trap e t) :
    storeOp bs m s = enterEvent e t := by
  rw [storeOp, virtualWrite, h, Res.bind_trap, Res.out_trap]

/-- The loads of an operand, with the length and the space of their access
(40_memory_reference.md R173 to R181). -/
def loadForms (x : Nib) (m : MemRef) : List (Instr × Nat × Space) :=
  [(.loadb x m, 1, .data), (.loadh x m, 2, .data), (.load x m, 4, .data), (.loadd x m, 8, .data),
   (.loadbp x m, 1, .code), (.loadhp x m, 2, .code), (.loadp x m, 4, .code),
   (.loaddp x m, 8, .code)]

/-- The stores of an operand, with the length of their access
(40_memory_reference.md R183 to R186). -/
def storeLengths (x : Nib) (m : MemRef) : List (Instr × Nat) :=
  [(.storeb x m, 1), (.storeh x m, 2), (.store x m, 4), (.stored x m, 8)]

theorem exec_loadForms {x : Nib} {m : MemRef} {p : Instr × Nat × Space}
    (hp : p ∈ loadForms x m) (s : State) :
    ∃ put, exec p.1 s = loadOp p.2.2 p.2.1 put m s := by
  simp only [loadForms, List.mem_cons, List.not_mem_nil, or_false] at hp
  rcases hp with rfl | rfl | rfl | rfl | rfl | rfl | rfl | rfl <;> exact ⟨_, rfl⟩

theorem exec_storeLengths {x : Nib} {m : MemRef} {p : Instr × Nat}
    (hp : p ∈ storeLengths x m) (s : State) :
    ∃ bs, bs.length = p.2 ∧ exec p.1 s = storeOp bs m s := by
  simp only [storeLengths, List.mem_cons, List.not_mem_nil, or_false] at hp
  rcases hp with rfl | rfl | rfl | rfl <;> exact ⟨_, rfl, rfl⟩

/-- The loads and stores of an operand, with the length and the space of their access. -/
def accessForms (x : Nib) (m : MemRef) : List (Instr × Nat × Space) :=
  loadForms x m ++ (storeLengths x m).map fun p => (p.1, p.2, .data)

/-- Every access whose address is an event, for whatever it is made, enters that event. -/
theorem exec_accessForms_of_trap {s t : State} {x : Nib} {m : MemRef} {p : Instr × Nat × Space}
    {e : Event} (hp : p ∈ accessForms x m)
    (h : ∀ acc, accessAddress p.2.2 (effectiveAddress p.2.2 m s) p.2.1 acc s = .trap e t) :
    exec p.1 s = enterEvent e t := by
  rcases List.mem_append.1 hp with hp | hp
  · obtain ⟨put, hx⟩ := exec_loadForms hp s
    exact hx.trans (loadOp_of_trap (h .read) put)
  · obtain ⟨q, hq, rfl⟩ := List.mem_map.1 hp
    obtain ⟨bs, hl, hx⟩ := exec_storeLengths hq s
    exact hx.trans (storeOp_of_trap (hl ▸ h .write))

/-- The segment number of an address is the low halfword of SR8 or SR9 (10_state.md R33). -/
theorem segment_eq (sp : Space) (s : State) :
    s.segment sp = mfield (s.sr (if sp = .code then 8 else 9)) 16 31 := by
  cases sp <;> rfl

theorem dataAlignment_user {s : State} (hm : s.mode = .user) (sp : Space) (ea : Word) :
    dataAlignment sp ea s =
      { off := 0x400, saved := s.pc, sr0 := none, sr1 := none,
        sr2 := some ((mfield (s.sr (if sp = .code then 8 else 9)) 16 31).setWidth 32),
        sr3 := some ea } := by
  simp only [dataAlignment, trapSegment, hm, segment_eq]
  rfl

theorem dataAlignment_kernel {s : State} (hm : s.mode = .kernel) (sp : Space) (ea : Word) :
    dataAlignment sp ea s =
      { off := 0x400, saved := s.pc, sr0 := none, sr1 := none,
        sr2 := some (Config.kernelSegment s.draws), sr3 := some ea } := by
  simp only [dataAlignment, trapSegment, hm]
  rfl

/-- Settles O41: every sized access checks its alignment first. -/
theorem dataAlignmentTrap : Obligations.DataAlignmentTrap := by
  intro s x m p hp ea e hmis
  have hforms : p ∈ accessForms x m := by
    refine (?_ : _ ⊆ accessForms x m) hp
    simp [accessForms, loadForms, storeLengths]
  rw [exec_accessForms_of_trap hforms fun acc => accessAddress_misaligned hmis acc s]
  refine ⟨fun hm => ?user, fun hm => ⟨Config.kernelSegment s.draws, ?kernel⟩⟩
  case user => simp only [dataAlignment_user hm, segmentDrawn, hm]; rfl
  case kernel => simp only [dataAlignment_kernel hm, segmentDrawn, hm]; rfl

end Sys2Proof.Machine

namespace Sys2Proof.Laws

open Sys2Proof.Machine

/-- Settles O40: both forms are `loadAddress`; the opcode byte is read off `encode`. -/
theorem loadAddress : Obligations.LoadAddress := by
  intro s x m disp index
  refine ⟨loadAddress_eq .data x m s, loadAddress_eq .code x m s, ?_, ?_⟩
  all_goals
    obtain ⟨_ | _, y, _ | _⟩ := m <;> rfl

end Sys2Proof.Laws

/-! SUPPORT. What a VRT search that finds an entry leaves in memory, what a TMT miss and the first
store to a page leave in the TMT, and TRANS and DIRT (20_memory.md R92, R93, R95 to R98;
45_kernel.md R398, R399). -/

namespace Sys2Proof.Machine

/-! ### The entry in memory -/

/-- From state `s` to state `t` the TMT Word of the VRT entry at `q` becomes `v` in memory, and
nothing else changes: `State.entryLoaded` without the TMT. -/
structure State.EntryMarked (s : State) (q v : Word) (t : State) : Prop where
  word : t.mem.readWord (q.toNat + 8) = v
  others : ∀ a, a < q.toNat + 8 ∨ q.toNat + 12 ≤ a → t.mem.read a = s.mem.read a
  frame : { t with mem := s.mem, staleCode := s.staleCode, staleData := s.staleData } = s

theorem storeReal_entryMarked {s : State} (hw : s.mem.wf) (q v : Word) :
    s.EntryMarked q v (s.storeReal (q.toNat + 8) (wordBytes v)) where
  word := Memory.readWord_writeBytes hw _ v
  others _ ha := Memory.read_writeBytes_outside hw ha
  frame := rfl

theorem State.EntryMarked.trans {s t u : State} {q v w : Word} (h : s.EntryMarked q v t)
    (k : t.EntryMarked q w u) : s.EntryMarked q w u where
  word := k.word
  others a ha := (k.others a ha).trans (h.others a ha)
  frame := by
    have h1 := h.frame
    have h2 := k.frame
    rw [← h1, ← h2]

/-- A search for a store or for DIRT sets the Referenced and the Dirty bit of the entry it finds. -/
theorem vrtSearchDirty_marks {s : State} (hd : s.calm) (hw : s.mem.wf) {seg : Half} {va q : Word}
    (h : s.vrt seg va (some q)) (hv : tmtV (s.mem.readWord (q.toNat + 8)) = true)
    (hu : tmtU (s.mem.readWord (q.toNat + 8)) = false) :
    ∃ t, vrtSearchDirty seg va s = .ok (some (q, s.mem.readWord (q.toNat + 8) ||| 0x11#32)) t ∧
      s.EntryMarked q (s.mem.readWord (q.toNat + 8) ||| 0x11#32) t :=
  ⟨_, vrtSearchDirty_some hd h hv hu,
    (storeReal_entryMarked hw q _).trans (storeReal_entryMarked (Memory.wf_writeBytes hw _ _) q _)⟩

theorem vrtSearchDirty_none {s : State} (hd : s.calm) {seg : Half} {va : Word}
    (h : s.vrt seg va none) : vrtSearchDirty seg va s = .ok none s := by
  rw [vrtSearchDirty, vrtSearch_none hd h, Res.bind_ok]

/-- The bits Referenced and Dirty are no others (20_memory.md R96). -/
theorem tmt_bits_or {w m : Word} (h : m = 0x10#32 ∨ m = 0x11#32) :
    tmtV (w ||| m) = tmtV w ∧ tmtU (w ||| m) = tmtU w ∧ tmtW (w ||| m) = tmtW w := by
  rcases h with rfl | rfl <;> simp [tmtV, tmtU, tmtW, mbit]

/-- The Referenced bit is not the Dirty bit. -/
theorem tmtD_or_referenced (w : Word) : tmtD (w ||| 0x10#32) = tmtD w := by
  simp [tmtD, mbit]

/-! ### TRANS and DIRT -/

/-- The end of TRANS and DIRT after a search that found an entry. -/
theorem translated_entryMarked {s t : State} {q v : Word} (h : s.EntryMarked q v t) (x : Reg)
    (d : Word) :
    ∃ u, kernelDone (t.setReg x d) = .next u ∧ u.pc = s.pc + 2 ∧
      u.regs = (s.setReg x d).regs ∧ u.mem.readWord (q.toNat + 8) = v ∧
      (∀ a, a < q.toNat + 8 ∨ q.toNat + 12 ≤ a → u.mem.read a = s.mem.read a) ∧
      { u with
        pc := s.pc, regs := s.regs, mem := s.mem
        staleCode := s.staleCode, staleData := s.staleData } = s := by
  have hpc : t.pc = s.pc := (congrArg State.pc h.frame :)
  have hregs : t.regs = s.regs := (congrArg State.regs h.frame :)
  refine ⟨_, rfl, congrArg (· + 2) hpc, ?_, h.word, h.others, ?_⟩
  · exact congrArg (fun r : Vector Word 16 => r.set x.toNat d x.isLt) hregs
  · exact (congrArg (fun u : State => { u with pc := s.pc, regs := s.regs }) h.frame :)

/-- Settles O45: both search the VRT, TRANS to mark the entry referenced, DIRT dirty too. -/
theorem transAndDirt : Obligations.TransAndDirt := by
  intro s x y hd hw hm va seg
  have trans : exec (.trans x y) s =
      (vrtSearch seg va s).out fun r t => kernelDone (t.setReg x (translated va r)) :=
    guarded_kernel hm _ _ _ _ _
  have dirt : exec (.dirt x y) s =
      (vrtSearchDirty seg va s).out fun r t => kernelDone (t.setReg x (translated va r)) :=
    guarded_kernel hm _ _ _ _ _
  refine ⟨fun h => ?absent, ?found⟩
  case absent =>
    rw [trans, dirt, vrtSearch_none hd h, vrtSearchDirty_none hd h]
    exact ⟨rfl, rfl⟩
  case found =>
    intro q h w hv hu p hp
    simp only [List.mem_cons, List.not_mem_nil, or_false] at hp
    rcases hp with rfl | rfl
    · rw [trans, vrtSearch_some hd h hv hu, Res.out_ok, translated, physAddress_or (.inl rfl)]
      exact translated_entryMarked (storeReal_entryMarked hw q _) x _
    · obtain ⟨t, hs, ht⟩ := vrtSearchDirty_marks hd hw h hv hu
      rw [dirt, hs, Res.out_ok, translated, physAddress_or (.inr rfl)]
      exact translated_entryMarked ht x _

/-! ### The entry in the TMT -/

theorem State.EntryMarked.entryLoaded {s t : State} {q v : Word} (h : s.EntryMarked q v t)
    (sp : Space) (va : Word) : s.entryLoaded sp va q v (t.setTmt sp (tmtIndex va) v) where
  tmt sp' i := by
    have ht : t.tmt sp' = s.tmt sp' := by
      cases sp'
      · exact (congrArg State.tmtCode h.frame :)
      · exact (congrArg State.tmtData h.frame :)
    rw [tmt_setTmt, ht]
    rfl
  word := by rw [State.setTmt_mem]; exact h.word
  others a ha := by rw [State.setTmt_mem]; exact h.others a ha
  frame := by
    have hf := h.frame
    cases sp <;>
      exact (congrArg (fun u : State =>
        { u with tmtCode := s.tmtCode, tmtData := s.tmtData }) hf :)

theorem State.entryLoaded.trans {s t u : State} {sp : Space} {va q v w : Word}
    (h : s.entryLoaded sp va q v t) (k : t.entryLoaded sp va q w u) :
    s.entryLoaded sp va q w u where
  tmt sp' i := by
    rw [k.tmt, h.tmt]
    split <;> rfl
  word := k.word
  others a ha := (k.others a ha).trans (h.others a ha)
  frame := by
    have h1 := h.frame
    have h2 := k.frame
    rw [← h1, ← h2]

/-- A TMT miss that the VRT answers loads the entry, with its Referenced bit set. -/
theorem tmtEntry_loads {s : State} (hd : s.calm) (hw : s.mem.wf) {sp : Space} {va q : Word}
    (hmiss : tmtHit sp va s = none) (h : s.vrt (s.segment sp) va (some q))
    (hv : tmtV (s.mem.readWord (q.toNat + 8)) = true)
    (hu : tmtU (s.mem.readWord (q.toNat + 8)) = false) :
    ∃ t, tmtEntry sp va s = .ok (s.mem.readWord (q.toNat + 8) ||| 0x10#32) t ∧
      s.entryLoaded sp va q (s.mem.readWord (q.toNat + 8) ||| 0x10#32) t ∧
      t.mem = s.mem.writeBytes (q.toNat + 8)
        (wordBytes (s.mem.readWord (q.toNat + 8) ||| 0x10#32)) := by
  have ht := storeReal_entryMarked hw q (s.mem.readWord (q.toNat + 8) ||| 0x10#32)
  refine ⟨_, ?_, ht.entryLoaded sp va, State.setTmt_mem ..⟩
  simp only [tmtEntry, hmiss, vrtSearch_some hd h hv hu, Res.bind_ok]

/-- `MarkDirty` reloads the entry, with both bits set. -/
theorem markDirty_loads {s : State} (hd : s.calm) (hw : s.mem.wf) {sp : Space} {va q : Word}
    (h : s.vrt (s.segment sp) va (some q))
    (hv : tmtV (s.mem.readWord (q.toNat + 8)) = true)
    (hu : tmtU (s.mem.readWord (q.toNat + 8)) = false) :
    ∃ t, markDirty sp va s = .ok () t ∧
      s.entryLoaded sp va q (s.mem.readWord (q.toNat + 8) ||| 0x11#32) t := by
  obtain ⟨t, hs, ht⟩ := vrtSearchDirty_marks hd hw h hv hu
  refine ⟨_, ?_, ht.entryLoaded sp va⟩
  rw [markDirty, hs, Res.bind_ok]

section Fields
variable {s t : State} {sp : Space} {va q v : Word} (h : s.entryLoaded sp va q v t)
include h
theorem State.entryLoaded.pc : t.pc = s.pc := (congrArg State.pc h.frame :)
theorem State.entryLoaded.srs : t.srs = s.srs := (congrArg State.srs h.frame :)
theorem State.entryLoaded.sr (j : SReg) : t.sr j = s.sr j := by simp only [State.sr, h.srs]
theorem State.entryLoaded.segment (sp' : Space) : t.segment sp' = s.segment sp' := by
  simp only [segment_eq, h.sr]
theorem State.entryLoaded.calm (hd : s.calm) : t.calm :=
  ⟨(congrArg State.dmaTurns h.frame :).trans hd.1, (congrArg State.badWords h.frame :).trans hd.2⟩
end Fields

/-! ### Translation in user mode -/

section User
variable {s t : State} {sp : Space} {va e : Word} {acc : Access}

/-- The page fault that an access takes (60_exceptions.md R441). -/
theorem pageFault_eq (k : PageFaultKind) (sp : Space) (va : Word) (s : State) :
    pageFault k (s.segment sp) va s =
      { off := 0x410, saved := s.pc, sr0 := none, sr1 := some (pageFaultCode k)
        sr2 := some ((mfield (s.sr (if sp = .code then 8 else 9)) 16 31).setWidth 32)
        sr3 := some va } := by
  rw [segment_eq]
  rfl

theorem tmtEntry_hit (h : tmtHit sp va s = some e) : tmtEntry sp va s = .ok e s := by
  simp only [tmtEntry, h]

/-- An entry that lets the access pass. -/
theorem translate_passes (hm : s.mode = .user) (h : tmtEntry sp va s = .ok e t)
    (hp : acc = .write → tmtW e = true ∧ tmtD e = true) :
    translate sp va acc s = .ok (physAddress e va) t := by
  simp only [translate, hm, h, Res.bind_ok]
  by_cases ha : acc = .write
  · obtain ⟨hW, hD⟩ := hp ha
    simp [hW, hD]
  · simp [ha]

/-- An entry that does not allow the store. -/
theorem translate_protected (hm : s.mode = .user) (h : tmtEntry sp va s = .ok e t)
    (hW : tmtW e = false) :
    translate sp va .write s = .trap (pageFault .writeProtected (t.segment sp) va t) t := by
  simp only [translate, hm, h, Res.bind_ok, hW, and_self, if_true]

/-- A store through an entry that is not dirty marks it first. -/
theorem translate_marks (hm : s.mode = .user) (h : tmtEntry sp va s = .ok e t)
    (hW : tmtW e = true) (hD : tmtD e = false) :
    translate sp va .write s =
      (markDirty sp va t).bind fun _ u => .ok (physAddress e va) u := by
  simp [translate, hm, h, hW, hD]

end User

/-- Settles O42: the miss loads the entry, whose bits Write Allowed and Dirty decide the rest. -/
theorem translationLoadsEntry : Obligations.TranslationLoadsEntry := by
  intro s sp va q acc hd hw hm hmiss seg h w hv hu
  rw [show seg = s.segment sp from (segment_eq sp s).symm] at h
  obtain ⟨t, he, ht, -⟩ := tmtEntry_loads hd hw hmiss h hv hu
  obtain ⟨-, -, hW⟩ := tmt_bits_or (w := w) (m := 0x10#32) (.inl rfl)
  refine ⟨t, ht, fun hp => ?passes, ?denied⟩
  case passes =>
    rw [← physAddress_or (m := 0x10#32) (.inl rfl)]
    refine translate_passes hm he fun ha => ?_
    rw [hW, tmtD_or_referenced]
    exact hp ha
  case denied =>
    rintro rfl hp
    rw [translate_protected hm he (hW.trans hp), pageFault_eq, ht.pc]
    simp only [ht.sr]
    rfl

/-! ### The first store to a page -/

/-- What the VRT says depends on memory, SR12 and SR13 alone. -/
theorem State.vrt.congr {s t : State} {seg : Half} {va : Word} {r : Option Word}
    (h : s.vrt seg va r) (hm : t.mem = s.mem) (hsr : t.srs = s.srs) : t.vrt seg va r := by
  have hs : ∀ j, t.sr j = s.sr j := fun j => by simp only [State.sr, hsr]
  have hh : hashAddress seg va t = hashAddress seg va s := by simp only [hashAddress, hs]
  exact ⟨by rw [hs]; exact h.base, by rw [hh]; exact h.fits, by rw [hm, hh]; exact h.chain⟩

/-- Settles O43: `MarkDirty` loads the dirty entry, over the one that a miss has loaded before; the
store then follows its translation. -/
theorem storeMarksDirty : Obligations.StoreMarksDirty := by
  intro s va q hd hw hm found w hfound hv hu marks
  have stores : ∀ pa t, s.entryLoaded .data va q (w ||| 0x11#32) t →
      translate .data va .write s = .ok pa t → marks pa := by
    intro pa t ht htr
    refine ⟨t, ht, htr, fun x m hea p hp hn hf => ?_⟩
    rw [← hea] at htr hn
    rw [exec_storeForms hp]
    exact storeOp_stores hd.1 hw (.inr htr) hn hf
  refine ⟨fun e he hW hD => ?hit, fun hmiss hW hD hfound' => ?miss⟩
  case hit =>
    obtain ⟨t, hmark, ht⟩ := markDirty_loads hd hw (sp := .data) hfound hv hu
    refine stores _ t ht ?_
    rw [translate_marks hm (tmtEntry_hit he) hW hD, hmark, Res.bind_ok]
  case miss =>
    obtain ⟨t, he, ht, hmem⟩ := tmtEntry_loads hd hw (sp := .data) hmiss hfound hv hu
    obtain ⟨hV', hU', hW'⟩ := tmt_bits_or (w := w) (m := 0x10#32) (.inl rfl)
    have hwt : t.mem.wf := hmem ▸ Memory.wf_writeBytes hw _ _
    have hvrt : t.vrt (t.segment .data) va (some q) := by
      rw [ht.segment]
      exact State.vrt.congr hfound' hmem ht.srs
    have hword : t.mem.readWord (q.toNat + 8) ||| 0x11#32 = w ||| 0x11#32 := by
      rw [ht.word, BitVec.or_assoc]
      rfl
    obtain ⟨u, hmark, hu'⟩ := markDirty_loads (ht.calm hd) hwt hvrt
      (by rw [ht.word]; exact hV'.trans hv) (by rw [ht.word]; exact hU'.trans hu)
    rw [hword] at hu'
    refine stores _ u (ht.trans hu') ?_
    rw [translate_marks hm he (hW'.trans hW) ((tmtD_or_referenced w).trans hD), hmark, Res.bind_ok,
      physAddress_or (.inl rfl)]

end Sys2Proof.Machine

/-! SUPPORT. The page faults of loads, stores and fetches (20_memory.md R85, R93, R97, R98;
60_exceptions.md R441). -/

namespace Sys2Proof.Machine

/-! ### Translations that fault -/

section User
variable {s t : State} {sp : Space} {va : Word} {acc : Access} {e : Event}

theorem translate_absent (hd : s.calm) (hm : s.mode = .user) (hmiss : tmtHit sp va s = none)
    (h : s.vrt (s.segment sp) va none) (acc : Access) :
    translate sp va acc s = .trap (pageFault .absent (s.segment sp) va s) s := by
  simp only [translate, hm, tmtEntry, hmiss, vrtSearch_none hd h, Res.bind_ok, Res.bind_trap]

/-- Log entry 19: the page has left the VRT. -/
theorem markDirty_absent (hd : s.calm) (h : s.vrt (s.segment sp) va none) :
    markDirty sp va s = .trap (pageFault .absent (s.segment sp) va s) s := by
  rw [markDirty, vrtSearchDirty_none hd h, Res.bind_ok]

theorem accessAddress_of_trap {n : Nat} (hn : va.toNat % n = 0)
    (h : translate sp va acc s = .trap e t) : accessAddress sp va n acc s = .trap e t := by
  rw [accessAddress, if_pos ((aligned_iff _ _).2 hn), h, Res.bind_trap]

theorem exec_storeLengths_of_trap {x : Nib} {m : MemRef} {p : Instr × Nat}
    (hp : p ∈ storeLengths x m) (hn : (effectiveAddress .data m s).toNat % p.2 = 0)
    (h : translate .data (effectiveAddress .data m s) .write s = .trap e t) :
    exec p.1 s = enterEvent e t := by
  obtain ⟨bs, hl, hx⟩ := exec_storeLengths hp s
  exact hx.trans (storeOp_of_trap (accessAddress_of_trap (hl ▸ hn) h))

end User

/-! ### Addresses of one page -/

theorem mfield_toNat {n : Nat} (v : BitVec n) (a b : Nat) :
    (mfield v a b).toNat = v.toNat / 2 ^ (n - 1 - b) % 2 ^ (b + 1 - a) := by
  rw [mfield, BitVec.extractLsb'_toNat, Nat.shiftRight_eq_div_pow]

/-- The TMT answers alike for all addresses of a page (20_memory.md R92). -/
theorem tmtHit_congr {va vb : Word} (h : va.toNat / 4096 = vb.toNat / 4096) (sp : Space)
    (s : State) : tmtHit sp va s = tmtHit sp vb s := by
  have hindex : tmtIndex va = tmtIndex vb := by
    simp only [tmtIndex, mfield_toNat]
    omega
  have htag : mfield va 0 10 = mfield vb 0 10 := by
    apply BitVec.eq_of_toNat_eq
    simp only [mfield_toNat]
    omega
  simp only [tmtHit, hindex, htag]

/-- The real address of a page, and the place in the page (20_memory.md R90). -/
theorem physAddress_toNat (e va : Word) :
    (physAddress e va).toNat = (mfield e 1 15).toNat * 4096 + va.toNat % 4096 := by
  have hpage : (mfield e 1 15).toNat < 2 ^ 15 := (mfield e 1 15).isLt
  have hplace : (mfield va 20 31).toNat = va.toNat % 4096 := by
    rw [mfield_toNat]
    omega
  rw [physAddress, BitVec.toNat_setWidth, BitVec.toNat_append,
    ← Nat.shiftLeft_add_eq_or_of_lt (mfield va 20 31).isLt, Nat.shiftLeft_eq, hplace]
  omega

/-! ### Fetches -/

theorem instrLength_eq (op : Byte) :
    instrLength op =
      if op.getMsbD 0 = false then 2 else if op.getMsbD 3 = false then 4 else 6 := by
  rw [instrLength, longDisp, mbit_eq_getMsbD _ (by decide), mbit_eq_getMsbD _ (by decide)]
  cases op.getMsbD 0 <;> cases op.getMsbD 3 <;> rfl

theorem instrLength_cases (op : Byte) :
    instrLength op = 2 ∨ instrLength op = 4 ∨ instrLength op = 6 := by
  rw [instrLength_eq]
  split_ifs <;> simp

/-- A byte of a quadword of which the cache holds no other copy is main memory's. -/
theorem cachedByte_of_not_held {s : State} {sp : Space} {a : Nat}
    (h : ∀ l ∈ s.stale sp, l.holds a = false) (draw : Nat) :
    s.cachedByte draw sp a = s.mem.read a := by
  have hnone : (s.stale sp).filter (fun l => l.holds a) = [] := by
    rw [List.filter_eq_nil_iff]
    exact fun l hl => by simp [h l hl]
  simp only [State.cachedByte, State.cachedCopy, hnone]

section Fetch
variable {s t : State} {va pa : Word} {e : Event}

/-- A halfword of the instruction, where no word shows an error and no DMA falls. -/
theorem fetchHalf_calm (hd : s.calm) (h : translate .code va .fetch s = .ok pa s)
    (hf : pa.toNat + 2 ≤ Config.memSize) (draw : Nat) :
    fetchHalf draw va s = .ok (s.cachedBytes draw .code pa.toNat 2, false) s := by
  simp only [fetchHalf, h, Res.bind_ok, (realExists_iff _ _).2 hf, if_true, busRead,
    dmaTurn_of hd.1, readFails_of hd.2, lineFilled_code, parityChecked_of hd.2]

theorem fetchHalf_of_trap (h : translate .code va .fetch s = .trap e t) (draw : Nat) :
    fetchHalf draw va s = .trap e t := by
  rw [fetchHalf, h, Res.bind_trap]

theorem fetchRest_of_trap (h : translate .code va .fetch s = .trap e t) (draw n : Nat) :
    fetchRest draw (n + 1) va s = .trap e t := by
  rw [fetchRest, fetchHalf_of_trap h, Res.bind_trap]

/-- The fetch of an instruction whose first halfword cannot be read. -/
theorem runInstruction_of_trap (hpc : s.pc.toNat % 2 = 0)
    (h : translate .code s.pc .fetch (s.stamped .code) = .trap e t) :
    runInstruction s = enterEvent e t := by
  simp only [runInstruction, fetch, (oddAddress_eq_false _).2 hpc, Bool.false_eq_true, if_false,
    fetchHalf_of_trap h, Res.bind_trap, Res.out_trap]

/-- The fetch of an instruction that runs on into bytes that cannot be read. -/
theorem runInstruction_of_rest_trap {bs : List Byte} {u : State} (hpc : s.pc.toNat % 2 = 0)
    (h : fetchHalf s.draws s.pc (s.stamped .code) = .ok (bs, false) u)
    (hr : fetchRest s.draws (instrLength (bs.headD 0) / 2 - 1) (s.pc + 2) u = .trap e t) :
    runInstruction s = enterEvent e t := by
  simp only [runInstruction, fetch, (oddAddress_eq_false _).2 hpc, Bool.false_eq_true, if_false,
    h, Res.bind_ok, hr, Res.bind_trap, Res.out_trap]

end Fetch

/-- The fetch at an address of which neither the TMT nor the VRT has an entry. -/
theorem runInstruction_absent {s : State} (hd : s.calm) (hm : s.mode = .user)
    (hpc : s.pc.toNat % 2 = 0) (hmiss : tmtHit .code s.pc s = none)
    (h : s.vrt (s.segment .code) s.pc none) :
    ∃ n, runInstruction s =
      enterEvent (pageFault .absent (s.segment .code) s.pc s) { s with draws := n } := by
  obtain ⟨n, hn⟩ := stamped_draws s .code
  refine ⟨n, runInstruction_of_trap hpc ?_⟩
  have h' : ({ s with draws := n } : State).vrt (s.segment .code) s.pc none := h.congr rfl rfl
  rw [hn]
  exact translate_absent (s := { s with draws := n }) (sp := .code) hd hm hmiss h' .fetch

/-- In user mode the instruction at the program counter has its first `k` bytes at the end of a page
that the TMT maps with the entry `w`, and runs on into a page of which neither the TMT nor the VRT
has an entry. -/
structure State.RunsIntoMissingPage (s : State) (k : Nat) (w : Word) : Prop where
  calm : s.calm
  user : s.mode = .user
  atEnd : s.pc.toNat % 4096 + k = 4096
  size : k = 2 ∨ k = 4
  hit : tmtHit .code s.pc s = some w
  fits : (physAddress w s.pc).toNat + k ≤ Config.memSize
  noCopy : ∀ l ∈ s.stale .code, l.holds (physAddress w s.pc).toNat = false
  long : k < instrLength (s.mem.read (physAddress w s.pc).toNat)
  miss : tmtHit .code (s.pc + BitVec.ofNat 32 k) s = none
  absent : s.vrt (s.segment .code) (s.pc + BitVec.ofNat 32 k) none

section Straddle
variable {s : State} {k : Nat} {w : Word} (h : s.RunsIntoMissingPage k w)
include h

theorem State.RunsIntoMissingPage.drawn (n : Nat) :
    ({ s with draws := n }).RunsIntoMissingPage k w :=
  ⟨h.calm, h.user, h.atEnd, h.size, h.hit, h.fits, h.noCopy, h.long, h.miss,
    h.absent.congr rfl rfl⟩

/-- Its first halfword tells that it is longer. -/
theorem State.RunsIntoMissingPage.fetchHalf_pc (draw : Nat) :
    ∃ bs, fetchHalf draw s.pc s = .ok (bs, false) s ∧ k < instrLength (bs.headD 0) := by
  have htr := translate_passes (acc := .fetch) h.user (tmtEntry_hit h.hit) nofun
  have hf := h.fits
  have hk := h.size
  refine ⟨_, fetchHalf_calm h.calm htr (by omega) draw, ?_⟩
  have hop : (s.cachedBytes draw .code (physAddress w s.pc).toNat 2).headD 0 =
      s.mem.read (physAddress w s.pc).toNat := cachedByte_of_not_held h.noCopy draw
  rw [hop]
  exact h.long

/-- What follows its first halfword cannot be fetched. -/
theorem State.RunsIntoMissingPage.fetchRest_pc {op : Byte} (hop : k < instrLength op)
    (draw : Nat) :
    fetchRest draw (instrLength op / 2 - 1) (s.pc + 2) s =
      .trap (pageFault .absent (s.segment .code) (s.pc + BitVec.ofNat 32 k) s) s := by
  have htrap := translate_absent h.calm h.user h.miss h.absent .fetch
  have hlen := instrLength_cases op
  rcases h.size with rfl | rfl
  · obtain ⟨n, hn⟩ : ∃ n, instrLength op / 2 - 1 = n + 1 := ⟨instrLength op / 2 - 2, by omega⟩
    rw [hn]
    exact fetchRest_of_trap htrap draw n
  · have hsix : instrLength op / 2 - 1 = 1 + 1 := by omega
    have hend := h.atEnd
    have htwo : (s.pc + 2).toNat = s.pc.toNat + 2 := by bv_omega
    have hhit : tmtHit .code (s.pc + 2) s = some w :=
      (tmtHit_congr (by omega) .code s).trans h.hit
    have htr := translate_passes (acc := .fetch) h.user (tmtEntry_hit hhit) nofun
    have hf : (physAddress w (s.pc + 2)).toNat + 2 ≤ Config.memSize := by
      have hpc := h.fits
      have hplace : (s.pc + 2).toNat % 4096 = s.pc.toNat % 4096 + 2 := by omega
      rw [physAddress_toNat] at hpc ⊢
      rw [hplace, ← Nat.add_assoc]
      exact hpc
    have hnext : s.pc + 2 + 2 = s.pc + BitVec.ofNat 32 4 := BitVec.add_assoc ..
    rw [hsix, fetchRest, fetchHalf_calm h.calm htr hf, Res.bind_ok, hnext,
      fetchRest_of_trap htrap draw 0]
    rfl

theorem State.RunsIntoMissingPage.runInstruction :
    ∃ n, runInstruction s =
      enterEvent (pageFault .absent (s.segment .code) (s.pc + BitVec.ofNat 32 k) s)
        { s with draws := n } := by
  obtain ⟨n, hn⟩ := stamped_draws s .code
  have hs := h.drawn n
  obtain ⟨bs, hfirst, hop⟩ := hs.fetchHalf_pc s.draws
  have hend := h.atEnd
  have hk := h.size
  refine ⟨n, runInstruction_of_rest_trap (bs := bs) (u := { s with draws := n }) (by omega) ?_ ?_⟩
  · rw [hn]
    exact hfirst
  · exact hs.fetchRest_pc hop s.draws

end Straddle

/-- Settles O44: the alignment of a load or a store passes, and its translation faults; a fetch
faults at the first halfword whose page is missing. -/
theorem pageFaults : Obligations.PageFaults := by
  intro s x m hd hm seg e
  have hseg : ∀ sp, seg sp = s.segment sp := fun sp => (segment_eq sp s).symm
  have hfault : ∀ k sp va, pageFault k (s.segment sp) va s = e (pageFaultCode k) sp va :=
    fun k sp va => pageFault_eq k sp va s
  refine ⟨?access, ?store, fun hpc hmiss h => ?fetch, ?straddle⟩
  case access =>
    intro p hp ea hn hmiss h
    rw [hseg] at h
    refine exec_accessForms_of_trap (s := s) (x := x) (m := m) hp fun acc => ?_
    rw [accessAddress_of_trap hn (translate_absent hd hm hmiss h acc), hfault]
    rfl
  case store =>
    intro p hp ea hn
    refine ⟨?denied, ?left, ?loaded⟩
    case denied =>
      intro w hw hW
      refine exec_storeLengths_of_trap hp hn ?_
      rw [translate_protected hm (tmtEntry_hit hw) hW, hfault]
      rfl
    case left =>
      intro w hw hW hD h
      rw [hseg] at h
      refine exec_storeLengths_of_trap hp hn ?_
      rw [translate_marks hm (tmtEntry_hit hw) hW hD, markDirty_absent hd h, Res.bind_trap, hfault]
      rfl
    case loaded =>
      intro hwf hmiss q h w hv hu hW
      obtain ⟨t, ht, -, hfaults⟩ :=
        translationLoadsEntry s .data ea q .write hd hwf hm hmiss h hv hu
      exact ⟨t, ht, exec_storeLengths_of_trap hp hn (hfaults rfl hW)⟩
  case fetch =>
    rw [hseg] at h
    obtain ⟨n, hn⟩ := runInstruction_absent hd hm hpc hmiss h
    exact ⟨n, hn.trans (by rw [hfault]; rfl)⟩
  case straddle =>
    intro k hk hend w hw pa op next hf hold hlen hmiss h
    rw [hseg] at h
    rw [← instrLength_eq] at hlen
    have hs : s.RunsIntoMissingPage k w :=
      ⟨hd, hm, hend, by simpa using hk, hw, hf, hold, hlen, hmiss, h⟩
    obtain ⟨n, hn⟩ := hs.runInstruction
    exact ⟨n, hn.trans (by rw [hfault]; rfl)⟩

end Sys2Proof.Machine

/-! SUPPORT. The loads: where a translated address lies, what a read of one or two words gets and
leaves, and what reaches the destination (40_memory_reference.md R170 to R181; 20_memory.md R87,
R111; 60_exceptions.md R455). -/

namespace Sys2Proof.Machine

/-! ### The place of a translated address -/

theorem physAddress_mod (e va : Word) : (physAddress e va).toNat % 4096 = va.toNat % 4096 := by
  rw [physAddress_toNat, Nat.mul_add_mod_self_right, Nat.mod_mod]

/-- Translation keeps the place in the page (20_memory.md R90). -/
theorem translate_ok_mod {sp : Space} {ea pa : Word} {acc : Access} {s t : State}
    (h : translate sp ea acc s = .ok pa t) : pa.toNat % 4096 = ea.toNat % 4096 := by
  unfold translate at h
  split at h
  · cases h
    rfl
  · obtain ⟨e, u, -, h⟩ := Res.bind_eq_ok h
    split at h
    · cases h
    · split at h
      · obtain ⟨_, _, -, h⟩ := Res.bind_eq_ok h
        cases h
        exact physAddress_mod e ea
      · cases h
        exact physAddress_mod e ea

/-! ### Reads that may meet errors -/

theorem filter_ne_of_not_mem {ws : List Nat} {w : Nat} (h : w ∉ ws) :
    ws.filter (· ≠ w) = ws := by
  rw [List.filter_eq_self]
  intro v hv
  simpa using ne_of_mem_of_not_mem hv h

/-- A read within one word, when no DMA falls before it, with what it reports of its word. -/
theorem busRead_reports {s : State} (hd : s.dmaTurns = []) (draw : Nat) (sp : Space)
    (p : ParityError) {a n : Nat} (h : a / 4 = (a + n - 1) / 4) :
    ∃ bs ls, bs.length = n ∧ s.mayRead sp a bs ∧ s.narrows sp ls ∧
      (sp = .data → s.decides ls a bs) ∧
      busRead draw sp p a n s =
        .ok (bs, decide (a / 4 ∈ s.badWords))
          { s with
            staleData := ls, badWords := s.badWords.filter (· ≠ a / 4)
            parityPending := s.parityPending ++ if a / 4 ∈ s.badWords then [p] else [] } := by
  obtain ⟨bs, ls, hl, hm, hn, hdec, hr⟩ := busRead_word hd draw sp p h
  refine ⟨bs, ls, hl, hm, hn, hdec, hr.trans ?_⟩
  by_cases hb : a / 4 ∈ s.badWords
  · simp only [hb, if_true]
  · simp only [hb, if_false, filter_ne_of_not_mem hb, List.append_nil]

/-- A read of up to a word. -/
theorem memoryRead_reports {s : State} (hd : s.dmaTurns = []) (sp : Space) (ea : Word) {a n : Nat}
    (hn : n ≤ 4) (h : a / 4 = (a + n - 1) / 4) :
    ∃ bs k ls, bs.length = n ∧ s.mayRead sp a bs ∧ s.narrows sp ls ∧
      (sp = .data → s.decides ls a bs) ∧
      memoryRead sp ea a n s =
        .ok (bs, decide (a / 4 ∈ s.badWords))
          { s with
            draws := k, staleData := ls, badWords := s.badWords.filter (· ≠ a / 4)
            parityPending := s.parityPending ++
              if a / 4 ∈ s.badWords then [{ fetch := false, addr := ea }] else [] } := by
  obtain ⟨k, hk⟩ := stamped_draws s sp
  obtain ⟨bs, ls, hl, hm, hnar, hdec, hr⟩ := busRead_reports (s := { s with draws := k }) hd s.draws
    sp { fetch := false, addr := ea } h
  refine ⟨bs, k, ls, hl, hm, ⟨hnar.code, hnar.older⟩, hdec, ?_⟩
  rw [memoryRead, if_pos hn, hk]
  exact hr

/-- A read of a double word: each of the two word reads reports its own word. -/
theorem memoryRead_double_reports {s : State} (hd : s.dmaTurns = []) (sp : Space) (ea : Word)
    {a : Nat} (h : a % 8 = 0) :
    ∃ bs k ls, s.narrows sp ls ∧
      memoryRead sp ea a 8 s =
        .ok (bs, decide (a / 4 ∈ s.badWords) || decide (a / 4 + 1 ∈ s.badWords))
          { s with
            draws := k, staleData := ls
            badWords := s.badWords.filter fun w => w ≠ a / 4 ∧ w ≠ a / 4 + 1
            parityPending := s.parityPending ++
              (if a / 4 ∈ s.badWords then [{ fetch := false, addr := ea }] else []) ++
              if a / 4 + 1 ∈ s.badWords then [{ fetch := false, addr := ea + 4 }] else [] } := by
  obtain ⟨k, hk⟩ := stamped_draws s sp
  obtain ⟨bs, ls, -, -, hnar1, -, hr1⟩ := busRead_reports (s := { s with draws := k }) hd s.draws
    sp { fetch := false, addr := ea } (a := a) (n := 4) (by omega)
  obtain ⟨cs, ks, -, -, hnar2, -, hr2⟩ := busRead_reports
    (s := { s with
      draws := k, staleData := ls, badWords := s.badWords.filter (· ≠ a / 4)
      parityPending := s.parityPending ++
        if a / 4 ∈ s.badWords then [{ fetch := false, addr := ea }] else [] })
    hd s.draws sp { fetch := false, addr := ea + 4 } (a := a + 4) (n := 4) (by omega)
  have hnext : (a + 4) / 4 = a / 4 + 1 := by omega
  have hmem : a / 4 + 1 ∈ s.badWords.filter (· ≠ a / 4) ↔ a / 4 + 1 ∈ s.badWords := by
    simp [List.mem_filter]
  have hfilter : (s.badWords.filter (· ≠ a / 4)).filter (· ≠ a / 4 + 1) =
      s.badWords.filter fun w => w ≠ a / 4 ∧ w ≠ a / 4 + 1 := by
    rw [List.filter_filter]
    refine List.filter_congr fun w _ => ?_
    rw [Bool.and_comm, Bool.decide_and]
  simp only [hnext, hmem, hfilter] at hr2
  have hn1 : s.narrows sp ls := ⟨hnar1.code, hnar1.older⟩
  have hn2 : ({ s with staleData := ls }).narrows sp ks := ⟨hnar2.code, hnar2.older⟩
  refine ⟨bs ++ cs, k, ks, hn1.trans hn2, ?_⟩
  rw [memoryRead, if_neg (by decide), hk, hr1, Res.bind_ok]
  simp only []
  rw [hr2, Res.bind_ok]

/-! ### Loads -/

section Loads
variable {r s t : State} {sp : Space} {m : MemRef} {pa : Word} {n : Nat} {bs : List Byte}
  {put : DWord → State → State}

/-- A load whose read shows no error: the bytes read reach the destination. -/
theorem loadOp_delivers (hput : ∀ d u, (put d u).pc = u.pc)
    (htr : translate sp (effectiveAddress sp m r) .read r = .ok pa s)
    (hn : (effectiveAddress sp m r).toNat % n = 0) (hf : pa.toNat + n ≤ Config.memSize)
    (hread : memoryRead sp (effectiveAddress sp m r) pa.toNat n s = .ok (bs, false) t)
    (hpc : t.pc = s.pc) :
    loadOp sp n put m r =
      .next ((put (bytesValue bs) t).setPc (branchEnd m.disp s.pc False)) := by
  simp only [loadOp, virtualRead, accessAddress_of_translate hn htr hf, Res.bind_ok, hread,
    Bool.false_eq_true, if_false, Res.out_ok, advance_dispLength, hput, hpc]

/-- A load whose read shows an error: a free value reaches the destination. -/
theorem loadOp_fails (hput : ∀ d u, (put d u).pc = u.pc)
    (htr : translate sp (effectiveAddress sp m r) .read r = .ok pa s)
    (hn : (effectiveAddress sp m r).toNat % n = 0) (hf : pa.toNat + n ≤ Config.memSize)
    (hread : memoryRead sp (effectiveAddress sp m r) pa.toNat n s = .ok (bs, true) t)
    (hpc : t.pc = s.pc) :
    ∃ d, loadOp sp n put m r =
      .next ((put d t.drawn).setPc (branchEnd m.disp s.pc False)) := by
  refine ⟨Config.parityData t.draws 0 ++ Config.parityData t.draws 1, ?_⟩
  simp only [loadOp, virtualRead, accessAddress_of_translate hn htr hf, Res.bind_ok, hread,
    if_true, Res.out_ok, advance_dispLength, hput, State.drawn_pc, hpc]

end Loads

/-- The low word of the number that some bytes stand for. -/
theorem loWord_bytesValue (bs : List Byte) :
    loWord (bytesValue bs) = BitVec.ofNat 32 (bs.foldl (fun v b => v * 256 + b.toNat) 0) := by
  rw [bytesValue_eq]
  apply BitVec.eq_of_toNat_eq
  rw [loWord, BitVec.extractLsb'_toNat, BitVec.toNat_ofNat, BitVec.toNat_ofNat,
    Nat.shiftRight_zero, Nat.mod_mod_of_dvd _ (by decide)]

/-- Settles O38: a load is `loadOp` after its translation; what its read gets and leaves,
`memoryRead_of`, `memoryRead_reports` and the rules for a double word say. -/
theorem loadsComplete : Obligations.LoadsComplete := by
  intro r s x m sp pa ea hr ld b fin value word
  have htr : translate sp ea .read r = .ok pa s := translate_of_reaches hr
  have hmod : pa.toNat % 4096 = ea.toNat % 4096 := translate_ok_mod htr
  have execb : exec (ld .loadb .loadbp) r = loadOp sp 1 (toReg x) m r := by cases sp <;> rfl
  have exech : exec (ld .loadh .loadhp) r = loadOp sp 2 (toReg x) m r := by cases sp <;> rfl
  have exec4 : exec (ld .load .loadp) r = loadOp sp 4 (toReg x) m r := by cases sp <;> rfl
  have execd : exec (ld .loadd .loaddp) r = loadOp sp 8 (toPair x) m r := by cases sp <;> rfl
  have put_reg : ∀ d u, (toReg x d u).pc = u.pc := fun _ _ => rfl
  have put_pair : ∀ d u, (toPair x d u).pc = u.pc := fun _ _ => rfl
  refine ⟨fun hs => ?settled, fun hd => ⟨?word, ?double⟩⟩
  case settled =>
    refine ⟨fun hf => ?_, fun hn hf => ?_, fun hn hf => ?_, fun hn hf => ?_⟩
    · rw [execb, loadOp_delivers put_reg htr (Nat.mod_one _) hf (memoryRead_of hs ..) rfl]
      exact congrArg (fun w => fin (s.setReg x w)) (bytesValue_one _)
    · rw [exech, loadOp_delivers put_reg htr hn hf (memoryRead_of hs ..) rfl]
      exact congrArg (fun w => fin (s.setReg x w)) (bytesValue_two _ _)
    · rw [exec4, loadOp_delivers put_reg htr hn hf (memoryRead_of hs ..) rfl]
      exact congrArg (fun w => fin (s.setReg x w)) (bytesValue_four _ _ _ _)
    · rw [execd, loadOp_delivers put_pair htr hn hf (memoryRead_of hs ..) rfl]
      exact congrArg (fun d => fin (s.setPair x d)) (bytesValue_eight _ _ _ _ _ _ _ _)
  case word =>
    intro p hp hn hf
    have hlen : exec p.1 r = loadOp sp p.2 (toReg x) m r ∧ (p.2 = 1 ∨ p.2 = 2 ∨ p.2 = 4) := by
      simp only [List.mem_cons, List.not_mem_nil, or_false] at hp
      rcases hp with rfl | rfl | rfl
      · exact ⟨execb, by simp⟩
      · exact ⟨exech, by simp⟩
      · exact ⟨exec4, by simp⟩
    obtain ⟨hexec, hlen⟩ := hlen
    have hone : pa.toNat / 4 = (pa.toNat + p.2 - 1) / 4 := by
      rcases hlen with h | h | h <;> rw [h] at hn ⊢ <;> omega
    obtain ⟨bs, k, ls, hl, hmay, hnar, hdec, hread⟩ :=
      memoryRead_reports hd sp ea (show p.2 ≤ 4 by omega) hone
    refine ⟨fun hw => ⟨bs, k, ls, hl, hmay, hnar, hdec, ?clean⟩, fun hw => ?failing⟩
    case clean =>
      have hword : pa.toNat / 4 ∉ s.badWords := hw
      simp only [hword, decide_false, if_false, filter_ne_of_not_mem hword,
        List.append_nil] at hread
      rw [hexec, loadOp_delivers put_reg htr hn hf hread rfl, toReg, loWord_bytesValue]
      rfl
    case failing =>
      simp only [show pa.toNat / 4 ∈ s.badWords from hw, decide_true, if_true] at hread
      obtain ⟨d, hd⟩ := loadOp_fails put_reg htr hn hf hread rfl
      exact ⟨loWord d, k + 1, ls, hnar, hexec.trans hd⟩
  case double =>
    intro hn hf
    have hpa : pa.toNat % 8 = 0 := by omega
    refine ⟨fun h1 h2 => ?clean, fun hw => ?failing⟩
    case clean =>
      obtain ⟨bs, cs, k, ls, hl1, hl2, hmay1, hmay2, hnar, hdec, hread⟩ :=
        memoryRead_double hd sp ea hpa h1 h2
      refine ⟨bs, cs, k, ls, hl1, hl2, hmay1, hmay2, hnar, hdec, ?_⟩
      rw [execd, loadOp_delivers put_pair htr hn hf hread rfl, bytesValue_eq]
      rfl
    case failing =>
      obtain ⟨bs, k, ls, hnar, hread⟩ := memoryRead_double_reports hd sp ea hpa
      have hbad : (decide (pa.toNat / 4 ∈ s.badWords) ||
          decide (pa.toNat / 4 + 1 ∈ s.badWords)) = true := by simpa using hw
      rw [hbad] at hread
      obtain ⟨d, hd⟩ := loadOp_fails put_pair htr hn hf hread rfl
      exact ⟨d, k + 1, ls, hnar, execd.trans hd⟩

end Sys2Proof.Machine

/-! SUPPORT. READ and WRITE, and the DMA of the boards: the answer of a board, the bytes of a DMA
write, the words of a DMA read, the order of service (45_kernel.md R400 to R402; 60_exceptions.md
R481 to R487). -/

namespace Sys2Proof.Machine

/-! ### READ and WRITE -/

section Transfer
variable {s : State} {x y : Reg} {r : Reply} {bs : List Board}

/-- READ, with the answer that the boards give. -/
theorem exec_read_of_reply (hp : s.privileged)
    (h : boardReply (mfield (s.reg y) 0 7) s.boards = (r, bs)) :
    exec (.read x y) s =
      .next { ((s.setReg x (ioStatus r)).setReg (x + 1) (ioReadData r s)).drawn.advance 2 with
        boards := bs, bus := .ioRead (s.reg y) (ioStatus r) :: s.bus } := by
  refine (guarded_privileged hp 0x4E x y _).trans ?_
  rw [show boardReply (ioDevice (s.reg y)) s.boards = (r, bs) from h]
  rfl

/-- WRITE, with the answer that the boards give. -/
theorem exec_write_of_reply (hp : s.privileged)
    (h : boardReply (mfield (s.reg y) 0 7) s.boards = (r, bs)) :
    exec (.write x y) s =
      .next { (s.setReg x (ioStatus r)).advance 2 with
        boards := bs, bus := .ioWrite (s.reg y) (s.reg x) (ioStatus r) :: s.bus } := by
  refine (guarded_privileged hp 0x4F x y _).trans ?_
  rw [show boardReply (ioDevice (s.reg y)) s.boards = (r, bs) from h]
  rfl

end Transfer

theorem ioStatus_silent : ioStatus .silent = 2 := by decide

theorem ioStatus_notReady : ioStatus .notReady = 1 := by decide

/-! ### One DMA operation -/

/-- A result without a value, bound to nothing more. -/
theorem Res.bind_unit (r : Res Unit) : (r.bind fun _ s => .ok () s) = r := by
  cases r <;> rfl

/-- A board's place in the order of service (60_exceptions.md R486, R487). -/
def Board.dmaRank (b : Board) : Nat :=
  match b.dmaChain with
  | .two => b.dmaPosition.val
  | .one => 8 + b.dmaPosition.val

theorem dmaRank_eq (bs : List Board) (dev : Byte) :
    Machine.dmaRank bs dev = (bs.find? fun b => b.device == dev).map Board.dmaRank := rfl

/-- The DMA of a board that is installed, alone in its round. -/
theorem applyArrival_dma_one {s : State} {dev : Byte} (h : ∃ b ∈ s.boards, b.device = dev)
    (d : Dma) : applyArrival (.dma [{ device := dev, dma := d }]) s = applyDma d s := by
  obtain ⟨b, hb, hdev⟩ := h
  obtain ⟨c, hc⟩ := Option.isSome_iff_exists.1
    (List.find?_isSome (p := fun b : Board => b.device == dev).2 ⟨b, hb, by simp [hdev]⟩)
  simp only [applyArrival, serveRound, dmaOrder, dmaRank_eq, hc, Option.map_some, dmaInsert,
    List.map_cons, List.map_nil, applyDmas]
  exact Res.bind_unit _

/-- The address check of a DMA that lies in memory, a burst on a quadword. -/
theorem dmaCheck_none {a : Word} {n : Nat}
    (hn : n = 4 → (dmaAddress a).toNat % 16 = 0)
    (hf : (dmaAddress a).toNat + 4 * n ≤ Config.memSize) : dmaCheck a n = none := by
  have hburst : ¬ (n = 4 ∧ (!aligned (dmaAddress a) 16) = true) := by
    rintro ⟨h4, h⟩
    rw [show aligned (dmaAddress a) 16 = true from (aligned_iff _ _).2 (hn h4)] at h
    cases h
  rw [dmaCheck, if_neg hburst, if_pos ((realExists_iff _ _).2 hf)]

theorem dmaCheck_misaligned {a : Word} (h : (dmaAddress a).toNat % 16 ≠ 0) :
    dmaCheck a 4 = some .dmaBurstMisaligned := by
  have hal : aligned (dmaAddress a) 16 = false :=
    Bool.eq_false_iff.2 (mt (aligned_iff _ _).1 h)
  rw [dmaCheck, if_pos ⟨rfl, by rw [hal]; rfl⟩]

/-! ### DMA writes -/

theorem Memory.writeBytes_append (m : Memory) (a : Nat) (bs cs : List Byte) :
    m.writeBytes a (bs ++ cs) = (m.writeBytes a bs).writeBytes (a + bs.length) cs := by
  induction bs generalizing m a with
  | nil => rfl
  | cons b bs ih =>
    rw [List.cons_append, Memory.writeBytes, ih, Memory.writeBytes, List.length_cons,
      Nat.add_right_comm, Nat.add_assoc]

theorem length_flatMap_wordBytes (ws : List Word) :
    (ws.flatMap wordBytes).length = 4 * ws.length := by
  induction ws with
  | nil => rfl
  | cons w ws ih =>
    rw [List.flatMap_cons, List.length_append, ih, List.length_cons]
    simp only [wordBytes, List.length_cons, List.length_nil]
    omega

/-- Each of several words reads as it was written. -/
theorem Memory.readWord_writeBytes_words {m : Memory} (h : m.wf) (a : Nat) (ws : List Word)
    (k : Nat) (hk : k < ws.length) :
    (m.writeBytes a (ws.flatMap wordBytes)).readWord (a + 4 * k) = ws[k] := by
  induction ws generalizing m a k with
  | nil => cases hk
  | cons w ws ih =>
    have hw := Memory.wf_writeBytes h a (wordBytes w)
    rw [List.flatMap_cons, Memory.writeBytes_append]
    cases k with
    | zero =>
      have hfirst : a + 4 * 0 + 4 ≤ a + (wordBytes w).length := Nat.le_refl _
      exact (Memory.readWord_writeBytes_outside hw (.inl hfirst)).trans
        (Memory.readWord_writeBytes h a w)
    | succ k =>
      have := ih hw (a + 4) k (by simpa using hk)
      rw [show a + 4 * (k + 1) = a + 4 + 4 * k by omega]
      exact this

theorem wordBytes_wordOf (b0 b1 b2 b3 : Byte) :
    wordBytes (wordOf b0 b1 b2 b3) = [b0, b1, b2, b3] := by
  simp only [wordBytes, wordOf, List.cons.injEq, and_true]
  refine ⟨?_, ?_, ?_, ?_⟩
  all_goals
    apply BitVec.eq_of_getLsbD_eq
    intro i hi
    simp only [BitVec.getLsbD_append, BitVec.getLsbD_extractLsb', hi, decide_true, Bool.true_and]
    interval_cases i <;> rfl

/-- The bytes of a word of memory. -/
theorem getElem_wordBytes_readWord (m : Memory) (a j : Nat)
    (hj : j < (wordBytes (m.readWord a)).length) :
    (wordBytes (m.readWord a))[j] = m.read (a + j) := by
  have hbytes : wordBytes (m.readWord a) = (List.range 4).map fun k => m.read (a + k) :=
    wordBytes_wordOf ..
  simp only [hbytes, List.getElem_map, List.getElem_range]

/-- Bytes that the processor or a board leaves in `quadwords` can still be read, a word of them at
once. -/
theorem mayRead_of_quadwords {s t : State} {sp : Space} {a n c : Nat} (hc : c % 4 = 0)
    (h1 : a ≤ c) (h2 : c < a + n) (h : ∀ l ∈ s.mem.quadwords a n, l ∈ t.stale sp) :
    t.mayRead sp c (wordBytes (s.mem.readWord c)) := by
  obtain ⟨l, hl, hholds, hbytes⟩ := s.mem.mem_quadwords h1 h2
  refine .inr ⟨l, h l hl, hholds, fun k hk => ?_⟩
  have hk4 : k < 4 := hk
  rw [getElem_wordBytes_readWord, hbytes _ (by omega)]

/-- What a DMA write of the words `ws` leaves. -/
theorem dmaStore_words {s : State} (hw : s.mem.wf) {a : Nat} (ha : a % 4 = 0) (ws : List Word) :
    let t := dmaStore s a (ws.flatMap wordBytes)
    (∀ (k : Nat) (h : k < ws.length), t.mem.readWord (a + 4 * k) = ws[k]) ∧
      (∀ c, c < a ∨ a + 4 * ws.length ≤ c → t.mem.read c = s.mem.read c) ∧
      (∀ k < ws.length, ∀ sp : Space, sp = .code ∨ Config.dmaCoherent = false →
        t.mayRead sp (a + 4 * k) (wordBytes (s.mem.readWord (a + 4 * k)))) ∧
      (Config.dmaCoherent = true → ∀ l ∈ t.staleData, ∀ k < 4 * ws.length,
        l.holds (a + k) = true → l.byte (a + k) = t.mem.read (a + k)) ∧
      { t with mem := s.mem, staleCode := s.staleCode, staleData := s.staleData } = s := by
  have hlen := length_flatMap_wordBytes ws
  refine ⟨Memory.readWord_writeBytes_words hw a ws, fun c hc => ?others, fun k hk sp hsp => ?older,
    fun hco l hl k hk hholds => ?coherent, rfl⟩
  case others => exact Memory.read_writeBytes_outside hw (by omega)
  case older =>
    refine mayRead_of_quadwords (a := a) (n := (ws.flatMap wordBytes).length) (by omega) (by omega)
      (by omega) fun l hl => ?_
    rcases sp with _ | _
    · exact List.mem_append_left _ hl
    · have hoff : Config.dmaCoherent = false := by simpa using hsp
      simp only [State.stale, dmaStore, hoff, Bool.false_eq_true, if_false]
      exact List.mem_append_left _ hl
  case coherent =>
    simp only [dmaStore, hco, if_true, List.mem_map] at hl
    obtain ⟨l, -, rfl⟩ := hl
    rw [CacheLine.write_byte (l := l) hholds (by omega) (by omega), dmaStore_mem,
      Memory.read_writeBytes_inside hw a (by omega)]
    simp only [Nat.add_sub_cancel_left]

/-- The two DMA writes of an address word, with the number of their words (60_exceptions.md R485).
-/
def dmaWrites (a : Word) : List ((List Word → Dma) × Nat) :=
  [(fun ws => .writeWord a (ws.getD 0 0), 1),
   (fun ws => .writeBurst a (ws.getD 0 0) (ws.getD 1 0) (ws.getD 2 0) (ws.getD 3 0), 4)]

theorem applyDma_dmaWrites {a : Word} {p : (List Word → Dma) × Nat} (hp : p ∈ dmaWrites a)
    {ws : List Word} (hl : ws.length = p.2) (s : State) :
    applyDma (p.1 ws) s = dmaWrite a ws s := by
  simp only [dmaWrites, List.mem_cons, List.not_mem_nil, or_false] at hp
  rcases hp with rfl | rfl
  · obtain ⟨w, rfl⟩ := List.length_eq_one_iff.1 hl
    rfl
  · match ws, hl with
    | [w0, w1, w2, w3], _ => rfl

/-! ### DMA reads -/

/-- A read of whole words meets a failing one among them. -/
theorem readFails_words {a n : Nat} (ha : a % 4 = 0) (hn : 0 < n) (s : State) :
    readFails a (4 * n) s = true ↔ ∃ w ∈ s.badWords, a / 4 ≤ w ∧ w < a / 4 + n := by
  have hlast : (a + 4 * n - 1) / 4 = a / 4 + n - 1 := by omega
  simp only [readFails, List.any_eq_true, Bool.and_eq_true, decide_eq_true_eq, hlast]
  refine exists_congr fun w => and_congr_right fun _ => ?_
  omega

theorem mem_reported_badWords {a n : Nat} (ha : a % 4 = 0) (hn : 0 < n) (s : State) (w : Nat) :
    w ∈ (reported a (4 * n) s).badWords ↔ w ∈ s.badWords ∧ ¬ (a / 4 ≤ w ∧ w < a / 4 + n) := by
  have hlast : (a + 4 * n - 1) / 4 = a / 4 + n - 1 := by omega
  simp only [reported, List.mem_filter, Bool.not_eq_true', Bool.and_eq_false_iff,
    decide_eq_false_iff_not, hlast]
  refine and_congr_right fun _ => ?_
  omega

theorem reported_of_not_readFails {a n : Nat} {s : State} (h : readFails a n s = false) :
    reported a n s = s := by
  have hself : (reported a n s).badWords = s.badWords := by
    exact List.filter_eq_self.2 fun w hw =>
      by simpa only [Bool.not_eq_true', Bool.not_eq_true] using List.any_eq_false.1 h w hw
  calc reported a n s = { s with badWords := (reported a n s).badWords } := rfl
    _ = s := by rw [hself]

section Reads
variable {s : State} {a : Word} {n : Nat} (hc : dmaCheck a n = none)
include hc

theorem dmaRead_clean (h : readFails (dmaAddress a).toNat (4 * n) s = false) :
    dmaRead a n s = .ok () { s with
      bus := .dmaRead (dmaAddress a)
        ((List.range n).map fun k => s.mem.readWord ((dmaAddress a).toNat + 4 * k)) false ::
          s.bus } := by
  simp only [dmaRead, hc, dmaWords, h, Bool.false_eq_true, if_false, reported_of_not_readFails h]

theorem dmaRead_failing (h : readFails (dmaAddress a).toNat (4 * n) s = true) :
    ∃ ws, ws.length = n ∧
      dmaRead a n s = .ok () { s with
        badWords := (reported (dmaAddress a).toNat (4 * n) s).badWords
        bus := .dmaRead (dmaAddress a) ws true :: s.bus, draws := s.draws + 1 } := by
  refine ⟨dmaWords (dmaAddress a).toNat n s, by simp [dmaWords], ?_⟩
  simp only [dmaRead, hc, h, if_true]
  rfl

end Reads

/-! ### The order of service -/

/-- Where device numbers differ, each request is that of its own board. -/
theorem dmaRank_of_mem {bs : List Board} (hn : (bs.map Board.device).Nodup) {b : Board}
    (hb : b ∈ bs) : Machine.dmaRank bs b.device = some b.dmaRank := by
  have hfind : bs.find? (fun c => c.device == b.device) = some b := by
    induction bs with
    | nil => cases hb
    | cons c bs ih =>
      obtain ⟨hc, hn⟩ := List.nodup_cons.1 hn
      rcases List.mem_cons.1 hb with rfl | hb
      · exact List.find?_cons_of_pos (beq_self_eq_true _)
      · have hne : c.device ≠ b.device := fun he => hc (he ▸ List.mem_map_of_mem hb)
        rw [List.find?_cons_of_neg (by simpa using hne)]
        exact ih hn hb
  rw [dmaRank_eq, hfind, Option.map_some]

/-- Chain 2 comes before chain 1, and on a chain the position decides (60_exceptions.md R486, R487).
-/
theorem Board.dmaRank_lt {b c : Board}
    (h : b.dmaChain = .two ∧ c.dmaChain = .one ∨
      b.dmaChain = c.dmaChain ∧ b.dmaPosition < c.dmaPosition) : b.dmaRank < c.dmaRank := by
  have hb := b.dmaPosition.isLt
  unfold Board.dmaRank
  rcases h with ⟨h2, h1⟩ | ⟨he, hlt⟩
  · simp only [h2, h1]
    omega
  · have hlt : b.dmaPosition.val < c.dmaPosition.val := hlt
    rw [he]
    cases c.dmaChain <;> simp only [] <;> omega

theorem applyDma_boards {d : Dma} {s t : State} (h : applyDma d s = .ok () t) :
    t.boards = s.boards := by
  have hw := applyDma_within d s
  rw [h] at hw
  exact hw.boards

/-- Of two requests the one of the board that comes first is served first, in whichever order they
were made. -/
theorem applyArrival_dma_two {s t : State} {b c : Board} {d e : Dma} (hb : b ∈ s.boards)
    (hc : c ∈ s.boards) (hn : (s.boards.map Board.device).Nodup) (hlt : b.dmaRank < c.dmaRank)
    (h : applyDma d s = .ok () t) {r : DmaRound}
    (hr : r = [{ device := b.device, dma := d }, { device := c.device, dma := e }] ∨
      r = [{ device := c.device, dma := e }, { device := b.device, dma := d }]) :
    applyArrival (.dma r) s = applyArrival (.dma [{ device := c.device, dma := e }]) t := by
  have horder : (dmaOrder s.boards r).map Prod.snd = [d, e] := by
    rcases hr with rfl | rfl
    · simp [dmaOrder, dmaRank_of_mem hn hb, dmaRank_of_mem hn hc, dmaInsert,
        Nat.not_lt_of_gt hlt]
    · simp [dmaOrder, dmaRank_of_mem hn hb, dmaRank_of_mem hn hc, dmaInsert, hlt]
  have hone : applyArrival (.dma [{ device := c.device, dma := e }]) t = applyDma e t :=
    applyArrival_dma_one ⟨c, applyDma_boards h ▸ hc, rfl⟩ e
  rw [hone, applyArrival, serveRound, horder, applyDmas, h, Res.bind_ok, applyDmas]
  exact Res.bind_unit _

/-! ### The obligation -/

/-- READ and WRITE with the answer of the board named, or with none. -/
theorem transfers {s : State} {x y : Reg} (hp : s.privileged) :
    let a := s.reg y
    let rd (bs : List Board) (st d : Word) : Out :=
      .next { ((s.setReg x st).setReg (x + 1) d).drawn.advance 2 with
        boards := bs, bus := .ioRead a st :: s.bus }
    let wr (bs : List Board) (st : Word) : Out :=
      .next { (s.setReg x st).advance 2 with
        boards := bs, bus := .ioWrite a (s.reg x) st :: s.bus }
    ∀ (r : Reply) (bs : List Board), boardReply (mfield a 0 7) s.boards = (r, bs) →
      (r = .silent → (∃ d, exec (.read x y) s = rd bs 2 d) ∧ exec (.write x y) s = wr bs 2) ∧
        (r = .notReady → (∃ d, exec (.read x y) s = rd bs 1 d) ∧ exec (.write x y) s = wr bs 1) ∧
        (∀ d, r = .accept d → exec (.read x y) s = rd bs 0 d ∧ exec (.write x y) s = wr bs 0) := by
  intro a rd wr r bs h
  have hread := exec_read_of_reply (x := x) hp h
  have hwrite := exec_write_of_reply (x := x) hp h
  refine ⟨?_, ?_, ?_⟩
  · rintro rfl
    rw [ioStatus_silent] at hread hwrite
    exact ⟨⟨_, hread⟩, hwrite⟩
  · rintro rfl
    rw [ioStatus_notReady] at hread hwrite
    exact ⟨⟨_, hread⟩, hwrite⟩
  · rintro d rfl
    exact ⟨hread, hwrite⟩

theorem mod_four_of_mod_mul {a n : Nat} (h : a % (4 * n) = 0) : a % 4 = 0 :=
  Nat.mod_eq_zero_of_dvd (dvd_of_mul_right_dvd (Nat.dvd_of_mod_eq_zero h))

/-- Settles O52: a transfer ends as the reply of the board says; DMA by the rules for a write, a
read and the order of service. -/
theorem inputOutput : Obligations.InputOutput := by
  refine ⟨?transfer, ?dma, ?order⟩
  case transfer =>
    intro s x y hp a dev rd wr
    have htransfers := transfers (x := x) (y := y) hp
    refine ⟨fun pre post b hs hpre hb => ⟨fun hnone => ?_, fun r rs hr => ?_⟩, fun hall => ?_⟩
    · have hreply := boardReply_of pre post b hpre hb
      rw [hnone, ← hs] at hreply
      exact (htransfers _ _ hreply).1 rfl
    · have hreply := boardReply_of pre post b hpre hb
      rw [hr, ← hs] at hreply
      exact htransfers _ _ hreply
    · exact (htransfers _ _ (boardReply_absent _ hall)).1 rfl
  case dma =>
    intro s dev a hw hdev A does
    have hdoes : ∀ d, does d = applyDma d s := applyArrival_dma_one hdev
    refine ⟨?write, ?read, fun hmis w0 w1 w2 w3 => ?misaligned⟩
    case write =>
      intro p hp ws hl hal hf
      have hlen : p.2 = 1 ∨ p.2 = 4 := by
        simp only [List.mem_cons, List.not_mem_nil, or_false] at hp
        rcases hp with rfl | rfl <;> simp
      have hcheck : dmaCheck a ws.length = none := by
        rw [hl]
        exact dmaCheck_none (fun h4 => by rw [h4] at hal; exact hal) hf
      have hdma : does (p.1 ws) = .ok () (dmaStore s A (ws.flatMap wordBytes)) := by
        rw [hdoes, applyDma_dmaWrites hp hl, dmaWrite, hcheck]
        rfl
      have hA : A % 4 = 0 := mod_four_of_mod_mul hal
      refine ⟨_, hdma, ?_⟩
      rw [← hl]
      exact dmaStore_words hw hA ws
    case read =>
      intro p hp hal hf meets
      have hlen : p.2 = 1 ∨ p.2 = 4 := by
        simp only [List.mem_cons, List.not_mem_nil, or_false] at hp
        rcases hp with rfl | rfl <;> simp
      have hcheck : dmaCheck a p.2 = none :=
        dmaCheck_none (fun h4 => by rw [h4] at hal; exact hal) hf
      have hdma : does p.1 = dmaRead a p.2 s := by
        rw [hdoes]
        simp only [List.mem_cons, List.not_mem_nil, or_false] at hp
        rcases hp with rfl | rfl <;> rfl
      have hA : A % 4 = 0 := mod_four_of_mod_mul hal
      have hpos : 0 < p.2 := by omega
      have hfails := readFails_words hA hpos s
      refine ⟨fun hnone => ?clean, fun hsome => ?failing⟩
      case clean =>
        refine hdma.trans (dmaRead_clean hcheck (Bool.eq_false_iff.2 fun h => ?_))
        obtain ⟨w, hw, hmeets⟩ := hfails.1 h
        exact hnone w hw hmeets
      case failing =>
        obtain ⟨ws, hl, hread⟩ := dmaRead_failing hcheck (hfails.2 hsome)
        exact ⟨ws, hl, _, hdma.trans hread, rfl,
          mem_reported_badWords hA hpos s, rfl⟩
    case misaligned =>
      rw [hdoes, hdoes]
      simp only [applyDma, dmaWrite, dmaRead, List.length_cons, List.length_nil,
        dmaCheck_misaligned hmis, and_self]
  case order =>
    intro s t b c d e hb hc hn hchain r q h
    have hlt := Board.dmaRank_lt hchain
    have hfirst : applyDma d s = .ok () t := (applyArrival_dma_one ⟨b, hb, rfl⟩ d).symm.trans h
    exact ⟨applyArrival_dma_two hb hc hn hlt hfirst (.inl rfl),
      applyArrival_dma_two hb hc hn hlt hfirst (.inr rfl)⟩

end Sys2Proof.Machine

/-! SUPPORT. A kernel step at an instruction's bytes: the decoder reads back what the encoder
writes, and the fetch gets the bytes that stand in memory (20_memory.md R72, R85; 30_encoding.md
R130 to R155; 60_exceptions.md R448). -/

namespace Sys2Proof

open Machine

/-! ### The fields of an encoding -/

@[simp] theorem hiNib_append (x y : Nib) : hiNib (x ++ y) = x := by
  apply BitVec.eq_of_getLsbD_eq
  intro i hi
  simp only [hiNib, BitVec.getLsbD_extractLsb', BitVec.getLsbD_append]
  interval_cases i <;> rfl

@[simp] theorem loNib_append (x y : Nib) : loNib (x ++ y) = y := by
  apply BitVec.eq_of_getLsbD_eq
  intro i hi
  simp only [loNib, BitVec.getLsbD_extractLsb', BitVec.getLsbD_append]
  interval_cases i <;> rfl

theorem hiNib_append_loNib (b : Byte) : hiNib b ++ loNib b = b := by
  revert b
  decide

theorem halfOf_halfBytes (h : Half) : halfOf (h.extractLsb' 8 8) (h.extractLsb' 0 8) = h := by
  apply BitVec.eq_of_getLsbD_eq
  intro i hi
  simp only [halfOf, BitVec.getLsbD_append, BitVec.getLsbD_extractLsb']
  interval_cases i <;> rfl

/-! ### Decoding what was encoded -/

/-- A register-format instruction decodes as its opcode and fields say. -/
theorem decode_regWord {op : Byte} {x y : Nib} {i : Instr} (h0 : mbit op 0 = false)
    (h : decodeReg op x y = i) : decode (regWord op x y) = .ok (i, []) := by
  simp only [decode, regWord, h0, Bool.false_eq_true, if_false, hiNib_append, loNib_append, h]

/-- A memory-format instruction decodes as its opcode, fields and displacement say; its bytes are
those that the encoder writes for an undefined opcode. -/
theorem decode_memBytes {op : Byte} {x y : Nib} {d : Disp} {i : Instr}
    (ho : mbit op 0 = true) (hl : longDisp op = d.isLong) (h : decodeMem op x y d = i) :
    decode (encode (.undefinedMem op x y d)) = .ok (i, []) := by
  cases d with
  | short v =>
    have hl : longDisp op = false := hl
    simp only [encode, decode, halfBytes, ho, hl, if_true, Bool.false_eq_true, if_false,
      hiNib_append, loNib_append, halfOf_halfBytes, h]
  | long w =>
    have hl : longDisp op = true := hl
    simp only [encode, decode, wordBytes, ho, hl, if_true, hiNib_append, loNib_append,
      wordOf_bytes, h]

/-- A memory-format instruction whose rows and column the map gives. -/
theorem decode_memWord {short long low : Nib} {x y : Nib} {d : Disp} {i : Instr}
    (hs : mbit (short ++ low) 0 = true ∧ longDisp (short ++ low) = false)
    (hl : mbit (long ++ low) 0 = true ∧ longDisp (long ++ low) = true)
    (h1 : decodeMem (short ++ low) x y d = i) (h2 : decodeMem (long ++ low) x y d = i) :
    decode (memWord short long low x y d) = .ok (i, []) := by
  cases d with
  | short v => exact decode_memBytes (d := .short v) hs.1 hs.2 h1
  | long w => exact decode_memBytes (d := .long w) hl.1 hl.2 h2

/-- An empty cell of the register format is in no row of the map (30_encoding.md R155). -/
theorem decodeReg_undefined {op : Byte} {x y : Nib} (h : undefinedRegOp op y = true) :
    mbit op 0 = false ∧ decodeReg op x y = .undefinedReg op x y := by
  have empty : ∀ o : Byte, undefinedRegOps.contains o = true →
      mbit o 0 = false ∧ o ≠ 0x4C#8 ∧ (regOpcodes.lookup o).isNone = true := by decide
  have unlisted : ∀ n : Nib, undefinedSubops.contains n = true →
      (maintSubops.lookup n).isNone = true := by decide
  simp only [undefinedRegOp, Bool.or_eq_true, Bool.and_eq_true, beq_iff_eq] at h
  rcases h with h | ⟨rfl, h⟩
  · obtain ⟨h0, hne, hnone⟩ := empty op h
    exact ⟨h0, by rw [decodeReg, if_neg hne, Option.isNone_iff_eq_none.1 hnone]⟩
  · exact ⟨rfl, by rw [decodeReg, if_pos rfl, Option.isNone_iff_eq_none.1 (unlisted y h)]⟩

/-- An empty cell of the memory format is in no column of its row. -/
theorem decodeMem_undefined {op : Byte} {x y : Nib} {d : Disp} (h : undefinedMemOp op = true) :
    mbit op 0 = true ∧ decodeMem op x y d = .undefinedMem op x y d := by
  have empty : ∀ o : Byte, undefinedMemOp o = true →
      mbit o 0 = true ∧ ((memColumns o).lookup (loNib o)).isNone = true := by decide
  obtain ⟨h0, hnone⟩ := empty op h
  exact ⟨h0, by rw [decodeMem, Option.isNone_iff_eq_none.1 hnone]⟩

/-- The encoding of a well-formed instruction decodes to it, by the format of its constructor. -/
theorem decode_encode_self {i : Instr} (h : i.wf = true) : decode (encode i) = .ok (i, []) := by
  cases i with
  | move | neg | add | sub | mpy | div | rem | not | or | xor | and | cbit | sbit | tbit | chk | nop
  | movei | addi | subi | mpyi | noti | andi | chki | fixt | fixr | rneg | radd | rsub | rmpy | rdiv
  | makerd | lcomp | float | rcomp | eadd | esub | empy | ediv | dfixt | dfixr | drneg | dradd
  | drsub | drmpy | drdiv | makedr | dcomp | dfloat | drcomp | trap | sus | lus | rum | ldregs
  | trans | dirt | movesr | movers | read | write | callr | ret | seb | seh
  | elogr | elogw | twrited | flush | trapexit | itest | machineid | version | creg | rdlog =>
    exact decode_regWord rfl rfl
  | testGt x b | testLt x b | testEq x b | testLe x b | testGe x b | testNe x b | lsl x b | lsr x b
  | asl x b | asr x b | dlsl x b | dlsr x b | csl x b =>
    cases b <;> exact decode_regWord rfl rfl
  | kcall num =>
    have hnum : decode (regWord 0x5B (hiNib num) (loNib num)) = .ok (.kcall num, []) :=
      decode_regWord rfl (congrArg Instr.kcall (hiNib_append_loNib num))
    rw [regWord, hiNib_append_loNib] at hnum
    exact hnum
  | br | brLt | brGe | call | loop =>
    exact decode_memWord ⟨rfl, rfl⟩ ⟨rfl, rfl⟩ rfl rfl
  | brGt x b d | brEq x b d | brLe x b d | brNe x b d =>
    cases b <;> exact decode_memWord ⟨rfl, rfl⟩ ⟨rfl, rfl⟩ rfl rfl
  | storeb x m | storeh x m | store x m | stored x m | loadb x m | loadh x m | load x m | loadd x m
  | laddr x m | loadbp x m | loadhp x m | loadp x m | loaddp x m | laddrp x m =>
    obtain ⟨_ | _, y, d⟩ := m <;> exact decode_memWord ⟨rfl, rfl⟩ ⟨rfl, rfl⟩ rfl rfl
  | undefinedReg op x y =>
    obtain ⟨h0, hdec⟩ := decodeReg_undefined (x := x) h
    exact decode_regWord h0 hdec
  | undefinedMem op x y d =>
    simp only [Instr.wf, wfUndefinedMem, Bool.and_eq_true, beq_iff_eq] at h
    obtain ⟨h0, hdec⟩ := decodeMem_undefined (x := x) (y := y) (d := d) h.1
    exact decode_memBytes h0 h.2.symm hdec

/-- Bytes that are one instruction and no more are as many as their first one says
(30_encoding.md R131). -/
theorem length_of_decode {bs : List Byte} {i : Instr} (h : decode bs = .ok (i, [])) :
    bs.length = instrLength (bs.headD 0) := by
  unfold decode at h
  split at h
  · split at h
    · split at h
      · split at h
        · cases h
          simp [instrLength, *]
        · cases h
      · split at h
        · cases h
          simp [instrLength, *]
        · cases h
    · cases h
      simp [instrLength, *]
  · cases h

end Sys2Proof

namespace Sys2Proof.Machine

/-! ### Fetching bytes that stand in memory -/

/-- In kernel mode a fetch of the `n` bytes at an address gets those of memory: they exist, no DMA
falls before an access, no word of them shows an error and no other copy of them is cached. -/
structure State.Fetchable (s : State) (a n : Nat) : Prop where
  kernel : s.mode = .kernel
  dma : s.dmaTurns = []
  fits : a + n ≤ Config.memSize
  errors : ∀ w ∈ s.badWords, w < a / 4 ∨ (a + n - 1) / 4 < w
  copies : ∀ l ∈ s.stale .code, ∀ k < n, l.holds (a + k) = false

/-- A part of the bytes. -/
theorem State.Fetchable.part {s : State} {a n b m : Nat} (h : s.Fetchable a n) (hm : 0 < m)
    (h1 : a ≤ b) (h2 : b + m ≤ a + n) : s.Fetchable b m where
  kernel := h.kernel
  dma := h.dma
  fits := h2.trans h.fits
  errors w hw := by
    have := h.errors w hw
    omega
  copies l hl k hk := by
    have := h.copies l hl (b - a + k) (by omega)
    rwa [show a + (b - a + k) = b + k by omega] at this

/-- The bytes of memory from an address on. -/
def Memory.bytesAt (m : Memory) (a n : Nat) : List Byte :=
  (List.range n).map fun k => m.read (a + k)

theorem Memory.bytesAt_add_two (m : Memory) (a n : Nat) :
    m.bytesAt a (n + 2) = m.bytesAt a 2 ++ m.bytesAt (a + 2) n := by
  simp only [Memory.bytesAt, Nat.add_comm n 2, List.range_add, List.map_append, List.map_map]
  congr 2
  funext k
  simp only [Function.comp, Nat.add_assoc]

/-- A halfword that stands in memory. -/
theorem fetchHalf_bytes {s : State} {va : Word} (h : s.Fetchable va.toNat 2) (draw : Nat) :
    fetchHalf draw va s = .ok (s.mem.bytesAt va.toNat 2, false) s := by
  have herr : readFails va.toNat 2 s = false := by
    rw [readFails, List.any_eq_false]
    intro w hw
    have := h.errors w hw
    simp only [Bool.and_eq_true, decide_eq_true_eq]
    omega
  have hbytes : s.cachedBytes draw .code va.toNat 2 = s.mem.bytesAt va.toNat 2 :=
    List.map_congr_left fun k hk => cachedByte_of_not_held
      (fun l hl => h.copies l hl k (List.mem_range.1 hk)) draw
  simp only [fetchHalf, translate, h.kernel, Res.bind_ok, (realExists_iff _ _).2 h.fits, if_true,
    busRead, dmaTurn_of h.dma, lineFilled_code, parityChecked, herr, Bool.false_eq_true, if_false,
    hbytes]

/-- The next halfword of bytes that exist is two bytes on. -/
theorem State.Fetchable.toNat_add_two {s : State} {va : Word} {n : Nat}
    (h : s.Fetchable va.toNat n) (hn : 2 ≤ n) : (va + 2).toNat = va.toNat + 2 :=
  toNat_add_of_fits (n := 0) ((Nat.add_le_add_left hn _).trans h.fits)

/-- The halfwords that follow. -/
theorem fetchRest_bytes {s : State} (n : Nat) {va : Word}
    (h : 0 < n → s.Fetchable va.toNat (2 * n)) (draw : Nat) :
    fetchRest draw n va s = .ok (s.mem.bytesAt va.toNat (2 * n), false) s := by
  induction n generalizing va with
  | zero => rfl
  | succ n ih =>
    have h := h (Nat.succ_pos n)
    have hnext := h.toNat_add_two (by omega)
    have hrest := ih (va := va + 2) fun hn =>
      h.part (by omega) (by omega) (by omega)
    rw [fetchRest, fetchHalf_bytes (h.part (by omega) le_rfl (by omega))]
    simp only [Res.bind_ok, Bool.false_eq_true, if_false, hrest, hnext]
    rw [Nat.mul_succ, Memory.bytesAt_add_two _ _ (2 * n)]

/-- The fetch of an instruction whose bytes stand in memory. -/
theorem fetch_bytes {s : State} {bs : List Byte} (hpc : s.pc.toNat % 2 = 0)
    (hlen : bs.length = instrLength (bs.headD 0))
    (hbs : s.mem.bytesAt s.pc.toNat bs.length = bs) (h : s.Fetchable s.pc.toNat bs.length) :
    ∃ n, fetch s = .ok (.bytes bs) { s with draws := n } := by
  obtain ⟨n, hn⟩ := stamped_draws s .code
  have ht : ({ s with draws := n } : State).Fetchable s.pc.toNat bs.length :=
    ⟨h.kernel, h.dma, h.fits, h.errors, h.copies⟩
  obtain ⟨m, hm, hhalf⟩ : ∃ m, bs.length = 2 * m + 2 ∧ instrLength (bs.headD 0) / 2 - 1 = m := by
    have hsizes : instrLength (bs.headD 0) = 2 ∨ instrLength (bs.headD 0) = 4 ∨
        instrLength (bs.headD 0) = 6 := instrLength_cases _
    exact ⟨_, by omega, rfl⟩
  rw [hm] at ht hbs
  rw [Memory.bytesAt_add_two] at hbs
  have hhead : (s.mem.bytesAt s.pc.toNat 2).headD 0 = bs.headD 0 := by
    rw [← hbs]
    rfl
  have hnext := ht.toNat_add_two (by omega)
  have hfirst := fetchHalf_bytes (ht.part (b := s.pc.toNat) (m := 2) (by omega) le_rfl (by omega))
    s.draws
  have hrest := fetchRest_bytes (s := { s with draws := n }) m (va := s.pc + 2)
    (fun hpos => ht.part (by omega) (by omega) (by omega)) s.draws
  refine ⟨n, ?_⟩
  simp only [fetch, (oddAddress_eq_false _).2 hpc, Bool.false_eq_true, if_false, hn, hfirst,
    Res.bind_ok, hhead, hhalf, hrest, hnext, hbs]

/-! ### The step -/

/-- In running kernel mode with nothing pending a step runs the instruction. -/
theorem step_kernel {s : State} (hm : s.mode = .kernel) (hp : s.paused = false)
    (ha : s.arrivals = []) (hfail : s.powerFailPending = false)
    (hswitch : s.switch0Pending = false) (hparity : s.parityPending = []) :
    step s = runInstruction s := by
  rw [step_of_no_arrivals ha, afterBoundary, pendingInterrupt_kernel hm hp]
  simp [hfail, hswitch, hparity, pick, hp]

/-- Settles O6: nothing is taken at the boundary, the fetch gets the instruction's bytes, and they
decode to it. -/
theorem kernelStepRunsInstruction : Obligations.KernelStepRunsInstruction := by
  intro s i hwf hm hp ha hd hfail hswitch hparity hpc hfits hmem hcopies herrors
  have hdec := decode_encode_self hwf
  have hbs : s.mem.bytesAt s.pc.toNat (encode i).length = encode i :=
    List.ext_getElem (by simp [Memory.bytesAt]) fun k _ hk => by
      simpa [Memory.bytesAt] using hmem k hk
  obtain ⟨n, hfetch⟩ :=
    fetch_bytes hpc (length_of_decode hdec) hbs ⟨hm, hd, hfits, herrors, hcopies⟩
  refine ⟨n, (step_kernel hm hp ha hfail hswitch hparity).trans ?_⟩
  simp only [runInstruction, hfetch, Res.out_ok, hdec]

end Sys2Proof.Machine

/-! SUPPORT. Decoding and encoding are inverse to each other: what stands after an instruction stays,
each cell of the opcode map is encoded as the map says, and too few bytes are the only ones that do
not decode (30_encoding.md R130 to R155). -/

namespace Sys2Proof

open Machine

/-! ### Bytes after an instruction -/

/-- The bytes that follow an instruction stay behind it. -/
theorem decode_append {bs rest : List Byte} {i : Instr} (h : decode bs = .ok (i, [])) :
    decode (bs ++ rest) = .ok (i, rest) := by
  unfold decode at h
  split at h
  · next op f tail =>
    split at h
    · next h0 =>
      split at h
      · next hlong =>
        split at h <;> cases h
        simp only [decode, h0, hlong, if_true, List.cons_append, List.nil_append]
      · next hshort =>
        split at h <;> cases h
        simp only [decode, h0, if_true, if_neg hshort, List.cons_append, List.nil_append]
    · next h0 =>
      cases h
      simp only [decode, if_neg h0, List.cons_append, List.nil_append]
  · cases h

/-- Settles O1: the encoding decodes by the format of its constructor, and the bytes after it
stay. -/
theorem decodeEncode : Obligations.DecodeEncode :=
  fun _ _ hwf => decode_append (decode_encode_self hwf)

/-! ### The cells of the register format -/

/-- A cell of the register format holds well-formed instructions, encoded with its opcode. -/
def RegCell (c : Byte × (Nib → Nib → Instr)) : Prop :=
  ∀ x y, (c.2 x y).wf = true ∧ encode (c.2 x y) = regWord c.1 x y

/-- A subop of opcode 4C. -/
def MaintCell (c : Nib × (Reg → Instr)) : Prop :=
  ∀ x, (c.2 x).wf = true ∧ encode (c.2 x) = regWord 0x4C x c.1

theorem regCell_of_mem_regOpcodes : ∀ c ∈ regOpcodes, RegCell c := by
  simp only [regOpcodes, opcodeRows01, opcodeRows23, opcodeRows45, opcodeRows67, List.cons_append,
    List.nil_append]
  repeat refine List.forall_mem_cons.2 ⟨fun _ _ => ⟨rfl, rfl⟩, ?_⟩
  exact List.forall_mem_nil _

theorem maintCell_of_mem_maintSubops : ∀ c ∈ maintSubops, MaintCell c := by
  unfold maintSubops
  repeat refine List.forall_mem_cons.2 ⟨fun _ => ⟨rfl, rfl⟩, ?_⟩
  exact List.forall_mem_nil _

/-- What a list of pairs gives for a key is in it beside that key. -/
theorem mem_of_lookup {α β : Type} [BEq α] [LawfulBEq α] {l : List (α × β)} {k : α} {v : β}
    (h : l.lookup k = some v) : (k, v) ∈ l := by
  obtain ⟨l₁, l₂, rfl, -⟩ := List.lookup_eq_some_iff.1 h
  exact List.mem_append_right _ List.mem_cons_self

/-- A register-format opcode that the map does not list is one of its empty cells
(30_encoding.md R150, R155). -/
theorem undefinedRegOps_of_unlisted : ∀ op : Byte, mbit op 0 = false → op ≠ 0x4C#8 →
    (regOpcodes.lookup op).isNone = true → undefinedRegOps.contains op = true := by
  decide

theorem undefinedSubops_of_unlisted : ∀ n : Nib, (maintSubops.lookup n).isNone = true →
    undefinedSubops.contains n = true := by
  decide

/-- A register-format opcode and its fields are the encoding of what they decode to. -/
theorem encode_decodeReg {op : Byte} (h0 : mbit op 0 = false) (x y : Nib) :
    (decodeReg op x y).wf = true ∧ encode (decodeReg op x y) = regWord op x y := by
  unfold decodeReg
  split_ifs with hmaint
  · subst hmaint
    split
    · next f hf => exact maintCell_of_mem_maintSubops _ (mem_of_lookup hf) x
    · next hnone =>
      have hempty := undefinedSubops_of_unlisted y (Option.isNone_iff_eq_none.2 hnone)
      exact ⟨by rw [Instr.wf, undefinedRegOp, hempty]; rfl, rfl⟩
  · split
    · next f hf => exact regCell_of_mem_regOpcodes _ (mem_of_lookup hf) x y
    · next hnone =>
      have hempty := undefinedRegOps_of_unlisted op h0 hmaint (Option.isNone_iff_eq_none.2 hnone)
      exact ⟨by rw [Instr.wf, undefinedRegOp, hempty]; rfl, rfl⟩

/-! ### The cells of the memory format -/

/-- A column of the memory format holds well-formed instructions, encoded in its two rows. -/
def MemColumn (short long : Nib) (c : Nib × (Nib → Nib → Disp → Instr)) : Prop :=
  ∀ x y d, (c.2 x y d).wf = true ∧ encode (c.2 x y d) = memWord short long c.1 x y d

theorem memColumn_of_mem_branchColumns : ∀ c ∈ branchColumns, MemColumn 0x8 0x9 c := by
  unfold branchColumns
  repeat refine List.forall_mem_cons.2 ⟨fun _ _ _ => ⟨rfl, rfl⟩, ?_⟩
  exact List.forall_mem_nil _

/-- The direct and the indexed cell of an instruction that is encoded as a memory reference. -/
theorem memColumn_of_mem_memCells {short long low : Nib} {f : Reg → MemRef → Instr}
    (hf : ∀ x m, (f x m).wf = true ∧ encode (f x m) = memRefWord short long low x m) :
    ∀ c ∈ memCells low f, MemColumn short long c := by
  have direct : MemColumn short long (low, _) := fun x y d => hf x ⟨.direct, y, d⟩
  have indexed : MemColumn short long (low + 1, _) := fun x y d => hf x ⟨.indexed, y, d⟩
  exact List.forall_mem_cons.2 ⟨direct, List.forall_mem_singleton.2 indexed⟩

theorem memColumn_of_mem_storeColumns : ∀ c ∈ storeColumns, MemColumn 0xA 0xB c := by
  simp only [storeColumns, List.forall_mem_append, and_assoc]
  refine ⟨?_, ?_, ?_, ?_⟩ <;> exact memColumn_of_mem_memCells fun _ _ => ⟨rfl, rfl⟩

theorem memColumn_of_mem_dataLoadColumns : ∀ c ∈ dataLoadColumns, MemColumn 0xC 0xD c := by
  simp only [dataLoadColumns, List.forall_mem_append, and_assoc]
  refine ⟨?_, ?_, ?_, ?_, ?_⟩ <;> exact memColumn_of_mem_memCells fun _ _ => ⟨rfl, rfl⟩

theorem memColumn_of_mem_codeLoadColumns : ∀ c ∈ codeLoadColumns, MemColumn 0xE 0xF c := by
  simp only [codeLoadColumns, List.forall_mem_append, and_assoc]
  refine ⟨?_, ?_, ?_, ?_, ?_⟩ <;> exact memColumn_of_mem_memCells fun _ _ => ⟨rfl, rfl⟩

/-- The short and the long row of a memory-format opcode's instructions, by `op<1..2>`
(30_encoding.md R136, R151, R152). -/
def opcodeRows (op : Byte) : Nib × Nib :=
  match mbit op 1, mbit op 2 with
  | false, false => (0x8, 0x9)
  | false, true => (0xA, 0xB)
  | true, false => (0xC, 0xD)
  | true, true => (0xE, 0xF)

/-- An opcode is in the row of its displacement's length, at its low nibble. -/
theorem opcodeRows_append : ∀ op : Byte, mbit op 0 = true →
    (if longDisp op then (opcodeRows op).2 else (opcodeRows op).1) ++ loNib op = op := by
  decide

theorem memColumn_of_mem_memColumns (op : Byte) :
    ∀ c ∈ memColumns op, MemColumn (opcodeRows op).1 (opcodeRows op).2 c := by
  simp only [memColumns, opcodeRows]
  cases mbit op 1 <;> cases mbit op 2
  · exact memColumn_of_mem_branchColumns
  · exact memColumn_of_mem_storeColumns
  · exact memColumn_of_mem_dataLoadColumns
  · exact memColumn_of_mem_codeLoadColumns

/-- A word in the rows of an opcode, at its low nibble, starts with that opcode. -/
theorem memWord_opcodeRows {op : Byte} {d : Disp} (h0 : mbit op 0 = true)
    (hl : longDisp op = d.isLong) (x y : Nib) :
    memWord (opcodeRows op).1 (opcodeRows op).2 (loNib op) x y d =
      encode (.undefinedMem op x y d) := by
  have hop := opcodeRows_append op h0
  rw [hl] at hop
  cases d with
  | short v => exact congrArg (· :: (x ++ y) :: halfBytes v) hop
  | long w => exact congrArg (· :: (x ++ y) :: wordBytes w) hop

/-- A memory-format opcode in no column of its row is one of the map's empty cells
(30_encoding.md R151, R152, R155). -/
theorem undefinedMemOp_of_unlisted : ∀ op : Byte, mbit op 0 = true →
    ((memColumns op).lookup (loNib op)).isNone = true → undefinedMemOp op = true := by
  decide

/-- A memory-format opcode with its fields and displacement is the encoding of what it decodes to. -/
theorem encode_decodeMem {op : Byte} {d : Disp} (h0 : mbit op 0 = true)
    (hl : longDisp op = d.isLong) (x y : Nib) :
    (decodeMem op x y d).wf = true ∧
      encode (decodeMem op x y d) = encode (.undefinedMem op x y d) := by
  unfold decodeMem
  split
  · next f hf =>
    obtain ⟨hwf, henc⟩ := memColumn_of_mem_memColumns op _ (mem_of_lookup hf) x y d
    exact ⟨hwf, henc.trans (memWord_opcodeRows h0 hl x y)⟩
  · next hnone =>
    have hempty := undefinedMemOp_of_unlisted op h0 (Option.isNone_iff_eq_none.2 hnone)
    exact ⟨by simp [Instr.wf, wfUndefinedMem, hempty, hl], rfl⟩

/-! ### Encoding what was decoded -/

theorem halfBytes_halfOf (b0 b1 : Byte) : halfBytes (halfOf b0 b1) = [b0, b1] := by
  simp only [halfBytes, halfOf, List.cons.injEq, and_true]
  refine ⟨?_, ?_⟩
  all_goals
    apply BitVec.eq_of_getLsbD_eq
    intro i hi
    simp only [BitVec.getLsbD_append, BitVec.getLsbD_extractLsb', hi, decide_true, Bool.true_and]
    interval_cases i <;> rfl

/-- Bytes that decode start with an opcode, its fields and, in the memory format, a displacement of
the length that the opcode fixes (30_encoding.md R132 to R134). -/
theorem decode_ok {bytes rest : List Byte} {i : Instr} (h : decode bytes = .ok (i, rest)) :
    (∃ op x y, mbit op 0 = false ∧ i = decodeReg op x y ∧ bytes = regWord op x y ++ rest) ∨
    ∃ op x y d, mbit op 0 = true ∧ longDisp op = d.isLong ∧ i = decodeMem op x y d ∧
      bytes = encode (.undefinedMem op x y d) ++ rest := by
  unfold decode at h
  split at h
  · next op f tail =>
    split at h
    · next h0 =>
      right
      split at h
      · next hlong =>
        split at h <;> cases h
        rename_i d0 d1 d2 d3
        refine ⟨op, hiNib f, loNib f, .long (wordOf d0 d1 d2 d3), h0, hlong, rfl, ?_⟩
        simp only [encode, hiNib_append_loNib, wordBytes_wordOf, List.cons_append, List.nil_append]
      · next hshort =>
        split at h <;> cases h
        rename_i d0 d1
        refine ⟨op, hiNib f, loNib f, .short (halfOf d0 d1), h0,
          Bool.eq_false_of_not_eq_true hshort, rfl, ?_⟩
        simp only [encode, hiNib_append_loNib, halfBytes_halfOf, List.cons_append, List.nil_append]
    · next h0 =>
      cases h
      refine .inl ⟨op, hiNib f, loNib f, Bool.eq_false_of_not_eq_true h0, rfl, ?_⟩
      simp only [regWord, hiNib_append_loNib, List.cons_append, List.nil_append]
  · cases h

/-- Settles O2: by format, and each cell of the map is encoded with its own opcode. -/
theorem encodeDecode : Obligations.EncodeDecode := by
  intro bytes rest i h
  rcases decode_ok h with ⟨op, x, y, h0, rfl, rfl⟩ | ⟨op, x, y, d, h0, hl, rfl, rfl⟩
  · obtain ⟨hwf, henc⟩ := encode_decodeReg h0 x y
    exact ⟨hwf, congrArg (· ++ rest) henc⟩
  · obtain ⟨hwf, henc⟩ := encode_decodeMem h0 hl x y
    exact ⟨hwf, congrArg (· ++ rest) henc⟩

/-! ### The length of an instruction -/

/-- An encoding starts with the opcode that fixes its length. -/
theorem headD_encode {op : Byte} {tail rest : List Byte} {i : Instr} (hwf : i.wf = true)
    (h : encode i ++ rest = op :: tail) : (encode i).headD 0 = op := by
  have hlen := length_of_decode (decode_encode_self hwf)
  cases hi : encode i with
  | nil =>
    rw [hi] at hlen
    exact absurd hlen (by decide)
  | cons o os =>
    rw [hi] at h
    exact (List.cons.inj h).1

/-- An instruction that bytes decode to is as long as their first one says, and the bytes after it
are left (30_encoding.md R131). -/
theorem length_encode_of_decode {op : Byte} {tail rest : List Byte} {i : Instr}
    (h : decode (op :: tail) = .ok (i, rest)) :
    (encode i).length = instrLength op ∧ rest = (op :: tail).drop (instrLength op) := by
  obtain ⟨hwf, henc⟩ := encodeDecode _ _ _ h
  have hlen := length_of_decode (decode_encode_self hwf)
  rw [headD_encode hwf henc] at hlen
  exact ⟨hlen, by rw [← henc, ← hlen, List.drop_left]⟩

/-- Only bytes that are fewer than their first one says do not decode (30_encoding.md R131, R135). -/
theorem length_of_decode_error {bs : List Byte} {e : DecodeError} (h : decode bs = .error e) :
    bs.length < instrLength (bs.headD 0) := by
  unfold decode at h
  split at h
  · next op f tail =>
    split at h
    · next h0 =>
      split at h
      · next hlong =>
        split at h
        · cases h
        · next hfew =>
          have htail : tail.length < 4 := by
            rcases tail with _ | ⟨_, _ | ⟨_, _ | ⟨_, _ | ⟨_, _⟩⟩⟩⟩
            · decide
            · simp
            · simp
            · simp
            · exact absurd rfl (hfew _ _ _ _ _)
          simp only [List.headD_cons, List.length_cons, instrLength, h0, hlong, if_true]
          omega
      · next hshort =>
        split at h
        · cases h
        · next hfew =>
          have htail : tail.length < 2 := by
            rcases tail with _ | ⟨_, _ | ⟨_, _⟩⟩
            · decide
            · simp
            · exact absurd rfl (hfew _ _ _)
          simp only [List.headD_cons, List.length_cons, instrLength, h0, if_true, hshort,
            Bool.false_eq_true, if_false]
          omega
    · cases h
  · next hfew =>
    have hbs : bs.length < 2 := by
      rcases bs with _ | ⟨_, _ | ⟨_, _⟩⟩
      · decide
      · simp
      · exact absurd rfl (hfew _ _ _)
    have := instrLength_cases (bs.headD 0)
    omega

/-- Settles O3: bytes that decode are as many as the opcode says or more, the others are fewer. -/
theorem lengthByOpcode : Obligations.LengthByOpcode := by
  intro op tail len
  have hlen : instrLength op = len := instrLength_eq op
  have hpos : 0 < len := by
    have := instrLength_cases op
    omega
  cases hd : decode (op :: tail) with
  | ok r =>
    obtain ⟨i, rest⟩ := r
    obtain ⟨henc, hrest⟩ := length_encode_of_decode hd
    rw [hlen] at henc hrest
    have henough : len ≤ tail.length + 1 := by
      have hbytes := congrArg List.length (encodeDecode _ _ _ hd).2
      rw [List.length_append, List.length_cons] at hbytes
      omega
    rw [hrest, List.drop_cons hpos]
    exact ⟨fun _ => ⟨i, rfl, henc⟩, fun h => absurd henough (by omega)⟩
  | error e =>
    have hshort : tail.length + 1 < instrLength op := length_of_decode_error hd
    exact ⟨fun h => absurd h (by omega), fun _ => by cases e; rfl⟩

/-- Settles O4: each instruction's bytes, read by the decoder. -/
theorem wordsDecode : Obligations.WordsDecode :=
  ⟨rfl, rfl, rfl, rfl, rfl, rfl, rfl, rfl, rfl, rfl, rfl, rfl⟩

end Sys2Proof

/-! SUPPORT. Undefined instructions: what an event entry leaves, and the operand that the format bits
of an undefined memory-format opcode describe (60_exceptions.md R430, R431, R442; 30_encoding.md
R136, R155). -/

namespace Sys2Proof.Machine

/-! ### What an event entry leaves -/

/-- The state that an entry saves in, continued at the handler, is the one R430 and R431 describe. -/
theorem saveEvent_entered (e : Event) (s : State) (v : Word) :
    s.entered e v { saveEvent e s with mode := .kernel, paused := false, pc := v } where
  pc := rfl
  mode := rfl
  running := rfl
  fromUser hm :=
    ⟨(saveEvent_sr e s 15).trans (by simp [hm]), (saveEvent_sr e s 0).trans (by simp [hm])⟩
  fromKernel hm :=
    ⟨(saveEvent_sr e s 15).trans (by simp [hm]), (saveEvent_sr e s 0).trans (by simp [hm])⟩
  word1 := saveEvent_sr e s 1
  word2 := saveEvent_sr e s 2
  word3 := saveEvent_sr e s 3
  others j h4 h14 := by
    have hne (i : SReg) (hi : i.toNat < 4 ∨ i.toNat = 15) : j ≠ i := by
      rintro rfl
      omega
    refine (saveEvent_sr e s j).trans ?_
    rw [if_neg (hne 0 (by decide)), if_neg (hne 1 (by decide)), if_neg (hne 2 (by decide)),
      if_neg (hne 3 (by decide)), if_neg fun h => hne 15 (by decide) h.1]
  frame := by rw [saveEvent_frame]

/-- An event with a vector in the CCB is entered. -/
theorem enterEvent_entered {e : Event} {s : State} {v : Word} (h : s.vectorAt e.off v) :
    ∃ t, enterEvent e s = .next t ∧ s.entered e v t :=
  ⟨_, enterEvent_of h, saveEvent_entered e s v⟩

/-- The CCB is read from registers and memory: a free value that is used up changes nothing in it. -/
theorem State.vectorAt.drawn {s : State} {off v : Word} (h : s.vectorAt off v) :
    s.drawn.vectorAt off v :=
  ⟨h.calm, h.base, h.fits, h.word, h.even⟩

/-! ### The operand of an undefined opcode -/

theorem opcodeSpace_eq (op : Byte) :
    opcodeSpace op = if op.getMsbD 1 = op.getMsbD 2 then .code else .data := by
  have h1 : mbit op 1 = op.getMsbD 1 := mbit_eq_getMsbD op (by decide)
  have h2 : mbit op 2 = op.getMsbD 2 := mbit_eq_getMsbD op (by decide)
  simp only [opcodeSpace, h1, h2, beq_iff_eq]

/-- The index bit is bit 7, in rows A to F only (30_encoding.md R136; log entry 50). -/
theorem opcodeMemRef_eq (op : Byte) (y : Nib) (d : Disp) :
    opcodeMemRef op y d =
      { form := if (op.getMsbD 1 || op.getMsbD 2) && op.getMsbD 7 then .indexed else .direct
        y := y, disp := d } := by
  have h1 : mbit op 1 = op.getMsbD 1 := mbit_eq_getMsbD op (by decide)
  have h2 : mbit op 2 = op.getMsbD 2 := mbit_eq_getMsbD op (by decide)
  have h7 : mbit op 7 = op.getMsbD 7 := mbit_eq_getMsbD op (by decide)
  simp only [opcodeMemRef, hasIndexBit, h1, h2, h7]

theorem trapSegment_user {s : State} (hm : s.mode = .user) (sp : Space) :
    trapSegment sp s = (mfield (s.sr (if sp = .code then 8 else 9)) 16 31).setWidth 32 := by
  rw [trapSegment, hm, segment_eq]
  rfl

/-- Settles O55: both formats enter the event of vector 404; in kernel mode the segment word uses up
a free value. -/
theorem illegalInstruction : Obligations.IllegalInstruction := by
  intro s op x y d v hv e sp ea
  have hsp : opcodeSpace op = sp := opcodeSpace_eq op
  have hea : effectiveAddress (opcodeSpace op) (opcodeMemRef op y d) s = ea := by
    rw [hsp, opcodeMemRef_eq]
  have hmem (w : Word) (hw : trapSegment sp s = w) :
      exec (.undefinedMem op x y d) s = enterEvent (e w ea) (segmentDrawn s) := by
    rw [← hw, ← hea, ← hsp]
    rfl
  refine ⟨enterEvent_entered (e := e _ _) hv, fun hm => ?user, fun hm => ?kernel⟩
  case user =>
    have hdrawn : segmentDrawn s = s := by rw [segmentDrawn, hm]
    rw [hmem _ (trapSegment_user hm sp), hdrawn]
    exact enterEvent_entered (e := e _ _) hv
  case kernel =>
    have hdrawn : segmentDrawn s = s.drawn := by rw [segmentDrawn, hm]
    refine ⟨trapSegment sp s, ?_⟩
    rw [hmem _ rfl, hdrawn]
    exact enterEvent_entered (e := e _ _) hv.drawn

end Sys2Proof.Machine

/-! SUPPORT. Integer arithmetic: arithmetic conditions, delivered sums, and the three outcomes of a
division (41_integer_logical.md R201 to R208, R221 to R226, R232, R233; 60_exceptions.md R446). -/

namespace Sys2Proof.Machine

/-! ### Arithmetic conditions -/

section Conditions

variable {n : Nat} {op : Byte} {x y : Nib} {s : State}

theorem arithCondition_off (hn : n < 32) (h : s.tw.getMsbD n = false) :
    arithCondition n op x y s = .next (s.advance 2) := by
  rw [arithCondition, mbit_eq_getMsbD _ hn, h]
  rfl

theorem arithCondition_on (hn : n < 32) (h : s.tw.getMsbD n = true) :
    arithCondition n op x y s = raiseArith op x y (BitVec.ofNat 32 n) s := by
  rw [arithCondition, mbit_eq_getMsbD _ hn, h]
  rfl

end Conditions

/-! ### Delivered sums -/

section Deliver

variable {op : Byte} {x y : Nib} {v : Int} {w : Word} {ov : Bool} {s : State}

/-- The word and the overflow of a true result, in the terms a statement gives them. -/
theorem deliver_eq_next (hw : wrap v = w) (ho : ov = overflows v)
    (h : s.tw.getMsbD 16 = true → ov = false) :
    deliver op x y v s = .next ((s.setReg x w).advance 2) := by
  subst hw ho
  exact deliver_goes_on h

/-- The event is that of the state before the delivery, which has the same program counter. -/
theorem deliver_eq_enterEvent (htw : s.tw.getMsbD 16 = true) (hw : wrap v = w)
    (ho : ov = overflows v) (h : ov = true) :
    deliver op x y v s =
      enterEvent (opcodeTrap ccbArithmetic op (fieldsWord x y) 16 s) (s.setReg x w) := by
  subst hw ho
  exact deliver_traps htw h

end Deliver

/-- The one word without a negative. -/
theorem eq_least_eq_overflows_neg (b : Word) :
    decide (b = 0x80000000#32) = overflows (-b.toInt) := by
  have hleast : (0x80000000#32).toInt = -(2 ^ 31) := by decide
  have hlow : -2 ^ 31 ≤ b.toInt := b.le_toInt
  have hhigh : b.toInt < 2 ^ 31 := b.toInt_lt
  rw [Bool.eq_iff_iff, decide_eq_true_iff, overflows_iff, ← BitVec.toInt_inj, hleast]
  omega

/-! ### The constant forms -/

theorem exec_addi (x : Reg) (n : Nib) (s : State) :
    exec (.addi x n) s = deliver 0x13 x n ((s.reg x).toInt + (nibWord n).toInt) s := by
  rw [nibWord_toInt]
  rfl

theorem exec_subi (x : Reg) (n : Nib) (s : State) :
    exec (.subi x n) s = deliver 0x14 x n ((s.reg x).toInt - (nibWord n).toInt) s := by
  rw [nibWord_toInt]
  rfl

theorem exec_mpyi (x : Reg) (n : Nib) (s : State) :
    exec (.mpyi x n) s = deliver 0x15 x n ((s.reg x).toInt * (nibWord n).toInt) s := by
  rw [nibWord_toInt]
  rfl

/-! ### The outcomes of DIV and REM -/

/-- The one signed division whose quotient is no word: the least word by -1
(41_integer_logical.md R206). -/
def divOverflows (a b : Word) : Prop := a = 0x80000000#32 ∧ b = 0xFFFFFFFF#32

section Division

variable {x y : Reg} {s : State}

theorem exec_div_zero (hy : s.reg y = 0) : exec (.div x y) s = arithCondition 17 0x06 x y s :=
  if_pos hy

theorem exec_rem_zero (hy : s.reg y = 0) : exec (.rem x y) s = arithCondition 17 0x07 x y s :=
  if_pos hy

theorem divOverflows.divisor_ne_zero {a b : Word} (h : divOverflows a b) : b ≠ 0 := by
  rw [h.2]
  decide

theorem exec_div_overflow (h : divOverflows (s.reg x) (s.reg y)) :
    exec (.div x y) s = arithCondition 16 0x06 x y s :=
  (if_neg h.divisor_ne_zero).trans (if_pos h)

theorem exec_rem_overflow (h : divOverflows (s.reg x) (s.reg y)) :
    exec (.rem x y) s = arithCondition 16 0x07 x y (s.setReg x 0) :=
  (if_neg h.divisor_ne_zero).trans (if_pos h)

/-- The quotient is rounded down (`DIV_ROUNDING` = floor, log entry 29). -/
theorem exec_div_fits (hy : s.reg y ≠ 0) (h : ¬ divOverflows (s.reg x) (s.reg y)) :
    exec (.div x y) s = .next ((s.setReg x
      (BitVec.ofInt 32 ((s.reg x).toInt.fdiv (s.reg y).toInt))).advance 2) :=
  (if_neg hy).trans (if_neg h)

theorem exec_rem_fits (hy : s.reg y ≠ 0) (h : ¬ divOverflows (s.reg x) (s.reg y)) :
    exec (.rem x y) s = .next ((s.setReg x
      (BitVec.ofInt 32 ((s.reg x).toInt.fmod (s.reg y).toInt))).advance 2) := by
  rw [Int.fmod_def, Int.mul_comm]
  exact (if_neg hy).trans (if_neg h)

end Division

/-! ### Division rounded down -/

/-- A remainder between 0 and the divisor and of its sign. -/
theorem fmod_between {b : Int} (hb : b ≠ 0) (a : Int) :
    0 ≤ a.fmod b ∧ a.fmod b < b ∨ b < a.fmod b ∧ a.fmod b ≤ 0 := by
  rcases Int.lt_or_gt_of_ne hb with hneg | hpos
  · exact .inr ((Int.fdiv_fmod_unique' hneg).1 ⟨rfl, rfl⟩).2
  · exact .inl ((Int.fdiv_fmod_unique hpos).1 ⟨rfl, rfl⟩).2

/-- Of the dividends in `[-m, m)` only the least, by -1, has a quotient beyond that range. -/
theorem fdiv_in_range {a b m : Int} (hb : b ≠ 0) (hlow : -m ≤ a) (hhigh : a < m)
    (hne : ¬ (a = -m ∧ b = -1)) : -m ≤ a.fdiv b ∧ a.fdiv b < m := by
  have hdiv : a.fdiv b * b + a.fmod b = a := Int.fdiv_mul_add_fmod a b
  generalize a.fdiv b = q at hdiv ⊢
  rcases fmod_between hb a with ⟨hr0, hrb⟩ | ⟨hrb, hr0⟩
  · exact ⟨by nlinarith, by nlinarith⟩
  · refine ⟨by nlinarith, ?_⟩
    by_contra hq
    have hminus : b = -1 := by nlinarith
    subst hminus
    omega

theorem toInt_ne_of_not_divOverflows {a b : Word} (h : ¬ divOverflows a b) :
    ¬ (a.toInt = -(2 ^ 31) ∧ b.toInt = -1) := by
  have hleast : (0x80000000#32).toInt = -(2 ^ 31) := by decide
  have hones : (0xFFFFFFFF#32).toInt = -1 := by decide
  rwa [← hleast, ← hones, BitVec.toInt_inj, BitVec.toInt_inj]

/-! ### The outcomes of EDIV -/

theorem ne_zero_of_toNat_lt {a b : Word} (h : a.toNat < b.toNat) : b ≠ 0 := by
  rintro rfl
  exact Nat.not_lt_zero _ h

theorem toNat_pair (s : State) (x : Reg) :
    (s.pair x).toNat = (s.reg x).toNat * 2 ^ 32 + (s.reg (x + 1)).toNat := by
  rw [State.pair, BitVec.toNat_append,
    ← Nat.shiftLeft_add_eq_or_of_lt (s.reg (x + 1)).isLt, Nat.shiftLeft_eq]

/-- The quotient of a pair does not fit where its more significant word is at least the divisor
(`EDIV_OVF_BITS` = 32, log entry 30). -/
theorem quotient_overflows_iff {x y : Reg} {s : State} (hy : s.reg y ≠ 0) :
    2 ^ edivOverflowBits ≤ (s.pair x).toNat / (s.reg y).toNat ↔
      (s.reg y).toNat ≤ (s.reg x).toNat := by
  have hpos : 0 < (s.reg y).toNat := BitVec.toNat_pos_of_ne_zero hy
  have hlow := (s.reg (x + 1)).isLt
  rw [Nat.le_div_iff_mul_le hpos, toNat_pair, edivOverflowBits]
  omega

section Division

variable {x y : Reg} {s : State}

theorem exec_ediv_zero (hy : s.reg y = 0) : exec (.ediv x y) s = arithCondition 17 0x2F x y s :=
  if_pos hy

theorem exec_ediv_overflow (hy : s.reg y ≠ 0) (h : (s.reg y).toNat ≤ (s.reg x).toNat) :
    exec (.ediv x y) s = arithCondition 16 0x2F x y s :=
  (if_neg hy).trans (if_pos ((quotient_overflows_iff hy).2 h))

theorem exec_ediv_fits (h : (s.reg x).toNat < (s.reg y).toNat) :
    exec (.ediv x y) s = .next (((s.setReg x
      (BitVec.ofNat 32 ((s.pair x).toNat / (s.reg y).toNat))).setReg (x + 1)
      (BitVec.ofNat 32 ((s.pair x).toNat % (s.reg y).toNat))).advance 2) :=
  have hy : s.reg y ≠ 0 := ne_zero_of_toNat_lt h
  (if_neg hy).trans (if_neg (mt (quotient_overflows_iff hy).1 (by omega)))

end Division

/-! ### The obligations -/

/-- Settles O15: quotient and remainder are those of the division rounded down. -/
theorem divideAndRemainder : Obligations.DivideAndRemainder := by
  intro s x y hy hov
  have hb : (s.reg y).toInt ≠ 0 := BitVec.toInt_ne.2 hy
  obtain ⟨hlow, hhigh⟩ := fdiv_in_range hb (s.reg x).le_toInt (s.reg x).toInt_lt
    (toInt_ne_of_not_divOverflows hov)
  exact ⟨_, _, (Int.fdiv_mul_add_fmod _ _).symm, fmod_between hb _, hlow, hhigh,
    exec_div_fits hy hov, exec_rem_fits hy hov⟩

/-- Settles O12: each instruction is a `result` of its word, with no condition to check. -/
theorem movesAndLogicRun : Obligations.MovesAndLogicRun := by
  intro s x y n
  exact ⟨rfl, rfl, rfl, rfl, rfl, rfl, rfl, rfl, rfl,
    rfl, rfl, rfl, rfl, rfl, rfl, rfl, rfl, rfl⟩

/-- Settles O13: all seven end in `deliver`, with a true result whose overflow is excluded or not
trapped. -/
theorem sumsDeliver : Obligations.SumsDeliver := by
  intro s x y n a b c
  refine ⟨?add, ?sub, ?mpy, ?neg, ?addi, ?subi, ?mpyi⟩
  case add => exact deliver_eq_next (wrap_add a b) (saddOverflow_eq a b)
  case sub => exact deliver_eq_next (wrap_sub a b) (ssubOverflow_eq a b)
  case mpy => exact deliver_eq_next (wrap_mul a b) (smulOverflow_eq a b)
  case neg =>
    exact fun h => deliver_eq_next (wrap_neg b) (eq_least_eq_overflows_neg b)
      fun htw => decide_eq_false (h htw)
  case addi =>
    rw [exec_addi]
    exact deliver_eq_next (wrap_add a c) (saddOverflow_eq a c)
  case subi =>
    rw [exec_subi]
    exact deliver_eq_next (wrap_sub a c) (ssubOverflow_eq a c)
  case mpyi =>
    rw [exec_mpyi]
    exact deliver_eq_next (wrap_mul a c) (smulOverflow_eq a c)

/-- Settles O14: the same seven results, overflowing with the trap on. -/
theorem sumsTrap : Obligations.SumsTrap := by
  intro s x y n htw a b c e
  refine ⟨?add, ?sub, ?mpy, ?neg, ?addi, ?subi, ?mpyi⟩
  case add => exact deliver_eq_enterEvent htw (wrap_add a b) (saddOverflow_eq a b)
  case sub => exact deliver_eq_enterEvent htw (wrap_sub a b) (ssubOverflow_eq a b)
  case mpy => exact deliver_eq_enterEvent htw (wrap_mul a b) (smulOverflow_eq a b)
  case neg =>
    intro hb
    have hself : wrap (-b.toInt) = 0x80000000#32 := by
      rw [hb]
      decide
    exact deliver_eq_enterEvent htw hself (eq_least_eq_overflows_neg b) (decide_eq_true hb)
  case addi =>
    rw [exec_addi]
    exact deliver_eq_enterEvent htw (wrap_add a c) (saddOverflow_eq a c)
  case subi =>
    rw [exec_subi]
    exact deliver_eq_enterEvent htw (wrap_sub a c) (ssubOverflow_eq a c)
  case mpyi =>
    rw [exec_mpyi]
    exact deliver_eq_enterEvent htw (wrap_mul a c) (smulOverflow_eq a c)

/-- Settles O16: each division that delivers no quotient ends in an arithmetic condition, trapped or
not. -/
theorem divideExceptions : Obligations.DivideExceptions := by
  intro s x y e
  refine ⟨?zeroOff, ?zeroOn, ?overflowOff, ?overflowOn, ?extended⟩
  case zeroOff =>
    intro hy htw
    rw [exec_div_zero hy, exec_rem_zero hy, exec_ediv_zero hy]
    exact ⟨arithCondition_off (by decide) htw, arithCondition_off (by decide) htw,
      arithCondition_off (by decide) htw⟩
  case zeroOn =>
    intro hy htw
    rw [exec_div_zero hy, exec_rem_zero hy, exec_ediv_zero hy]
    exact ⟨arithCondition_on (by decide) htw, arithCondition_on (by decide) htw,
      arithCondition_on (by decide) htw⟩
  case overflowOff =>
    intro hx hy htw
    rw [exec_div_overflow ⟨hx, hy⟩, exec_rem_overflow ⟨hx, hy⟩]
    exact ⟨arithCondition_off (by decide) htw, arithCondition_off (by decide) htw⟩
  case overflowOn =>
    intro hx hy htw
    rw [exec_div_overflow ⟨hx, hy⟩, exec_rem_overflow ⟨hx, hy⟩]
    exact ⟨arithCondition_on (by decide) htw, arithCondition_on (by decide) htw⟩
  case extended =>
    intro hy hle
    rw [exec_ediv_overflow hy hle]
    split
    next htw => exact arithCondition_on (by decide) htw
    next htw => exact arithCondition_off (by decide) (Bool.not_eq_true _ ▸ htw)

/-- Settles O18: the product of two words is a double word, and a quotient below `2 ^ 32` and its
remainder are words. -/
theorem extendedMultiplyDivide : Obligations.ExtendedMultiplyDivide := by
  intro s x y
  constructor
  case left =>
    have hproduct : BitVec.ofNat 64 ((s.reg x).toNat * (s.reg y).toNat) =
        (s.reg x).setWidth 64 * (s.reg y).setWidth 64 := by
      rw [BitVec.ofNat_mul, BitVec.ofNat_toNat, BitVec.ofNat_toNat]
    rw [← hproduct]
    rfl
  case right =>
    intro hlt
    have hy : s.reg y ≠ 0 := ne_zero_of_toNat_lt hlt
    have hq : (s.pair x).toNat / (s.reg y).toNat < 2 ^ 32 :=
      Nat.lt_of_not_le (mt (quotient_overflows_iff hy).1 (by omega))
    have hr : (s.pair x).toNat % (s.reg y).toNat < (s.reg y).toNat := Nat.mod_lt _ (by omega)
    refine ⟨_, _, ?_, ?_, exec_ediv_fits hlt⟩
    · rw [BitVec.toNat_ofNat, BitVec.toNat_ofNat, Nat.mod_eq_of_lt hq,
        Nat.mod_eq_of_lt (hr.trans (s.reg y).isLt)]
      exact (Nat.div_add_mod' _ _).symm
    · rw [BitVec.toNat_ofNat, Nat.mod_eq_of_lt (hr.trans (s.reg y).isLt)]
      exact hr

end Sys2Proof.Machine

/-! SUPPORT. Rounding over the rationals: a significand of `p` bits and the one above it are
neighbours among the numbers of that precision, and each rounding mode picks one of the two
(42_real.md R253). -/

namespace Sys2Proof.Machine

/-! ### Numbers of a precision -/

theorem hasPrecision.neg {p : ℕ} {v : ℚ} (h : hasPrecision p v) : hasPrecision p (-v) := by
  obtain ⟨m, e, hm, rfl⟩ := h
  exact ⟨-m, e, by rwa [abs_neg], by push_cast; ring⟩

theorem hasPrecision.abs {p : ℕ} {v : ℚ} (h : hasPrecision p v) : hasPrecision p |v| := by
  rcases abs_choice v with hv | hv <;> rw [hv]
  exacts [h, h.neg]

/-- The significand may be `2 ^ p` itself, which needs one bit. -/
theorem hasPrecision_of_le {p m : ℕ} (hp : 1 ≤ p) (hm : m ≤ 2 ^ p) (e : ℤ) :
    hasPrecision p (m * 2 ^ e) := by
  rcases hm.lt_or_eq with hlt | rfl
  · exact ⟨m, e, by rw [Nat.abs_cast]; exact_mod_cast hlt, by push_cast; ring⟩
  · refine ⟨1, p + e, ?_, ?_⟩
    · rw [abs_one]
      exact_mod_cast Nat.one_lt_two_pow (by omega : p ≠ 0)
    · rw [zpow_add₀ two_ne_zero, zpow_natCast]
      push_cast
      ring

/-- An even significand needs a bit less. -/
theorem hasPrecision_of_even {p m : ℕ} (hp : 2 ≤ p) (hm : m ≤ 2 ^ p) (heven : m % 2 = 0) (e : ℤ) :
    hasPrecision (p - 1) (m * 2 ^ e) := by
  obtain ⟨k, rfl⟩ : ∃ k, m = 2 * k := ⟨m / 2, by omega⟩
  have hpow : 2 ^ p = 2 * 2 ^ (p - 1) := by rw [← pow_succ']; congr 1; omega
  have hvalue : ((2 * k : ℕ) : ℚ) * 2 ^ e = k * 2 ^ (e + 1) := by
    rw [zpow_add_one₀ two_ne_zero]
    push_cast
    ring
  rw [hvalue]
  exact hasPrecision_of_le (by omega) (by omega) _

/-- No number of `p` bits lies between a significand of `p` bits and the next. -/
theorem hasPrecision.le_or_ge {p q : ℕ} {e : ℤ} {u : ℚ} (h : hasPrecision p u)
    (hq : 2 ^ (p - 1) ≤ q) (hp : 1 ≤ p) : u ≤ q * 2 ^ e ∨ (q + 1) * 2 ^ e ≤ u := by
  obtain ⟨m, f, hm, rfl⟩ := h
  have hunit : (0 : ℚ) < 2 ^ e := by positivity
  rcases le_or_gt e f with hef | hef
  · obtain ⟨k, rfl⟩ := Int.le.dest hef
    have hvalue : (m : ℚ) * 2 ^ (e + (k : ℤ)) = ((m * 2 ^ k : ℤ) : ℚ) * 2 ^ e := by
      rw [zpow_add₀ two_ne_zero, zpow_natCast]
      push_cast
      ring
    rw [hvalue]
    rcases le_or_gt (m * 2 ^ k) (q : ℤ) with hle | hlt
    · exact .inl (mul_le_mul_of_nonneg_right (by exact_mod_cast hle) hunit.le)
    · exact .inr (mul_le_mul_of_nonneg_right (by exact_mod_cast hlt) hunit.le)
  · left
    have hpow : (2 : ℚ) ^ p = 2 ^ (p - 1) * 2 := by rw [← pow_succ]; congr 1; omega
    have hmp : (m : ℚ) ≤ 2 ^ p := by
      have : m ≤ 2 ^ p := (le_abs_self m).trans hm.le
      exact_mod_cast this
    have hfe : (2 : ℚ) ^ f ≤ 2 ^ (e - 1) := zpow_le_zpow_right₀ one_le_two (by omega)
    have hhalf : (2 : ℚ) * 2 ^ (e - 1) = 2 ^ e := by
      rw [zpow_sub_one₀ two_ne_zero]
      ring
    calc (m : ℚ) * 2 ^ f ≤ 2 ^ p * 2 ^ f := mul_le_mul_of_nonneg_right hmp (by positivity)
      _ ≤ 2 ^ p * 2 ^ (e - 1) := mul_le_mul_of_nonneg_left hfe (by positivity)
      _ = 2 ^ (p - 1) * 2 ^ e := by rw [hpow, mul_assoc, hhalf]
      _ ≤ q * 2 ^ e := mul_le_mul_of_nonneg_right (by exact_mod_cast hq) hunit.le

/-! ### Neighbours -/

/-- `x` lies between the neighbours `lo` and `hi` among the numbers of `p` bits. -/
structure Between (p : ℕ) (x lo hi : ℚ) : Prop where
  lo_le : lo ≤ x
  lt_hi : x < hi
  nonneg : 0 ≤ lo
  lo_mem : hasPrecision p lo
  hi_mem : hasPrecision p hi
  gap : ∀ u, hasPrecision p u → u ≤ lo ∨ hi ≤ u

theorem between_significands {p q : ℕ} (hp : 1 ≤ p) (hlow : 2 ^ (p - 1) ≤ q) (hhigh : q < 2 ^ p)
    {frac : ℚ} (h0 : 0 ≤ frac) (h1 : frac < 1) (e : ℤ) :
    Between p ((q + frac) * 2 ^ e) (q * 2 ^ e) ((q + 1) * 2 ^ e) where
  lo_le := mul_le_mul_of_nonneg_right (by linarith) (by positivity)
  lt_hi := mul_lt_mul_of_pos_right (by linarith) (by positivity)
  nonneg := by positivity
  lo_mem := hasPrecision_of_le hp hhigh.le e
  hi_mem := by exact_mod_cast hasPrecision_of_le hp hhigh e
  gap _ hu := hu.le_or_ge hlow hp

section Modes

variable {p : ℕ} {x lo hi : ℚ}

theorem Between.rounds_down (h : Between p x lo hi) : rounds p true false x lo :=
  ⟨h.lo_mem, h.lo_le, fun u hu hux => (h.gap u hu).resolve_right fun hhi =>
    absurd (hhi.trans hux) (not_le.2 h.lt_hi)⟩

theorem Between.rounds_up (h : Between p x lo hi) :
    rounds p false true x (if x = lo then lo else hi) := by
  split
  next heq => exact ⟨h.lo_mem, heq.le, fun u _ hxu => heq ▸ hxu⟩
  next hne =>
    have hlt : lo < x := lt_of_le_of_ne h.lo_le (Ne.symm hne)
    exact ⟨h.hi_mem, h.lt_hi.le, fun u hu hxu => (h.gap u hu).resolve_left fun hlo =>
      absurd (hxu.trans hlo) (not_le.2 hlt)⟩

theorem Between.rounds_zero (h : Between p x lo hi) : rounds p true true x lo := by
  have hx : 0 ≤ x := h.nonneg.trans h.lo_le
  refine ⟨h.lo_mem, ?_, mul_nonneg h.nonneg hx, fun u hu hux _ => ?_⟩
  · rw [abs_of_nonneg h.nonneg, abs_of_nonneg hx]
    exact h.lo_le
  · rw [abs_of_nonneg hx] at hux
    rw [abs_of_nonneg h.nonneg]
    exact h.rounds_down.2.2 _ hu.abs hux

theorem Between.rounds_nearest_lo (h : Between p x lo hi)
    (hnear : x - lo < hi - x ∨ x - lo = hi - x ∧ hasPrecision (p - 1) lo) :
    rounds p false false x lo := by
  refine ⟨h.lo_mem, fun u hu hne => ?_⟩
  rw [abs_sub_comm, abs_of_nonneg (sub_nonneg.2 h.lo_le)]
  rcases h.gap u hu with hlo | hhi
  · have hlt : u < lo := lt_of_le_of_ne hlo hne
    left
    rw [abs_sub_comm]
    exact lt_of_lt_of_le (by linarith) (le_abs_self _)
  · have hdist : hi - x ≤ |u - x| := le_trans (by linarith) (le_abs_self _)
    rcases hnear with hlt | ⟨heq, heven⟩
    · exact .inl (hlt.trans_le hdist)
    · rcases hdist.lt_or_eq with hlt | heq'
      · exact .inl (heq ▸ hlt)
      · exact .inr ⟨heq.trans heq', heven⟩

theorem Between.rounds_nearest_hi (h : Between p x lo hi)
    (hnear : hi - x < x - lo ∨ hi - x = x - lo ∧ hasPrecision (p - 1) hi) :
    rounds p false false x hi := by
  refine ⟨h.hi_mem, fun u hu hne => ?_⟩
  rw [abs_of_pos (sub_pos.2 h.lt_hi)]
  rcases h.gap u hu with hlo | hhi
  · have hdist : x - lo ≤ |u - x| := by
      rw [abs_sub_comm]
      exact le_trans (by linarith) (le_abs_self _)
    rcases hnear with hlt | ⟨heq, heven⟩
    · exact .inl (hlt.trans_le hdist)
    · rcases hdist.lt_or_eq with hlt | heq'
      · exact .inl (heq ▸ hlt)
      · exact .inr ⟨heq.trans heq', heven⟩
  · have hlt : hi < u := lt_of_le_of_ne hhi (Ne.symm hne)
    exact .inl (lt_of_lt_of_le (by linarith) (le_abs_self _))

end Modes

/-! ### What the rounding modes share -/

/-- Of opposite numbers, one is rounded up where the other is rounded down. -/
theorem rounds.neg {p : ℕ} {b0 b1 : Bool} {r v : ℚ} (h : rounds p b0 b1 r v) :
    rounds p b1 b0 (-r) (-v) := by
  have hdist (a b : ℚ) : |-a - b| = |a - -b| := by rw [← abs_neg]; ring_nf
  obtain ⟨hv, h⟩ := h
  refine ⟨hv.neg, ?_⟩
  match b0, b1, h with
  | false, false, h =>
    intro u hu hne
    have hcase := h (-u) hu.neg (fun heq => hne (by rw [← heq, neg_neg]))
    rw [hdist, neg_neg, ← hdist]
    exact hcase.imp id fun ⟨heq, hprec⟩ => ⟨heq, hprec.neg⟩
  | false, true, ⟨hle, h⟩ =>
    exact ⟨neg_le_neg hle, fun u hu hur => le_neg.2 (h _ hu.neg (le_neg.2 hur))⟩
  | true, false, ⟨hle, h⟩ =>
    exact ⟨neg_le_neg hle, fun u hu hru => neg_le.2 (h _ hu.neg (neg_le.2 hru))⟩
  | true, true, ⟨hle, hsign, h⟩ =>
    simp only [abs_neg, neg_mul, mul_neg, neg_neg]
    refine ⟨hle, hsign, fun u hu hur hsame => ?_⟩
    rw [← abs_neg]
    exact h _ hu.neg (by rwa [abs_neg]) (by rwa [neg_mul])

/-- A number of the precision is rounded to itself. -/
theorem rounds.eq_of_hasPrecision {p : ℕ} {b0 b1 : Bool} {r v : ℚ} (h : rounds p b0 b1 r v)
    (hr : hasPrecision p r) : v = r := by
  obtain ⟨-, h⟩ := h
  match b0, b1, h with
  | false, false, h =>
    by_contra hne
    have hzero : |r - r| = 0 := by rw [sub_self, abs_zero]
    have hpos : 0 < |v - r| := abs_pos.2 (sub_ne_zero.2 hne)
    rcases h r hr (Ne.symm hne) with hlt | ⟨heq, -⟩ <;> linarith
  | false, true, ⟨hle, h⟩ => exact le_antisymm (h r hr le_rfl) hle
  | true, false, ⟨hle, h⟩ => exact le_antisymm hle (h r hr le_rfl)
  | true, true, ⟨hle, hsign, h⟩ =>
    have habs : |v| = |r| := le_antisymm hle (h r hr le_rfl (mul_self_nonneg r))
    rcases abs_eq_abs.1 habs with heq | rfl
    · exact heq
    · have : r = 0 := by nlinarith [mul_self_nonneg r]
      rw [this, neg_zero]

/-- Rounding to nearest does not go beyond a number of the precision. -/
theorem rounds.le_of_le {p : ℕ} {r v u : ℚ} (h : rounds p false false r v) (hu : hasPrecision p u)
    (hru : r ≤ u) : v ≤ u := by
  by_contra hlt
  rw [not_le] at hlt
  have hv : |v - r| = v - r := abs_of_nonneg (by linarith)
  have hur : |u - r| = u - r := abs_of_nonneg (by linarith)
  rcases h.2 u hu hlt.ne with hcase | ⟨hcase, -⟩ <;> linarith

theorem rounds.le_of_ge {p : ℕ} {r v u : ℚ} (h : rounds p false false r v) (hu : hasPrecision p u)
    (hur : u ≤ r) : u ≤ v :=
  neg_le_neg_iff.1 (h.neg.le_of_le hu.neg (neg_le_neg hur))

/-- A magnitude between two of the precision is rounded to one between them. -/
theorem rounds.abs_between {p : ℕ} {r v a b : ℚ} (h : rounds p false false r v)
    (ha : hasPrecision p a) (hb : hasPrecision p b) (har : a ≤ |r|) (hrb : |r| ≤ b) :
    a ≤ |v| ∧ |v| ≤ b := by
  have key {s z : ℚ} (hs : rounds p false false s z) (h0 : 0 ≤ s) (has : a ≤ s) (hsb : s ≤ b) :
      a ≤ |z| ∧ |z| ≤ b := by
    have hz : 0 ≤ z := hs.le_of_ge ⟨0, 0, by simp, by simp⟩ h0
    rw [abs_of_nonneg hz]
    exact ⟨hs.le_of_ge ha has, hs.le_of_le hb hsb⟩
  rcases le_total 0 r with h0 | h0
  · rw [abs_of_nonneg h0] at har hrb
    exact key h h0 har hrb
  · rw [abs_of_nonpos h0] at har hrb
    rw [← abs_neg]
    exact key h.neg (by linarith) har hrb

/-! ### The decision to round up -/

/-- The mode that the two bits of the Round field select (10_state.md R43). -/
def fieldMode (b0 b1 : Bool) : Rounding :=
  match b0, b1 with
  | false, false => .nearestEven
  | false, true => .plusInfinity
  | true, false => .minusInfinity
  | true, true => .toZero

theorem roundMode_eq (tw : Word) : roundMode tw = fieldMode (tw.getMsbD 22) (tw.getMsbD 23) := by
  rw [roundMode, roundField, mbit_eq_getMsbD tw (by decide), mbit_eq_getMsbD tw (by decide)]
  rfl

/-- A negative number is rounded as its opposite in the opposite mode. -/
theorem roundsUp_negative (b0 b1 : Bool) (q r d : ℕ) :
    roundsUp (fieldMode b0 b1) true q r d = roundsUp (fieldMode b1 b0) false q r d := by
  cases b0 <;> cases b1 <;> rfl

/-- Nothing is rounded up where nothing was cut off. -/
theorem roundsUp_zero {d : ℕ} (hd : 0 < d) (mode : Rounding) (sign : Bool) (q : ℕ) :
    roundsUp mode sign q 0 d = false := by
  cases mode <;> simp [roundsUp] <;> omega

theorem fraction_lt_one {r d : ℕ} (h : r < d) : (r : ℚ) / d < 1 := by
  rw [div_lt_one (by exact_mod_cast (Nat.zero_le r).trans_lt h)]
  exact_mod_cast h

/-- Only a value without a rest is left as it is. -/
theorem roundsUp_exact_iff {q r d : ℕ} (h : r < d) (mode : Rounding) (sign : Bool) :
    ((if roundsUp mode sign q r d then q + 1 else q : ℕ) : ℚ) = q + r / d ↔ r = 0 := by
  have hd : 0 < d := (Nat.zero_le r).trans_lt h
  constructor
  · intro heq
    have hd' : (d : ℚ) ≠ 0 := by exact_mod_cast hd.ne'
    have hfrac : (r : ℚ) / d = 0 ∨ (r : ℚ) / d = 1 := by
      split at heq
      · right; push_cast at heq; linarith
      · left; linarith
    rcases hfrac with h0 | h1
    · exact_mod_cast (div_eq_zero_iff.1 h0).resolve_right hd'
    · exact absurd h1 (fraction_lt_one h).ne
  · rintro rfl
    rw [roundsUp_zero hd]
    simp

/-- The distances to the two neighbours compare as the rest with what it lacks of the divisor. -/
theorem distances {r d : ℕ} (hd : 0 < d) (q : ℕ) (e : ℤ) :
    let x : ℚ := (q + r / d) * 2 ^ e
    (x - q * 2 ^ e < (q + 1) * 2 ^ e - x ↔ 2 * r < d) ∧
      (x - q * 2 ^ e = (q + 1) * 2 ^ e - x ↔ 2 * r = d) := by
  intro x
  have hd' : (0 : ℚ) < d := by exact_mod_cast hd
  have hunit : (0 : ℚ) < 2 ^ e / d := by positivity
  have hlo : x - q * 2 ^ e = r * (2 ^ e / d) := by simp only [x]; ring
  have hhi : (q + 1) * 2 ^ e - x = (d - r) * (2 ^ e / d) := by
    simp only [x]
    field_simp
    ring
  rw [hlo, hhi, mul_lt_mul_iff_left₀ hunit, mul_left_inj' hunit.ne', lt_sub_iff_add_lt,
    eq_sub_iff_add_eq, ← two_mul]
  exact ⟨by exact_mod_cast Iff.rfl, by exact_mod_cast Iff.rfl⟩

/-- A positive number with the significand `q` and the rest `r / d`. -/
theorem rounds_roundsUp_positive {p q r d : ℕ} (hp : 2 ≤ p) (hlow : 2 ^ (p - 1) ≤ q)
    (hhigh : q < 2 ^ p) (hr : r < d) (e : ℤ) (b0 b1 : Bool) :
    rounds p b0 b1 ((q + r / d) * 2 ^ e)
      ((if roundsUp (fieldMode b0 b1) false q r d then q + 1 else q : ℕ) * 2 ^ e) := by
  have hb := between_significands (by omega) hlow hhigh (frac := (r : ℚ) / d) (by positivity)
    (fraction_lt_one hr) e
  obtain ⟨hlt, heq⟩ := distances (r := r) (by omega : 0 < d) q e
  match b0, b1 with
  | false, false =>
    simp only [fieldMode, roundsUp, Bool.or_eq_true, Bool.and_eq_true, decide_eq_true_eq,
      beq_iff_eq]
    split
    next hup =>
      rw [Nat.cast_add_one]
      refine hb.rounds_nearest_hi ?_
      rcases hup with hup | ⟨htie, hodd⟩
      · have h1 := mt hlt.1 (by omega)
        have h2 := mt heq.1 (by omega)
        exact .inl (lt_of_le_of_ne (not_lt.1 h1) (Ne.symm h2))
      · exact .inr ⟨(heq.2 htie).symm,
          by exact_mod_cast hasPrecision_of_even hp hhigh (by omega : (q + 1) % 2 = 0) e⟩
    next hdown =>
      refine hb.rounds_nearest_lo ?_
      rcases lt_trichotomy (2 * r) d with hrd | hrd | hrd
      · exact .inl (hlt.2 hrd)
      · exact .inr ⟨heq.2 hrd, hasPrecision_of_even hp hhigh.le (by omega) e⟩
      · exact absurd (.inl hrd) hdown
  | false, true =>
    have hexact : (((q : ℚ) + r / d) * 2 ^ e = q * 2 ^ e) ↔ r = 0 := by
      have hd' : (d : ℚ) ≠ 0 := by exact_mod_cast (by omega : d ≠ 0)
      rw [mul_left_inj' (by positivity), add_eq_left, div_eq_zero_iff, or_iff_left hd']
      exact_mod_cast Iff.rfl
    have hup := hb.rounds_up
    simp only [hexact] at hup
    by_cases h0 : r = 0
    · simpa [fieldMode, roundsUp, h0] using hup
    · simpa [fieldMode, roundsUp, h0] using hup
  | true, false => exact hb.rounds_down
  | true, true => exact hb.rounds_zero

/-- `(-1) ^ sign`. -/
def signUnit (sign : Bool) : ℚ := if sign then -1 else 1

/-- Rounding up or not as `roundsUp` says is rounding as the Round field says. -/
theorem rounds_roundsUp {p q r d : ℕ} (hp : 2 ≤ p) (hlow : 2 ^ (p - 1) ≤ q) (hhigh : q < 2 ^ p)
    (hr : r < d) (e : ℤ) (b0 b1 sign : Bool) :
    rounds p b0 b1 (signUnit sign * ((q + r / d) * 2 ^ e))
      (signUnit sign *
        ((if roundsUp (fieldMode b0 b1) sign q r d then q + 1 else q : ℕ) * 2 ^ e)) := by
  cases sign with
  | false =>
    simpa only [signUnit, Bool.false_eq_true, if_false, one_mul] using
      rounds_roundsUp_positive hp hlow hhigh hr e b0 b1
  | true =>
    rw [roundsUp_negative]
    simpa only [signUnit, if_true, neg_mul, one_mul] using
      (rounds_roundsUp_positive hp hlow hhigh hr e b1 b0).neg

end Sys2Proof.Machine

/-! SUPPORT. `roundTo` rounds the exact value: the quotient that `scaledDiv` takes has the
significand's width, and the rest decides (42_real.md R253). -/

namespace Sys2Proof.Machine

/-- The number that an exact result stands for. -/
def Exact.value (v : Exact) : ℚ := signUnit v.sign * (v.num / v.den * 2 ^ v.exp)

/-- The number that a rounded value stands for in a format. -/
def Rounded.value (f : RealFormat) (r : Rounded) : ℚ :=
  signUnit r.sign * (r.sig * 2 ^ (r.exp - bias f - f.fracBits))

theorem signUnit_ne_zero (sign : Bool) : signUnit sign ≠ 0 := by cases sign <;> decide

/-- A value with a positive magnitude is negative by its sign alone. -/
theorem signUnit_mul_neg_iff {sign : Bool} {a : ℚ} (ha : 0 < a) :
    signUnit sign * a < 0 ↔ sign = true := by
  cases sign
  · simpa [signUnit] using ha.le
  · simpa [signUnit] using ha

theorem abs_signUnit_mul {a : ℚ} (ha : 0 ≤ a) (sign : Bool) : |signUnit sign * a| = a := by
  cases sign <;> simp [signUnit, abs_of_nonneg ha]

theorem Exact.value_eq_zero_iff {v : Exact} (hden : v.den ≠ 0) : v.value = 0 ↔ v.num = 0 := by
  have hpow : (2 : ℚ) ^ v.exp ≠ 0 := by positivity
  simp [Exact.value, signUnit_ne_zero, hden, hpow]

/-! ### The scaled quotient -/

/-- Quotient and rest are `num / den`, scaled. -/
theorem scaledDiv_eq {v : Exact} (hden : v.den ≠ 0) (k : ℤ) :
    (scaledDiv v k).2.1 < (scaledDiv v k).2.2 ∧
      ((scaledDiv v k).1 : ℚ) + (scaledDiv v k).2.1 / (scaledDiv v k).2.2 =
        v.num / v.den * 2 ^ k := by
  have hd : 0 < v.den * 2 ^ (-k).toNat := by positivity
  refine ⟨Nat.mod_lt _ hd, ?_⟩
  have hscale : (2 : ℚ) ^ k = 2 ^ k.toNat / 2 ^ (-k).toNat := by
    rw [← zpow_natCast, ← zpow_natCast, ← zpow_sub₀ two_ne_zero]
    congr 1
    omega
  have hdiv : ((v.num * 2 ^ k.toNat : ℕ) : ℚ) = (v.den * 2 ^ (-k).toNat : ℕ) *
      (v.num * 2 ^ k.toNat / (v.den * 2 ^ (-k).toNat) : ℕ) +
      (v.num * 2 ^ k.toNat % (v.den * 2 ^ (-k).toNat) : ℕ) := by
    exact_mod_cast (Nat.div_add_mod _ _).symm
  have hd' : ((v.den * 2 ^ (-k).toNat : ℕ) : ℚ) ≠ 0 := by exact_mod_cast hd.ne'
  calc ((v.num * 2 ^ k.toNat / (v.den * 2 ^ (-k).toNat) : ℕ) : ℚ) +
      (v.num * 2 ^ k.toNat % (v.den * 2 ^ (-k).toNat) : ℕ) / (v.den * 2 ^ (-k).toNat : ℕ)
      = (v.num * 2 ^ k.toNat : ℕ) / (v.den * 2 ^ (-k).toNat : ℕ) := by
        rw [hdiv]
        field_simp
    _ = v.num / v.den * 2 ^ k := by
        rw [hscale]
        push_cast
        ring

/-- The quotient is the scaled value without its fraction. -/
theorem scaledDiv_floor {v : Exact} (hden : v.den ≠ 0) (k : ℤ) :
    ((scaledDiv v k).1 : ℚ) ≤ v.num / v.den * 2 ^ k ∧
      (v.num / v.den * 2 ^ k : ℚ) < (scaledDiv v k).1 + 1 := by
  obtain ⟨hr, heq⟩ := scaledDiv_eq hden k
  rw [← heq]
  exact ⟨le_add_of_nonneg_right (by positivity), by linarith [fraction_lt_one hr]⟩

/-- A scaled value of `p` bits has a quotient of `p` bits. -/
theorem scaledDiv_width {v : Exact} (hden : v.den ≠ 0) {p : ℕ} {k : ℤ}
    (hlow : (2 : ℚ) ^ (p - 1) ≤ v.num / v.den * 2 ^ k)
    (hhigh : (v.num / v.den * 2 ^ k : ℚ) < 2 ^ p) :
    2 ^ (p - 1) ≤ (scaledDiv v k).1 ∧ (scaledDiv v k).1 < 2 ^ p := by
  obtain ⟨hle, hlt⟩ := scaledDiv_floor hden k
  have h1 := hlow.trans_lt hlt
  have h2 := hle.trans_lt hhigh
  exact ⟨Nat.lt_succ_iff.1 (by exact_mod_cast h1), by exact_mod_cast h2⟩

theorem two_pow_log2_bounds {n : ℕ} (hn : n ≠ 0) :
    (2 : ℚ) ^ (n.log2 : ℤ) ≤ n ∧ (n : ℚ) < 2 ^ ((n.log2 : ℤ) + 1) := by
  constructor
  · exact_mod_cast Nat.log2_self_le hn
  · exact_mod_cast Nat.lt_log2_self (n := n)

/-- The widths of numerator and denominator place the scaled value within a factor of 4. -/
theorem scaled_bounds {v : Exact} (hnum : v.num ≠ 0) (hden : v.den ≠ 0) (p : ℤ) :
    (2 : ℚ) ^ (p - 1) < v.num / v.den * 2 ^ (p + v.den.log2 - v.num.log2) ∧
      (v.num / v.den * 2 ^ (p + v.den.log2 - v.num.log2) : ℚ) < 2 ^ (p + 1) := by
  obtain ⟨hnlow, hnhigh⟩ := two_pow_log2_bounds hnum
  obtain ⟨hdlow, hdhigh⟩ := two_pow_log2_bounds hden
  have hd : (0 : ℚ) < v.den := by exact_mod_cast Nat.pos_of_ne_zero hden
  rw [div_mul_eq_mul_div, lt_div_iff₀ hd, div_lt_iff₀ hd]
  constructor
  · calc (2 : ℚ) ^ (p - 1) * v.den < 2 ^ (p - 1) * 2 ^ ((v.den.log2 : ℤ) + 1) :=
          mul_lt_mul_of_pos_left hdhigh (by positivity)
      _ = 2 ^ (v.num.log2 : ℤ) * 2 ^ (p + v.den.log2 - v.num.log2) := by
          rw [← zpow_add₀ two_ne_zero, ← zpow_add₀ two_ne_zero]
          congr 1
          ring
      _ ≤ v.num * 2 ^ (p + v.den.log2 - v.num.log2) :=
          mul_le_mul_of_nonneg_right hnlow (by positivity)
  · calc (v.num : ℚ) * 2 ^ (p + v.den.log2 - v.num.log2)
        < 2 ^ ((v.num.log2 : ℤ) + 1) * 2 ^ (p + v.den.log2 - v.num.log2) :=
          mul_lt_mul_of_pos_right hnhigh (by positivity)
      _ = 2 ^ (p + 1) * 2 ^ (v.den.log2 : ℤ) := by
          rw [← zpow_add₀ two_ne_zero, ← zpow_add₀ two_ne_zero]
          congr 1
          ring
      _ ≤ 2 ^ (p + 1) * v.den := mul_le_mul_of_nonneg_left hdlow (by positivity)

/-- The scale brings the quotient to the width of a significand. -/
theorem scaleFor_width {v : Exact} (hnum : v.num ≠ 0) (hden : v.den ≠ 0) {p : ℕ} (hp : 1 ≤ p) :
    2 ^ (p - 1) ≤ (scaledDiv v (scaleFor p v)).1 ∧ (scaledDiv v (scaleFor p v)).1 < 2 ^ p := by
  obtain ⟨hlow, hhigh⟩ := scaled_bounds hnum hden p
  have hpred : (2 : ℚ) ^ ((p : ℤ) - 1) = 2 ^ (p - 1) := by
    rw [← zpow_natCast, Nat.cast_sub hp, Nat.cast_one]
  rw [hpred] at hlow
  rw [scaleFor]
  generalize (p : ℤ) + v.den.log2 - v.num.log2 = k at hlow hhigh ⊢
  split
  next hfits =>
    have hlt := (scaledDiv_floor hden k).2
    refine ⟨Nat.lt_succ_iff.1 ?_, hfits⟩
    exact_mod_cast hlow.trans hlt
  next hwide =>
    have hle : (2 : ℚ) ^ p ≤ v.num / v.den * 2 ^ k :=
      le_trans (by exact_mod_cast not_lt.1 hwide) (scaledDiv_floor hden k).1
    have hhalf : (v.num / v.den * 2 ^ (k - 1) : ℚ) = v.num / v.den * 2 ^ k / 2 := by
      rw [zpow_sub_one₀ two_ne_zero]
      ring
    have hpow : (2 : ℚ) ^ p = 2 ^ (p - 1) * 2 := by rw [← pow_succ]; congr 1; omega
    rw [zpow_add_one₀ two_ne_zero, zpow_natCast] at hhigh
    apply scaledDiv_width hden <;> rw [hhalf] <;> linarith

/-! ### The rounded value -/

/-- What a rounding keeps: the magnitude is a significand `q` and a rest `r / d`, in units of
`2 ^ e`, and the result is `q` or, rounded up, `q + 1`. -/
structure RoundedFrom (f : RealFormat) (mode : Rounding) (v : Exact) (w : Rounded)
    (q r d : ℕ) (e : ℤ) : Prop where
  low : 2 ^ f.fracBits ≤ q
  high : q < 2 ^ (f.fracBits + 1)
  rest : r < d
  exact : v.value = signUnit v.sign * ((q + r / d) * 2 ^ e)
  value : w.value f =
    signUnit v.sign * ((if roundsUp mode v.sign q r d then q + 1 else q : ℕ) * 2 ^ e)
  sign : w.sign = v.sign
  inexact : w.inexact = (r != 0)
  sigLow : 2 ^ f.fracBits ≤ w.sig
  sigHigh : w.sig < 2 ^ (f.fracBits + 1)

theorem roundTo_roundedFrom {v : Exact} (hnum : v.num ≠ 0) (hden : v.den ≠ 0) (f : RealFormat)
    (mode : Rounding) : ∃ q r d e, RoundedFrom f mode v (roundTo f mode v) q r d e := by
  obtain ⟨hlow, hhigh⟩ := scaleFor_width hnum hden (by omega : 1 ≤ f.fracBits + 1)
  rw [Nat.add_sub_cancel] at hlow
  generalize hk : scaleFor (f.fracBits + 1) v = k at hlow hhigh
  obtain ⟨hrest, hscaled⟩ := scaledDiv_eq hden k
  rcases hqrd : scaledDiv v k with ⟨q, r, d⟩
  rw [hqrd] at hlow hhigh hrest hscaled
  dsimp only at hlow hhigh hrest hscaled
  have hexact : v.value = signUnit v.sign * ((q + r / d) * 2 ^ (v.exp - k)) := by
    rw [Exact.value, hscaled, mul_assoc, ← zpow_add₀ two_ne_zero, add_sub_cancel]
  have hround : roundTo f mode v =
      let q' := if roundsUp mode v.sign q r d then q + 1 else q
      let e : ℤ := v.exp - k + f.fracBits + bias f
      if q' = 2 ^ (f.fracBits + 1) then
        { sign := v.sign, exp := e + 1, sig := 2 ^ f.fracBits, inexact := r != 0 }
      else { sign := v.sign, exp := e, sig := q', inexact := r != 0 } := by
    rw [roundTo, hk, hqrd]
  have hpow : 2 ^ (f.fracBits + 1) = 2 ^ f.fracBits * 2 := pow_succ 2 f.fracBits
  have hq' : (if roundsUp mode v.sign q r d then q + 1 else q) = q ∨
      (if roundsUp mode v.sign q r d then q + 1 else q) = q + 1 := by
    split
    exacts [.inr rfl, .inl rfl]
  have hfields : (roundTo f mode v).value f = signUnit v.sign *
        ((if roundsUp mode v.sign q r d then q + 1 else q : ℕ) * 2 ^ (v.exp - k)) ∧
      (roundTo f mode v).sign = v.sign ∧ (roundTo f mode v).inexact = (r != 0) ∧
      2 ^ f.fracBits ≤ (roundTo f mode v).sig ∧
      (roundTo f mode v).sig < 2 ^ (f.fracBits + 1) := by
    rw [hround]
    generalize (if roundsUp mode v.sign q r d then q + 1 else q) = q' at hq' ⊢
    dsimp only
    split
    next htop =>
      refine ⟨?_, rfl, rfl, le_rfl, by dsimp only; omega⟩
      have hexp : v.exp - k + f.fracBits + bias f + 1 - bias f - f.fracBits = v.exp - k + 1 := by
        ring
      rw [Rounded.value, htop, hpow, hexp, zpow_add_one₀ two_ne_zero]
      push_cast
      ring
    next hne =>
      refine ⟨?_, rfl, rfl, by dsimp only; omega, by dsimp only; omega⟩
      have hexp : v.exp - k + f.fracBits + bias f - bias f - f.fracBits = v.exp - k := by ring
      rw [Rounded.value, hexp]
  obtain ⟨hvalue, hsign, hinexact, hsigLow, hsigHigh⟩ := hfields
  exact ⟨q, r, d, v.exp - k,
    ⟨hlow, hhigh, hrest, hexact, hvalue, hsign, hinexact, hsigLow, hsigHigh⟩⟩

section Rounding

variable {f : RealFormat} {mode : Rounding} {v : Exact} {w : Rounded} {q r d : ℕ} {e : ℤ}

/-- Rounding changes the value where a rest was cut off. -/
theorem RoundedFrom.inexact_iff (h : RoundedFrom f mode v w q r d e) :
    w.inexact = true ↔ w.value f ≠ v.value := by
  have hunit : (2 : ℚ) ^ e ≠ 0 := by positivity
  rw [h.inexact, bne_iff_ne, not_iff_not, h.value, h.exact, mul_right_inj' (signUnit_ne_zero _),
    mul_left_inj' hunit, roundsUp_exact_iff h.rest]

theorem RoundedFrom.rounds {b0 b1 : Bool} (hf : 1 ≤ f.fracBits)
    (h : RoundedFrom f (fieldMode b0 b1) v w q r d e) :
    rounds (f.fracBits + 1) b0 b1 v.value (w.value f) := by
  rw [h.value, h.exact]
  exact rounds_roundsUp (by omega) h.low h.high h.rest e b0 b1 v.sign

theorem RoundedFrom.value_neg_iff (h : RoundedFrom f mode v w q r d e) :
    w.value f < 0 ↔ w.sign = true := by
  have hsig : (0 : ℚ) < w.sig := by
    exact_mod_cast lt_of_lt_of_le (by positivity : 0 < 2 ^ f.fracBits) h.sigLow
  exact signUnit_mul_neg_iff (mul_pos hsig (by positivity))

end Rounding

end Sys2Proof.Machine

/-! SUPPORT. Patterns: their fields, their classes and their values, for a format of `n` bits with
`w` exponent bits (42_real.md R250 to R252). -/

namespace Sys2Proof.Machine

/-! ### Fields -/

section Fields

variable {f : RealFormat} {sign : Bool} {e m : ℕ}

theorem pack_eq (f : RealFormat) (sign : Bool) (e m : ℕ) :
    pack f sign e m =
      2 ^ (f.expBits + f.fracBits) * sign.toNat + (e * 2 ^ f.fracBits + m) := by
  cases sign <;> simp [pack, pow_add, add_mul, add_assoc]

theorem fields_lt (he : e < 2 ^ f.expBits) (hm : m < 2 ^ f.fracBits) :
    e * 2 ^ f.fracBits + m < 2 ^ (f.expBits + f.fracBits) := by
  rw [pow_add]
  nlinarith

/-- Packing and taking apart again gives the fields. -/
theorem unpack_pack (he : e < 2 ^ f.expBits) (hm : m < 2 ^ f.fracBits) :
    unpack f (pack f sign e m) = { sign := sign, exp := e, frac := m } := by
  have hlow := fields_lt he hm
  have hsign : pack f sign e m / 2 ^ (f.expBits + f.fracBits) = sign.toNat := by
    rw [pack_eq, Nat.mul_add_div (by positivity), Nat.div_eq_of_lt hlow, add_zero]
  have hexp : pack f sign e m / 2 ^ f.fracBits = (if sign then 2 ^ f.expBits else 0) + e := by
    rw [pack, mul_comm, Nat.mul_add_div (by positivity), Nat.div_eq_of_lt hm, add_zero]
  have hfrac : pack f sign e m % 2 ^ f.fracBits = m := by
    rw [pack, mul_comm, Nat.mul_add_mod, Nat.mod_eq_of_lt hm]
  rw [unpack, hsign, hexp, hfrac]
  cases sign <;> simp [Nat.mod_eq_of_lt he]

theorem pack_lt (he : e < 2 ^ f.expBits) (hm : m < 2 ^ f.fracBits) :
    pack f sign e m < 2 ^ (f.expBits + f.fracBits + 1) := by
  have hlow := fields_lt he hm
  rw [pack_eq, pow_succ]
  cases sign <;> simp <;> omega

/-- A pattern is packed of its fields. -/
theorem pack_unpack {v : ℕ} (hv : v < 2 ^ (f.expBits + f.fracBits + 1)) :
    pack f (unpack f v).sign (unpack f v).exp (unpack f v).frac = v := by
  have hexp : v / 2 ^ f.fracBits / 2 ^ f.expBits = v / 2 ^ (f.expBits + f.fracBits) := by
    rw [Nat.div_div_eq_div_mul, ← pow_add, add_comm]
  have hsign : (if (unpack f v).sign then 2 ^ f.expBits else 0) =
      v / 2 ^ f.fracBits / 2 ^ f.expBits * 2 ^ f.expBits := by
    have htwo : v / 2 ^ (f.expBits + f.fracBits) < 2 := by
      rw [Nat.div_lt_iff_lt_mul (by positivity), mul_comm, ← pow_succ]
      exact hv
    have hbit : v / 2 ^ (f.expBits + f.fracBits) = 0 ∨ v / 2 ^ (f.expBits + f.fracBits) = 1 :=
      Nat.le_one_iff_eq_zero_or_eq_one.1 (Nat.lt_succ_iff.1 htwo)
    rcases hbit with hbit | hbit <;> simp [unpack, hexp, hbit]
  rw [pack, hsign]
  dsimp only [unpack]
  rw [Nat.div_add_mod', Nat.div_add_mod']

end Fields

/-! ### Formats of words -/

/-- The format of `n` bits with `w` exponent bits. -/
def format (n w : ℕ) : RealFormat := { expBits := w, fracBits := n - 1 - w }

/-- The model's formats are those of 32 bits with 8 and of 64 bits with 11 exponent bits. -/
theorem single_eq : single = format 32 8 := rfl

theorem double_eq : double = format 64 11 := rfl

/-- There is an exponent beside that of Zero and that of INF, and a mantissa. -/
abbrev validWidths (n w : ℕ) : Prop := 2 ≤ w ∧ w + 2 ≤ n

theorem validWidths_single : validWidths 32 8 := by decide

theorem validWidths_double : validWidths 64 11 := by decide

/-- A pattern taken apart. -/
def unpacked {n : ℕ} (w : ℕ) (b : BitVec n) : Unpacked := unpack (format n w) b.toNat

section Patterns

variable {n w : ℕ} (hv : validWidths n w)

@[simp] theorem unpacked_exp (b : BitVec n) : (unpacked w b).exp = patternExp w b := rfl

@[simp] theorem unpacked_frac (b : BitVec n) :
    (unpacked w b).frac = b.toNat % 2 ^ (n - 1 - w) := rfl

include hv

theorem validWidths.width : (format n w).expBits + (format n w).fracBits + 1 = n := by
  have := hv.2
  simp only [format]
  omega

theorem validWidths.precision : (format n w).fracBits + 1 = n - w := by
  have := hv.2
  simp only [format]
  omega

omit hv in
theorem expAll_cast (n w : ℕ) : ((expAll (format n w) : ℕ) : ℤ) = 2 ^ w - 1 := by
  rw [expAll, Nat.cast_sub Nat.one_le_two_pow]
  push_cast
  rfl

omit hv in
theorem bias_cast (n w : ℕ) : ((bias (format n w) : ℕ) : ℤ) = 2 ^ (w - 1) - 1 := by
  rw [bias, Nat.cast_sub Nat.one_le_two_pow]
  push_cast
  rfl

theorem validWidths.expAll_pos : 3 ≤ 2 ^ w - 1 := by
  have : 2 ^ 2 ≤ 2 ^ w := Nat.pow_le_pow_right (by omega) hv.1
  omega

theorem unpacked_sign (b : BitVec n) : (unpacked w b).sign = b.getMsbD 0 := by
  have hw := hv.width
  have hindex : w + (n - 1 - w) = n - 1 := by have := hv.2; omega
  have hpos : 0 < n := by have := hv.2; omega
  rw [BitVec.getMsbD, unpacked, unpack, BitVec.getLsbD, Nat.testBit_eq_decide_div_mod_eq]
  simp only [format, hindex, hpos, decide_true, Bool.true_and, Nat.sub_zero]
  rfl

theorem toNat_ofNat_pack {sign : Bool} {e m : ℕ} (he : e < 2 ^ w) (hm : m < 2 ^ (n - 1 - w)) :
    (BitVec.ofNat n (pack (format n w) sign e m)).toNat = pack (format n w) sign e m := by
  rw [BitVec.toNat_ofNat]
  refine Nat.mod_eq_of_lt ((pack_lt he hm).trans_eq ?_)
  rw [hv.width]

theorem unpacked_ofNat_pack {sign : Bool} {e m : ℕ} (he : e < 2 ^ w) (hm : m < 2 ^ (n - 1 - w)) :
    unpacked w (BitVec.ofNat n (pack (format n w) sign e m)) =
      { sign := sign, exp := e, frac := m } := by
  rw [unpacked, toNat_ofNat_pack hv he hm]
  exact unpack_pack he hm

theorem ofNat_pack_unpacked (b : BitVec n) :
    BitVec.ofNat n (pack (format n w) (unpacked w b).sign (unpacked w b).exp
      (unpacked w b).frac) = b := by
  rw [unpacked, pack_unpack (hv.width.symm ▸ b.isLt), BitVec.ofNat_toNat, BitVec.setWidth_eq]

/-- Complementing the sign of a pattern leaves its other fields. -/
theorem ofNat_pack_not_sign (b : BitVec n) :
    BitVec.ofNat n (pack (format n w) (!(unpacked w b).sign) (unpacked w b).exp
      (unpacked w b).frac) = b ^^^ BitVec.twoPow n (n - 1) := by
  have hindex : (format n w).expBits + (format n w).fracBits = n - 1 := by have := hv.width; omega
  have hlow : (unpacked w b).exp * 2 ^ (format n w).fracBits + (unpacked w b).frac < 2 ^ (n - 1) :=
    hindex ▸ fields_lt (Nat.mod_lt _ (by positivity)) (Nat.mod_lt _ (by positivity))
  have hb := ofNat_pack_unpacked hv b
  rw [pack_eq, hindex] at hb ⊢
  generalize (unpacked w b).exp * 2 ^ (format n w).fracBits + (unpacked w b).frac = low at hb hlow ⊢
  generalize (unpacked w b).sign = sign at hb ⊢
  rw [← hb]
  refine BitVec.eq_of_getLsbD_eq fun i hi => ?_
  simp only [BitVec.getLsbD_xor, BitVec.getLsbD_ofNat, BitVec.getLsbD_twoPow, hi, decide_true,
    Bool.true_and, Nat.testBit_two_pow_mul_add _ hlow]
  by_cases htop : i < n - 1
  · simp [htop, Nat.ne_of_gt htop]
  · obtain rfl : i = n - 1 := by omega
    cases sign <;> simp <;> omega

/-! ### Classes -/

omit hv in
theorem patternExp_le (b : BitVec n) : patternExp w b ≤ 2 ^ w - 1 :=
  Nat.le_sub_one_of_lt (Nat.mod_lt _ (by positivity))

omit hv in
/-- A pattern is of the class Zero or DN, a number, or INF or NaN. -/
theorem pattern_cases (w : ℕ) (b : BitVec n) :
    patternExp w b = 0 ∨ isNumber w b ∨ patternExp w b = 2 ^ w - 1 := by
  have hle := patternExp_le (w := w) b
  rw [isNumber]
  omega

omit hv in
theorem classOf_zero_code {b : BitVec n} (h : patternExp w b = 0) :
    classOf (format n w) (unpacked w b) =
      if b.toNat % 2 ^ (n - 1 - w) = 0 then .zero else .denormal :=
  if_pos h

theorem classOf_top_code {b : BitVec n} (h : patternExp w b = 2 ^ w - 1) :
    classOf (format n w) (unpacked w b) =
      if b.toNat % 2 ^ (n - 1 - w) = 0 then .infinity else .nan := by
  have hall := hv.expAll_pos
  exact (if_neg (by rw [unpacked_exp]; omega)).trans (if_pos h)

omit hv in
theorem classOf_number {b : BitVec n} (h : isNumber w b) :
    classOf (format n w) (unpacked w b) = .number := by
  obtain ⟨hlow, hhigh⟩ := h
  exact (if_neg (by rw [unpacked_exp]; omega)).trans (if_neg hhigh.ne)

theorem zeroLike_iff (b : BitVec n) :
    zeroLike (classOf (format n w) (unpacked w b)) = true ↔ patternExp w b = 0 := by
  have hall := hv.expAll_pos
  rcases pattern_cases w b with h | h | h
  · rw [classOf_zero_code h]
    split <;> simp [zeroLike, h]
  · have := h.1
    rw [classOf_number h]
    simp only [zeroLike]
    simp
    omega
  · rw [classOf_top_code hv h]
    split <;> simp [zeroLike, h] <;> omega

theorem infinityLike_iff (b : BitVec n) :
    infinityLike (classOf (format n w) (unpacked w b)) = true ↔ patternExp w b = 2 ^ w - 1 := by
  have hall := hv.expAll_pos
  rcases pattern_cases w b with h | h | h
  · rw [classOf_zero_code h]
    split <;> simp [infinityLike, h] <;> omega
  · rw [classOf_number h]
    simp [infinityLike, h.2.ne]
  · rw [classOf_top_code hv h]
    split <;> simp [infinityLike, h]

theorem classOf_eq_number_iff (b : BitVec n) :
    classOf (format n w) (unpacked w b) = .number ↔ isNumber w b := by
  refine ⟨fun hclass => ?_, classOf_number⟩
  rcases pattern_cases w b with h | h | h
  · simpa [hclass, zeroLike] using (zeroLike_iff hv b).2 h
  · exact h
  · simpa [hclass, infinityLike] using (infinityLike_iff hv b).2 h

omit hv in
/-- A Zero is the one pattern with the exponent code 0 that is not special. -/
theorem classOf_zero {b : BitVec n} (h : patternExp w b = 0) (hs : ¬ isSpecial w b) :
    classOf (format n w) (unpacked w b) = .zero := by
  rw [classOf_zero_code h, if_pos]
  by_contra hfrac
  exact hs (.inr ⟨h, hfrac⟩)

theorem classOf_eq_denormal_iff (b : BitVec n) :
    classOf (format n w) (unpacked w b) = .denormal ↔
      patternExp w b = 0 ∧ b.toNat % 2 ^ (n - 1 - w) ≠ 0 := by
  constructor
  · intro hclass
    have h := (zeroLike_iff hv b).1 (by rw [hclass]; rfl)
    refine ⟨h, fun hfrac => ?_⟩
    rw [classOf_zero_code h, if_pos hfrac] at hclass
    cases hclass
  · rintro ⟨h, hfrac⟩
    rw [classOf_zero_code h, if_neg hfrac]

theorem specialOperand_iff (b : BitVec n) :
    specialOperand (classOf (format n w) (unpacked w b)) = true ↔ isSpecial w b := by
  rw [specialOperand, Bool.or_eq_true, beq_iff_eq, classOf_eq_denormal_iff hv,
    infinityLike_iff hv, isSpecial, or_comm]

/-- Of the special patterns, DN has the exponent code 0. -/
theorem isSpecial.denormal_iff {b : BitVec n} (h : isSpecial w b) :
    classOf (format n w) (unpacked w b) = .denormal ↔ patternExp w b = 0 := by
  rw [classOf_eq_denormal_iff hv, and_iff_left_iff_imp]
  intro h0
  have hall := hv.expAll_pos
  exact h.elim (fun htop => by omega) And.right

theorem isSpecial.classOf_ne {b : BitVec n} (h : isSpecial w b) :
    classOf (format n w) (unpacked w b) ≠ .zero := by
  intro hclass
  rw [← specialOperand_iff hv, hclass] at h
  exact absurd h (by decide)

omit hv in
/-- For the arithmetic every class but the numbers is special (log entry 38). -/
theorem specialAddend_iff (c : RealClass) : specialAddend c = true ↔ c ≠ .number := by
  cases c <;> decide

/-! ### Values -/

omit hv in
theorem patternValue_eq (b : BitVec n) (E : ℤ) :
    patternValue w b E = signUnit (b.getMsbD 0) *
      ((1 + (b.toNat % 2 ^ (n - 1 - w) : ℕ) / 2 ^ (n - 1 - w)) * 2 ^ (E - (2 ^ (w - 1) - 1))) :=
  mul_assoc _ _ _

theorem exactOf_value (b : BitVec n) :
    (exactOf (format n w) (unpacked w b)).value = numberValue w b := by
  rw [numberValue, patternValue_eq, Exact.value, exactOf, unpacked_sign hv, unpacked_exp,
    unpacked_frac, bias_cast]
  congr 1
  rw [zpow_sub₀ two_ne_zero, zpow_natCast]
  simp only [format]
  push_cast
  field_simp

omit hv in
theorem numberValue_ne_zero (b : BitVec n) : numberValue w b ≠ 0 := by
  rw [numberValue, patternValue_eq]
  exact mul_ne_zero (signUnit_ne_zero _) (by positivity)

/-- The pattern of a rounded value stands for it, with the true exponent code (42_real.md R263). -/
theorem patternValue_packRounded {r : Rounded} (hlow : 2 ^ (n - 1 - w) ≤ r.sig)
    (hhigh : r.sig < 2 ^ (n - 1 - w + 1)) :
    patternValue w (BitVec.ofNat n (packRounded (format n w) r)) r.exp = r.value (format n w) ∧
      (patternExp w (BitVec.ofNat n (packRounded (format n w) r)) : ℤ) = r.exp % 2 ^ w := by
  have hmod : 0 ≤ r.exp % 2 ^ w := Int.emod_nonneg _ (by positivity)
  have hexp : (r.exp % 2 ^ w).toNat < 2 ^ w := by
    rw [Int.toNat_lt hmod]
    exact_mod_cast Int.emod_lt_of_pos r.exp (by positivity : (0 : ℤ) < 2 ^ w)
  have hunpacked := unpacked_ofNat_pack hv (sign := r.sign) hexp
    (Nat.mod_lt r.sig (by positivity : 0 < 2 ^ (n - 1 - w)))
  rw [packRounded]
  simp only [format] at hunpacked ⊢
  generalize BitVec.ofNat n (pack _ _ _ _) = d at hunpacked ⊢
  have hsign : d.getMsbD 0 = r.sign := by rw [← unpacked_sign hv, hunpacked]
  have hfrac : d.toNat % 2 ^ (n - 1 - w) = r.sig - 2 ^ (n - 1 - w) := by
    rw [← unpacked_frac (w := w), hunpacked, Nat.mod_eq_sub_mod hlow, Nat.mod_eq_of_lt]
    rw [pow_succ] at hhigh
    omega
  have hcode : patternExp w d = (r.exp % 2 ^ w).toNat := by rw [← unpacked_exp, hunpacked]
  refine ⟨?_, by rw [hcode, Int.toNat_of_nonneg hmod]⟩
  have hbias := bias_cast n w
  simp only [format] at hbias
  rw [patternValue_eq, hsign, hfrac, Rounded.value, hbias, Nat.cast_sub hlow]
  congr 1
  rw [zpow_sub₀ two_ne_zero (_ - _), zpow_natCast]
  push_cast
  field_simp
  ring

omit hv in
/-- A value in the range of the numbers has an exponent code of a number. -/
theorem exponent_in_range {d : BitVec n} {E : ℤ}
    (hlow : 2 ^ (1 - (2 ^ (w - 1) - 1) : ℤ) ≤ |patternValue w d E|)
    (hhigh : |patternValue w d E| < 2 ^ (2 ^ w - 1 - (2 ^ (w - 1) - 1) : ℤ)) :
    1 ≤ E ∧ E < 2 ^ w - 1 := by
  have hfrac0 : (0 : ℚ) ≤ (d.toNat % 2 ^ (n - 1 - w) : ℕ) / 2 ^ (n - 1 - w) := by positivity
  have hfrac1 : ((d.toNat % 2 ^ (n - 1 - w) : ℕ) : ℚ) / 2 ^ (n - 1 - w) < 1 := by
    rw [div_lt_one (by positivity)]
    exact_mod_cast Nat.mod_lt _ (by positivity)
  have hpos : (0 : ℚ) < 2 ^ (E - (2 ^ (w - 1) - 1)) := by positivity
  rw [patternValue_eq, abs_signUnit_mul (by positivity)] at hlow hhigh
  constructor
  · have hlt : (2 : ℚ) ^ (1 - (2 ^ (w - 1) - 1) : ℤ) < 2 ^ (E - (2 ^ (w - 1) - 1) + 1) := by
      rw [zpow_add_one₀ two_ne_zero]
      nlinarith
    have := (zpow_lt_zpow_iff_right₀ one_lt_two).1 hlt
    omega
  · have hlt : (2 : ℚ) ^ (E - (2 ^ (w - 1) - 1)) < 2 ^ (2 ^ w - 1 - (2 ^ (w - 1) - 1) : ℤ) := by
      nlinarith
    have := (zpow_lt_zpow_iff_right₀ one_lt_two).1 hlt
    omega

omit hv in
/-- A pattern whose exponent code is its exponent is a number of that value. -/
theorem isNumber_of_exponent {d : BitVec n} {E : ℤ} (hE : (patternExp w d : ℤ) = E % 2 ^ w)
    (h1 : 1 ≤ E) (h2 : E < 2 ^ w - 1) : isNumber w d ∧ numberValue w d = patternValue w d E := by
  rw [Int.emod_eq_of_lt (by omega) (by omega)] at hE
  have hall : ((2 ^ w - 1 : ℕ) : ℤ) = 2 ^ w - 1 := expAll_cast n w
  refine ⟨⟨by omega, ?_⟩, by rw [numberValue, hE]⟩
  zify
  rw [hall]
  omega

end Patterns

end Sys2Proof.Machine

/-! SUPPORT. The results of real instructions and how they end (42_real.md R254 to R264). -/

namespace Sys2Proof.Machine

/-! ### Ends -/

/-- Arithmetic trap `k` of an instruction that began in state `s`, from state `t`. -/
abbrev arithTrap (s : State) (x y : Nib) (op k : Word) (t : State) : Out :=
  enterEvent
    { off := 0x41C, saved := s.pc, sr0 := none, sr1 := some op,
      sr2 := some ((x ++ y).setWidth 32), sr3 := some k } t

/-- How a real instruction ends in state `s` with a result: `put d` is the state with `d` delivered,
and `trap k` takes arithmetic trap `k`. -/
def RealResult.finish {n : ℕ} (r : RealResult) (s : State) (put : BitVec n → State)
    (trap : Word → State → Out) : Out :=
  let t := match r.value with
    | some v => put (BitVec.ofNat n v)
    | none => s
  match r.trap with
  | some k => trap (BitVec.ofNat 32 k) t
  | none => .next (t.advance 2)

theorem realToReg_eq (op : Byte) (x y : Nib) (r : RealResult) (s : State) :
    realToReg op x y r s = r.finish s (s.setReg x) (arithTrap s x y (byteWord op)) := by
  obtain ⟨_ | v, _ | k⟩ := r <;> rfl

theorem realToPair_eq (op : Byte) (x y : Nib) (r : RealResult) (s : State) :
    realToPair op x y r s = r.finish s (s.setPair x) (arithTrap s x y (byteWord op)) := by
  obtain ⟨_ | v, _ | k⟩ := r <;> rfl

section Finish

variable {n : ℕ} {s : State} {put : BitVec n → State} {trap : Word → State → Out}

theorem finish_delivers (v : ℕ) :
    (delivers v).finish s put trap = .next ((put (BitVec.ofNat n v)).advance 2) := rfl

/-- A delivered result takes the inexact trap if it was rounded and the trap is on. -/
theorem finish_inexactTrap (v : ℕ) {inexact : Bool} {p : Prop} [Decidable p]
    (hp : inexact = true ↔ p) :
    ({ value := some v, trap := inexactTrap s.tw inexact } : RealResult).finish s put trap =
      if p ∧ s.tw.getMsbD 24 = true then trap 24 (put (BitVec.ofNat n v))
      else .next ((put (BitVec.ofNat n v)).advance 2) := by
  simp only [← hp, ← Bool.and_eq_true, inexactTrap, mbit_eq_getMsbD s.tw (by decide : 24 < 32)]
  cases inexact && s.tw.getMsbD 24 <;> rfl

end Finish

/-! ### Rounded results -/

section Rounded

variable {n w : ℕ} (hv : validWidths n w)

include hv

/-- What `roundTo` gives, in the terms of patterns and rationals. -/
theorem roundTo_facts {v : Exact} (hnum : v.num ≠ 0) (hden : v.den ≠ 0) (tw : Word) :
    let r := roundTo (format n w) (roundMode tw) v
    let d := BitVec.ofNat n (packRounded (format n w) r)
    rounds (n - w) (tw.getMsbD 22) (tw.getMsbD 23) v.value (r.value (format n w)) ∧
      r.value (format n w) = patternValue w d r.exp ∧ (patternExp w d : ℤ) = r.exp % 2 ^ w ∧
      (r.inexact = true ↔ r.value (format n w) ≠ v.value) ∧
      r.sign = decide (r.value (format n w) < 0) := by
  have hfrac : 1 ≤ (format n w).fracBits := by
    have := hv.2
    simp only [format]
    omega
  rw [roundMode_eq]
  intro r d
  obtain ⟨q, rest, den, e, h⟩ := roundTo_roundedFrom hnum hden (format n w)
    (fieldMode (tw.getMsbD 22) (tw.getMsbD 23))
  obtain ⟨hvalue, hexp⟩ := patternValue_packRounded hv h.sigLow h.sigHigh
  exact ⟨hv.precision ▸ h.rounds hfrac, hvalue.symm, hexp, h.inexact_iff,
    by rw [Bool.eq_iff_iff, decide_eq_true_iff, h.value_neg_iff]⟩

/-- A rounded result ends as R258 to R261 and R263 say. -/
theorem deliverRounded_outcome {v : Exact} (hnum : v.num ≠ 0) (hden : v.den ≠ 0) (s : State)
    (put : BitVec n → State) (trap : Word → State → Out) :
    realOutcome w s put trap v.value
      ((deliverRounded (format n w) s.tw
        (roundTo (format n w) (roundMode s.tw) v)).finish s put trap) := by
  obtain ⟨hrounds, hvalue, hexp, hinexact, hsign⟩ := roundTo_facts hv hnum hden s.tw
  generalize roundTo (format n w) (roundMode s.tw) v = r at hrounds hvalue hexp hinexact hsign ⊢
  refine ⟨_, _, _, hrounds, hvalue, hexp, ?_⟩
  intro finish
  have hfinish (u : ℕ) : ({ value := some u, trap := inexactTrap s.tw r.inexact } :
      RealResult).finish s put trap = finish (put (BitVec.ofNat n u)) :=
    finish_inexactTrap u hinexact
  rw [deliverRounded, expAll_cast, mbit_eq_getMsbD s.tw (by decide),
    mbit_eq_getMsbD s.tw (by decide), hsign]
  split_ifs
  · rfl
  · exact hfinish _
  · rfl
  · refine (hfinish _).trans ?_
    simp [zeroBits, pack]
  · exact hfinish _

end Rounded

/-! ### Arithmetic -/

theorem value_of_int (k e : ℤ) :
    (Exact.mk (decide (k < 0)) k.natAbs 1 e).value = k * 2 ^ e := by
  rw [Exact.value, Nat.cast_one, div_one, ← mul_assoc]
  congr 1
  rw [Nat.cast_natAbs]
  rcases lt_or_ge k 0 with h | h
  · rw [decide_eq_true h, abs_of_neg h]
    simp [signUnit]
  · rw [decide_eq_false (not_lt.2 h), abs_of_nonneg h]
    simp [signUnit]

theorem signedNat_cast (sign : Bool) (k : ℕ) :
    ((signedNat sign k : ℤ) : ℚ) = signUnit sign * k := by
  cases sign <;> simp [signedNat, signUnit]

/-- The magnitude of an addend in units of `2 ^ e`, `e` at most its exponent. -/
theorem scaled_addend {e x : ℤ} (h : e ≤ x) (k : ℕ) :
    ((k * 2 ^ (x - e).toNat : ℕ) : ℚ) * 2 ^ e = k * 2 ^ x := by
  have hx : x = ((x - e).toNat : ℤ) + e := by omega
  rw [Nat.cast_mul, Nat.cast_pow, mul_assoc]
  conv_rhs => rw [hx, zpow_add₀ two_ne_zero, zpow_natCast]
  norm_num

section Operations

variable {f : RealFormat} {a b : Unpacked}

theorem exactOf_num_pos (f : RealFormat) (a : Unpacked) : 0 < (exactOf f a).num :=
  Nat.add_pos_left (by positivity) _

theorem exactOp_den_ne_zero (op : RealOp) : (exactOp f op a b).den ≠ 0 := by
  cases op
  case div => exact (exactOf_num_pos f b).ne'
  all_goals exact one_ne_zero

theorem signUnit_bne (p q : Bool) : signUnit (p != q) = signUnit p * signUnit q := by
  cases p <;> cases q <;> simp [signUnit]

theorem exactOf_value_eq (a : Unpacked) :
    (exactOf f a).value = signUnit a.sign * ((exactOf f a).num * 2 ^ (exactOf f a).exp) := by
  rw [Exact.value]
  simp [exactOf]

/-- The sum of two numbers, the second with the sign it has as an addend. -/
theorem exactSum_value (op : RealOp) (hop : op = .add ∨ op = .sub) :
    (exactOp f op a b).value = (exactOf f a).value +
      signUnit (addendSign op b) * ((exactOf f b).num * 2 ^ (exactOf f b).exp) := by
  have hsum : exactOp f op a b =
      let e := min (exactOf f a).exp (exactOf f b).exp
      let k := signedNat a.sign ((exactOf f a).num * 2 ^ ((exactOf f a).exp - e).toNat) +
        signedNat (addendSign op b) ((exactOf f b).num * 2 ^ ((exactOf f b).exp - e).toNat)
      Exact.mk (decide (k < 0)) k.natAbs 1 e := by
    rcases hop with rfl | rfl <;> rfl
  rw [hsum, value_of_int, Int.cast_add, signedNat_cast, signedNat_cast, add_mul, mul_assoc,
    mul_assoc, scaled_addend (min_le_left _ _), scaled_addend (min_le_right _ _),
    exactOf_value_eq]

/-- The exact result of an operation is that of the numbers. -/
theorem exactOp_value (op : RealOp) :
    (exactOp f op a b).value = exactResult op (exactOf f a).value (exactOf f b).value := by
  have hb := exactOf_value_eq (f := f) b
  cases op
  case add =>
    rw [exactSum_value .add (.inl rfl), exactResult, hb]
    rfl
  case sub =>
    have hsign : signUnit (addendSign .sub b) = -signUnit b.sign := by
      cases h : b.sign <;> simp [addendSign, h, signUnit]
    rw [exactSum_value .sub (.inr rfl), exactResult, hb, hsign, neg_mul, sub_eq_add_neg]
  case mul =>
    rw [exactResult, hb, exactOf_value_eq, Exact.value]
    simp only [exactOp, signUnit_bne, Nat.cast_mul, Nat.cast_one, div_one]
    rw [zpow_add₀ two_ne_zero]
    ring
  case div =>
    have hunit : (signUnit b.sign)⁻¹ = signUnit b.sign := by cases b.sign <;> norm_num [signUnit]
    rw [exactResult, hb, exactOf_value_eq, Exact.value]
    simp only [exactOp, signUnit_bne]
    rw [zpow_sub₀ two_ne_zero, div_eq_mul_inv (signUnit a.sign * _), mul_inv, hunit, mul_inv]
    ring

/-- Where two numbers add up to zero, not both are negative. -/
theorem zeroSumSign_of_zero {op : RealOp} (hop : op = .add ∨ op = .sub)
    (h : (exactOp f op a b).value = 0) : zeroSumSignOf a.sign (addendSign op b) = false := by
  have ha : (0 : ℚ) < (exactOf f a).num := by exact_mod_cast exactOf_num_pos f a
  have hb : (0 : ℚ) < (exactOf f b).num := by exact_mod_cast exactOf_num_pos f b
  have ha' : 0 < ((exactOf f a).num : ℚ) * 2 ^ (exactOf f a).exp := by positivity
  have hb' : 0 < ((exactOf f b).num : ℚ) * 2 ^ (exactOf f b).exp := by positivity
  rw [exactSum_value op hop, exactOf_value_eq] at h
  cases hsa : a.sign <;> cases hsb : addendSign op b
  case true.true =>
    rw [hsa, hsb] at h
    simp only [signUnit, if_true] at h
    linarith
  all_goals rfl

end Operations

section Arith

variable {n w : ℕ} (hv : validWidths n w) {a b : BitVec n} {tw : Word}

include hv

omit hv in
theorem realArith_numbers {op : RealOp} (ha : isNumber w a) (hb : isNumber w b)
    (hnum : (exactOp (format n w) op (unpacked w a) (unpacked w b)).num ≠ 0) :
    realArith (format n w) op tw a.toNat b.toNat =
      deliverRounded (format n w) tw (roundTo (format n w) (roundMode tw)
        (exactOp (format n w) op (unpacked w a) (unpacked w b))) :=
  (if_pos ⟨classOf_number ha, classOf_number hb⟩).trans (if_neg hnum)

theorem realArith_exact_zero (op : RealOp) (ha : isNumber w a) (hb : isNumber w b)
    (h : exactResult op (numberValue w a) (numberValue w b) = 0) :
    realArith (format n w) op tw a.toNat b.toNat = delivers 0 := by
  have hop : op = .add ∨ op = .sub := by
    cases op
    case add => exact .inl rfl
    case sub => exact .inr rfl
    case mul => exact absurd h (mul_ne_zero (numberValue_ne_zero a) (numberValue_ne_zero b))
    case div => exact absurd h (div_ne_zero (numberValue_ne_zero a) (numberValue_ne_zero b))
  rw [← exactOf_value hv, ← exactOf_value hv, ← exactOp_value] at h
  have hnum := (Exact.value_eq_zero_iff (exactOp_den_ne_zero op)).1 h
  refine ((if_pos ⟨classOf_number ha, classOf_number hb⟩).trans (if_pos hnum)).trans ?_
  change delivers (zeroBits _ (zeroSumSignOf (unpacked w a).sign
    (addendSign op (unpacked w b)))) = _
  rw [zeroSumSign_of_zero hop h]
  simp [zeroBits, pack]

theorem realArith_before (op : RealOp) (h : tw.getMsbD 25 = true)
    (hspecial : ¬ (isNumber w a ∧ isNumber w b)) :
    realArith (format n w) op tw a.toNat b.toNat = { value := none, trap := some 25 } := by
  rw [← classOf_eq_number_iff hv, ← classOf_eq_number_iff hv] at hspecial
  have hbefore : (mbit tw 25 && (specialAddend (classOf (format n w) (unpacked w a)) ||
      specialAddend (classOf (format n w) (unpacked w b)))) = true := by
    rw [mbit_eq_getMsbD _ (by decide), h, Bool.true_and, Bool.or_eq_true, specialAddend_iff,
      specialAddend_iff]
    tauto
  exact (if_neg hspecial).trans (if_pos hbefore)

/-- With the before trap off an operand that is no number is met by Table 4-1. -/
theorem realArith_table (op : RealOp) (h : tw.getMsbD 25 = false)
    (hspecial : ¬ (isNumber w a ∧ isNumber w b)) :
    realArith (format n w) op tw a.toNat b.toNat =
      match table41 (format n w) op (unpacked w a) (unpacked w b) with
      | some r => delivers r
      | none =>
        if tw.getMsbD 20 then { value := none, trap := some 20 }
        else delivers (infinityBits (format n w) (a.getMsbD 0 != b.getMsbD 0)) := by
  rw [← classOf_eq_number_iff hv, ← classOf_eq_number_iff hv] at hspecial
  rw [← unpacked_sign hv, ← unpacked_sign hv, ← mbit_eq_getMsbD _ (by decide : 20 < 32)]
  rw [← mbit_eq_getMsbD _ (by decide : 25 < 32)] at h
  refine (if_neg hspecial).trans (if_neg ?_)
  rw [h]
  exact Bool.false_ne_true

theorem table41_div_zero (hb : patternExp w b = 0) :
    table41 (format n w) .div (unpacked w a) (unpacked w b) = none :=
  if_pos ((zeroLike_iff hv b).2 hb)

end Arith

end Sys2Proof.Machine

/-! SUPPORT. The real arithmetic instructions: Table 4-1, traps and rounding (42_real.md R253 to
R268, R275 to R278). -/

namespace Sys2Proof.Machine

/-! ### Table 4-1 -/

/-- The pattern of a Zero. -/
abbrev patternZero (n : ℕ) (negative : Bool) : BitVec n :=
  if negative then BitVec.twoPow n (n - 1) else 0

section Table

variable {n w : ℕ} (hv : validWidths n w) {a b : BitVec n}

include hv

theorem ofNat_zeroBits (negative : Bool) :
    BitVec.ofNat n (zeroBits (format n w) negative) = patternZero n negative := by
  have hindex : (format n w).expBits + (format n w).fracBits = n - 1 := by have := hv.width; omega
  rw [zeroBits, pack_eq, hindex, zero_mul, add_zero, add_zero]
  cases negative
  · rfl
  · refine BitVec.eq_of_toNat_eq ?_
    rw [patternZero, if_pos rfl, BitVec.toNat_twoPow, BitVec.toNat_ofNat, Bool.toNat_true, mul_one]

theorem counts_as_zero {b : BitVec n} (h : patternExp w b = 0) :
    zeroLike (classOf (format n w) (unpacked w b)) = true ∧
      infinityLike (classOf (format n w) (unpacked w b)) = false ∧ ¬ isNumber w b := by
  have hall := hv.expAll_pos
  refine ⟨(zeroLike_iff hv b).2 h, ?_, fun hb => by have := hb.1; omega⟩
  rw [← Bool.not_eq_true, infinityLike_iff hv]
  omega

theorem counts_as_infinity {b : BitVec n} (h : patternExp w b = 2 ^ w - 1) :
    zeroLike (classOf (format n w) (unpacked w b)) = false ∧
      infinityLike (classOf (format n w) (unpacked w b)) = true ∧ ¬ isNumber w b := by
  have hall := hv.expAll_pos
  refine ⟨?_, (infinityLike_iff hv b).2 h, fun hb => by have := hb.2; omega⟩
  rw [← Bool.not_eq_true, zeroLike_iff hv]
  omega

omit hv in
theorem counts_as_number {b : BitVec n} (h : isNumber w b) :
    zeroLike (classOf (format n w) (unpacked w b)) = false ∧
      infinityLike (classOf (format n w) (unpacked w b)) = false := by
  rw [classOf_number h]
  exact ⟨rfl, rfl⟩

/-- Whatever is delivered as the table of the model says is delivered as Table 4-1 says. -/
theorem followsTable_of_table41 {gives : RealOp → BitVec n → Prop}
    (hgives : ¬ (isNumber w a ∧ isNumber w b) → ∀ op v,
      table41 (format n w) op (unpacked w a) (unpacked w b) = some v →
        gives op (BitVec.ofNat n v)) :
    followsTable w a b gives := by
  have hsa := unpacked_sign hv a
  have hsb := unpacked_sign hv b
  have hinf (hne : ¬ (isNumber w a ∧ isNumber w b)) (op : RealOp) (g : Bool)
      (h : table41 (format n w) op (unpacked w a) (unpacked w b) =
        some (infinityBits (format n w) g)) : gives op (patternInf n w g) := hgives hne op _ h
  have hzero (hne : ¬ (isNumber w a ∧ isNumber w b)) (op : RealOp) (g : Bool)
      (h : table41 (format n w) op (unpacked w a) (unpacked w b) =
        some (zeroBits (format n w) g)) : gives op (patternZero n g) :=
    ofNat_zeroBits hv g ▸ hgives hne op _ h
  refine ⟨fun ha hb => ?infinities, fun ha hb => ?infinityByNumber, fun ha hb =>
    ?numberByInfinity, fun ha hb => ?infinityByZero, fun ha hb => ?zeroByInfinity, fun ha hb =>
    ?numberByZero, fun ha hb => ?zeroByNumber, fun ha hb => ?zeros⟩
  case infinities =>
    obtain ⟨za, ia, na⟩ := counts_as_infinity hv ha
    obtain ⟨zb, ib, -⟩ := counts_as_infinity hv hb
    have hne : ¬ (isNumber w a ∧ isNumber w b) := fun h => na h.1
    refine ⟨hinf hne .add _ ?_, hinf hne .sub _ ?_, hinf hne .mul _ ?_, hzero hne .div _ ?_⟩ <;>
      simp [table41, za, zb, ia, ib, hsa, hsb]
  case infinityByNumber =>
    obtain ⟨za, ia, na⟩ := counts_as_infinity hv ha
    obtain ⟨zb, ib⟩ := counts_as_number hb
    have hne : ¬ (isNumber w a ∧ isNumber w b) := fun h => na h.1
    refine ⟨hinf hne .add _ ?_, hinf hne .sub _ ?_, hinf hne .mul _ ?_, hinf hne .div _ ?_⟩ <;>
      simp [table41, za, zb, ia, ib, hsa, hsb]
  case numberByInfinity =>
    obtain ⟨za, ia⟩ := counts_as_number ha
    obtain ⟨zb, ib, nb⟩ := counts_as_infinity hv hb
    have hne : ¬ (isNumber w a ∧ isNumber w b) := fun h => nb h.2
    refine ⟨hinf hne .add _ ?_, hinf hne .sub _ ?_, hinf hne .mul _ ?_, hzero hne .div _ ?_⟩ <;>
      simp [table41, addendSign, za, zb, ia, ib, hsa, hsb]
  case infinityByZero =>
    obtain ⟨za, ia, na⟩ := counts_as_infinity hv ha
    obtain ⟨zb, ib, -⟩ := counts_as_zero hv hb
    have hne : ¬ (isNumber w a ∧ isNumber w b) := fun h => na h.1
    refine ⟨hinf hne .add _ ?_, hinf hne .sub _ ?_, hzero hne .mul _ ?_⟩ <;>
      simp [table41, za, zb, ia, ib, hsa, hsb]
  case zeroByInfinity =>
    obtain ⟨za, ia, na⟩ := counts_as_zero hv ha
    obtain ⟨zb, ib, -⟩ := counts_as_infinity hv hb
    have hne : ¬ (isNumber w a ∧ isNumber w b) := fun h => na h.1
    refine ⟨hinf hne .add _ ?_, hinf hne .sub _ ?_, hzero hne .mul _ ?_, hzero hne .div _ ?_⟩ <;>
      simp [table41, addendSign, za, zb, ia, ib, hsa, hsb]
  case numberByZero =>
    obtain ⟨za, ia⟩ := counts_as_number ha
    obtain ⟨zb, ib, nb⟩ := counts_as_zero hv hb
    have hne : ¬ (isNumber w a ∧ isNumber w b) := fun h => nb h.2
    have hself := ofNat_pack_unpacked hv a
    refine ⟨hself ▸ hgives hne .add _ ?_, hself ▸ hgives hne .sub _ ?_, hzero hne .mul _ ?_⟩ <;>
      simp [table41, za, zb, ia, ib, hsa, hsb]
  case zeroByNumber =>
    obtain ⟨za, ia, na⟩ := counts_as_zero hv ha
    obtain ⟨zb, ib⟩ := counts_as_number hb
    have hne : ¬ (isNumber w a ∧ isNumber w b) := fun h => na h.1
    have hself := ofNat_pack_unpacked hv b
    have hopposite := ofNat_pack_not_sign hv b
    refine ⟨hself ▸ hgives hne .add _ ?_, hopposite ▸ hgives hne .sub _ ?_, hzero hne .mul _ ?_,
      hzero hne .div _ ?_⟩ <;>
      simp [table41, addendSign, za, zb, ia, ib, hsa, hsb]
  case zeros =>
    obtain ⟨za, ia, na⟩ := counts_as_zero hv ha
    obtain ⟨zb, ib, -⟩ := counts_as_zero hv hb
    have hne : ¬ (isNumber w a ∧ isNumber w b) := fun h => na h.1
    refine ⟨hzero hne .add _ ?_, hzero hne .sub _ ?_, hzero hne .mul _ ?_⟩ <;>
      simp [table41, addendSign, za, zb, ia, ib, hsa, hsb, zeroSumSignOf, zeroSumSign]

end Table

/-! ### The arithmetic instructions -/

/-- The single arithmetic instructions. -/
abbrev singleForm (x y : Nib) (op : RealOp) : Instr :=
  match op with
  | .add => .radd x y
  | .sub => .rsub x y
  | .mul => .rmpy x y
  | .div => .rdiv x y

/-- The double arithmetic instructions. -/
abbrev doubleForm (x y : Nib) (op : RealOp) : Instr :=
  match op with
  | .add => .dradd x y
  | .sub => .drsub x y
  | .mul => .drmpy x y
  | .div => .drdiv x y

/-- The opcodes of the single arithmetic instructions (42_real.md R265 to R268). -/
def singleOpcode (op : RealOp) : Word :=
  match op with
  | .add => 0x23
  | .sub => 0x24
  | .mul => 0x25
  | .div => 0x26

/-- The opcodes of the double arithmetic instructions (42_real.md R275 to R278). -/
def doubleOpcode (op : RealOp) : Word :=
  match op with
  | .add => 0x33
  | .sub => 0x34
  | .mul => 0x35
  | .div => 0x36

theorem exec_singleForm (x y : Nib) (op : RealOp) (s : State) :
    exec (singleForm x y op) s =
      (realArith (format 32 8) op s.tw (s.reg x).toNat (s.reg y).toNat).finish s (s.setReg x)
        (arithTrap s x y (singleOpcode op)) := by
  rw [← single_eq]
  cases op <;> exact realToReg_eq _ _ _ _ _

theorem exec_doubleForm (x y : Nib) (op : RealOp) (s : State) :
    exec (doubleForm x y op) s =
      (realArith (format 64 11) op s.tw (s.pair x).toNat (s.pair y).toNat).finish s (s.setPair x)
        (arithTrap s x y (doubleOpcode op)) := by
  rw [← double_eq]
  cases op <;> exact realToPair_eq _ _ _ _ _

section Ends

variable {n w : ℕ} (hv : validWidths n w) {a b : BitVec n} {s : State} {put : BitVec n → State}
  {trap : Word → State → Out}

include hv

/-- The two ends of a division by zero (42_real.md R257). -/
theorem finish_div_zero (h25 : s.tw.getMsbD 25 = false) (hb : patternExp w b = 0) :
    (realArith (format n w) .div s.tw a.toNat b.toNat).finish s put trap =
      if s.tw.getMsbD 20 then trap 20 s
      else .next ((put (patternInf n w (a.getMsbD 0 != b.getMsbD 0))).advance 2) := by
  have hnb : ¬ isNumber w b := (counts_as_zero hv hb).2.2
  rw [realArith_table hv .div h25 fun h => hnb h.2, table41_div_zero hv hb]
  dsimp only
  split <;> rfl

theorem finish_dividesByZero (h25 : s.tw.getMsbD 25 = false) (h20 : s.tw.getMsbD 20 = false)
    (traps : RealOp → Word → State → Out) :
    dividesByZero w a b fun op d =>
      (realArith (format n w) op s.tw a.toNat b.toNat).finish s put (traps op) =
        .next ((put d).advance 2) := fun hb =>
  (finish_div_zero hv h25 hb).trans (if_neg (by rw [h20]; exact Bool.false_ne_true))

theorem finish_table (h25 : s.tw.getMsbD 25 = false) (traps : RealOp → Word → State → Out) :
    followsTable w a b fun op d =>
      (realArith (format n w) op s.tw a.toNat b.toNat).finish s put (traps op) =
        .next ((put d).advance 2) := by
  refine followsTable_of_table41 hv fun hne op v h => ?_
  rw [realArith_table hv op h25 hne, h]
  rfl

/-- What R254, R258 to R261 and R264 say of an operation, but for Table 4-1. -/
theorem finish_arith (op : RealOp) :
    (s.tw.getMsbD 25 = true → ¬ (isNumber w a ∧ isNumber w b) →
      (realArith (format n w) op s.tw a.toNat b.toNat).finish s put trap = trap 25 s) ∧
    (isNumber w a → isNumber w b →
      let r := exactResult op (numberValue w a) (numberValue w b)
      (r ≠ 0 → realOutcome w s put trap r
        ((realArith (format n w) op s.tw a.toNat b.toNat).finish s put trap)) ∧
      (r = 0 → (realArith (format n w) op s.tw a.toNat b.toNat).finish s put trap =
        .next ((put 0).advance 2))) := by
  refine ⟨fun h25 hspecial => ?_, fun ha hb => ⟨fun hr => ?_, fun hr => ?_⟩⟩
  · rw [realArith_before hv op h25 hspecial]
    rfl
  · have hden := exactOp_den_ne_zero (f := format n w) (a := unpacked w a) (b := unpacked w b) op
    simp only [← exactOf_value hv, ← exactOp_value] at hr ⊢
    have hnum := mt (Exact.value_eq_zero_iff hden).2 hr
    rw [realArith_numbers ha hb hnum]
    exact deliverRounded_outcome hv hnum hden s put trap
  · rw [realArith_exact_zero hv op ha hb hr]
    rfl

end Ends

/-- A statement about the four instructions of a format, from one about each operation. -/
theorem forall_forms {form : RealOp → Instr} {opcode : RealOp → Word}
    {P : Instr × RealOp × Word → Prop} (h : ∀ op, P (form op, op, opcode op)) :
    ∀ p ∈ [(form .add, RealOp.add, opcode .add), (form .sub, .sub, opcode .sub),
      (form .mul, .mul, opcode .mul), (form .div, .div, opcode .div)], P p := by
  simp only [List.forall_mem_cons, List.not_mem_nil, false_imp_iff, implies_true, and_true]
  exact ⟨h _, h _, h _, h _⟩

/-! ### The obligations -/

/-- Settles O28: Table 4-1 in both formats, and the divisions by zero with their trap off. -/
theorem specialOperands : Obligations.SpecialOperands := by
  intro s x y h25 single double
  have hsingle : single = fun op d =>
      (realArith (format 32 8) op s.tw (s.reg x).toNat (s.reg y).toNat).finish s (s.setReg x)
        (arithTrap s x y (singleOpcode op)) = .next ((s.setReg x d).advance 2) := by
    funext op d
    have hexec := exec_singleForm x y op s
    cases op <;> exact congrArg (· = _) hexec
  have hdouble : double = fun op d =>
      (realArith (format 64 11) op s.tw (s.pair x).toNat (s.pair y).toNat).finish s (s.setPair x)
        (arithTrap s x y (doubleOpcode op)) = .next ((s.setPair x d).advance 2) := by
    funext op d
    have hexec := exec_doubleForm x y op s
    cases op <;> exact congrArg (· = _) hexec
  rw [hsingle, hdouble]
  have hs := validWidths_single
  have hd := validWidths_double
  exact ⟨finish_table hs h25 fun op => arithTrap s x y (singleOpcode op),
    finish_table hd h25 fun op => arithTrap s x y (doubleOpcode op), fun h20 =>
    ⟨finish_dividesByZero hs h25 h20 fun op => arithTrap s x y (singleOpcode op),
      finish_dividesByZero hd h25 h20 fun op => arithTrap s x y (doubleOpcode op)⟩⟩

/-! ### The manual's examples of a wrapped result -/

/-- `2 ^ 127` by 4 is `2 ^ 129`, exact in every mode (42_real.md R263). -/
theorem roundTo_manual_product (mode : Rounding) :
    roundTo (format 32 8) mode
        (exactOp (format 32 8) .mul (unpacked 8 0x7F000000#32) (unpacked 8 0x40800000#32)) =
      { sign := false, exp := 256, sig := 2 ^ 23, inexact := false } := by
  cases mode <;> decide

/-- `2 ^ -126` by 8 is `2 ^ -129`, exact in every mode (42_real.md R263). -/
theorem roundTo_manual_quotient (mode : Rounding) :
    roundTo (format 32 8) mode
        (exactOp (format 32 8) .div (unpacked 8 0x00800000#32) (unpacked 8 0x41000000#32)) =
      { sign := false, exp := -2, sig := 2 ^ 23, inexact := false } := by
  cases mode <;> decide

theorem realArith_manual_product {tw : Word} (h18 : tw.getMsbD 18 = true) :
    realArith (format 32 8) .mul tw (0x7F000000#32).toNat (0x40800000#32).toNat =
      { value := some 0, trap := some 18 } := by
  rw [realArith_numbers (by unfold isNumber; decide) (by unfold isNumber; decide) (by decide),
    roundTo_manual_product, deliverRounded, mbit_eq_getMsbD tw (by decide), h18]
  rfl

theorem realArith_manual_quotient {tw : Word} (h19 : tw.getMsbD 19 = true) :
    realArith (format 32 8) .div tw (0x00800000#32).toNat (0x41000000#32).toNat =
      { value := some 0x7F000000, trap := some 19 } := by
  rw [realArith_numbers (by unfold isNumber; decide) (by unfold isNumber; decide) (by decide),
    roundTo_manual_quotient, deliverRounded, mbit_eq_getMsbD tw (by decide : 19 < 32), h19]
  rfl

/-- Settles O29: the ends of the four operations in both formats, and the manual's two examples. -/
theorem realTraps : Obligations.RealTraps := by
  intro s x y trap a b c d
  refine ⟨?single, ?double, ?byZero, ?overflow, ?underflow⟩
  case single =>
    refine forall_forms (form := singleForm x y) (opcode := singleOpcode) fun op => ?_
    have h := finish_arith validWidths_single (a := a) (b := b) (s := s) (put := s.setReg x)
      (trap := arithTrap s x y (singleOpcode op)) op
    rw [← exec_singleForm] at h
    exact h
  case double =>
    refine forall_forms (form := doubleForm x y) (opcode := doubleOpcode) fun op => ?_
    have h := finish_arith validWidths_double (a := c) (b := d) (s := s) (put := s.setPair x)
      (trap := arithTrap s x y (doubleOpcode op)) op
    rw [← exec_doubleForm] at h
    exact h
  case byZero =>
    intro h25 h20
    refine ⟨fun hb => ?_, fun hd => ?_⟩
    · refine (exec_singleForm x y .div s).trans ?_
      rw [finish_div_zero validWidths_single h25 hb, if_pos h20]
      rfl
    · refine (exec_doubleForm x y .div s).trans ?_
      rw [finish_div_zero validWidths_double h25 hd, if_pos h20]
      rfl
  case overflow =>
    intro h18 ha hb
    refine (exec_singleForm x y .mul s).trans ?_
    rw [show s.reg x = _ from ha, show s.reg y = _ from hb, realArith_manual_product h18]
    rfl
  case underflow =>
    intro h19 ha hb
    refine (exec_singleForm x y .div s).trans ?_
    rw [show s.reg x = _ from ha, show s.reg y = _ from hb, realArith_manual_quotient h19]
    rfl

end Sys2Proof.Machine

/-! SUPPORT. Results in the range of the numbers: rounded to nearest, they are the nearest numbers
(42_real.md R253, R264). -/

namespace Sys2Proof.Machine

/-! ### Significands -/

/-- A magnitude has one significand of a width, with one exponent. -/
theorem significand_unique {p m k : ℕ} {e f : ℤ} (hm : 2 ^ p ≤ m) (hm' : m < 2 ^ (p + 1))
    (hk : 2 ^ p ≤ k) (hk' : k < 2 ^ (p + 1)) (h : (m : ℚ) * 2 ^ e = k * 2 ^ f) :
    e = f ∧ m = k := by
  have key {i j : ℕ} {c d : ℤ} (hi : i < 2 ^ (p + 1)) (hj : 2 ^ p ≤ j)
      (hij : (i : ℚ) * 2 ^ c = j * 2 ^ d) : d ≤ c := by
    have hlt : (2 : ℚ) ^ ((p : ℤ) + d) < 2 ^ ((p : ℤ) + 1 + c) := by
      rw [zpow_add₀ two_ne_zero, zpow_add₀ two_ne_zero]
      calc (2 : ℚ) ^ (p : ℤ) * 2 ^ d ≤ j * 2 ^ d :=
            mul_le_mul_of_nonneg_right (by exact_mod_cast hj) (by positivity)
        _ = i * 2 ^ c := hij.symm
        _ < 2 ^ ((p : ℤ) + 1) * 2 ^ c :=
            mul_lt_mul_of_pos_right (by exact_mod_cast hi) (by positivity)
    have := (zpow_lt_zpow_iff_right₀ one_lt_two).1 hlt
    omega
  obtain rfl : e = f := le_antisymm (key hk' hm h.symm) (key hm' hk h)
  have hcancel : (m : ℚ) = k := mul_right_cancel₀ (by positivity) h
  exact ⟨rfl, by exact_mod_cast hcancel⟩

/-- A significand that needs a bit less is even. -/
theorem even_of_hasPrecision {p m : ℕ} {e : ℤ} (hm : 2 ^ p ≤ m)
    (h : hasPrecision p (m * 2 ^ e)) : m % 2 = 0 := by
  obtain ⟨j, f, hj, heq⟩ := h
  rcases le_or_gt f e with hfe | hfe
  · obtain ⟨k, rfl⟩ := Int.le.dest hfe
    rw [zpow_add₀ two_ne_zero, mul_left_comm, mul_comm (j : ℚ), zpow_natCast,
      mul_right_inj' (by positivity)] at heq
    have hint : (m : ℤ) * 2 ^ k = j := by exact_mod_cast heq
    have hle : (m : ℤ) ≤ m * 2 ^ k :=
      le_mul_of_one_le_right (by positivity) (one_le_pow₀ one_le_two)
    have hm' : (2 : ℤ) ^ p ≤ m := by exact_mod_cast hm
    linarith [le_abs_self j]
  · obtain ⟨k, rfl⟩ := Int.le.dest (Int.add_one_le_of_lt hfe)
    rw [add_assoc, zpow_add₀ two_ne_zero, mul_left_comm, mul_comm (m : ℚ),
      mul_right_inj' (by positivity), add_comm, zpow_add_one₀ two_ne_zero, zpow_natCast] at heq
    have hint : (m : ℤ) = j * (2 ^ k * 2) := by exact_mod_cast heq
    rw [← mul_assoc] at hint
    omega

/-! ### Numbers of a format -/

section Numbers

variable {n w : ℕ} (hv : validWidths n w)

/-- The significand of a number, with its leading one. -/
def significand {n : ℕ} (w : ℕ) (b : BitVec n) : ℕ := 2 ^ (n - 1 - w) + b.toNat % 2 ^ (n - 1 - w)

theorem significand_bounds (b : BitVec n) :
    2 ^ (n - 1 - w) ≤ significand w b ∧ significand w b < 2 ^ (n - 1 - w + 1) := by
  have hfrac := Nat.mod_lt b.toNat (by positivity : 0 < 2 ^ (n - 1 - w))
  rw [significand, pow_succ]
  omega

include hv

theorem numberValue_eq (b : BitVec n) :
    numberValue w b = signUnit (b.getMsbD 0) *
      (significand w b * 2 ^ ((patternExp w b : ℤ) - bias (format n w) - (n - 1 - w : ℕ))) := by
  rw [← exactOf_value hv, exactOf_value_eq, unpacked_sign hv]
  rfl

theorem numberValue_neg_iff (b : BitVec n) : numberValue w b < 0 ↔ b.getMsbD 0 = true := by
  have hpos : (0 : ℚ) < significand w b := by
    exact_mod_cast lt_of_lt_of_le (by positivity) (significand_bounds b).1
  rw [numberValue_eq hv, signUnit_mul_neg_iff (by positivity)]

/-- Two patterns of the same value are the same. -/
theorem numberValue_injective {a b : BitVec n} (h : numberValue w a = numberValue w b) : a = b := by
  have hsign : a.getMsbD 0 = b.getMsbD 0 := by
    rw [Bool.eq_iff_iff, ← numberValue_neg_iff hv, ← numberValue_neg_iff hv, h]
  rw [numberValue_eq hv, numberValue_eq hv, hsign, mul_right_inj' (signUnit_ne_zero _)] at h
  obtain ⟨hexp, hsig⟩ := significand_unique (significand_bounds a).1 (significand_bounds a).2
    (significand_bounds b).1 (significand_bounds b).2 h
  rw [← ofNat_pack_unpacked hv a, ← ofNat_pack_unpacked hv b, unpacked_sign hv, unpacked_sign hv,
    hsign, unpacked_exp, unpacked_exp, unpacked_frac, unpacked_frac, Nat.add_left_cancel hsig,
    (by omega : patternExp w a = patternExp w b)]

theorem hasPrecision_numberValue (b : BitVec n) : hasPrecision (n - w) (numberValue w b) := by
  have hprec := hasPrecision_of_le (p := n - w) (by have := hv.2; omega)
    ((significand_bounds b).2.le.trans_eq (by rw [hv.precision.symm]; rfl))
    ((patternExp w b : ℤ) - bias (format n w) - (n - 1 - w : ℕ))
  rw [numberValue_eq hv]
  cases b.getMsbD 0
  · simpa [signUnit] using hprec
  · simpa [signUnit] using hprec.neg

/-- A number that needs a bit less ends in a 0. -/
theorem getLsbD_zero_of_hasPrecision {b : BitVec n}
    (h : hasPrecision (n - w - 1) (numberValue w b)) : b.getLsbD 0 = false := by
  have hwidth : n - w - 1 = n - 1 - w := by omega
  have habs := h.abs
  rw [numberValue_eq hv, abs_signUnit_mul (by positivity), hwidth] at habs
  have heven := even_of_hasPrecision (significand_bounds b).1 habs
  obtain ⟨t, ht⟩ : ∃ t, n - 1 - w = t + 1 := ⟨n - w - 2, by have := hv.2; omega⟩
  have hdvd : b.toNat % 2 ^ (t + 1) % 2 = b.toNat % 2 :=
    Nat.mod_mod_of_dvd _ (Dvd.intro_left (2 ^ t) rfl)
  rw [significand, ht, Nat.add_mod, pow_succ, Nat.mul_mod_left, zero_add, Nat.mod_mod, ← pow_succ,
    hdvd] at heven
  rw [BitVec.getLsbD, Nat.testBit_zero, heven]
  rfl

/-- The number to which a value is rounded is the nearest number. -/
theorem nearestEven_of_rounds {r : ℚ} {d : BitVec n} (hd : isNumber w d)
    (h : rounds (n - w) false false r (numberValue w d)) :
    nearestEven (numberValue w) (isNumber w) r d :=
  ⟨hd, fun q _ hne =>
    (h.2 _ (hasPrecision_numberValue hv q) fun heq => hne (numberValue_injective hv heq)).imp id
      fun ⟨hdist, hprec⟩ => ⟨hdist, getLsbD_zero_of_hasPrecision hv hprec⟩⟩

/-- The least number. -/
theorem hasPrecision_least : hasPrecision (n - w) (2 ^ (1 - (2 ^ (w - 1) - 1) : ℤ)) := by
  have := hasPrecision_of_le (p := n - w) (m := 1) (by have := hv.2; omega) Nat.one_le_two_pow
    (1 - (2 ^ (w - 1) - 1))
  rwa [Nat.cast_one, one_mul] at this

/-- The greatest number, of all ones; it lies below the next power of two. -/
theorem hasPrecision_greatest :
    hasPrecision (n - w) ((2 - 1 / 2 ^ (n - 1 - w)) * 2 ^ (2 ^ (w - 1) - 1 : ℤ)) ∧
      ((2 - 1 / 2 ^ (n - 1 - w)) * 2 ^ (2 ^ (w - 1) - 1 : ℤ) : ℚ) <
        2 ^ (2 ^ w - 1 - (2 ^ (w - 1) - 1) : ℤ) := by
  constructor
  · have hsig := hasPrecision_of_le (p := n - w) (m := 2 ^ (n - w) - 1)
      (by have := hv.2; omega) (Nat.sub_le _ _) (2 ^ (w - 1) - 1 - (n - 1 - w : ℕ))
    have hwidth : n - w = n - 1 - w + 1 := hv.precision.symm
    have heq : ((2 ^ (n - w) - 1 : ℕ) : ℚ) * 2 ^ ((2 ^ (w - 1) - 1 : ℤ) - (n - 1 - w : ℕ)) =
        (2 - 1 / 2 ^ (n - 1 - w)) * 2 ^ (2 ^ (w - 1) - 1 : ℤ) := by
      rw [Nat.cast_sub Nat.one_le_two_pow, hwidth, zpow_sub₀ two_ne_zero (_ - _), zpow_natCast]
      push_cast
      rw [pow_succ]
      field_simp
    rwa [heq] at hsig
  · have hexp : (2 ^ w - 1 - (2 ^ (w - 1) - 1) : ℤ) = 2 ^ (w - 1) - 1 + 1 := by
      have hpow : (2 : ℤ) ^ w = 2 ^ (w - 1) * 2 := by
        rw [← pow_succ]
        congr 1
        have := hv.1
        omega
      rw [hpow]
      ring
    have hpos : (0 : ℚ) < 1 / 2 ^ (n - 1 - w) := by positivity
    rw [hexp, zpow_add_one₀ two_ne_zero, mul_comm]
    exact mul_lt_mul_of_pos_left (by linarith) (by positivity)

/-- An exact result in the range of the numbers is delivered rounded to nearest, and nothing else
happens where the Round field says so and the inexact trap is off. -/
theorem realOutcome_in_range {s : State} {put : BitVec n → State} {trap : Word → State → Out}
    {r : ℚ} {o : Out} (h : realOutcome w s put trap r o) (h22 : s.tw.getMsbD 22 = false)
    (h23 : s.tw.getMsbD 23 = false) (h24 : s.tw.getMsbD 24 = false)
    (hlow : 2 ^ (1 - (2 ^ (w - 1) - 1) : ℤ) ≤ |r|)
    (hhigh : |r| ≤ (2 - 1 / 2 ^ (n - 1 - w)) * 2 ^ (2 ^ (w - 1) - 1 : ℤ)) :
    ∃ d, nearestEven (numberValue w) (isNumber w) r d ∧ o = .next ((put d).advance 2) := by
  obtain ⟨v, d, E, hrounds, rfl, hcode, ho⟩ := h
  rw [h22, h23] at hrounds
  obtain ⟨hgreatest, hbound⟩ := hasPrecision_greatest hv
  obtain ⟨hvlow, hvhigh⟩ := hrounds.abs_between (hasPrecision_least hv) hgreatest hlow hhigh
  obtain ⟨h1, h2⟩ := exponent_in_range hvlow (hvhigh.trans_lt hbound)
  obtain ⟨hd, hvalue⟩ := isNumber_of_exponent hcode h1 h2
  rw [← hvalue] at hrounds
  refine ⟨d, nearestEven_of_rounds hv hd hrounds, ho.trans ?_⟩
  dsimp only
  rw [if_neg (not_le.2 h2), if_neg (not_lt.2 h1), if_neg]
  rw [h24]
  exact fun hinexact => Bool.false_ne_true hinexact.2

end Numbers

/-! ### Singles and doubles in the terms of their fields -/

theorem singleExp_eq : singleExp = patternExp 8 := by
  funext v
  rw [singleExp, mfield_toNat]
  rfl

theorem singleNumber_eq : singleNumber = isNumber 8 := by
  funext v
  rw [singleNumber, singleExp_eq, isNumber, Nat.lt_iff_le_pred (by decide)]
  rfl

theorem singleValue_eq : singleValue = numberValue 8 := by
  funext v
  rw [singleValue, numberValue, patternValue, singleExp_eq, mbit_eq_getMsbD v (by decide),
    mfield_toNat]
  norm_num

theorem doubleExp_eq : doubleExp = patternExp 11 := by
  funext v
  rw [doubleExp, mfield_toNat]
  rfl

theorem doubleNumber_eq : doubleNumber = isNumber 11 := by
  funext v
  rw [doubleNumber, doubleExp_eq, isNumber, Nat.lt_iff_le_pred (by decide)]
  rfl

theorem doubleValue_eq : doubleValue = numberValue 11 := by
  funext v
  rw [doubleValue, numberValue, patternValue, doubleExp_eq, mbit_eq_getMsbD v (by decide),
    mfield_toNat]
  norm_num

/-! ### The obligations -/

/-- An operation on two numbers whose exact result is in range. -/
theorem finish_arith_in_range {n w : ℕ} (hv : validWidths n w) {a b : BitVec n} {s : State}
    {put : BitVec n → State} {trap : Word → State → Out} (h22 : s.tw.getMsbD 22 = false)
    (h23 : s.tw.getMsbD 23 = false) (h24 : s.tw.getMsbD 24 = false) (ha : isNumber w a)
    (hb : isNumber w b) {op : RealOp} {r : ℚ}
    (hr : r = exactResult op (numberValue w a) (numberValue w b))
    (hlow : 2 ^ (1 - (2 ^ (w - 1) - 1) : ℤ) ≤ |r|)
    (hhigh : |r| ≤ (2 - 1 / 2 ^ (n - 1 - w)) * 2 ^ (2 ^ (w - 1) - 1 : ℤ)) :
    ∃ d, nearestEven (numberValue w) (isNumber w) r d ∧
      (realArith (format n w) op s.tw a.toNat b.toNat).finish s put trap =
        .next ((put d).advance 2) := by
  have hne : r ≠ 0 := abs_pos.1 (lt_of_lt_of_le (by positivity) hlow)
  subst hr
  exact realOutcome_in_range hv (((finish_arith hv op).2 ha hb).1 hne) h22 h23 h24 hlow hhigh

/-- Settles O26: the four operations in the single format. -/
theorem singleArithmeticRounds : Obligations.SingleArithmeticRounds := by
  intro s x y h22 h23 h24 hx hy a b p hp hlow hhigh
  rw [singleNumber_eq] at hx hy ⊢
  rw [singleValue_eq]
  obtain ⟨op, hinstr, hresult⟩ : ∃ op, p.1 = singleForm x y op ∧
      p.2 = exactResult op (numberValue 8 (s.reg x)) (numberValue 8 (s.reg y)) := by
    rw [← singleValue_eq]
    simp only [List.mem_cons, List.not_mem_nil, or_false] at hp
    rcases hp with rfl | rfl | rfl | rfl
    exacts [⟨.add, rfl, rfl⟩, ⟨.sub, rfl, rfl⟩, ⟨.mul, rfl, rfl⟩, ⟨.div, rfl, rfl⟩]
  rw [hinstr, exec_singleForm]
  refine finish_arith_in_range validWidths_single h22 h23 h24 hx hy hresult ?_ ?_
  · norm_num at hlow ⊢
    exact hlow
  · norm_num at hhigh ⊢
    exact hhigh

/-- Settles O27: the four operations in the double format. -/
theorem doubleArithmeticRounds : Obligations.DoubleArithmeticRounds := by
  intro s x y h22 h23 h24 hx hy a b p hp hlow hhigh
  rw [doubleNumber_eq] at hx hy ⊢
  rw [doubleValue_eq]
  obtain ⟨op, hinstr, hresult⟩ : ∃ op, p.1 = doubleForm x y op ∧
      p.2 = exactResult op (numberValue 11 (s.pair x)) (numberValue 11 (s.pair y)) := by
    rw [← doubleValue_eq]
    simp only [List.mem_cons, List.not_mem_nil, or_false] at hp
    rcases hp with rfl | rfl | rfl | rfl
    exacts [⟨.add, rfl, rfl⟩, ⟨.sub, rfl, rfl⟩, ⟨.mul, rfl, rfl⟩, ⟨.div, rfl, rfl⟩]
  rw [hinstr, exec_doubleForm]
  refine finish_arith_in_range validWidths_double h22 h23 h24 hx hy hresult ?_ ?_
  · norm_num at hlow ⊢
    exact hlow
  · norm_num at hhigh ⊢
    exact hhigh

end Sys2Proof.Machine

/-! SUPPORT. Every real instruction completes where the real traps are off (42_real.md R254 to
R261). -/

namespace Sys2Proof.Machine

/-- A result that delivers a value and raises nothing. -/
def RealResult.completes (r : RealResult) : Prop := ∃ v, r = delivers v

/-- None of the traps of the family is on (42_real.md R254, R257 to R260). -/
def realTrapsOff (tw : Word) : Prop := ∀ n, n ∈ [18, 19, 20, 24, 25] → tw.getMsbD n = false

theorem completes_delivers (v : ℕ) : (delivers v).completes := ⟨v, rfl⟩

theorem completes_ite {p : Prop} [Decidable p] {r r' : RealResult} (h : r.completes)
    (h' : r'.completes) : (if p then r else r').completes := by
  split
  exacts [h, h']

theorem RealResult.completes.finish {n : ℕ} {r : RealResult} (h : r.completes) (s : State)
    (put : BitVec n → State) (trap : Word → State → Out) :
    ∃ d, r.finish s put trap = .next ((put d).advance 2) := by
  obtain ⟨v, rfl⟩ := h
  exact ⟨_, rfl⟩

section Completes

variable {tw : Word} (h : realTrapsOff tw)

include h

theorem realTrapsOff.mbit_eq : mbit tw 18 = false ∧ mbit tw 19 = false ∧ mbit tw 20 = false ∧
    mbit tw 24 = false ∧ mbit tw 25 = false := by
  have key {k : ℕ} (hk : k ∈ [18, 19, 20, 24, 25]) (hlt : k < 32) : mbit tw k = false := by
    rw [mbit_eq_getMsbD tw hlt, h k hk]
  exact ⟨key (by decide) (by decide), key (by decide) (by decide), key (by decide) (by decide),
    key (by decide) (by decide), key (by decide) (by decide)⟩

/-- The inexact trap is not taken. -/
theorem completes_inexactTrap (v : ℕ) (inexact : Bool) :
    RealResult.completes { value := some v, trap := inexactTrap tw inexact } := by
  obtain ⟨-, -, -, h24, -⟩ := h.mbit_eq
  rw [inexactTrap, h24, Bool.and_false]
  exact ⟨v, rfl⟩

theorem deliverRounded_completes (f : RealFormat) (r : Rounded) :
    (deliverRounded f tw r).completes := by
  obtain ⟨h18, h19, -, -, -⟩ := h.mbit_eq
  rw [deliverRounded, h18, h19]
  have hend (v : ℕ) := completes_inexactTrap h v r.inexact
  exact completes_ite (hend _) (completes_ite (hend _) (hend _))

theorem realArith_completes (f : RealFormat) (op : RealOp) (a b : ℕ) :
    (realArith f op tw a b).completes := by
  obtain ⟨-, -, h20, -, h25⟩ := h.mbit_eq
  rw [realArith, h20, h25]
  refine completes_ite (completes_ite (completes_delivers _) (deliverRounded_completes h f _)) ?_
  rw [Bool.false_and, if_neg Bool.false_ne_true]
  split
  exacts [completes_delivers _, completes_delivers _]

theorem realOfInt_completes (f : RealFormat) (k : ℤ) : (realOfInt f tw k).completes :=
  completes_ite (completes_delivers _) (deliverRounded_completes h f _)

theorem intOfReal_completes (f : RealFormat) (mode : Rounding) (counts : Bool) (b : ℕ) :
    (intOfReal f mode counts tw b).completes := by
  obtain ⟨h18, -, -, -, h25⟩ := h.mbit_eq
  rw [intOfReal, h18, h25]
  exact completes_ite (completes_delivers _) (completes_ite (completes_delivers _)
    (completes_ite (completes_delivers _) (completes_inexactTrap h _ _)))

theorem doubleOfSingle_completes (b : ℕ) : (doubleOfSingle tw b).completes := by
  obtain ⟨-, -, -, -, h25⟩ := h.mbit_eq
  rw [doubleOfSingle, h25]
  exact completes_ite (completes_delivers _) (completes_ite (completes_delivers _)
    (completes_delivers _))

theorem singleOfDouble_completes (b : ℕ) : (singleOfDouble tw b).completes := by
  obtain ⟨h18, h19, -, -, h25⟩ := h.mbit_eq
  rw [singleOfDouble, h18, h19, h25]
  have hend (v : ℕ) (inexact : Bool) := completes_inexactTrap h v inexact
  exact completes_ite (completes_delivers _) (completes_ite (completes_delivers _)
    (completes_ite (hend _ _) (completes_ite (hend _ _) (hend _ _))))

end Completes

theorem realToReg_completes {r : RealResult} (hr : r.completes) (op : Byte) (x y : Nib)
    (s : State) : ∃ v : Word, realToReg op x y r s = .next ((s.setReg x v).advance 2) := by
  rw [realToReg_eq]
  exact hr.finish _ _ _

theorem realToPair_completes {r : RealResult} (hr : r.completes) (op : Byte) (x y : Nib)
    (s : State) : ∃ d : DWord, realToPair op x y r s = .next ((s.setPair x d).advance 2) := by
  rw [realToPair_eq]
  exact hr.finish _ _ _

/-- A compare with the before trap off. -/
theorem compare_completes {before : Bool} (h : before = false) (special : Bool) (trapped : Out)
    (x : Reg) (v : Word) (s : State) :
    (if special && before then trapped else result x v s) = .next ((s.setReg x v).advance 2) := by
  rw [h, Bool.and_false]
  rfl

/-- Settles O25: each real instruction delivers a result that completes. -/
theorem realInstructionsComplete : Obligations.RealInstructionsComplete := by
  intro s x y h
  have harith (f : RealFormat) (op : RealOp) (a b : ℕ) := realArith_completes h f op a b
  have hint (f : RealFormat) (mode : Rounding) (counts : Bool) (b : ℕ) :=
    intOfReal_completes h f mode counts b
  obtain ⟨-, -, -, -, h25⟩ := realTrapsOff.mbit_eq h
  constructor
  · simp only [List.forall_mem_cons, List.not_mem_nil, false_imp_iff, implies_true, and_true]
    exact ⟨realToReg_completes (harith _ _ _ _) _ _ _ _,
      realToReg_completes (harith _ _ _ _) _ _ _ _, realToReg_completes (harith _ _ _ _) _ _ _ _,
      realToReg_completes (harith _ _ _ _) _ _ _ _, ⟨_, rfl⟩,
      realToReg_completes (realOfInt_completes h _ _) _ _ _ _,
      realToReg_completes (hint _ _ _ _) _ _ _ _, realToReg_completes (hint _ _ _ _) _ _ _ _,
      ⟨_, compare_completes h25 _ _ _ _ _⟩, realToReg_completes (hint _ _ _ _) _ _ _ _,
      realToReg_completes (hint _ _ _ _) _ _ _ _,
      realToReg_completes (singleOfDouble_completes h _) _ _ _ _,
      ⟨_, compare_completes h25 _ _ _ _ _⟩⟩
  · simp only [List.forall_mem_cons, List.not_mem_nil, false_imp_iff, implies_true, and_true]
    exact ⟨realToPair_completes (harith _ _ _ _) _ _ _ _,
      realToPair_completes (harith _ _ _ _) _ _ _ _,
      realToPair_completes (harith _ _ _ _) _ _ _ _,
      realToPair_completes (harith _ _ _ _) _ _ _ _, ⟨_, rfl⟩,
      realToPair_completes (doubleOfSingle_completes h _) _ _ _ _,
      realToPair_completes (realOfInt_completes h _ _) _ _ _ _⟩

/-- Settles O30: the sign bit of a pair is that of its more significant word. -/
theorem realNegate : Obligations.RealNegate := by
  intro s x y
  have hpair : s.pair y ^^^ 0x8000000000000000#64 =
      (s.reg y ^^^ 0x80000000#32) ++ s.reg (y + 1) := by
    have hsign : 0x8000000000000000#64 = 0x80000000#32 ++ 0#32 := by decide
    rw [State.pair, hsign, BitVec.xor_append, BitVec.xor_zero]
  refine ⟨rfl, ?_, rfl, rfl⟩
  rw [← hpair]
  rfl

end Sys2Proof.Machine

/-! SUPPORT. The conversions between integers, singles and doubles (42_real.md R256, R270 to R273,
R280 to R283). -/

namespace Sys2Proof.Machine

/-! ### Integers to reals -/

section OfInt

variable {n w : ℕ} (hv : validWidths n w) {s : State} {put : BitVec n → State}
  {trap : Word → State → Out}

include hv

theorem realOfInt_outcome {k : ℤ} (hk : k ≠ 0) :
    realOutcome w s put trap k ((realOfInt (format n w) s.tw k).finish s put trap) := by
  have hvalue := value_of_int k 0
  rw [zpow_zero, mul_one] at hvalue
  rw [realOfInt, if_neg hk, ← hvalue]
  exact deliverRounded_outcome hv (Int.natAbs_ne_zero.2 hk) one_ne_zero s put trap

omit hv in
/-- An exact result that the format has is delivered, and nothing else happens. -/
theorem realOutcome_exact {r : ℚ} {o : Out} (h : realOutcome w s put trap r o)
    (hr : hasPrecision (n - w) r) (hlow : 2 ^ (1 - (2 ^ (w - 1) - 1) : ℤ) ≤ |r|)
    (hhigh : |r| < 2 ^ (2 ^ w - 1 - (2 ^ (w - 1) - 1) : ℤ)) :
    ∃ d, isNumber w d ∧ numberValue w d = r ∧ o = .next ((put d).advance 2) := by
  obtain ⟨v, d, E, hrounds, hpattern, hcode, ho⟩ := h
  obtain rfl := hrounds.eq_of_hasPrecision hr
  rw [hpattern] at hlow hhigh
  obtain ⟨h1, h2⟩ := exponent_in_range hlow hhigh
  obtain ⟨hd, hvalue⟩ := isNumber_of_exponent hcode h1 h2
  refine ⟨d, hd, hvalue.trans hpattern.symm, ho.trans ?_⟩
  dsimp only
  rw [if_neg (not_le.2 h2), if_neg (not_lt.2 h1), if_neg fun hinexact => hinexact.1 rfl]

/-- An integer of at most the precision's bits is delivered exactly. -/
theorem realOfInt_exact {k : ℤ} {j : ℕ} (hk : k.natAbs ≤ 2 ^ j) (hj : j ≤ n - w)
    (hj' : j < 2 ^ (w - 1)) :
    ∃ d, (realOfInt (format n w) s.tw k).finish s put trap = .next ((put d).advance 2) ∧
      (k = 0 → d = 0) ∧ (k ≠ 0 → isNumber w d ∧ numberValue w d = k) := by
  by_cases h0 : k = 0
  · refine ⟨0, ?_, fun _ => rfl, fun h => absurd h0 h⟩
    rw [realOfInt, if_pos h0]
    rfl
  · have hcast : |(k : ℚ)| = k.natAbs := by rw [Nat.cast_natAbs, Int.cast_abs]
    have hprec : hasPrecision (n - w) (k : ℚ) := by
      have := hasPrecision_of_le (by have := hv.2; omega)
        (hk.trans (Nat.pow_le_pow_right two_pos hj)) 0
      rw [zpow_zero, mul_one, ← hcast] at this
      rcases abs_choice (k : ℚ) with habs | habs <;> rw [habs] at this
      exacts [this, neg_neg (k : ℚ) ▸ this.neg]
    have hexp : (2 ^ w : ℤ) = 2 ^ (w - 1) * 2 := by
      rw [← pow_succ]
      congr 1
      have := hv.1
      omega
    have hhalf : (2 : ℤ) ≤ 2 ^ (w - 1) := by
      have := Nat.pow_le_pow_right two_pos (by have := hv.1; omega : 1 ≤ w - 1)
      exact_mod_cast this
    obtain ⟨d, hd, hvalue, hend⟩ := realOutcome_exact
      (realOfInt_outcome hv (s := s) (put := put) (trap := trap) h0) hprec
      (by
        rw [hcast]
        refine (zpow_le_one_of_nonpos₀ one_le_two (by omega)).trans ?_
        exact_mod_cast Int.natAbs_pos.2 h0)
      (by
        rw [hcast]
        calc ((k.natAbs : ℕ) : ℚ) ≤ 2 ^ (j : ℤ) := by exact_mod_cast hk
          _ < 2 ^ (2 ^ w - 1 - (2 ^ (w - 1) - 1) : ℤ) := by
            refine zpow_lt_zpow_right₀ one_lt_two ?_
            have : (j : ℤ) < 2 ^ (w - 1) := by exact_mod_cast hj'
            omega)
    exact ⟨d, hend, fun h => absurd h h0, fun _ => ⟨hd, hvalue⟩⟩

end OfInt

/-! ### The choice by the class of the operand -/

section Select

variable {n w : ℕ} (hv : validWidths n w) {b : BitVec n} {α : Type} {zero special number : α}

theorem select_zero (h : patternExp w b = 0) (hs : ¬ isSpecial w b) :
    (if classOf (format n w) (unpacked w b) = .zero then zero
      else if specialOperand (classOf (format n w) (unpacked w b)) then special else number) =
      zero :=
  if_pos (classOf_zero h hs)

include hv

theorem select_special (h : isSpecial w b) :
    (if classOf (format n w) (unpacked w b) = .zero then zero
      else if specialOperand (classOf (format n w) (unpacked w b)) then special else number) =
      special :=
  (if_neg (h.classOf_ne hv)).trans (if_pos ((specialOperand_iff hv b).2 h))

omit hv in
theorem select_number (h : isNumber w b) :
    (if classOf (format n w) (unpacked w b) = .zero then zero
      else if specialOperand (classOf (format n w) (unpacked w b)) then special else number) =
      number := by
  rw [classOf_number h]
  rfl

end Select

/-! ### Reals to integers -/

/-- The integer `(-1) ^ sign × q`, or one further from zero. -/
def roundedInteger (mode : Rounding) (sign : Bool) (q r d : ℕ) : ℤ :=
  signedNat sign (if roundsUp mode sign q r d then q + 1 else q)

section Integers

variable {q r d : ℕ} (hr : r < d)

include hr

theorem roundedInteger_eq_iff (mode : Rounding) (sign : Bool) :
    ((roundedInteger mode sign q r d : ℤ) : ℚ) = signUnit sign * (q + r / d) ↔ r = 0 := by
  rw [roundedInteger, signedNat_cast, mul_right_inj' (signUnit_ne_zero _), roundsUp_exact_iff hr]

theorem roundedInteger_cutsOff (sign : Bool) :
    cutsOff (signUnit sign * (q + r / d)) (roundedInteger .toZero sign q r d) := by
  have hfrac := fraction_lt_one hr
  have hfrac0 : (0 : ℚ) ≤ r / d := by positivity
  have hvalue : ((roundedInteger .toZero sign q r d : ℤ) : ℚ) = signUnit sign * q := by
    rw [roundedInteger, signedNat_cast]
    rfl
  have hsquare : signUnit sign * signUnit sign = 1 := by cases sign <;> norm_num [signUnit]
  rw [cutsOff, hvalue, abs_signUnit_mul (by positivity), abs_signUnit_mul (by positivity)]
  refine ⟨by linarith, by linarith, ?_⟩
  rw [mul_mul_mul_comm, hsquare]
  positivity

theorem roundedInteger_nearest (sign : Bool) :
    nearestInteger (signUnit sign * (q + r / d)) (roundedInteger .nearestEven sign q r d) := by
  have hd : (0 : ℚ) < d := by exact_mod_cast (Nat.zero_le r).trans_lt hr
  have hdist (m : ℕ) : |((signedNat sign m : ℤ) : ℚ) - signUnit sign * (q + r / d)| =
      |(m : ℚ) - (q + r / d)| := by
    rw [signedNat_cast, ← mul_sub, abs_mul]
    cases sign <;> simp [signUnit]
  have hparity (m : ℕ) (hm : m % 2 = 0) : signedNat sign m % 2 = 0 := by
    cases sign <;> simp only [signedNat, if_true, Bool.false_eq_true, if_false] <;> omega
  have hhalf : (r : ℚ) / d < 1 / 2 ↔ 2 * r < d := by
    rw [div_lt_div_iff₀ hd two_pos, one_mul, mul_comm]
    exact_mod_cast Iff.rfl
  have hhalf' : (r : ℚ) / d = 1 / 2 ↔ 2 * r = d := by
    rw [div_eq_div_iff hd.ne' two_ne_zero, one_mul, mul_comm]
    exact_mod_cast Iff.rfl
  have hfrac0 : (0 : ℚ) ≤ r / d := by positivity
  rw [nearestInteger, roundedInteger, hdist]
  simp only [roundsUp, Bool.or_eq_true, Bool.and_eq_true, decide_eq_true_eq, beq_iff_eq]
  split
  next hup =>
    have hge : ¬ (r : ℚ) / d < 1 / 2 := by
      rw [hhalf]
      omega
    have hup' : |((q + 1 : ℕ) : ℚ) - (q + r / d)| = 1 - r / d := by
      rw [Nat.cast_add_one, add_sub_add_left_eq_sub, abs_of_pos]
      linarith [fraction_lt_one hr]
    rw [hup']
    refine ⟨by linarith, fun htie => hparity _ ?_⟩
    have := hhalf'.1 (by linarith)
    omega
  next hdown =>
    have hle : (r : ℚ) / d ≤ 1 / 2 := by
      rw [le_iff_lt_or_eq, hhalf, hhalf']
      omega
    have hdown' : |(q : ℚ) - (q + r / d)| = r / d := by
      rw [sub_add_cancel_left, abs_neg, abs_of_nonneg hfrac0]
    rw [hdown']
    refine ⟨hle, fun htie => hparity _ ?_⟩
    have := hhalf'.1 htie
    omega

end Integers

section Fixes

variable {n w : ℕ} (hv : validWidths n w) {b : BitVec n} {s : State} {put : Word → State}
  {trap : Word → State → Out}

theorem ofNat_emod (i : ℤ) : BitVec.ofNat 32 (i % 2 ^ 32).toNat = BitVec.ofInt 32 i := by
  refine BitVec.eq_of_toNat_eq ?_
  rw [BitVec.toNat_ofNat, BitVec.toNat_ofInt]
  omega

include hv

/-- What is delivered for a number: the integer, or, out of range, the largest of its sign. -/
theorem intOfReal_number (hb : isNumber w b) (mode : Rounding) (counts : Bool) (tw : Word) :
    ∃ q r d : ℕ, r < d ∧ numberValue w b = signUnit (b.getMsbD 0) * (q + r / d) ∧
      intOfReal (format n w) mode counts tw b.toNat =
        if roundedInteger mode (b.getMsbD 0) q r d < -(2 ^ 31) ∨
            2 ^ 31 ≤ roundedInteger mode (b.getMsbD 0) q r d then
          { value := some (largestInteger (b.getMsbD 0))
            trap := if mbit tw 18 then some 18 else none }
        else
          { value := some (roundedInteger mode (b.getMsbD 0) q r d % 2 ^ 32).toNat
            trap := inexactTrap tw (counts && r != 0) } := by
  have hden : (exactOf (format n w) (unpacked w b)).den ≠ 0 := one_ne_zero
  obtain ⟨hrest, hscaled⟩ := scaledDiv_eq hden (exactOf (format n w) (unpacked w b)).exp
  refine ⟨(scaledDiv (exactOf (format n w) (unpacked w b))
    (exactOf (format n w) (unpacked w b)).exp).1, _, _, hrest, ?_, ?_⟩
  · rw [hscaled, ← exactOf_value hv, Exact.value, ← unpacked_sign (w := w) hv]
    rfl
  · rw [← unpacked_sign (w := w) hv]
    exact select_number hb

theorem intOfReal_special (hs : isSpecial w b) (mode : Rounding) (counts : Bool) (tw : Word) :
    intOfReal (format n w) mode counts tw b.toNat =
      if tw.getMsbD 25 then { value := none, trap := some 25 }
      else delivers (if patternExp w b = 0 then 0 else largestInteger (b.getMsbD 0)) := by
  have hselect : intOfReal (format n w) mode counts tw b.toNat =
      if mbit tw 25 then { value := none, trap := some 25 }
      else delivers (if classOf (format n w) (unpacked w b) = .denormal then 0
        else largestInteger (unpacked w b).sign) := select_special hv hs
  rw [hselect, unpacked_sign hv, mbit_eq_getMsbD tw (by decide)]
  simp only [hs.denormal_iff hv]

/-- FIXT and FIXR and their like end as R256, R271 and R272 say. -/
theorem intOfReal_fixes (near : Bool) :
    fixes w b near s put trap
      ((intOfReal (format n w) (if near then .nearestEven else .toZero) near s.tw b.toNat).finish s
        put trap) := by
  have hlargest : BitVec.ofNat 32 (largestInteger (b.getMsbD 0)) =
      if b.getMsbD 0 then 0x80000000 else 0x7FFFFFFF := by
    cases b.getMsbD 0 <;> rfl
  refine ⟨fun hb => ?number, fun h hs => ?zero, fun hs h25 => ?before, fun hs h25 => ?special⟩
  case number =>
    obtain ⟨q, r, d, hr, hvalue, hint⟩ := intOfReal_number hv hb
      (if near then .nearestEven else .toZero) near s.tw
    refine ⟨roundedInteger (if near then .nearestEven else .toZero) (b.getMsbD 0) q r d, ?_, ?_⟩
    · rw [hvalue]
      cases near
      · exact roundedInteger_cutsOff hr _
      · exact roundedInteger_nearest hr _
    · have hexact := roundedInteger_eq_iff (q := q) hr (if near then .nearestEven else .toZero)
        (b.getMsbD 0)
      rw [← hvalue] at hexact
      rw [hint]
      generalize roundedInteger _ _ _ _ _ = i at hexact ⊢
      by_cases hout : 2 ^ 31 ≤ i ∨ i < -2 ^ 31
      · rw [if_pos hout, if_pos hout.symm, mbit_eq_getMsbD _ (by decide), ← hlargest]
        cases s.tw.getMsbD 18 <;> rfl
      · rw [if_neg hout, if_neg (mt Or.symm hout), ← ofNat_emod]
        simp only [← and_assoc]
        refine finish_inexactTrap _ ?_
        rw [Bool.and_eq_true, bne_iff_ne, Ne, Ne, hexact]
  case zero =>
    rw [show intOfReal _ _ _ _ _ = _ from select_zero h hs]
    rfl
  case before =>
    rw [intOfReal_special hv hs, h25]
    rfl
  case special =>
    rw [intOfReal_special hv hs, h25, if_neg Bool.false_ne_true, finish_delivers,
      apply_ite (BitVec.ofNat 32), hlargest]
    rfl

end Fixes

/-! ### Between singles and doubles -/

/-- What a conversion between formats delivers of an operand that is no number. -/
theorem finish_convertsSpecial {n w m v : ℕ} (hv : validWidths n w) (hm : validWidths m v)
    (b : BitVec n) (s : State) (put : BitVec m → State) (trap : Word → State → Out)
    {r number : RealResult}
    (hr : r = if classOf (format n w) (unpacked w b) = .zero then
        delivers (zeroBits (format m v) (unpacked w b).sign)
      else if specialOperand (classOf (format n w) (unpacked w b)) then
        if mbit s.tw 25 then { value := none, trap := some 25 }
        else delivers (if classOf (format n w) (unpacked w b) = .denormal then
          zeroBits (format m v) (unpacked w b).sign
          else infinityBits (format m v) (unpacked w b).sign)
      else number) :
    convertsSpecial w v b s put trap (r.finish s put trap) := by
  have hzero := ofNat_zeroBits hm (b.getMsbD 0)
  rw [unpacked_sign hv, mbit_eq_getMsbD s.tw (by decide)] at hr
  refine ⟨fun h hs => ?zero, fun hs h25 => ?before, fun hs h25 => ?special⟩
  case zero =>
    rw [hr, select_zero h hs, finish_delivers, hzero]
  case before =>
    rw [hr, select_special hv hs, h25]
    rfl
  case special =>
    simp only [hs.denormal_iff hv] at hr
    rw [hr, select_special hv hs, h25, if_neg Bool.false_ne_true, finish_delivers,
      apply_ite (BitVec.ofNat m), hzero]
    rfl

/-- A single keeps its sign, its exponent and its mantissa as a double (42_real.md R273). -/
theorem doubleOfSingle_number {b : Word} (hb : isNumber 8 b) (tw : Word) :
    ∃ d : DWord, isNumber 11 d ∧ numberValue 11 d = numberValue 8 b ∧
      ∃ v, doubleOfSingle tw b.toNat = delivers v ∧ BitVec.ofNat 64 v = d := by
  have hexp : (unpacked 8 b).exp + 1023 - 127 < 2 ^ 11 := by
    have := hb.2
    rw [unpacked_exp]
    omega
  have hfrac : (unpacked 8 b).frac * 2 ^ 29 < 2 ^ (64 - 1 - 11) := by
    have := Nat.mod_lt b.toNat (by decide : 0 < 2 ^ (32 - 1 - 8))
    rw [unpacked_frac]
    omega
  have hunpacked := unpacked_ofNat_pack validWidths_double (sign := (unpacked 8 b).sign) hexp hfrac
  generalize hd : BitVec.ofNat 64 (pack (format 64 11) _ _ _) = d at hunpacked
  have hcode : patternExp 11 d = patternExp 8 b + 1023 - 127 := by
    rw [← unpacked_exp, hunpacked, unpacked_exp]
  have hmantissa : d.toNat % 2 ^ (64 - 1 - 11) = b.toNat % 2 ^ (32 - 1 - 8) * 2 ^ 29 := by
    rw [← unpacked_frac, hunpacked, unpacked_frac]
  have hsign : d.getMsbD 0 = b.getMsbD 0 := by
    rw [← unpacked_sign validWidths_double, hunpacked, unpacked_sign validWidths_single]
  obtain ⟨hlow, hhigh⟩ := hb
  refine ⟨d, ⟨by omega, by omega⟩, ?_, _, select_number ⟨hlow, hhigh⟩, hd⟩
  have hexp : ((patternExp 8 b + 1023 - 127 : ℕ) : ℤ) - (2 ^ (11 - 1) - 1) =
      patternExp 8 b - (2 ^ (8 - 1) - 1) := by
    omega
  rw [numberValue, numberValue, patternValue_eq, patternValue_eq, hsign, hcode, hmantissa, hexp]
  push_cast
  ring

theorem ofNat_decide {n : ℕ} (f : Bool → ℕ) (p : Prop) [Decidable p] :
    BitVec.ofNat n (f (decide p)) =
      if p then BitVec.ofNat n (f true) else BitVec.ofNat n (f false) := by
  by_cases h : p <;> simp only [h, decide_true, decide_false, if_true, if_false]

/-- A double is rounded to a single; out of range it gives INF or Zero of its sign
(42_real.md R283). -/
theorem singleOfDouble_number {c : DWord} (hc : isNumber 11 c) (s : State) (put : Word → State)
    (trap : Word → State → Out) :
    ∃ (v : ℚ) (d : Word) (E : ℤ),
      rounds 24 (s.tw.getMsbD 22) (s.tw.getMsbD 23) (numberValue 11 c) v ∧
      v = patternValue 8 d E ∧ (patternExp 8 d : ℤ) = E % 256 ∧
      let finish (t : State) : Out :=
        if v ≠ numberValue 11 c ∧ s.tw.getMsbD 24 = true then trap 24 t
        else .next (t.advance 2)
      let beyond (n : Nat) (w : Word) : Out :=
        if s.tw.getMsbD n then trap (BitVec.ofNat 32 n) (put w) else finish (put w)
      (singleOfDouble s.tw c.toNat).finish s put trap =
        if 255 ≤ E then beyond 18 (if v < 0 then 0xFF800000 else 0x7F800000)
        else if E < 1 then beyond 19 (if v < 0 then 0x80000000 else 0)
        else finish (put d) := by
  obtain ⟨hrounds, hvalue, hcode, hinexact, hsign⟩ := roundTo_facts validWidths_single
    (v := exactOf (format 64 11) (unpacked 11 c)) (exactOf_num_pos _ _).ne' one_ne_zero s.tw
  have hselect : singleOfDouble s.tw c.toNat =
      let r := roundTo (format 32 8) (roundMode s.tw) (exactOf (format 64 11) (unpacked 11 c))
      if 255 ≤ r.exp then
        { value := some (infinityBits (format 32 8) r.sign)
          trap := if mbit s.tw 18 then some 18 else inexactTrap s.tw r.inexact }
      else if r.exp < 1 then
        { value := some (zeroBits (format 32 8) r.sign)
          trap := if mbit s.tw 19 then some 19 else inexactTrap s.tw r.inexact }
      else { value := some (packRounded (format 32 8) r), trap := inexactTrap s.tw r.inexact } :=
    select_number hc
  rw [exactOf_value validWidths_double] at hrounds hinexact
  rw [hselect]
  generalize roundTo _ _ _ = r at hrounds hvalue hcode hinexact hsign ⊢
  refine ⟨_, _, _, hrounds, hvalue, hcode, ?_⟩
  intro finish beyond
  have hfinish (u : ℕ) : ({ value := some u, trap := inexactTrap s.tw r.inexact } :
      RealResult).finish s put trap = finish (put (BitVec.ofNat 32 u)) :=
    finish_inexactTrap u hinexact
  have hbeyond (k u : ℕ) (hk : k < 32) :
      (RealResult.mk (some u) (if mbit s.tw k then some k else inexactTrap s.tw r.inexact)).finish s
        put trap = beyond k (BitVec.ofNat 32 u) := by
    rw [mbit_eq_getMsbD s.tw hk]
    dsimp only [beyond]
    rw [← hfinish]
    split <;> rfl
  have hinf : BitVec.ofNat 32 (infinityBits (format 32 8) r.sign) =
      if r.value (format 32 8) < 0 then 0xFF800000 else 0x7F800000 :=
    hsign ▸ ofNat_decide (infinityBits (format 32 8)) _
  have hzero : BitVec.ofNat 32 (zeroBits (format 32 8) r.sign) =
      if r.value (format 32 8) < 0 then 0x80000000 else 0 :=
    hsign ▸ ofNat_decide (zeroBits (format 32 8)) _
  rw [← hinf, ← hzero]
  by_cases hover : 255 ≤ r.exp
  · rw [if_pos hover, if_pos hover, hbeyond 18 _ (by decide)]
  · rw [if_neg hover, if_neg hover]
    by_cases hunder : r.exp < 1
    · rw [if_pos hunder, if_pos hunder, hbeyond 19 _ (by decide)]
    · rw [if_neg hunder, if_neg hunder, hfinish]

/-! ### The instructions -/

section Instructions

variable (x y : Nib) (s : State)

theorem exec_dfloat : exec (.dfloat x y) s =
    (realOfInt (format 64 11) s.tw (s.reg y).toInt).finish s (s.setPair x)
      (arithTrap s x y 0x39) := realToPair_eq _ _ _ _ _

theorem exec_float : exec (.float x y) s =
    (realOfInt (format 32 8) s.tw (s.reg y).toInt).finish s (s.setReg x)
      (arithTrap s x y 0x29) := realToReg_eq _ _ _ _ _

theorem exec_fixt : exec (.fixt x y) s =
    (intOfReal (format 32 8) .toZero false s.tw (s.reg y).toNat).finish s (s.setReg x)
      (arithTrap s x y 0x20) := realToReg_eq _ _ _ _ _

/-- FIXR rounds to nearest (`FIX_ROUND` = nearest_even, log entry 33). -/
theorem exec_fixr : exec (.fixr x y) s =
    (intOfReal (format 32 8) .nearestEven true s.tw (s.reg y).toNat).finish s (s.setReg x)
      (arithTrap s x y 0x21) := realToReg_eq _ _ _ _ _

theorem exec_dfixt : exec (.dfixt x y) s =
    (intOfReal (format 64 11) .toZero false s.tw (s.pair y).toNat).finish s (s.setReg x)
      (arithTrap s x y 0x30) := realToReg_eq _ _ _ _ _

/-- DFIXR rounds to nearest (`FIX_ROUND` = nearest_even, log entry 33). -/
theorem exec_dfixr : exec (.dfixr x y) s =
    (intOfReal (format 64 11) .nearestEven true s.tw (s.pair y).toNat).finish s (s.setReg x)
      (arithTrap s x y 0x31) := realToReg_eq _ _ _ _ _

theorem exec_makerd : exec (.makerd x y) s =
    (doubleOfSingle s.tw (s.reg y).toNat).finish s (s.setPair x) (arithTrap s x y 0x27) :=
  realToPair_eq _ _ _ _ _

theorem exec_makedr : exec (.makedr x y) s =
    (singleOfDouble s.tw (s.pair y).toNat).finish s (s.setReg x) (arithTrap s x y 0x37) :=
  realToReg_eq _ _ _ _ _

end Instructions

/-! ### The obligation -/

/-- Settles O31: each conversion ends as the lemmas about its result say. -/
theorem conversions : Obligations.Conversions := by
  intro s x y trap n b c put putPair
  have hs := validWidths_single
  have hd := validWidths_double
  rw [exec_dfloat, exec_float, exec_fixt, exec_fixr, exec_dfixt, exec_dfixr, exec_makerd,
    exec_makedr, singleNumber_eq, singleValue_eq, doubleNumber_eq, doubleValue_eq]
  refine ⟨?dfloat, fun hn => ?float, fun hn => ?floatRounds, ?fixt, ?fixr, ?dfixt, ?dfixr,
    fun hb => ?makerd, ?makerdSpecial, fun hc => ?makedr, ?makedrSpecial⟩
  case dfloat =>
    have hn : n.natAbs ≤ 2 ^ 31 := by
      have hlow := (s.reg y).le_toInt
      have hhigh := (s.reg y).toInt_lt
      simp only [n]
      omega
    exact realOfInt_exact hd hn (by decide) (by decide)
  case float => exact realOfInt_exact hs hn (by decide) (by decide)
  case floatRounds => exact realOfInt_outcome hs hn
  case fixt => exact intOfReal_fixes hs false
  case fixr => exact intOfReal_fixes hs true
  case dfixt => exact intOfReal_fixes hd false
  case dfixr => exact intOfReal_fixes hd true
  case makerd =>
    obtain ⟨d, hd, hvalue, v, hv, rfl⟩ := doubleOfSingle_number hb s.tw
    refine ⟨_, hd, hvalue, ?_⟩
    rw [hv]
    rfl
  case makerdSpecial => exact finish_convertsSpecial hs hd b s putPair _ rfl
  case makedr => exact singleOfDouble_number hc s put _
  case makedrSpecial => exact finish_convertsSpecial hd hs c s put _ rfl

end Sys2Proof.Machine

/-! SUPPORT. Bits of a pair, tests, integer compares, shifts and sign extension
(43_bit_compare_shift.md R301 to R313, R318 to R325, R330, R331). -/

namespace Sys2Proof.Machine

/-! ### Conditions and orders as words -/

theorem boolWord_of {b : Bool} {p : Prop} [Decidable p] (h : b = true ↔ p) :
    boolWord b = if p then 1 else 0 :=
  if_congr h rfl rfl

/-- The result of a compare, in the terms a statement gives the order. -/
theorem compareWord_of {a b : Int} {p q : Prop} [Decidable p] [Decidable q] (hlt : a < b ↔ p)
    (heq : a = b ↔ q) : compareWord a b = if p then -1 else if q then 0 else 1 :=
  if_congr hlt rfl (if_congr heq rfl rfl)

/-! ### Shifts -/

theorem shiftLeft_eq_ofNat {w : Nat} (v : BitVec w) (n : Nat) :
    v <<< n = BitVec.ofNat w (v.toNat * 2 ^ n) := by
  apply BitVec.eq_of_toNat_eq
  rw [BitVec.toNat_shiftLeft, Nat.shiftLeft_eq, BitVec.toNat_ofNat]

theorem ushiftRight_eq_ofNat {w : Nat} (v : BitVec w) (n : Nat) :
    v >>> n = BitVec.ofNat w (v.toNat / 2 ^ n) := by
  apply BitVec.eq_of_toNat_eq
  rw [BitVec.toNat_ushiftRight, Nat.shiftRight_eq_div_pow, BitVec.toNat_ofNat,
    Nat.mod_eq_of_lt ((Nat.div_le_self _ _).trans_lt v.isLt)]

/-- Bit `j` of a word rotated left, in the manual's numbering (43_bit_compare_shift.md R323). -/
theorem getMsbD_rotateLeft_of_lt_width {w : Nat} (v : BitVec w) (n : Nat) {j : Nat} (hj : j < w) :
    (v.rotateLeft n).getMsbD j = v.getMsbD ((j + n) % w) := by
  rw [BitVec.getMsbD_rotateLeft, decide_eq_true hj, Bool.true_and, Nat.add_comm]

/-- An arithmetic right shift divides, rounding down (43_bit_compare_shift.md R322). -/
theorem sshiftRight_eq_ofInt {w : Nat} (v : BitVec w) (n : Nat) :
    v.sshiftRight n = BitVec.ofInt w (v.toInt.fdiv (2 ^ n)) := by
  have hdiv : v.toInt.fdiv (2 ^ n) = (v.sshiftRight n).toInt := by
    rw [BitVec.toInt_sshiftRight, Int.shiftRight_eq_div_pow,
      Int.fdiv_eq_ediv_of_nonneg _ (by positivity)]
    norm_cast
  rw [hdiv, BitVec.ofInt_toInt]

/-- A left shift is the low part of a product (43_bit_compare_shift.md R321). -/
theorem shiftLeft_eq_wrap (v : Word) (n : Nat) : v <<< n = wrap (v.toInt * 2 ^ n) := by
  have hpow : ((2 ^ n : Nat) : Int) = 2 ^ n := by norm_cast
  rw [wrap, ← hpow, BitVec.ofInt_mul, BitVec.ofInt_toInt, BitVec.ofInt_natCast,
    shiftLeft_eq_ofNat, BitVec.ofNat_mul, BitVec.ofNat_toNat, BitVec.setWidth_eq]

/-- ASL delivers a product as ADD delivers a sum (`ASL_OVF` = arithmetic, log entry 31). -/
theorem exec_asl (x : Reg) (c : Src) (s : State) :
    exec (.asl x c) s = deliver (shiftOpcode 0x62 c) x (srcField c)
      ((s.reg x).toInt * 2 ^ shiftCount c s) s := by
  rw [deliver, result, ← shiftLeft_eq_wrap]
  rfl

/-! ### Sign extension -/

/-- The bits of the low `k` bits of a word extended by their sign, in the manual's numbering
(43_bit_compare_shift.md R330, R331). -/
theorem getMsbD_signExtend_low {w k : Nat} (v : BitVec w) (h0 : 0 < k) (hk : k ≤ w) {j : Nat}
    (hj : j < w) :
    ((v.extractLsb' 0 k).signExtend w).getMsbD j = v.getMsbD (if j < w - k then w - k else j) := by
  rw [BitVec.getMsbD_signExtend, decide_eq_true hj, Bool.true_and]
  by_cases hsign : j < w - k
  · rw [if_neg (by omega), if_pos hsign, BitVec.msb_extractLsb']
    simp [h0, hk]
  · have hindex : w - (k - (j + k - w)) = j := by omega
    rw [if_pos (by omega), if_neg hsign, BitVec.getMsbD_extractLsb', Nat.zero_add, hindex,
      decide_eq_true (by omega), decide_eq_true (by omega), Bool.true_and, Bool.true_and]

/-! ### The obligations -/

/-- Settles O19: a bit of the pair is set, cleared or read, by the rules for `setMbit` and `mbit`. -/
theorem bitInstructions : Obligations.BitInstructions := by
  intro s x y n
  have hn : n < 64 := Nat.mod_lt _ (by decide)
  refine ⟨⟨_, fun j hj => getMsbD_setMbit (s.pair x) n j false hn hj, rfl⟩,
    ⟨_, fun j hj => getMsbD_setMbit (s.pair x) n j true hn hj, rfl⟩, ?tbit, rfl, rfl, rfl⟩
  case tbit =>
    have hbit : boolWord (mbit (s.pair x) n) = if (s.pair x).getMsbD n then 1 else 0 := by
      rw [mbit_eq_getMsbD _ hn, boolWord_of Iff.rfl]
    rw [← hbit]
    rfl

/-- Settles O20: each test is the comparison of the operands as integers. -/
theorem testsCompare : Obligations.TestsCompare := by
  intro s x b a v
  have hv : v = (srcValue b s).toInt := by
    cases b with
    | reg y => rfl
    | imm m => exact (nibWord_toInt m).symm
  have heq : s.reg x = srcValue b s ↔ a = v := by rw [hv, ← BitVec.toInt_inj]
  have hgt : (srcValue b s).slt (s.reg x) = true ↔ a > v := by rw [hv, BitVec.slt_iff_toInt_lt]
  have hlt : (s.reg x).slt (srcValue b s) = true ↔ a < v := by rw [hv, BitVec.slt_iff_toInt_lt]
  have hle : (s.reg x).sle (srcValue b s) = true ↔ a ≤ v := by rw [hv, BitVec.sle_iff_toInt_le]
  have hge : (srcValue b s).sle (s.reg x) = true ↔ a ≥ v := by rw [hv, BitVec.sle_iff_toInt_le]
  rw [← boolWord_of hgt, ← boolWord_of hlt, ← boolWord_of (beq_iff_eq.trans heq),
    ← boolWord_of hle, ← boolWord_of hge, ← boolWord_of (bne_iff_ne.trans heq.not)]
  exact ⟨rfl, rfl, rfl, rfl, rfl, rfl⟩

/-- Settles O21: words are ordered as their unsigned numbers, pairs as their integers. -/
theorem integerCompares : Obligations.IntegerCompares := by
  intro s x y
  have hwordLt : ((s.reg x).toNat : Int) < (s.reg y).toNat ↔ s.reg x < s.reg y :=
    Int.ofNat_lt.trans BitVec.lt_def.symm
  have hwordEq : ((s.reg x).toNat : Int) = (s.reg y).toNat ↔ s.reg x = s.reg y :=
    Int.ofNat_inj.trans BitVec.toNat_inj
  rw [← compareWord_of hwordLt hwordEq,
    ← compareWord_of BitVec.slt_iff_toInt_lt.symm BitVec.toInt_inj]
  exact ⟨rfl, rfl, rfl, rfl⟩

/-- Settles O22: the shifts multiply and divide by a power of two, and a rotation renumbers the
bits. -/
theorem logicalShifts : Obligations.LogicalShifts := by
  intro s x c n n2 a d
  have hn : n = shiftCount c s := by cases c <;> rfl
  have hn2 : n2 = doubleShiftCount c s := by cases c <;> rfl
  rw [hn, hn2, ← shiftLeft_eq_ofNat, ← ushiftRight_eq_ofNat, ← shiftLeft_eq_ofNat,
    ← ushiftRight_eq_ofNat]
  exact ⟨rfl, rfl, ⟨_, fun j hj => getMsbD_rotateLeft_of_lt_width (s.reg x) _ hj, rfl⟩, rfl, rfl⟩

/-- Settles O23: ASR is the division rounded down, ASL a product that `deliver` ends. -/
theorem arithmeticShifts : Obligations.ArithmeticShifts := by
  intro s x c n v fits
  have hn : n = shiftCount c s := by cases c <;> rfl
  have hov : overflows v = true ↔ ¬ fits := by
    rw [overflows_iff]
    simp only [fits]
    omega
  have hasl : exec (.asl x c) s = deliver (shiftOpcode 0x62 c) x (srcField c) v s := by
    rw [exec_asl, ← hn]
  rw [hasl]
  refine ⟨?asr, fun h => ?delivers, fun htw h => ?traps⟩
  case asr =>
    rw [hn, ← sshiftRight_eq_ofInt]
    rfl
  case delivers =>
    exact deliver_goes_on fun htw => Bool.eq_false_iff.2 fun ho => hov.1 ho (h htw)
  case traps =>
    rw [deliver_traps htw (hov.2 h)]
    cases c <;> rfl

/-- Settles O24: the low byte and halfword are the low 8 and 16 bits. -/
theorem signExtension : Obligations.SignExtension := by
  intro s x y
  exact ⟨⟨_, fun j hj => getMsbD_signExtend_low (k := 8) (s.reg y) (by decide) (by decide) hj, rfl⟩,
    ⟨_, fun j hj => getMsbD_signExtend_low (k := 16) (s.reg y) (by decide) (by decide) hj, rfl⟩,
    rfl, rfl⟩

end Sys2Proof.Machine

/-! SUPPORT. The real compares: the keys by which the model orders patterns are in the order of the
values (43_bit_compare_shift.md R314, R315). -/

namespace Sys2Proof.Machine

/-! ### The value of a key -/

/-- The value of the magnitude part `k` of a pattern of `n` bits with `w` exponent bits, if it were
that of a number: the exponent code and the mantissa are the quotient and the rest of `k`. -/
def magnitudeValue (n w k : ℕ) : ℚ :=
  (1 + (k % 2 ^ (n - 1 - w) : ℕ) / 2 ^ (n - 1 - w)) *
    2 ^ ((k / 2 ^ (n - 1 - w) : ℕ) - (2 ^ (w - 1) - 1) : ℤ)

/-- The value that a compare key stands for: that of its magnitude, with its sign; 0 of the key 0. -/
def keyValue (n w : ℕ) (k : ℤ) : ℚ := k.sign * magnitudeValue n w k.natAbs

section Magnitudes

variable (n w : ℕ)

theorem magnitudeValue_pos (k : ℕ) : 0 < magnitudeValue n w k := by
  unfold magnitudeValue
  positivity

theorem magnitudeValue_fields (e : ℕ) {m : ℕ} (hm : m < 2 ^ (n - 1 - w)) :
    magnitudeValue n w (e * 2 ^ (n - 1 - w) + m) =
      (1 + (m : ℚ) / 2 ^ (n - 1 - w)) * 2 ^ (e - (2 ^ (w - 1) - 1) : ℤ) := by
  have hpos : 0 < 2 ^ (n - 1 - w) := by positivity
  rw [magnitudeValue, mul_comm e, Nat.mul_add_mod, Nat.mod_eq_of_lt hm, Nat.mul_add_div hpos,
    Nat.div_eq_of_lt hm, add_zero]

/-- The value at the exponent code above is beyond every mantissa. -/
theorem magnitudeValue_lt_next (k : ℕ) :
    magnitudeValue n w k < 2 ^ ((k / 2 ^ (n - 1 - w) : ℕ) - (2 ^ (w - 1) - 1) + 1 : ℤ) := by
  have hfrac : ((k % 2 ^ (n - 1 - w) : ℕ) : ℚ) / 2 ^ (n - 1 - w) < 1 := by
    rw [div_lt_one (by positivity)]
    exact_mod_cast Nat.mod_lt _ (by positivity)
  rw [magnitudeValue, zpow_add_one₀ two_ne_zero, mul_comm, mul_lt_mul_iff_right₀ (by positivity)]
  linarith

theorem le_magnitudeValue (k : ℕ) :
    2 ^ ((k / 2 ^ (n - 1 - w) : ℕ) - (2 ^ (w - 1) - 1) : ℤ) ≤ magnitudeValue n w k :=
  le_mul_of_one_le_left (by positivity) (le_add_of_nonneg_right (by positivity))

/-- Of two magnitudes the one with the greater exponent code has the greater value; with the same
code, the one with the greater mantissa. -/
theorem magnitudeValue_strictMono : StrictMono (magnitudeValue n w) := by
  intro j k hjk
  rcases (Nat.div_le_div_right hjk.le : j / 2 ^ (n - 1 - w) ≤ k / 2 ^ (n - 1 - w)).eq_or_lt
    with hcode | hcode
  · have hfrac : j % 2 ^ (n - 1 - w) < k % 2 ^ (n - 1 - w) := by
      have hj := Nat.div_add_mod j (2 ^ (n - 1 - w))
      have hk := Nat.div_add_mod k (2 ^ (n - 1 - w))
      rw [hcode] at hj
      omega
    rw [magnitudeValue, magnitudeValue, hcode]
    gcongr
  · refine (magnitudeValue_lt_next n w j).trans_le (le_trans ?_ (le_magnitudeValue n w k))
    exact zpow_le_zpow_right₀ one_le_two (by omega)

/-- Keys are in the order of their values. -/
theorem keyValue_strictMono : StrictMono (keyValue n w) := by
  refine strictMono_of_odd_strictMonoOn_nonneg (fun k => ?odd) fun j hj k _ hjk => ?mono
  case odd => simp [keyValue]
  case mono =>
    have hj : 0 ≤ j := hj
    have hk : 0 < k := hj.trans_lt hjk
    rw [keyValue, keyValue, Int.sign_eq_one_of_pos hk]
    rcases hj.eq_or_lt with rfl | hj
    · simpa using magnitudeValue_pos n w k.natAbs
    · rw [Int.sign_eq_one_of_pos hj, Int.cast_one, one_mul, one_mul]
      exact magnitudeValue_strictMono n w (by omega)

theorem keyValue_signedNat (negative : Bool) {k : ℕ} (hk : 0 < k) :
    keyValue n w (signedNat negative k) = signUnit negative * magnitudeValue n w k := by
  have hsign : (k : ℤ).sign = 1 := Int.sign_eq_one_of_pos (by exact_mod_cast hk)
  cases negative <;> simp [keyValue, signedNat, signUnit, hsign]

end Magnitudes

/-! ### The key of a pattern -/

section Keys

variable {n w : ℕ} (hv : validWidths n w)

include hv

theorem realKey_zero {b : BitVec n} (h : patternExp w b = 0) :
    realKey (format n w) b.toNat = 0 :=
  if_pos ((zeroLike_iff hv b).2 h)

theorem realKey_infinity {b : BitVec n} (h : patternExp w b = 2 ^ w - 1) :
    realKey (format n w) b.toNat =
      signedNat (b.getMsbD 0) ((2 ^ w - 1) * 2 ^ (n - 1 - w)) := by
  have hzero : ¬ zeroLike (classOf (format n w) (unpacked w b)) = true := by
    rw [zeroLike_iff hv]
    have := hv.expAll_pos
    omega
  rw [← unpacked_sign hv]
  exact (if_neg hzero).trans (if_pos ((infinityLike_iff hv b).2 h))

theorem realKey_number {b : BitVec n} (h : isNumber w b) :
    realKey (format n w) b.toNat = signedNat (b.getMsbD 0)
      (patternExp w b * 2 ^ (n - 1 - w) + b.toNat % 2 ^ (n - 1 - w)) := by
  obtain ⟨hlow, hhigh⟩ := h
  have hzero : ¬ zeroLike (classOf (format n w) (unpacked w b)) = true := by
    rw [zeroLike_iff hv]
    omega
  have hinfinity : ¬ infinityLike (classOf (format n w) (unpacked w b)) = true := by
    rw [infinityLike_iff hv]
    omega
  rw [← unpacked_sign hv]
  exact (if_neg hzero).trans (if_neg hinfinity)

/-- The value by which a compare orders a pattern is that of its key. -/
theorem compareValue_eq_keyValue (b : BitVec n) :
    compareValue w b = keyValue n w (realKey (format n w) b.toNat) := by
  have hall := hv.expAll_pos
  have hpos : 0 < 2 ^ (n - 1 - w) := by positivity
  rcases pattern_cases w b with h | h | h
  · rw [realKey_zero hv h, compareValue, if_pos h]
    simp [keyValue]
  · have ⟨hlow, hhigh⟩ := h
    rw [realKey_number hv h, compareValue, if_neg (by omega), if_neg hhigh.ne,
      keyValue_signedNat n w _ (by positivity),
      magnitudeValue_fields n w _ (Nat.mod_lt _ hpos), numberValue, patternValue_eq]
  · have hcode : ((2 ^ w - 1 : ℕ) : ℤ) - (2 ^ (w - 1) - 1) = (2 ^ (w - 1) : ℕ) := by
      obtain ⟨w, rfl⟩ : ∃ m, w = m + 1 := ⟨w - 1, by have := hv.1; omega⟩
      rw [Nat.cast_sub Nat.one_le_two_pow, pow_succ, Nat.add_sub_cancel]
      push_cast
      ring
    have hvalue : magnitudeValue n w ((2 ^ w - 1) * 2 ^ (n - 1 - w)) = 2 ^ 2 ^ (w - 1) := by
      have hfields := magnitudeValue_fields n w (2 ^ w - 1) hpos
      rwa [add_zero, hcode, Nat.cast_zero, zero_div, add_zero, one_mul, zpow_natCast] at hfields
    rw [realKey_infinity hv h, compareValue, if_neg (by omega), if_pos h,
      keyValue_signedNat n w _ (by positivity), hvalue]
    rfl

/-- The result of a real compare is by the values of its operands. -/
theorem compareWord_realKey (a b : BitVec n) :
    compareWord (realKey (format n w) a.toNat) (realKey (format n w) b.toNat) =
      if compareValue w a < compareValue w b then -1
      else if compareValue w a = compareValue w b then 0 else 1 := by
  rw [compareValue_eq_keyValue hv a, compareValue_eq_keyValue hv b]
  exact compareWord_of (keyValue_strictMono n w).lt_iff_lt.symm
    (keyValue_strictMono n w).injective.eq_iff.symm

theorem compareSpecial_iff (a b : BitVec n) :
    compareSpecial (format n w) a.toNat b.toNat = true ↔ isSpecial w a ∨ isSpecial w b := by
  rw [← specialOperand_iff hv a, ← specialOperand_iff hv b, ← Bool.or_eq_true]
  rfl

/-! ### The two ends of a compare -/

/-- A compare with the before trap off, or of operands that are not special, goes on. -/
theorem compare_goes_on {a b : BitVec n} {s : State} {α : Type} {trapped ordered : α}
    (h : isSpecial w a ∨ isSpecial w b → s.tw.getMsbD 25 = false) :
    (if compareSpecial (format n w) a.toNat b.toNat && mbit s.tw 25 then trapped else ordered) =
      ordered := by
  refine if_neg fun hboth => ?_
  rw [Bool.and_eq_true, compareSpecial_iff hv, mbit_eq_getMsbD _ (by decide)] at hboth
  exact Bool.eq_false_iff.1 (h hboth.1) hboth.2

/-- A compare of special operands with the before trap on traps. -/
theorem compare_traps {a b : BitVec n} {s : State} {α : Type} {trapped ordered : α}
    (h : isSpecial w a ∨ isSpecial w b) (h25 : s.tw.getMsbD 25 = true) :
    (if compareSpecial (format n w) a.toNat b.toNat && mbit s.tw 25 then trapped else ordered) =
      trapped := by
  refine if_pos ?_
  rw [Bool.and_eq_true, compareSpecial_iff hv, mbit_eq_getMsbD _ (by decide)]
  exact ⟨h, h25⟩

end Keys

/-! ### The obligation -/

/-- Settles O32: both compares order by keys, which are in the order of the values, unless the before
trap is taken. -/
theorem realCompare : Obligations.RealCompare := by
  intro s x y trap order special doubleSpecial
  have hs := validWidths_single
  have hd := validWidths_double
  refine ⟨fun h => ?single, fun h h25 => ?singleTrap, fun h => ?double, fun h h25 => ?doubleTrap⟩
  case single =>
    simp only [order]
    rw [← compareWord_realKey hs]
    exact compare_goes_on hs h
  case singleTrap => exact compare_traps hs h h25
  case double =>
    simp only [order]
    rw [← compareWord_realKey hd]
    exact compare_goes_on hd h
  case doubleTrap => exact compare_traps hd h h25

end Sys2Proof.Machine

/-! SUPPORT. Program control: the branches, LOOP and the linkage, and both ends of TRAP
(44_program_control.md R340 to R349, R352, R354 to R356; 60_exceptions.md R445). -/

namespace Sys2Proof.Machine

/-! ### TRAP -/

section Trap

variable {s : State} {x n : Nib}

/-- TRAP traps in kernel mode and where its bit of SR10 is set: the Ry field numbers a bit of that
word (44_program_control.md R352). -/
theorem trap_taken_iff :
    (s.mode = .kernel ∨ mbit (s.sr 10) n.toNat) ↔
      s.mode = .kernel ∨ (s.sr 10).getMsbD n.toNat = true := by
  rw [mbit_eq_getMsbD _ (n.isLt.trans (by decide))]

theorem exec_trap_goes_on (hm : s.mode = .user) (h : (s.sr 10).getMsbD n.toNat = false) :
    exec (.trap x n) s = .next ((s.setSr 3 (nibWord n)).advance 2) := by
  refine if_neg (trap_taken_iff.not.2 ?_)
  rintro (hkernel | hbit)
  · exact Mode.noConfusion (hm.symm.trans hkernel)
  · exact Bool.false_ne_true (h.symm.trans hbit)

theorem exec_trap_traps (h : s.mode = .kernel ∨ (s.sr 10).getMsbD n.toNat = true) :
    exec (.trap x n) s = raiseArith 0x3B x n (nibWord n) (s.setSr 3 (nibWord n)) :=
  if_pos (trap_taken_iff.2 h)

end Trap

/-! ### The obligations -/

/-- Settles O33: each branch is `branchIf` on a comparison of the operands as integers. -/
theorem branches : Obligations.Branches := by
  intro s x y n b d a v
  have hv : (srcValue b s).toInt = v := srcValue_toInt b s
  have hn : (nibWord n).toInt = n.toNat := nibWord_toInt n
  have heq : s.reg x = srcValue b s ↔ a = v := by rw [← hv, ← BitVec.toInt_inj]
  refine ⟨branchIf_eq _ _ (iff_of_true rfl trivial) d s, branchIf_eq _ _ ?gt d s,
    branchIf_eq _ _ (beq_iff_eq.trans heq) d s, branchIf_eq _ _ ?le d s,
    branchIf_eq _ _ (bne_iff_ne.trans heq.not) d s, branchIf_eq _ _ ?lt d s,
    branchIf_eq _ _ ?ge d s⟩
  case gt => rw [BitVec.slt_iff_toInt_lt, hv, gt_iff_lt]
  case le => rw [BitVec.sle_iff_toInt_le, hv]
  case lt => rw [BitVec.slt_iff_toInt_lt, hn]
  case ge => rw [BitVec.sle_iff_toInt_le, hn, ge_iff_le]

/-- Settles O34: LOOP is a branch on the true sum, CALLR and RET are jumps to the target that the
state before the linkage gives. -/
theorem loopAndLinkage : Obligations.LoopAndLinkage := by
  intro s x y n d v
  refine ⟨branchIf_eq _ _ decide_eq_true_iff d _, ?call, fun h => jump_even h _,
    fun h => jump_even h _, fun h => jump_odd h _, fun h => jump_odd h _⟩
  case call =>
    have hnext : s.pc + dispLength d = branchEnd d s.pc False :=
      congrArg State.pc (advance_dispLength d s)
    rw [← hnext, ← branchTarget_eq]
    rfl

/-- Settles O36: TRAP goes on or traps, and SR3 holds the Ry field in either case. -/
theorem trapInstruction : Obligations.TrapInstruction := by
  intro s x n
  exact ⟨exec_trap_goes_on, exec_trap_traps⟩

end Sys2Proof.Machine

/-! SUPPORT. The kernel's own instructions: the PCB of a current process as SUS, LUS and LDREGS use it,
the acknowledge of ITEST, and the trap of user mode (45_kernel.md R370 to R397; 60_exceptions.md R421,
R443, R451, R452). -/

namespace Sys2Proof.Machine

/-! ### The PCB of a current process -/

section Pcb

variable {s : State}

/-- A PCB address is never the word 1 that stands for no current process. -/
theorem ne_one_of_aligned {p : Word} (h : p.toNat % 4 = 0) : p ≠ 1#32 := by
  rintro rfl
  exact absurd h (by decide)

theorem currentPcb_misaligned (h : (s.sr 14).toNat % 4 ≠ 0) :
    currentPcb s = .refused .pcbMisaligned := by
  have hal : aligned (s.sr 14) 4 = false := by rw [← Bool.not_eq_true, aligned_iff]; exact h
  rw [currentPcb, pcbBase, hal]
  rfl

/-- An aligned PCB is used where its first word exists (92_eei_decisions.md D47). -/
theorem currentPcb_aligned (h : (s.sr 14).toNat % 4 = 0) :
    currentPcb s =
      if (s.sr 14).toNat + 4 ≤ Config.memSize then .ok (s.sr 14) s
      else .refused .absentRealAddress := by
  rw [currentPcb, pcbBase, if_pos ((aligned_iff _ _).2 h), Res.bind_ok]
  simp only [realExists_iff]

/-- SUS, LUS and LDREGS alike: nothing without a current process, else an operation on its PCB
(45_kernel.md R371 to R373). -/
def withPcb (f : Word → State → Res Unit) (s : State) : Out :=
  if s.sr 14 = 1#32 then kernelDone s
  else ((currentPcb s).bind f).out fun _ t => kernelDone t

variable (f : Word → State → Res Unit)

theorem withPcb_none (h : s.sr 14 = 1#32) : withPcb f s = .next (s.advance 2) := if_pos h

theorem withPcb_misaligned (h1 : s.sr 14 ≠ 1#32) (h : (s.sr 14).toNat % 4 ≠ 0) :
    withPcb f s = .refused .pcbMisaligned := by
  rw [withPcb, if_neg h1, currentPcb_misaligned h]
  rfl

theorem withPcb_absent (h : (s.sr 14).toNat % 4 = 0) (hm : Config.memSize ≤ (s.sr 14).toNat) :
    withPcb f s = .refused .absentRealAddress := by
  rw [withPcb, if_neg (ne_one_of_aligned h), currentPcb_aligned h, if_neg (by omega)]
  rfl

variable {f}

theorem withPcb_of {t : State} (h : (s.sr 14).toNat % 4 = 0)
    (hm : (s.sr 14).toNat + 4 ≤ Config.memSize) (hf : f (s.sr 14) s = .ok () t) :
    withPcb f s = .next (t.advance 2) := by
  rw [withPcb, if_neg (ne_one_of_aligned h), currentPcb_aligned h, if_pos hm, Res.bind_ok, hf]
  rfl

/-- The address of a word of the PCB, at an offset that stays in memory. -/
theorem toNat_add_pcbOffset {p k : Word} {n : Nat} (h : p.toNat + n ≤ Config.memSize)
    (hk : k.toNat + 4 ≤ n) :
    (p + k).toNat = p.toNat + k.toNat ∧ (p + k).toNat + 4 ≤ Config.memSize := by
  have hadd : (p + k).toNat = p.toNat + k.toNat := toNat_add_of_fits (n := 4) (by omega)
  exact ⟨hadd, by omega⟩

end Pcb

/-! ### SUS -/

section Save

variable {s : State} {x y : Reg}

/-- What SUS stores in a PCB (45_kernel.md R371). -/
def saveInto (x y : Reg) (p : Word) (s : State) : Res Unit :=
  (microWrite (p + pcbPc) (s.sr 15) s).bind fun _ s => saveRegs p (regRange x y) s

theorem exec_sus_kernel (hm : s.mode = .kernel) : exec (.sus x y) s = withPcb (saveInto x y) s :=
  guarded_kernel hm .kernelOnly 0x40 x y _

/-- SR15 and the registers of the range in their places of the PCB, and the rest of memory as it was:
the place of SR15 lies above those of the registers (`PCB_LAYOUT`, log entry 27). -/
theorem saveInto_of {p : Word} (hd : s.dmaTurns = []) (hw : s.mem.wf)
    (hp : p.toNat + 0x44 ≤ Config.memSize) :
    ∃ t, saveInto x y p s = .ok () t ∧ t.mem.readWord (p.toNat + 0x40) = s.sr 15 ∧
      (∀ i ∈ regRange x y, t.mem.readWord (p.toNat + 4 * i.toNat) = s.reg i) ∧
      (∀ a, ¬ (p.toNat + 0x40 ≤ a ∧ a < p.toNat + 0x44) →
        (∀ i ∈ regRange x y, ¬ (p.toNat + 4 * i.toNat ≤ a ∧ a < p.toNat + 4 * i.toNat + 4)) →
        t.mem.read a = s.mem.read a) ∧
      { t with mem := s.mem, staleCode := s.staleCode, staleData := s.staleData } = s := by
  obtain ⟨haddr, hfits⟩ := toNat_add_pcbOffset (k := pcbPc) hp (by decide)
  obtain ⟨t, hrun, -, hregs, hframe, hrest⟩ :=
    saveRegs_of hp (regRange x y) (s.storeReal (p.toNat + 0x40) (wordBytes (s.sr 15))) hd
      (Memory.wf_writeBytes hw _ _)
  have hpc : t.mem.readWord (p.toNat + 0x40) = s.sr 15 := by
    have above (k : Nat) : t.mem.read (p.toNat + 0x40 + k) =
        (s.mem.writeBytes (p.toNat + 0x40) (wordBytes (s.sr 15))).read (p.toNat + 0x40 + k) :=
      hframe _ fun i _ => by have := i.isLt; omega
    rw [← Memory.readWord_writeBytes hw (p.toNat + 0x40) (s.sr 15)]
    simp only [Memory.readWord, above, show t.mem.read (p.toNat + 0x40) = _ from above 0]
  refine ⟨t, ?run, hpc, hregs, ?frame, ?rest⟩
  case run =>
    rw [saveInto, microWrite_of hd hfits, haddr]
    exact hrun
  case frame =>
    intro a hout hregion
    have hlen : (wordBytes (s.sr 15)).length = 4 := rfl
    rw [hframe a hregion]
    exact Memory.read_writeBytes_outside hw (by omega)
  case rest =>
    exact (congrArg (fun u : State =>
      { u with mem := s.mem, staleCode := s.staleCode, staleData := s.staleData }) hrest :)

end Save

/-- Settles O46: SUS is an operation on the PCB, and `saveInto_of` says what it stores there. -/
theorem saveState : Obligations.SaveState := by
  intro s x y hd hw hm p
  rw [exec_sus_kernel hm]
  refine ⟨withPcb_none _, withPcb_misaligned _, withPcb_absent _, fun h4 hfits => ?_⟩
  intro saved
  have hsaved (i : Nib) : i ∈ regRange x y ↔ saved i.toNat :=
    (mem_regRange x y i).trans (or_congr_left BitVec.toNat_inj.symm)
  obtain ⟨t, hrun, hpc, hregs, hframe, hrest⟩ := saveInto_of (x := x) (y := y) hd hw hfits
  refine ⟨t.advance 2, withPcb_of h4 (by omega) hrun, ?pc, hpc, fun i hi => hregs i ((hsaved i).2 hi),
    fun a hout hregs => hframe a hout fun i hi => hregs i.toNat ((hsaved i).1 hi), ?rest⟩
  case pc => exact congrArg (· + 2) (congrArg State.pc hrest :)
  case rest => exact (congrArg (fun u : State => { u with pc := s.pc }) hrest :)

/-! ### LUS and LDREGS -/

section Load

variable {s : State} {x y : Reg}

/-- What LUS loads from a PCB (45_kernel.md R372). -/
def loadFrom (x y : Reg) (p : Word) (s : State) : Res Unit :=
  (microRead (p + pcbPc) s).bind fun upc s =>
  (microRead (p + pcbSegments) s).bind fun segs s =>
  (microRead (p + pcbTraps) s).bind fun traps s =>
  (loadRegs p (regRange x y) (loadProcess upc segs traps s)).bind fun _ s => .ok () (flushProcess s)

theorem exec_lus_kernel (hm : s.mode = .kernel) : exec (.lus x y) s = withPcb (loadFrom x y) s :=
  guarded_kernel hm .kernelOnly 0x41 x y _

theorem exec_ldregs_kernel (hm : s.mode = .kernel) :
    exec (.ldregs x y) s = withPcb (fun p => loadRegs p (regRange x y)) s :=
  guarded_kernel hm .kernelOnly 0x43 x y _

/-- The registers of the range from their places of the PCB, and beside them the process, with the
flush of 20_memory.md R115. -/
theorem loadFrom_of {p : Word} (hc : s.calm) (hp : p.toNat + 0x4C ≤ Config.memSize) :
    ∃ t, loadFrom x y p s = .ok () t ∧
      (∀ i, t.reg i =
        if i ∈ regRange x y then s.mem.readWord (p.toNat + 4 * i.toNat) else s.reg i) ∧
      { t with regs := s.regs } =
        flushProcess (loadProcess (s.mem.readWord (p.toNat + 0x40)) (s.mem.readWord (p.toNat + 0x44))
          (s.mem.readWord (p.toNat + 0x48)) s) := by
  have word (k : Word) (hk : k.toNat + 4 ≤ 0x4C) :
      microRead (p + k) s = .ok (s.mem.readWord (p.toNat + k.toNat)) s := by
    obtain ⟨haddr, hfits⟩ := toNat_add_pcbOffset hp hk
    rw [microRead_of hc hfits, haddr]
  obtain ⟨t, hrun, hregs, hrest⟩ :=
    loadRegs_of (by omega : p.toNat + 0x44 ≤ Config.memSize) (regRange x y)
      (loadProcess (s.mem.readWord (p.toNat + 0x40)) (s.mem.readWord (p.toNat + 0x44))
        (s.mem.readWord (p.toNat + 0x48)) s) hc
  refine ⟨flushProcess t, ?run, hregs, (congrArg flushProcess hrest :)⟩
  rw [loadFrom, word pcbPc (by decide), Res.bind_ok, word pcbSegments (by decide), Res.bind_ok,
    word pcbTraps (by decide), Res.bind_ok]
  exact (congrArg (Res.bind · fun _ s => .ok () (flushProcess s)) hrun :)

end Load

/-- Settles O47: both are operations on the PCB that load the register range; `loadFrom_of` says what
LUS loads beside it. -/
theorem loadState : Obligations.LoadState := by
  intro s x y hc hm p word range
  rw [exec_lus_kernel hm, exec_ldregs_kernel hm]
  refine ⟨fun h => ⟨withPcb_none _ h, withPcb_none _ h⟩,
    fun h1 h => ⟨withPcb_misaligned _ h1 h, withPcb_misaligned _ h1 h⟩,
    fun h h' => ⟨withPcb_absent _ h h', withPcb_absent _ h h'⟩, fun h4 hfits => ⟨?lus, ?ldregs⟩⟩
  case lus =>
    obtain ⟨t, hrun, hregs, hrest⟩ := loadFrom_of (x := x) (y := y) hc hfits
    exact ⟨t.advance 2, withPcb_of h4 (by omega) hrun,
      fun i => (hregs i).trans (if_congr (mem_regRange x y i) rfl rfl),
      (congrArg (State.advance · 2) hrest :)⟩
  case ldregs =>
    obtain ⟨t, hrun, hregs, hrest⟩ :=
      loadRegs_of (by omega : (s.sr 14).toNat + 0x44 ≤ Config.memSize) (regRange x y) s hc
    exact ⟨t.advance 2, withPcb_of h4 (by omega) hrun,
      fun i => (hregs i).trans (if_congr (mem_regRange x y i) rfl rfl),
      (congrArg (State.advance · 2) hrest :)⟩

/-! ### Returns and moves -/

/-- Settles O48: the kernel mode of both is checked first, and each ends in a jump. -/
theorem returns : Obligations.Returns := by
  intro s x y hm
  have hrum : exec (.rum x y) s =
      if s.sr 14 = 1#32 then kernelDone { s with paused := true } else returnToUser s :=
    guarded_kernel hm .kernelOnly 0x42 x y _
  have hexit : exec (.trapexit x) s = returnToKernel s :=
    guarded_kernel hm .kernelOnly 0x4C x 7 _
  rw [hrum, hexit]
  exact ⟨fun h => if_pos h, fun h1 h => (if_neg h1).trans (jump_even h _),
    fun h1 h => (if_neg h1).trans (jump_odd h _), fun h => jump_even h _, fun h => jump_odd h _⟩

/-- Settles O49: both moves pass the check of kernel mode. -/
theorem specialRegisterMoves : Obligations.SpecialRegisterMoves := fun _ x y hm =>
  ⟨guarded_kernel hm .kernelOnly 0x46 x y _, guarded_kernel hm .kernelOnly 0x47 x y _, rfl, rfl⟩

/-! ### Maintenance -/

/-- The two bits of the status word, and no other (45_kernel.md R387). -/
theorem getMsbD_statusWord (s : State) {j : Nat} (hj : j < 32) :
    (statusWord s).getMsbD j =
      if j = 23 then s.powerFail else if j = 31 then s.loaf else false := by
  rw [statusWord, getMsbD_setMbit _ _ _ _ (by decide) hj, getMsbD_setMbit _ _ _ _ (by decide) hj,
    BitVec.getMsbD_zero]
  by_cases h23 : j = 23
  · subst h23; rfl
  · simp [h23]

/-- The bits that a 3200 always shows (45_kernel.md R393). -/
theorem getMsbD_machineId :
    Config.machineId.getMsbD 28 = true ∧ Config.machineId.getMsbD 30 = true := by
  have fixed : (0x0000000A#32).getMsbD 28 = true ∧ (0x0000000A#32).getMsbD 30 = true := by decide
  simp [Config.machineId, BitVec.getMsbD_or, fixed]

theorem clockInputWord_eq (c : ClockBoard) :
    clockInputWord c = (if c.dataIn then 2 else 0) + if c.ack then 1 else 0 :=
  flagWord_of Iff.rfl Iff.rfl

/-- A location below the count of valid entries holds its entry (log entry 24). -/
theorem logout_valid {s : State} {n : Nat} (h : n < s.errorLog.length) :
    logout n s = s.errorLog[n] := by
  rw [logout, List.getElem?_eq_getElem h]

section Privileged

variable {s : State} {x : Reg}

theorem exec_elogw_of (hp : s.privileged) :
    exec (.elogw x) s =
      kernelDone (if (s.reg x).getMsbD 31 then { s with errorLog := [] } else s) := by
  rw [← mbit_eq_getMsbD _ (by decide)]
  exact guarded_privileged hp 0x4C x 1 _

theorem exec_twrited_of (hp : s.privileged) :
    exec (.twrited x) s =
      kernelDone (if mfield (s.reg x) 28 29 = 3#2 then
        { s with
          mask1 := maskControl (mfield (s.reg x) 24 25) s.mask1
          mask2 := maskControl (mfield (s.reg x) 26 27) s.mask2 }
      else s) :=
  guarded_privileged hp 0x4C x 5 _

theorem exec_creg_of (hp : s.privileged) :
    exec (.creg x) s =
      .next { (s.setReg (x + 1) (clockInputWord s.clock)).advance 2 with
        clock := { s.clock with
          request := (s.reg x).getMsbD 31, dataOut := (s.reg x).getMsbD 30 } } := by
  rw [← mbit_eq_getMsbD _ (by decide), ← mbit_eq_getMsbD _ (by decide)]
  exact guarded_privileged hp 0x4C x 12 _

theorem exec_rdlog_of (hp : s.privileged) :
    exec (.rdlog x) s =
      if (s.reg x).getMsbD 0 then kernelDone (s.setReg x (BitVec.ofNat 32 s.errorLog.length))
      else kernelDone (s.setReg x (logout (mfield (s.reg x) 28 31).toNat s)).drawn := by
  rw [← mbit_eq_getMsbD _ (by decide)]
  exact guarded_privileged hp 0x4C x 13 _

end Privileged

/-- Settles O50: each passes the check of its class; what is left are the bits that its word gives or
takes. -/
theorem maintenance : Obligations.Maintenance := by
  intro s x hp a mask
  refine ⟨⟨statusWord s, fun j => getMsbD_statusWord s, guarded_privileged hp 0x4C x 0 _⟩,
    fun h => (exec_elogw_of hp).trans (congrArg kernelDone (if_pos h)),
    fun h => (exec_elogw_of hp).trans (congrArg kernelDone (if_neg (ne_true_of_eq_false h))),
    fun h => (exec_twrited_of hp).trans (congrArg kernelDone (if_pos h)),
    fun h => (exec_twrited_of hp).trans (congrArg kernelDone (if_neg h)),
    guarded_privileged hp 0x4C x 6 _, guarded_privileged hp 0x4C x 10 _,
    getMsbD_machineId.1, getMsbD_machineId.2, guarded_privileged hp 0x4C x 11 _, ?creg,
    fun h => (exec_rdlog_of hp).trans (if_pos h),
    fun h => ⟨logout (mfield a 28 31).toNat s, logout_valid,
      (exec_rdlog_of hp).trans (if_neg (ne_true_of_eq_false h))⟩⟩
  case creg =>
    rw [exec_creg_of hp, clockInputWord_eq]

/-! ### ITEST -/

/-- No line is deliverable under its mask, nor one on which no board requests. -/
theorem ackInterrupt_none {s : State}
    (h : s.mask2 = true ∨ quiet .two s.boards ∧ (s.mask1 = true ∨ quiet .one s.boards)) :
    ackInterrupt s = none := by
  have hline : deliverableLine s = none := by
    unfold deliverableLine
    rcases h with h2 | ⟨h2, h1 | h1⟩
    · rw [if_pos h2]
    · simp [(quiet_iff _ _).1 h2, h1]
    · simp [(quiet_iff _ _).1 h2, (quiet_iff _ _).1 h1]
  rw [ackInterrupt, hline]

/-- The line of the deliverable board is the deliverable one. -/
theorem deliverableLine_of {s : State} {pre post : List Board} {b : Board} {info : BitVec 24}
    (h : s.deliverableBoard pre b info post) : deliverableLine s = some b.line := by
  have hb : s.boards.any (requesting b.line) = true :=
    (exists_first_requesting _ _).2 ⟨pre, b, post, info, h.place, rfl, h.request, h.first⟩
  cases hl : b.line with
  | one =>
    obtain ⟨h1, h2⟩ := h.line1 hl
    rw [hl] at hb
    simp [deliverableLine, h.mask2, (quiet_iff _ _).1 h2, h1, hb]
  | two =>
    rw [hl] at hb
    simp [deliverableLine, h.mask2, hb]

theorem ackInterrupt_of {s : State} {pre post : List Board} {b : Board} {info : BitVec 24}
    (h : s.deliverableBoard pre b info post) :
    ackInterrupt s =
      some (b.device ++ info, { s with boards := pre ++ { b with request := none } :: post }) := by
  have hboards := ackBoards_of pre post b info h.first rfl h.request
  rw [← h.place] at hboards
  simp only [ackInterrupt, deliverableLine_of h, hboards]

theorem exec_itest_none {s : State} {x : Reg} (hp : s.privileged) (h : ackInterrupt s = none) :
    exec (.itest x) s = .next ((s.setReg x 1).advance 2) := by
  refine (guarded_privileged hp 0x4C x 8 _).trans ?_
  rw [h]
  rfl

theorem exec_itest_some {s t : State} {x : Reg} {w : Word} (hp : s.privileged)
    (h : ackInterrupt s = some (w, t)) :
    exec (.itest x) s = .next (((t.setReg (x + 1) w).setReg x 0).advance 2) := by
  refine (guarded_privileged hp 0x4C x 8 _).trans ?_
  rw [h]
  rfl

/-- Settles O51: ITEST finishes what the acknowledge finds, the deliverable board or none. -/
theorem interruptTest : Obligations.InterruptTest := by
  intro s x hp quiet
  exact ⟨fun h => exec_itest_none hp (ackInterrupt_none h),
    fun _ _ _ _ hplace hrequest hmask hfirst hline =>
      exec_itest_some hp (ackInterrupt_of ⟨hplace, hrequest, hmask, hfirst, hline⟩)⟩

/-! ### The kernel violation trap -/

/-- Settles O54: the check of its class comes first in each kernel instruction, and denied it enters
the trap from the unchanged state. -/
theorem kernelViolation : Obligations.KernelViolation := by
  intro s x y hm e
  refine ⟨fun p hp => ?first, fun hpp p hp => ?second⟩
  case first =>
    simp only [List.mem_cons, List.not_mem_nil, or_false] at hp
    rcases hp with rfl | rfl | rfl | rfl | rfl | rfl | rfl | rfl | rfl <;>
      exact guarded_user hm _ _ _ _
  case second =>
    simp only [List.mem_cons, List.not_mem_nil, or_false] at hp
    rcases hp with rfl | rfl | rfl | rfl | rfl | rfl | rfl | rfl | rfl | rfl | rfl <;>
      exact guarded_unprivileged hm hpp _ _ _ _

end Sys2Proof.Machine

/-! SUPPORT. Exceptions: event entry with its vector, without one and with a failing one, CHK, CHKI
and KCALL (60_exceptions.md R430, R431, R437, R439, R443, R444, R455; 44_program_control.md R350,
R351, R353). -/

namespace Sys2Proof.Machine

/-! ### Event entry -/

/-- The CCB at a legal address. -/
theorem ccbBase_aligned {s : State} (h : (s.sr 11).toNat % 4 = 0) :
    ccbBase s = .ok (s.sr 11) s := by
  have hodd : oddAddress (s.sr 11) = false := by rw [oddAddress_eq_false]; omega
  simp only [ccbBase, hodd, Bool.false_eq_true, if_false, (aligned_iff _ _).2 h, if_true]

/-- No CCB, no vector (60_exceptions.md R437). -/
theorem enterVector_noCcb {s : State} (h : (s.sr 11).toNat % 2 = 1) (off : Word) :
    enterVector off s = .fault .noCcb := by
  simp only [enterVector, ccbVector, ccbBase, (oddAddress_iff _).2 h, if_true, Res.bind_fault]

/-- What an event saves does not move the CCB. -/
theorem saveEvent_sr_ccb (e : Event) (s : State) : (saveEvent e s).sr 11 = s.sr 11 :=
  saveEvent_sr e s 11

theorem enterEvent_noCcb {s : State} (h : (s.sr 11).toNat % 2 = 1) (e : Event) :
    enterEvent e s = .fault .noCcb :=
  enterVector_noCcb (s := saveEvent e s) ((saveEvent_sr_ccb e s).symm ▸ h) e.off

/-- The state after the microcode has read a failing word at `a`, a multiple of 4: the mark is gone,
the report is pending and a free value stands for the word (60_exceptions.md R455; log entry 12). -/
def State.wordFailed (s : State) (a : Word) : State :=
  { s with
    draws := s.draws + 1, badWords := s.badWords.filter (· ≠ a.toNat / 4)
    parityPending := s.parityPending ++ [{ fetch := false, addr := a }] }

theorem microRead_failing {s : State} {a : Word} (hd : s.dmaTurns = []) (h4 : a.toNat % 4 = 0)
    (hf : a.toNat + 4 ≤ Config.memSize) (hbad : a.toNat / 4 ∈ s.badWords) :
    microRead a s = .ok (Config.parityData s.draws 2) (s.wordFailed a) := by
  have hword : a.toNat / 4 = (a.toNat + 4 - 1) / 4 := by omega
  have hfails : readFails a.toNat 4 s = true := by
    simp only [readFails_word hword, hbad, decide_true]
  simp only [microRead, dmaTurn_of hd, Res.bind_ok, (realExists_iff _ _).2 hf, Bool.not_true,
    Bool.false_eq_true, if_false, hfails, if_true, parityChecked_word _ hword, hbad]
  rfl

theorem setSrOpt_wordFailed (s : State) (a : Word) (i : SReg) (w : Option Word) :
    (s.wordFailed a).setSrOpt i w = (s.setSrOpt i w).wordFailed a := by
  cases w <;> rfl

theorem savePc_wordFailed (e : Event) (s : State) (a : Word) :
    savePc e (s.wordFailed a) = (savePc e s).wordFailed a := by
  obtain ⟨_, _, _ | _⟩ := s <;> rfl

/-- A failing vector word leaves alone what the event saves. -/
theorem saveEvent_wordFailed (e : Event) (s : State) (a : Word) :
    saveEvent e (s.wordFailed a) = (saveEvent e s).wordFailed a := by
  simp only [saveEvent, savePc_wordFailed, setSrOpt_wordFailed]

/-- Event entry with a failing vector word goes on at the free value that stands for the vector. -/
theorem enterEvent_failing {e : Event} {s : State} (hd : s.dmaTurns = [])
    (h4 : (s.sr 11).toNat % 4 = 0) (ho : e.off.toNat % 4 = 0)
    (hf : (s.sr 11).toNat + e.off.toNat + 4 ≤ Config.memSize)
    (hbad : ((s.sr 11).toNat + e.off.toNat) / 4 ∈ s.badWords) :
    enterEvent e s =
      if oddAddress (Config.parityData s.draws 2) then .refused .oddPc
      else .next { saveEvent e (s.wordFailed (s.sr 11 + e.off)) with
        mode := .kernel, paused := false, pc := Config.parityData s.draws 2 } := by
  have hframe := saveEvent_frame e s
  have hsr := saveEvent_sr_ccb e s
  have haddr : (s.sr 11 + e.off).toNat = (s.sr 11).toNat + e.off.toNat := toNat_add_of_fits hf
  have hbase : ccbBase (saveEvent e s) = .ok (s.sr 11) (saveEvent e s) :=
    (ccbBase_aligned (hsr.symm ▸ h4)).trans (by rw [hsr])
  have hread : microRead (s.sr 11 + e.off) (saveEvent e s) =
      .ok (Config.parityData s.draws 2) (saveEvent e (s.wordFailed (s.sr 11 + e.off))) := by
    rw [saveEvent_wordFailed, microRead_failing (by rw [hframe]; exact hd) (by omega) (by omega)
      (by rw [hframe, haddr]; exact hbad)]
    rw [hframe]
  change enterVector e.off (saveEvent e s) = _
  simp only [enterVector, ccbVector, hbase, Res.bind_ok, hread]

/-! ### KCALL -/

/-- The vectors of KCALL are the first 256 words of the CCB (60_exceptions.md R439). -/
theorem kcallOffset_eq (num : Byte) : (num ++ 0#2).setWidth 32 = 4 * num.setWidth 32 := by
  revert num
  decide

theorem exec_kcall_user {s : State} (hm : s.mode = .user) (num : Byte) :
    exec (.kcall num) s = enterVector (4 * num.setWidth 32) (s.setSr 15 (s.pc + 2)) := by
  simp only [exec, execKcall, hm, kcallOffset_eq]

/-- The return address does not move the CCB. -/
theorem setSr_return_sr_ccb (s : State) (w : Word) : (s.setSr 15 w).sr 11 = s.sr 11 :=
  State.sr_setSr s 15 11 w

/-! ### The obligations -/

/-- Settles O53: the entry takes its vector from the CCB, or a free value where the vector word
fails; an odd SR11 stops it before that. -/
theorem eventEntry : Obligations.EventEntry := by
  intro s e
  refine ⟨fun v hv => enterEvent_entered hv,
    fun hodd => ⟨enterEvent_noCcb hodd e, fun hm num => ?kcall⟩, ?failing⟩
  case kcall =>
    rw [exec_kcall_user hm]
    exact enterVector_noCcb ((setSr_return_sr_ccb s _).symm ▸ hodd) _
  case failing =>
    intro a hd h4 ho hf hbad
    have henter := enterEvent_failing hd h4 ho hf hbad
    have haddr : (s.sr 11 + e.off).toNat = a := toNat_add_of_fits hf
    refine ⟨Config.parityData s.draws 2, fun h => henter.trans (if_pos ((oddAddress_iff _).2 h)),
      fun h => ⟨_, henter.trans (if_neg (ne_true_of_eq_false ((oddAddress_eq_false _).2 h))), ?_⟩⟩
    rw [← haddr]
    exact saveEvent_entered e (s.wordFailed (s.sr 11 + e.off)) _

/-- Settles O35: each check is a signed comparison, and its trap is entered from the state as it
is. -/
theorem checks : Obligations.Checks := by
  intro s x y a e
  have hchk : (s.reg y).slt (s.reg x) = true ↔ (s.reg y).toInt < a := BitVec.slt_iff_toInt_lt
  have hchki : ((s.reg x).slt 0#32 || (nibWord y).slt (s.reg x)) = true ↔
      a < 0 ∨ (y.toNat : Int) < a := by
    rw [Bool.or_eq_true, BitVec.slt_iff_toInt_lt, BitVec.slt_iff_toInt_lt, nibWord_toInt]
    rfl
  exact ⟨fun h => if_neg (by rw [hchk]; omega), fun h => if_pos (hchk.2 h),
    fun h0 h => if_neg (by rw [hchki]; omega), fun h => if_pos (hchki.2 h)⟩

/-- Settles O37: KCALL saves its return address and enters through its vector; in kernel mode it is
the kernel violation. -/
theorem kernelCall : Obligations.KernelCall := by
  intro s num
  refine ⟨fun v hm hv => ?user, fun hm => ?kernel⟩
  case user =>
    have hsr := setSr_return_sr_ccb s (s.pc + 2)
    rw [exec_kcall_user hm]
    exact enterVector_of
      ⟨hv.calm, hsr.symm ▸ hv.base, hsr.symm ▸ hv.fits, hsr.symm ▸ hv.word, hv.even⟩
  case kernel =>
    simp only [exec, execKcall, hm]
    rfl

end Sys2Proof.Machine

/-! SUPPORT. The instruction boundary: the interrupt taken there, and what runs where none is
(60_exceptions.md R438, R448 to R456, R460, R461, R471; 30_encoding.md R135). -/

namespace Sys2Proof.Machine

/-! ### The interrupt taken -/

/-- The counter of free values has no part in which board is deliverable. -/
theorem State.deliverableBoard.withDraws {s : State} {pre post : List Board} {b : Board}
    {info : BitVec 24} (h : s.deliverableBoard pre b info post) (n : Nat) :
    ({ s with draws := n } : State).deliverableBoard pre b info post :=
  ⟨h.place, h.request, h.mask2, h.first, h.line1⟩

/-- Taking a deliverable interrupt enters its event, and its source no longer requests it. -/
theorem takeInterrupt_deliverable {s : State} {i : Interrupt} (h : s.deliverable i) (n : Nat) :
    ∃ u e, s.takes i u e ∧
      takeInterrupt i { s with draws := n } = enterEvent e { u with draws := n } := by
  cases i with
  | parity =>
    obtain ⟨p, later, hp⟩ := List.exists_cons_of_ne_nil h
    refine ⟨_, _, ⟨p, later, hp, rfl, rfl⟩, ?_⟩
    simp only [takeInterrupt, hp]
    rfl
  | external =>
    obtain ⟨-, pre, b, info, post, hb⟩ := h
    refine ⟨_, _, ⟨pre, b, info, post, hb, rfl, rfl⟩, ?_⟩
    simp only [takeInterrupt, ackInterrupt_of (hb.withDraws n)]
    rfl
  | powerFail | switch0 | timer1 | timer2 => exact ⟨_, _, ⟨rfl, rfl⟩, rfl⟩

/-- A source that no longer requests leaves the CCB as it is. -/
theorem State.takes.vectorAt {s u : State} {i : Interrupt} {e : Event} (h : s.takes i u e)
    {off v : Word} (hv : s.vectorAt off v) (n : Nat) :
    ({ u with draws := n } : State).vectorAt off v := by
  obtain ⟨hcalm, hbase, hfits, hword, heven⟩ := hv
  cases i with
  | parity =>
    obtain ⟨p, later, -, rfl, -⟩ := h
    exact ⟨hcalm, hbase, hfits, hword, heven⟩
  | external =>
    obtain ⟨pre, b, info, post, -, rfl, -⟩ := h
    exact ⟨hcalm, hbase, hfits, hword, heven⟩
  | powerFail | switch0 | timer1 | timer2 =>
    obtain ⟨rfl, -⟩ := h
    exact ⟨hcalm, hbase, hfits, hword, heven⟩

section Boundary

variable {s : State} (ha : s.arrivals = []) (hc : s.calm) (hcounts : s.wakeable → s.countsReadable)
include ha hc hcounts

/-- A step takes one of the deliverable interrupts. -/
theorem step_deliverable (h : ∃ i, s.deliverable i) :
    ∃ i u e n, s.deliverable i ∧ s.takes i u e ∧ step s = enterEvent e { u with draws := n } := by
  obtain ⟨is, hmem, hpending⟩ := pendingInterrupt_calm hc hcounts
  obtain ⟨n, hstate, hpick⟩ := pick_spec is s
  have hstep : step s = afterBoundary s := step_of_no_arrivals ha
  cases hi : (pick is s).1 with
  | none =>
    rw [hi] at hpick
    obtain ⟨i, hi⟩ := h
    exact absurd ((hmem i).2 hi) (hpick ▸ List.not_mem_nil)
  | some i =>
    rw [hi] at hpick
    have hdeliverable : s.deliverable i := (hmem i).1 hpick
    obtain ⟨u, e, htakes, htake⟩ := takeInterrupt_deliverable hdeliverable n
    refine ⟨i, u, e, n, hdeliverable, htakes, hstep.trans ?_⟩
    simp only [afterBoundary, hpending, Res.out_ok, hi, hstate]
    exact htake

/-- With none deliverable a step runs the next instruction, or nothing while paused. -/
theorem step_undeliverable (h : ∀ i, ¬ s.deliverable i) :
    step s = if s.paused = true then .next s else runInstruction s := by
  obtain ⟨is, hmem, hpending⟩ := pendingInterrupt_calm hc hcounts
  have hnone : is = [] := List.eq_nil_iff_forall_not_mem.2 fun i hi => h i ((hmem i).1 hi)
  subst hnone
  simp only [step_of_no_arrivals ha, afterBoundary, hpending, pick, Res.out_ok]

end Boundary

/-! ### A fetch that fails -/

section Failing

variable {s : State} (hm : s.mode = .kernel) (hd : s.dmaTurns = []) (hcode : s.staleCode = [])
  (hpc : s.pc.toNat % 2 = 0) (hf : s.pc.toNat + 2 ≤ Config.memSize)
  (hbad : s.pc.toNat / 4 ∈ s.badWords)
include hm hd hcode hpc hf hbad

/-- The first halfword of an instruction, in a word that shows a double-bit error. -/
theorem fetchHalf_failing (draw : Nat) :
    fetchHalf draw s.pc s = .ok (s.mem.bytesAt s.pc.toNat 2, true) { s with
      badWords := s.badWords.filter (· ≠ s.pc.toNat / 4)
      parityPending := s.parityPending ++ [{ fetch := true, addr := s.pc }] } := by
  have hword : s.pc.toNat / 4 = (s.pc.toNat + 2 - 1) / 4 := by omega
  have hbytes : s.cachedBytes draw .code s.pc.toNat 2 = s.mem.bytesAt s.pc.toNat 2 :=
    cachedBytes_of (sp := .code) hcode draw _ _
  simp only [fetchHalf, translate, hm, Res.bind_ok, (realExists_iff _ _).2 hf, if_true, busRead,
    dmaTurn_of hd, hbytes, readFails_word hword, hbad, decide_true, lineFilled_code,
    parityChecked_word _ hword]

/-- The instruction does not run; its opcode still gives its length (log entry 12). -/
theorem runInstruction_failing :
    runInstruction s = .next { s with
      pc := s.pc + BitVec.ofNat 32 (instrLength (s.mem.read s.pc.toNat))
      badWords := s.badWords.filter (· ≠ s.pc.toNat / 4)
      parityPending := s.parityPending ++ [{ fetch := true, addr := s.pc }] } := by
  have hstamp : s.stamped .code = s := stamped_of hd hcode
  have hodd : oddAddress s.pc = false := (oddAddress_eq_false _).2 hpc
  simp only [runInstruction, fetch, hodd, Bool.false_eq_true, if_false, hstamp,
    fetchHalf_failing hm hd hcode hpc hf hbad, Res.bind_ok, if_true, Res.out_ok]
  rfl

end Failing

/-- The length of an instruction as a word (30_encoding.md R131). -/
theorem ofNat_instrLength (op : Byte) :
    BitVec.ofNat 32 (instrLength op) =
      if op.getMsbD 0 = false then 2 else if op.getMsbD 3 = false then 4 else 6 := by
  revert op
  decide

/-! ### The obligations -/

/-- Settles O56: what may be taken is what is deliverable, and a failing fetch only says how long
its instruction is. -/
theorem interruptsTaken : Obligations.InterruptsTaken := by
  refine ⟨fun s ha hc hcounts => ⟨fun h => ?taken, step_undeliverable ha hc hcounts⟩,
    fun s hm hd hcode hpc hf hbad => ?failing⟩
  case taken =>
    obtain ⟨i, u, e, n, hi, htakes, hstep⟩ := step_deliverable ha hc hcounts h
    refine ⟨i, u, e, n, hi, htakes, hstep, fun v hv => ?_⟩
    rw [hstep]
    exact enterEvent_entered (htakes.vectorAt hv n)
  case failing =>
    intro op
    rw [runInstruction_failing hm hd hcode hpc hf hbad, ofNat_instrLength]

/-- Settles O57: nothing is deliverable, so the boundary leaves the pause. -/
theorem pausedIdles : Obligations.PausedIdles := by
  intro s hp ha hc hfail hswitch hparity hboards hcounts
  have hreadable : s.countsReadable := hcounts.imp_right fun ⟨h4, hf, _⟩ => ⟨h4, hf⟩
  have hpositive (off : Nat) (hoff : off = 0x440 ∨ off = 0x444) : ¬ s.countNegative off := by
    rintro ⟨heven, hmsb⟩
    rcases hcounts with hodd | ⟨-, -, h1, h2⟩
    · omega
    · rcases hoff with rfl | rfl
      · exact Bool.false_ne_true (h1.symm.trans hmsb)
      · exact Bool.false_ne_true (h2.symm.trans hmsb)
  have hnone (i : Interrupt) : ¬ s.deliverable i := by
    cases i with
    | parity => exact fun h => h hparity
    | powerFail => exact ne_true_of_eq_false hfail
    | switch0 => exact ne_true_of_eq_false hswitch
    | external =>
      rintro ⟨-, pre, b, info, post, hb⟩
      rcases hboards with hmask | hquiet
      · exact Bool.false_ne_true (hb.mask2.symm.trans hmask)
      · have hrequest := hquiet b (hb.place ▸ List.mem_append_right _ List.mem_cons_self)
        exact Option.some_ne_none info (hb.request.symm.trans hrequest)
    | timer1 => exact fun ⟨_, h⟩ => hpositive _ (.inl rfl) h
    | timer2 => exact fun ⟨_, _, h⟩ => hpositive _ (.inr rfl) h
  exact (step_undeliverable ha hc (fun _ => hreadable) hnone).trans (if_pos hp)

/-- Settles O5: the boundary, the choice of no interrupt, the fetch and the decoder lead to the
instruction, one after the other. -/
theorem stepRunsDecoded : Obligations.StepRunsDecoded := by
  intro s t u v bytes rest i hboundary hpending hp hfetch hdecode
  calc step s = afterBoundary t := by rw [step, hboundary, Res.out_ok]
    _ = runInstruction u := by
      simp only [afterBoundary, hpending, Res.out_ok, hp, Bool.false_eq_true, if_false]
    _ = exec i v := by simp only [runInstruction, hfetch, Res.out_ok, hdecode]

end Sys2Proof.Machine

/-! SUPPORT. The millisecond tick: five words that do not overlap, stored one after the other, each
counted from what memory held before (60_exceptions.md R470; 10_state.md R45). -/

namespace Sys2Proof.Machine

/-! ### Words stored one after the other -/

/-- Words that the microcode stores at real addresses, one after the other. -/
def State.storeWords (s : State) : List (Nat × Word) → State
  | [] => s
  | p :: ps => (s.storeReal p.1 (wordBytes p.2)).storeWords ps

/-- Two words of memory have no byte in common. -/
abbrev wordsApart (a b : Nat) : Prop := a + 4 ≤ b ∨ b + 4 ≤ a

section StoreWords

variable {s : State}

theorem State.storeWords_concat (ps : List (Nat × Word)) (a : Nat) (w : Word) :
    (s.storeWords ps).storeReal a (wordBytes w) = s.storeWords (ps ++ [(a, w)]) := by
  induction ps generalizing s with
  | nil => rfl
  | cons p ps ih => exact ih

theorem State.storeWords_frame (ps : List (Nat × Word)) :
    { s.storeWords ps with
      mem := s.mem, staleCode := s.staleCode, staleData := s.staleData } = s := by
  induction ps generalizing s with
  | nil => rfl
  | cons p ps ih =>
    exact (congrArg (fun u : State =>
      { u with mem := s.mem, staleCode := s.staleCode, staleData := s.staleData }) ih :)

theorem State.storeWords_calm (hc : s.calm) (ps : List (Nat × Word)) : (s.storeWords ps).calm := by
  induction ps generalizing s with
  | nil => exact hc
  | cons p ps ih => exact ih (s := s.storeReal p.1 (wordBytes p.2)) hc

variable (hw : s.mem.wf)
include hw

/-- A byte outside the words stored. -/
theorem State.storeWords_read {ps : List (Nat × Word)} {a : Nat}
    (h : ∀ p ∈ ps, a < p.1 ∨ p.1 + 4 ≤ a) : (s.storeWords ps).mem.read a = s.mem.read a := by
  induction ps generalizing s with
  | nil => rfl
  | cons p ps ih =>
    obtain ⟨hp, hps⟩ := List.forall_mem_cons.1 h
    exact (ih (Memory.wf_writeBytes hw _ _) hps).trans (Memory.read_writeBytes_outside hw hp)

/-- A word apart from those stored. -/
theorem State.storeWords_readWord_apart {ps : List (Nat × Word)} {a : Nat}
    (h : ∀ p ∈ ps, wordsApart a p.1) :
    (s.storeWords ps).mem.readWord a = s.mem.readWord a := by
  have same (k : Nat) (hk : k < 4) : (s.storeWords ps).mem.read (a + k) = s.mem.read (a + k) :=
    State.storeWords_read hw fun p hp => by have := h p hp; omega
  have first := same 0 (by decide)
  simp only [Nat.add_zero] at first
  simp only [Memory.readWord, first, same 1 (by decide), same 2 (by decide), same 3 (by decide)]

/-- Where no two of the words stored overlap, each reads as it was stored. -/
theorem State.storeWords_readWord {ps : List (Nat × Word)}
    (h : ps.Pairwise fun p q => wordsApart p.1 q.1) {p : Nat × Word} (hp : p ∈ ps) :
    (s.storeWords ps).mem.readWord p.1 = p.2 := by
  induction ps generalizing s with
  | nil => cases hp
  | cons q ps ih =>
    obtain ⟨hq, hps⟩ := List.pairwise_cons.1 h
    have hw' : (s.storeReal q.1 (wordBytes q.2)).mem.wf := Memory.wf_writeBytes hw _ _
    rcases List.mem_cons.1 hp with rfl | hp
    · exact (State.storeWords_readWord_apart hw' hq).trans (Memory.readWord_writeBytes hw p.1 p.2)
    · exact ih hw' hps hp

end StoreWords

/-! ### The tick -/

section Tick

variable {s : State} (hc : s.calm)
include hc

/-- The microcode reads a word apart from those stored before. -/
theorem microRead_storeWords (hw : s.mem.wf) {ps : List (Nat × Word)} {a : Word} {n : Nat}
    (ha : a.toNat = n) (hf : n + 4 ≤ Config.memSize) (h : ∀ p ∈ ps, wordsApart n p.1) :
    microRead a (s.storeWords ps) = .ok (s.mem.readWord n) (s.storeWords ps) := by
  subst ha
  rw [microRead_of (State.storeWords_calm hc ps) hf, State.storeWords_readWord_apart hw h]

/-- The microcode stores one more word. -/
theorem microWrite_storeWords {ps : List (Nat × Word)} {a w : Word} {n : Nat} (ha : a.toNat = n)
    (hf : n + 4 ≤ Config.memSize) :
    microWrite a w (s.storeWords ps) = .ok () (s.storeWords (ps ++ [(n, w)])) := by
  subst ha
  rw [microWrite_of (State.storeWords_calm hc ps).1 hf, State.storeWords_concat]

/-- The microcode counts in a word apart from those stored before. -/
theorem microAdd_storeWords (hw : s.mem.wf) {ps : List (Nat × Word)} {a d : Word} {n : Nat}
    (ha : a.toNat = n) (hf : n + 4 ≤ Config.memSize) (h : ∀ p ∈ ps, wordsApart n p.1) :
    microAdd a d (s.storeWords ps) =
      .ok (s.mem.readWord n + d) (s.storeWords (ps ++ [(n, s.mem.readWord n + d)])) := by
  simp only [microAdd, microRead_storeWords hc hw ha hf h, Res.bind_ok,
    microWrite_storeWords hc ha hf]

end Tick

/-- What a tick counts up at address `p` and in the CCB at address `c`, and what it counts down
there: the words it stores, in their order (60_exceptions.md R470). -/
def Memory.tickWords (m : Memory) (p c : Nat) : List (Nat × Word) :=
  let time := m.readWord (c + 0x448) ++ m.readWord (c + 0x44C) + 1000000#64
  [(p, m.readWord p + 1), (c + 0x440, m.readWord (c + 0x440) - 1),
   (c + 0x444, m.readWord (c + 0x444) - 1), (c + 0x448, hiWord time), (c + 0x44C, loWord time)]

theorem Memory.tickWords_apart (m : Memory) {p c : Nat} (h : p + 4 ≤ c + 0x440 ∨ c + 0x450 ≤ p) :
    (m.tickWords p c).Pairwise fun u v => wordsApart u.1 v.1 := by
  simp only [Memory.tickWords, List.pairwise_cons, List.forall_mem_cons, List.not_mem_nil,
    false_imp_iff, implies_true, List.Pairwise.nil, and_true]
  omega

section TickWords

variable {s : State} (hw : s.mem.wf) {p c : Nat}
include hw

/-- Each count, and the time of day, after the words of a tick. -/
theorem storeWords_tickWords (h : p + 4 ≤ c + 0x440 ∨ c + 0x450 ≤ p) :
    let m := (s.storeWords (s.mem.tickWords p c)).mem
    m.readWord p = s.mem.readWord p + 1 ∧
      m.readWord (c + 0x440) = s.mem.readWord (c + 0x440) - 1 ∧
      m.readWord (c + 0x444) = s.mem.readWord (c + 0x444) - 1 ∧
      m.readWord (c + 0x448) ++ m.readWord (c + 0x44C) =
        s.mem.readWord (c + 0x448) ++ s.mem.readWord (c + 0x44C) + 1000000#64 := by
  intro m
  have hword : ∀ q ∈ s.mem.tickWords p c, m.readWord q.1 = q.2 := fun q =>
    State.storeWords_readWord hw (s.mem.tickWords_apart h)
  simp only [Memory.tickWords, List.forall_mem_cons] at hword
  obtain ⟨hclock, hcount1, hcount2, hhi, hlo, -⟩ := hword
  exact ⟨hclock, hcount1, hcount2, by rw [hhi, hlo, hiWord_append_loWord]⟩

theorem storeWords_tickWords_outside {a : Nat} (hp : ¬ (p ≤ a ∧ a < p + 4))
    (hc : ¬ (c + 0x440 ≤ a ∧ a < c + 0x450)) :
    (s.storeWords (s.mem.tickWords p c)).mem.read a = s.mem.read a := by
  refine State.storeWords_read hw ?_
  simp only [Memory.tickWords, List.forall_mem_cons, List.not_mem_nil, false_imp_iff,
    implies_true, and_true]
  omega

end TickWords

/-- The first word that a tick counts up: the clock of the current process, or the idle count
(60_exceptions.md R470). -/
def State.clockAddress (s : State) : Nat :=
  if s.sr 14 = 1 then (s.sr 11).toNat + 0x43C else (s.sr 14).toNat + 0x50

section TickRuns

variable {s : State} (hc : s.calm) (hw : s.mem.wf)
  (hp : s.clockAddress % 4 = 0) (hpf : s.clockAddress + 4 ≤ Config.memSize)
include hc hw hp hpf

/-- The first count of a tick, with or without a current process. -/
theorem tick_clock_of :
    (if s.sr 14 = 1#32 then microAdd (s.sr 11 + ccbIdleCount) 1 s
      else (pcbBase s).bind fun p s => microAdd (p + pcbClock) 1 s) =
      .ok (s.mem.readWord s.clockAddress + 1)
        (s.storeWords [(s.clockAddress, s.mem.readWord s.clockAddress + 1)]) := by
  have count (a : Word) (ha : a.toNat = s.clockAddress) :=
    microAdd_storeWords hc hw (ps := []) (d := 1) ha hpf (List.forall_mem_nil _)
  by_cases h1 : s.sr 14 = 1#32
  · have hidle : (s.sr 11).toNat + 0x43C = s.clockAddress := (if_pos h1).symm
    rw [if_pos h1]
    exact count _ ((toNat_add_of_fits (k := ccbIdleCount) (n := 4) (hidle ▸ hpf)).trans hidle)
  · have hclock : (s.sr 14).toNat + 0x50 = s.clockAddress := (if_neg h1).symm
    have hpcb : pcbBase s = .ok (s.sr 14) s := if_pos ((aligned_iff _ _).2 (by omega))
    rw [if_neg h1, hpcb]
    exact count _ ((toNat_add_of_fits (k := pcbClock) (n := 4) (hclock ▸ hpf)).trans hclock)

/-- A tick stores its words, each counted from what memory held before. -/
theorem tick_of (h4 : (s.sr 11).toNat % 4 = 0)
    (hf : (s.sr 11).toNat + 0x450 ≤ Config.memSize)
    (hapart : s.clockAddress + 4 ≤ (s.sr 11).toNat + 0x440 ∨
      (s.sr 11).toNat + 0x450 ≤ s.clockAddress) :
    tick s = .ok () (s.storeWords (s.mem.tickWords s.clockAddress (s.sr 11).toNat)) := by
  have hodd : oddAddress (s.sr 11) = false := by rw [oddAddress_eq_false]; omega
  have haddr (off : Word) (h : off.toNat + 4 ≤ 0x450) :
      (s.sr 11 + off).toNat = (s.sr 11).toNat + off.toNat :=
    toNat_add_of_fits (n := 4) (by omega)
  have hcount1 : (s.sr 11 + ccbTimer1Count).toNat = (s.sr 11).toNat + 0x440 :=
    haddr ccbTimer1Count (by decide)
  have hcount2 : (s.sr 11 + ccbTimer2Count).toNat = (s.sr 11).toNat + 0x444 :=
    haddr ccbTimer2Count (by decide)
  have hhi : (s.sr 11 + ccbTimeOfDay).toNat = (s.sr 11).toNat + 0x448 :=
    haddr ccbTimeOfDay (by decide)
  have hlo : (s.sr 11 + ccbTimeOfDay + 4).toNat = (s.sr 11).toNat + 0x44C :=
    (congrArg BitVec.toNat (BitVec.add_assoc ..)).trans (haddr (ccbTimeOfDay + 4) (by decide))
  rw [tick, if_neg (ne_true_of_eq_false hodd), ccbBase_aligned h4, Res.bind_ok,
    tick_clock_of hc hw hp hpf, Res.bind_ok]
  generalize s.clockAddress = p at *
  generalize (s.sr 11).toNat = c at *
  rw [microAdd_storeWords hc hw hcount1 (by omega) ?_, Res.bind_ok,
    microAdd_storeWords hc hw hcount2 (by omega) ?_, Res.bind_ok,
    microRead_storeWords hc hw hhi (by omega) ?_, Res.bind_ok,
    microRead_storeWords hc hw hlo (by omega) ?_, Res.bind_ok,
    microWrite_storeWords hc hhi (by omega), Res.bind_ok,
    microWrite_storeWords hc hlo (by omega), Res.bind_ok]
  · simp only [Memory.tickWords, sub_eq_add_neg]
    rfl
  all_goals
    simp only [List.cons_append, List.nil_append, List.forall_mem_cons, List.not_mem_nil,
      false_imp_iff, implies_true, and_true]
    omega

end TickRuns

end Sys2Proof.Machine

namespace Sys2Proof.Laws

open Sys2Proof.Machine

/-- Settles O58: the words that a tick stores do not overlap, so each reads as it was stored. -/
theorem tick : Obligations.Tick := by
  intro s hc hw
  refine ⟨fun h => if_pos ((oddAddress_iff _).2 h), fun h4 hf hp hpf hapart => ?_⟩
  obtain ⟨hclock, hcount1, hcount2, htime⟩ := storeWords_tickWords hw hapart
  exact ⟨_, tick_of hc hw hp hpf h4 hf hapart, hclock, hcount1, hcount2, htime,
    fun a hout hccb => storeWords_tickWords_outside hw hout hccb, State.storeWords_frame _⟩

end Sys2Proof.Laws
